-- ==== Sys2Proof/Word.lean ====
section
/-! DEFINITION. The words of the section link: the byte and the cycle number. -/

namespace Sys2Proof

/-- A byte of a frame (12.1). -/
abbrev Byte := BitVec 8

/-- A cycle number, 0 to 65535, which wraps to 0 after 65535 (00_scope, Terms). -/
abbrev CycleNo := BitVec 16

end Sys2Proof
end

