-- ==== Sys2Proof/Config.lean ====
section
/-! DEFINITION. What the part fixes (its capacities and identification, R173) and the free values: constants
with no body, which no proof can evaluate. -/

namespace Sys2Proof.Config

/-- Station entries (R173). -/
abbrev stations : Nat := 32

/-- Groups (R173). -/
abbrev groups : Nat := 8

/-- Stage records (R173). -/
abbrev stages : Nat := 128

/-- Probes (R173). -/
abbrev probes : Nat := 2

/-- Event Queue entries (R173, R174). -/
abbrev eventCapacity : Nat := 64

/-- Drive-port transmit queue (R6). -/
abbrev driveCapacity : Nat := 8

/-- Line-port forward queue (R7). -/
abbrev forwardCapacity : Nat := 16

/-- Waiting Reply frames (R8, R169). -/
abbrev replyCapacity : Nat := 4

/-- Frames of a return stack (R129). -/
abbrev stackDepth : Nat := 3

/-- The part code IDR reports (R173). -/
abbrev partCode : Nat := 618

/-- The revision IDR reports (R173). -/
abbrev revision : Nat := 1

/-- FREE VALUE (assumption log 3). Where the spec leaves the order of events that come together open (R15, R16,
R20, R42, R81, R144, R153, R178), the n-th choice the machine makes is this value, read modulo the number of events
that may come next. DESIGN CHOICE of form; nothing constrains the value. -/
opaque freeChoice : Nat → Nat

/-- FREE VALUE (assumption log 15). The crossings field of a STEPPED result record in which no sub-window is chosen:
R148 makes the other run-level fields absent and gives no value for this one. -/
opaque freeCrossings : Nat → BitVec 16

/-- FREE VALUE (assumption log 14). What a Reply field holds when its value does not fit the width R186 gives the
field: R186 gives no rule for it. -/
opaque unrepresentable : Int → BitVec 32

end Sys2Proof.Config
end

