-- ==== Sys2Proof/Syntax.lean ====
section
/-! DEFINITION. The frames of the section link (chapter 12) and the commands: one constructor of `Instr` for each
row of spec/opcode_table.json. -/

namespace Sys2Proof

/-- The two ports of the bridge (00_scope, "Position in the link"). -/
inductive Port where
  | line | drive
  deriving DecidableEq, Repr

/-- A frame that passes its check: destination, source, kind and body (12.1). Its length field and its check are
determined by these (R185), so a frame is held without them; `Frame.bytes` (Decode.lean) writes them. -/
structure Frame where
  dst : Byte
  src : Byte
  kind : Byte
  body : List Byte
  deriving DecidableEq, Repr

/-- One slot of a Cycle Frame (12.2). -/
structure Slot where
  addr : Byte
  control : Byte
  speed : BitVec 24
  torqueLimit : BitVec 16
  flags : Byte
  deriving DecidableEq, Repr

/-- The commands. Each constructor is a row of spec/opcode_table.json, with the row's operands; the docstring names
the row and its rule. A service row carries the source address, the tag and the operand bytes of its Request (12.4). -/
inductive Instr where
  /-- CYCLE_FRAME_ARRIVAL (R15). -/
  | cycleFrameArrival (dst src : Byte) (number : CycleNo) (slots : List Slot)
  /-- FEEDBACK_FRAME_ARRIVAL (R22). -/
  | feedbackFrameArrival (dst src : Byte) (number : CycleNo) (speed : BitVec 24) (torque : BitVec 16)
      (status tag : Byte)
  /-- FRAME_FORWARDED (R2, R3). -/
  | frameForwarded (port : Port) (frame : Frame)
  /-- FRAME_ERROR (R1). -/
  | frameError (port : Port) (received : List Byte)
  /-- FRAME_DISCARDED_RESET_PENDING (R180). -/
  | frameDiscardedResetPending (port : Port) (received : List Byte)
  /-- REQUEST_DISCARDED (R169). -/
  | requestDiscarded (src : Byte) (body : List Byte)
  /-- UNKNOWN_SERVICE (R170). -/
  | unknownService (src : Byte) (body : List Byte)
  /-- DRIVE_PORT_TRANSMISSION_END (R6). -/
  | drivePortTransmissionEnd
  /-- LINE_PORT_TRANSMISSION_END (R9). -/
  | linePortTransmissionEnd
  /-- CYCLE_LOSS_EXPIRY (R13). -/
  | cycleLossExpiry
  /-- CHECK_DEADLINE_EXPIRY (R159). -/
  | checkDeadlineExpiry
  /-- RELEASE_FALL (R162). -/
  | releaseFall
  /-- RELEASE_RISE (R163). -/
  | releaseRise
  /-- PIN_RESET_ASSERT (R183). -/
  | pinResetAssert
  /-- PIN_RESET_RELEASE (R183). -/
  | pinResetRelease
  /-- STW, station write (R30). -/
  | stw (src tag : Byte) (operands : List Byte)
  /-- STR, station read (R31). -/
  | str (src tag : Byte) (operands : List Byte)
  /-- STC, station clear (R32). -/
  | stc (src tag : Byte) (operands : List Byte)
  /-- CNR, conditions read (R44). -/
  | cnr (src tag : Byte) (operands : List Byte)
  /-- GRW, group write (R69). -/
  | grw (src tag : Byte) (operands : List Byte)
  /-- GRR, group read (R70). -/
  | grr (src tag : Byte) (operands : List Byte)
  /-- OMW, override mask write (R83). -/
  | omw (src tag : Byte) (operands : List Byte)
  /-- OMR, override mask read (R85). -/
  | omr (src tag : Byte) (operands : List Byte)
  /-- SGW, stage write (R97). -/
  | sgw (src tag : Byte) (operands : List Byte)
  /-- SGR, stage read (R98). -/
  | sgr (src tag : Byte) (operands : List Byte)
  /-- PLS, plan start (R102). -/
  | pls (src tag : Byte) (operands : List Byte)
  /-- PLH, plan hold (R116). -/
  | plh (src tag : Byte) (operands : List Byte)
  /-- PLR, plan resume (R117). -/
  | plr (src tag : Byte) (operands : List Byte)
  /-- PLC, plan confirm (R118). -/
  | plc (src tag : Byte) (operands : List Byte)
  /-- PLA, plan abort (R119). -/
  | pla (src tag : Byte) (operands : List Byte)
  /-- GST, group state read (R127). -/
  | gst (src tag : Byte) (operands : List Byte)
  /-- PBS, probe start (R142). -/
  | pbs (src tag : Byte) (operands : List Byte)
  /-- PBC, probe cancel (R150). -/
  | pbc (src tag : Byte) (operands : List Byte)
  /-- PBR, probe read (R152). -/
  | pbr (src tag : Byte) (operands : List Byte)
  /-- CKS, check start (R157). -/
  | cks (src tag : Byte) (operands : List Byte)
  /-- CKA, check answer (R158). -/
  | cka (src tag : Byte) (operands : List Byte)
  /-- CKX, check stop (R161). -/
  | ckx (src tag : Byte) (operands : List Byte)
  /-- TPC, trip clear (R166). -/
  | tpc (src tag : Byte) (operands : List Byte)
  /-- EVR, events read (R177). -/
  | evr (src tag : Byte) (operands : List Byte)
  /-- LKW, link settings write (R172). -/
  | lkw (src tag : Byte) (operands : List Byte)
  /-- IDR, identification read (R173). -/
  | idr (src tag : Byte) (operands : List Byte)
  /-- BRS, bridge reset (R180). -/
  | brs (src tag : Byte) (operands : List Byte)
  deriving DecidableEq, Repr

end Sys2Proof
end

