-- ==== Sys2Proof/Decode.lean ====
section
/-! DEFINITION. Bytes and frames: the byte order, the check (R185), the judging of a received frame (R1), the layouts
of Cycle and Feedback Frames (12.2, 12.3), and which command of the table an arrival is (R2, R3, R169, R170, R180).
No row of spec/opcode_table.json gives bits, so `decodeTableWord` reads no command. -/

namespace Sys2Proof

/-- A 16-bit number, most significant byte first (chapter 12). -/
def be16 (v : BitVec 16) : List Byte := [v.extractLsb' 8 8, v.extractLsb' 0 8]

/-- A 24-bit number, most significant byte first (chapter 12). -/
def be24 (v : BitVec 24) : List Byte := [v.extractLsb' 16 8, v.extractLsb' 8 8, v.extractLsb' 0 8]

/-- A 32-bit number, most significant byte first (chapter 12). -/
def be32 (v : BitVec 32) : List Byte :=
  [v.extractLsb' 24 8, v.extractLsb' 16 8, v.extractLsb' 8 8, v.extractLsb' 0 8]

/-- One bit of the CRC-16 with polynomial 0x1021 (R185). -/
def crcBit (c : BitVec 16) : BitVec 16 := if c.msb then (c <<< 1) ^^^ 0x1021#16 else c <<< 1

/-- One byte of the CRC-16, most significant bit first (R185). -/
def crcByte (c : BitVec 16) (b : Byte) : BitVec 16 :=
  crcBit (crcBit (crcBit (crcBit (crcBit (crcBit (crcBit (crcBit (c ^^^ (b.zeroExtend 16 <<< 8)))))))))

/-- The CRC-16 of R185: polynomial 0x1021, initial value 0xFFFF, not inverted. -/
def crc16 (bytes : List Byte) : BitVec 16 := bytes.foldl crcByte 0xFFFF#16

/-- The five header bytes of a frame (12.1). -/
def Frame.header (f : Frame) : List Byte := [f.dst, f.src, f.kind] ++ be16 (BitVec.ofNat 16 f.body.length)

/-- The bytes of a frame as the link carries them: header, body and check (12.1, R185). -/
def Frame.bytes (f : Frame) : List Byte := f.header ++ f.body ++ be16 (crc16 (f.header ++ f.body))

/-- Kind codes (12.1). -/
abbrev kindCycle : Byte := 1#8
abbrev kindFeedback : Byte := 2#8
abbrev kindRequest : Byte := 3#8
abbrev kindReply : Byte := 4#8
abbrev kindStatus : Byte := 5#8

/-- The last two conditions of R1: the slot count and body length of a Cycle Frame, the body length of a Feedback
Frame. -/
def Frame.bodyPasses (f : Frame) : Bool :=
  if f.kind = kindCycle then
    match f.body with
    | _ :: _ :: count :: slots => decide (1 ≤ count.toNat ∧ count.toNat ≤ 48 ∧ slots.length = 8 * count.toNat)
    | _ => false
  else if f.kind = kindFeedback then decide (f.body.length = 9)
  else true

/-- The judging of a received run of bytes (R1): the frame it is when it passes its check, none when it fails. -/
def Frame.ofBytes (received : List Byte) : Option Frame :=
  match received with
  | dst :: src :: kind :: l1 :: l0 :: rest =>
    let n := 256 * l1.toNat + l0.toNat
    let f : Frame := ⟨dst, src, kind, rest.take n⟩
    if rest.length = n + 2 ∧ rest.drop n = be16 (crc16 ([dst, src, kind, l1, l0] ++ rest.take n)) ∧ f.bodyPasses = true
    then some f
    else none
  | _ => none

/-- The eight bytes of a slot (12.2). -/
def Slot.bytes (x : Slot) : List Byte :=
  [x.addr, x.control] ++ be24 x.speed ++ be16 x.torqueLimit ++ [x.flags]

/-- The slots of a Cycle Frame body, after its cycle number and slot count (12.2). -/
def slotsOfBytes : List Byte → List Slot
  | a :: c :: s2 :: s1 :: s0 :: t1 :: t0 :: f :: rest =>
    ⟨a, c, s2 ++ s1 ++ s0, t1 ++ t0, f⟩ :: slotsOfBytes rest
  | _ => []

/-- A Cycle Frame (12.2). -/
def cycleFrame (dst src : Byte) (number : CycleNo) (slots : List Slot) : Frame :=
  ⟨dst, src, kindCycle, be16 number ++ [BitVec.ofNat 8 slots.length] ++ slots.flatMap Slot.bytes⟩

/-- A Feedback Frame (12.3). -/
def feedbackFrame (dst src : Byte) (number : CycleNo) (speed : BitVec 24) (torque : BitVec 16)
    (status tag : Byte) : Frame :=
  ⟨dst, src, kindFeedback, be16 number ++ be24 speed ++ be16 torque ++ [status, tag]⟩

/-- A Request frame to the bridge (12.4). -/
def requestFrame (address src : Byte) (body : List Byte) : Frame := ⟨address, src, kindRequest, body⟩

/-- The command a Request's service code names (the table of service codes, 12.4); none for any other code (R170). -/
def serviceCommand (code : Nat) (src tag : Byte) (operands : List Byte) : Option Instr :=
  match code with
  | 1 => some (.stw src tag operands)
  | 2 => some (.str src tag operands)
  | 3 => some (.stc src tag operands)
  | 4 => some (.grw src tag operands)
  | 5 => some (.grr src tag operands)
  | 6 => some (.sgw src tag operands)
  | 7 => some (.sgr src tag operands)
  | 8 => some (.omw src tag operands)
  | 9 => some (.omr src tag operands)
  | 16 => some (.pls src tag operands)
  | 17 => some (.plh src tag operands)
  | 18 => some (.plr src tag operands)
  | 19 => some (.plc src tag operands)
  | 20 => some (.pla src tag operands)
  | 21 => some (.gst src tag operands)
  | 24 => some (.pbs src tag operands)
  | 25 => some (.pbc src tag operands)
  | 26 => some (.pbr src tag operands)
  | 32 => some (.cks src tag operands)
  | 33 => some (.cka src tag operands)
  | 34 => some (.ckx src tag operands)
  | 40 => some (.cnr src tag operands)
  | 41 => some (.evr src tag operands)
  | 48 => some (.lkw src tag operands)
  | 49 => some (.tpc src tag operands)
  | 50 => some (.brs src tag operands)
  | 51 => some (.idr src tag operands)
  | _ => none

/-- The body of a Request that has a service code of the catalogue (12.4, R170): the command it asks for. -/
def knownRequest (src : Byte) (body : List Byte) : Option Instr :=
  match body with
  | tag :: code :: operands => serviceCommand code.toNat src tag operands
  | _ => none

/-- A Request to the bridge at the moment it is offered to the Service Responder, with `waiting` Replies in the local
queue (R169, R170). -/
def requestCommand (waiting : Nat) (src : Byte) (body : List Byte) : Instr :=
  if Config.replyCapacity ≤ waiting then .requestDiscarded src body
  else (knownRequest src body).getD (.unknownService src body)

/-- A frame that passes its check on the line port (R2). -/
def lineCommand (address : Byte) (waiting : Nat) (f : Frame) : Instr :=
  if f.kind = kindCycle then
    match f.body with
    | n1 :: n0 :: _ :: slots => .cycleFrameArrival f.dst f.src (n1 ++ n0) (slotsOfBytes slots)
    | _ => .frameForwarded .line f
  else if f.kind = kindRequest ∧ f.dst = address then requestCommand waiting f.src f.body
  else .frameForwarded .line f

/-- A frame that passes its check on the drive port (R3). -/
def driveCommand (f : Frame) : Instr :=
  if f.kind = kindFeedback then
    match f.body with
    | [n1, n0, s2, s1, s0, t1, t0, status, tag] =>
      .feedbackFrameArrival f.dst f.src (n1 ++ n0) (s2 ++ s1 ++ s0) (t1 ++ t0) status tag
    | _ => .frameForwarded .drive f
  else .frameForwarded .drive f

/-- Which command the arrival of a run of bytes at a port is (R1, R2, R3, R169, R170, R180). `held` says that a bridge
reset is pending or the RESET input asserted, `waiting` how many Replies wait in the local queue. -/
def arrivalCommand (address : Byte) (held : Bool) (waiting : Nat) (port : Port) (received : List Byte) : Instr :=
  if held then .frameDiscardedResetPending port received
  else
    match Frame.ofBytes received, port with
    | none, p => .frameError p received
    | some f, .line => lineCommand address waiting f
    | some f, .drive => driveCommand f

/-- The service code of a service command (12.4). -/
def Instr.request (i : Instr) : Option (Byte × List Byte) :=
  match i with
  | .stw src tag ops => some (src, tag :: 1#8 :: ops)
  | .str src tag ops => some (src, tag :: 2#8 :: ops)
  | .stc src tag ops => some (src, tag :: 3#8 :: ops)
  | .grw src tag ops => some (src, tag :: 4#8 :: ops)
  | .grr src tag ops => some (src, tag :: 5#8 :: ops)
  | .sgw src tag ops => some (src, tag :: 6#8 :: ops)
  | .sgr src tag ops => some (src, tag :: 7#8 :: ops)
  | .omw src tag ops => some (src, tag :: 8#8 :: ops)
  | .omr src tag ops => some (src, tag :: 9#8 :: ops)
  | .pls src tag ops => some (src, tag :: 16#8 :: ops)
  | .plh src tag ops => some (src, tag :: 17#8 :: ops)
  | .plr src tag ops => some (src, tag :: 18#8 :: ops)
  | .plc src tag ops => some (src, tag :: 19#8 :: ops)
  | .pla src tag ops => some (src, tag :: 20#8 :: ops)
  | .gst src tag ops => some (src, tag :: 21#8 :: ops)
  | .pbs src tag ops => some (src, tag :: 24#8 :: ops)
  | .pbc src tag ops => some (src, tag :: 25#8 :: ops)
  | .pbr src tag ops => some (src, tag :: 26#8 :: ops)
  | .cks src tag ops => some (src, tag :: 32#8 :: ops)
  | .cka src tag ops => some (src, tag :: 33#8 :: ops)
  | .ckx src tag ops => some (src, tag :: 34#8 :: ops)
  | .cnr src tag ops => some (src, tag :: 40#8 :: ops)
  | .evr src tag ops => some (src, tag :: 41#8 :: ops)
  | .lkw src tag ops => some (src, tag :: 48#8 :: ops)
  | .tpc src tag ops => some (src, tag :: 49#8 :: ops)
  | .brs src tag ops => some (src, tag :: 50#8 :: ops)
  | .idr src tag ops => some (src, tag :: 51#8 :: ops)
  | .unknownService src body => some (src, body)
  | .cycleFrameArrival _ _ _ _ | .feedbackFrameArrival _ _ _ _ _ _ _ | .frameForwarded _ _ | .frameError _ _
  | .frameDiscardedResetPending _ _ | .requestDiscarded _ _ | .drivePortTransmissionEnd | .linePortTransmissionEnd
  | .cycleLossExpiry | .checkDeadlineExpiry | .releaseFall | .releaseRise | .pinResetAssert | .pinResetRelease => none

/-- The port and the frame whose arrival a command is, for a bridge at `address` that takes frames and has room for a
Reply; none for a command that is not the arrival of a frame it acts on or forwards. -/
def Instr.arrival (address : Byte) (i : Instr) : Option (Port × Frame) :=
  match i with
  | .cycleFrameArrival dst src number slots => some (.line, cycleFrame dst src number slots)
  | .feedbackFrameArrival dst src number speed torque status tag =>
    some (.drive, feedbackFrame dst src number speed torque status tag)
  | .frameForwarded port f => some (port, f)
  | i => i.request.map fun r => (.line, requestFrame address r.1 r.2)

/-- The command a word of spec/opcode_table.json spells: no row of the table gives bits, so none. -/
def decodeTableWord (_nbits _w : Nat) : Option Instr := none

end Sys2Proof
end

