-- ==== Sys2Proof/Machine/State.lean ====
section
/-! DEFINITION. The state of the bridge, as plain data, and the state after reset. Each field names the rule of spec/
that gives it; INVENTORY.md lists them all. -/

namespace Sys2Proof.Machine

/-- No command of this part stops it: every row of the table has an effect in every state, so there is no fault. -/
inductive Fault where
  deriving DecidableEq, Repr

/-- The reasons for which the model turns a command away. -/
inductive Refusal where
  /-- Raised by `exec` for a command that has no meaning yet; no arm raises it. Safe. -/
  | notModelled (mnemonic : String)
  deriving DecidableEq, Repr

/-- A station entry's index, 0 to 31. -/
abbrev StationIx := Fin 32

/-- A group: G1 to G8 are 0 to 7; `GroupIx.number` gives the group's number. -/
abbrev GroupIx := Fin 8

/-- An address strap: open or tied low (12.7). -/
inductive Strap where
  | isOpen | tiedLow
  deriving DecidableEq, Repr

/-- The scope of a bridge reset (R180). -/
inductive Scope where
  | full | tablesKept
  deriving DecidableEq, Repr

/-! ## The Link Interface (chapter 1) -/

/-- A port flag: set or clear, and its carried mark (R10). -/
structure PortFlag where
  on : Bool
  marked : Bool
  deriving DecidableEq, Repr

/-- A frame of the line-port local queue (R8). The Reply to a taken BRS is told apart, since the reset takes effect at
the end of its transmission (R9, R180). -/
inductive LocalFrame where
  | status (f : Frame)
  | reply (f : Frame)
  | brsReply (f : Frame)
  deriving DecidableEq, Repr

/-- What the line-port transmitter is sending (R9). -/
inductive Sending where
  | forwarded (f : Frame)
  | own (f : LocalFrame)
  deriving DecidableEq, Repr

/-- The last-taken mark (R9): FORWARD or LOCAL. -/
inductive LastTaken where
  | forward | own
  deriving DecidableEq, Repr

/-- The Link Interface: the three queues, the two transmitters and the port flags (1.2, 1.3). A transmitter that holds
no frame is IDLE. -/
structure Link where
  driveQueue : List Frame
  driveTx : Option Frame
  forwardQueue : List Frame
  localQueue : List LocalFrame
  lineTx : Option Sending
  lastTaken : LastTaken
  frameErrorLine : PortFlag
  frameErrorDrive : PortFlag
  upCongestion : PortFlag
  downCongestion : PortFlag
  slip : PortFlag
  requestDiscarded : PortFlag
  deriving DecidableEq, Repr

/-! ## The Cycle Tracker (1.4) -/

/-- The sync state. -/
inductive Sync where
  | unsynced | synced
  deriving DecidableEq, Repr

/-- The cycle-loss timer (R13); RUNNING holds the microseconds it still has to run. -/
inductive CycleTimer where
  | stopped
  | running (left : Nat)
  | expired
  deriving DecidableEq, Repr

/-- The Cycle Tracker's state (1.4). The setting is in milliseconds. -/
structure Tracker where
  sync : Sync
  cycle : Option CycleNo
  runCount : Nat
  timer : CycleTimer
  setting : Nat
  deriving DecidableEq, Repr

/-! ## Stations (chapters 2 and 3) -/

/-- A station's role. -/
inductive Role where
  | leader | member
  deriving DecidableEq, Repr

/-- A station's polarity, +1 or -1. -/
inductive Polarity where
  | plus | minus
  deriving DecidableEq, Repr

/-- The configuration fields of a BOUND entry (2.1). -/
structure StationConfig where
  address : Byte
  group : Option GroupIx
  role : Role
  share : Nat
  polarity : Polarity
  clamp : Nat
  headroom : Nat
  window : Nat
  overspeed : Nat
  limit : Nat
  hold : Nat
  offset : Int
  deriving DecidableEq, Repr

/-- The close mark (2.2). -/
inductive CloseMark where
  | isOpen | closed | exempt
  deriving DecidableEq, Repr

/-- The drive status bits the bridge reads (12.3). -/
structure DriveStatus where
  ready : Bool
  running : Bool
  fault : Bool
  limitActive : Bool
  deriving DecidableEq, Repr

/-- A feedback latch that holds feedback (2.1): the values as the drive sent them (R19). -/
structure Latch where
  cycle : CycleNo
  speed : Int
  torque : Int
  status : DriveStatus
  deriving DecidableEq, Repr

/-- The validity state (3.2). -/
inductive Validity where
  | valid | invalid | fatal
  deriving DecidableEq, Repr

/-- One flag for each of the ten conditions of a station (3.1). -/
structure Conditions where
  fbMissing : Bool
  fbLate : Bool
  fbOverrun : Bool
  headroom : Bool
  driveFault : Bool
  speedDev : Bool
  runaway : Bool
  shareDev : Bool
  fight : Bool
  direction : Bool
  deriving DecidableEq, Repr

/-- No condition. -/
def Conditions.none : Conditions :=
  ⟨false, false, false, false, false, false, false, false, false, false⟩

/-- The runtime record of a BOUND entry (2.1), with the member's trim, which the Group Controller holds under the
station's index (R49); a station in no group has the trim 0. -/
structure StationRun where
  mark : CloseMark
  latch : Option Latch
  fresh : Bool
  late : Bool
  overrun : Bool
  lastSent : Option Int
  counter : Nat
  validity : Validity
  present : Conditions
  latched : Conditions
  trim : Int
  deriving DecidableEq, Repr

/-- A BOUND entry of the Station Table. -/
structure Station where
  config : StationConfig
  run : StationRun
  deriving DecidableEq, Repr

/-- The last treatment of an index (R79). -/
inductive Treatment where
  | altered | passed | noSlot
  deriving DecidableEq, Repr

/-! ## The Stage Store (chapter 6) -/

inductive StageKind where
  | empty | pass | trim | creep | bump | tune | thread | handback
  deriving DecidableEq, Repr

inductive StageExit where
  | dwell | confirm | settled | dwellThenConfirm
  deriving DecidableEq, Repr

inductive FaultAction where
  | halt | trip | excursion
  deriving DecidableEq, Repr

/-- The next field: NEXT, RETURN, END. -/
inductive StageNext where
  | next | ret | fin
  deriving DecidableEq, Repr

/-- A stage record (R87): a kind and thirteen fields, each present or absent. `trims` holds true for ON. -/
structure StageRecord where
  kind : StageKind
  target : Option Int
  ramp : Option Nat
  dwell : Option Nat
  exit : Option StageExit
  trims : Option Bool
  cap : Option Nat
  settleWindow : Option Nat
  probeWindow : Option Nat
  rippleLimit : Option Nat
  retries : Option Nat
  faultAction : Option FaultAction
  excTarget : Option Nat
  next : Option StageNext
  deriving DecidableEq, Repr

/-- The EMPTY record (R87). -/
def StageRecord.empty : StageRecord :=
  ⟨.empty, none, none, none, none, none, none, none, none, none, none, none, none, none⟩

/-! ## Causes and events (11.3, 12.6) -/

/-- The causes of events, faults and probe outcomes (12.6). -/
inductive Cause where
  | alarm | memberLost | direction | tuneFailed | memberFatal | console | release | link | memberMasked
  | stageInvalid | excursionOverflow | runaway | stage | expiry | wrongAnswer | completed | invalidated | cancelled
  deriving DecidableEq, Repr

/-- The event kinds, in the order of the table of R176. -/
inductive EventKind where
  | stageEntered | stageDone | planDone | planAborted | groupFault | excursionTaken | excursionPending
  | excursionReturn | offsetLearned | stationInvalid | stationValid | stationFatal | probeDone | tripOpened
  | tripClosed | checkFailed | linkSynced | linkLost
  deriving DecidableEq, Repr

/-- An Event Queue entry (R176). -/
structure Event where
  kind : EventKind
  cycle : Option CycleNo
  group : Option GroupIx
  station : Option StationIx
  stage : Option Nat
  tag : Option Byte
  cause : Option Cause
  deriving DecidableEq, Repr

/-! ## Groups (chapters 4, 5, 7 and 8) -/

/-- A group record (4.1). -/
structure GroupRecord where
  gain : Nat
  trimLimit : Nat
  shareFloor : Nat
  shareWindow : Nat
  fightThreshold : Nat
  drawReference : Option GroupIx
  drawTarget : Option Nat
  drawWindow : Nat
  alarmLimit : Nat
  alarmHold : Nat
  abortRamp : Nat
  blendWindow : Nat
  planFirst : Nat
  planLength : Nat
  deriving DecidableEq, Repr

/-- The group record after a pin or FULL reset (R71). -/
def GroupRecord.default : GroupRecord := ⟨0, 0, 100, 50, 100, none, none, 50, 24, 8, 100, 100, 0, 1⟩

/-- A pending set that is not empty: the awaited station indices, ascending, and their cycle (R51). -/
structure PendingSet where
  cycle : CycleNo
  stations : List StationIx
  deriving DecidableEq, Repr

/-- A close sample (R52). Speed and torque are surface values, absent where the latch was absent (assumption log 18). -/
structure CloseSample where
  validity : Validity
  fresh : Bool
  headroom : Bool
  speed : Option Int
  torque : Option Int
  deriving DecidableEq, Repr

/-- A station's place in a close roster, with its close sample. -/
structure RosterEntry where
  station : StationIx
  sample : CloseSample
  deriving DecidableEq, Repr

/-- The outcome of a share evaluation (R55). -/
inductive ShareOutcome where
  | single | suspended | belowFloor | evaluated
  deriving DecidableEq, Repr

/-- What an evaluated member got at an EVALUATED close (R57, R58). -/
structure ShareJudgement where
  torque : Int
  share : Int
  error : Int
  shareDev : Bool
  fight : Bool
  deriving DecidableEq, Repr

/-- A roster member's record in a share result (R59). -/
structure MemberShare where
  station : StationIx
  evaluated : Bool
  judgement : Option ShareJudgement
  deriving DecidableEq, Repr

/-- A share result (R59). -/
structure ShareResult where
  cycle : CycleNo
  outcome : ShareOutcome
  total : Option Int
  members : List MemberShare
  deriving DecidableEq, Repr

/-- A surface speed recorded for a cycle: a closed leader speed (R63) or a master reference (R80). -/
structure CycleSpeed where
  speed : Int
  cycle : CycleNo
  deriving DecidableEq, Repr

/-- A group's own condition flag: present and latched (3.5). -/
structure FlagPair where
  present : Bool
  latched : Bool
  deriving DecidableEq, Repr

/-- The sub-state of FAULT (R100). -/
inductive FaultSub where
  | unwinding | settled
  deriving DecidableEq, Repr

/-- The run state (R100), with the fault cause and sub-state in FAULT. -/
inductive RunState where
  | idle | running | held | aborting
  | fault (cause : Cause) (sub : FaultSub)
  | done
  deriving DecidableEq, Repr

/-- The phases (R100), in the order of 12.5. -/
inductive Phase where
  | ramp | dwell | awaitConfirm | rise | fall | settling | waitProbe | probing | blend
  deriving DecidableEq, Repr

/-- The plan range in use (R102). -/
structure PlanRange where
  first : Nat
  length : Nat
  deriving DecidableEq, Repr

/-- The origin of a return-stack frame (R130). -/
inductive Origin where
  | plan | excursion
  deriving DecidableEq, Repr

/-- A return-stack frame (R130). -/
structure StackFrame where
  stage : Nat
  phase : Phase
  dwell : Nat
  retries : Nat
  origin : Origin
  deriving DecidableEq, Repr

/-- The contents of an occupied pending-excursion slot (R130). -/
structure Deferred where
  target : Nat
  stage : Nat
  cause : Cause
  station : Option StationIx
  deriving DecidableEq, Repr

/-- A member's BUMP entry actual (R109). -/
structure EntryActual where
  station : StationIx
  speed : Option Int
  deriving DecidableEq, Repr

/-- A group: its record, its share runtime (4.1), its recorded master reference (R80) and its plan runtime (R100,
R129). `forming` gathers the roster of the cycle in progress and `roster` is the one of the last group close (assumption
log 10). `stack` has its top frame first. The probe a group owns is read from the probes (`Bridge.ownedProbe`). -/
structure DriveGroup where
  record : GroupRecord
  pendingSet : Option PendingSet
  forming : List RosterEntry
  roster : List RosterEntry
  shareResult : Option ShareResult
  closedLeader : Option CycleSpeed
  draw : FlagPair
  shareSuspended : FlagPair
  alarmCounter : Nat
  alarm : Bool
  masterRef : Option CycleSpeed
  runState : RunState
  phase : Option Phase
  planTag : Option Byte
  planRange : Option PlanRange
  stage : Option Nat
  speed : Int
  dwell : Nat
  settle : Nat
  blend : Nat
  retries : Nat
  bumpEntry : Option Int
  bumpActuals : List EntryActual
  stack : List StackFrame
  deferred : Option Deferred
  waiting : Bool
  deriving DecidableEq, Repr

/-- A group with a given record and the runtime of a reset (R71, R72, R86, R128, R140, R154). -/
def DriveGroup.fresh (record : GroupRecord) : DriveGroup :=
  { record := record, pendingSet := none, forming := [], roster := [], shareResult := none, closedLeader := none,
    draw := ⟨false, false⟩, shareSuspended := ⟨false, false⟩, alarmCounter := 0, alarm := false, masterRef := none,
    runState := .idle, phase := none, planTag := none, planRange := none, stage := none, speed := 0, dwell := 0,
    settle := 0, blend := 0, retries := 0, bumpEntry := none, bumpActuals := [], stack := [], deferred := none,
    waiting := false }

/-! ## Probe units (chapter 9) -/

inductive ProbeId where
  | p1 | p2
  deriving DecidableEq, Repr

inductive ProbeState where
  | idle | running | done
  deriving DecidableEq, Repr

/-- A probe's owner (R141). -/
inductive ProbeOwner where
  | request (tag : Byte)
  | group (g : GroupIx)
  deriving DecidableEq, Repr

inductive ProbeMode where
  | fixed | stepped
  deriving DecidableEq, Repr

/-- The sign of a non-zero speed error. -/
inductive Sign where
  | neg | pos
  deriving DecidableEq, Repr

/-- The accumulators of the sub-window in progress (R141). -/
structure Accumulators where
  closes : Nat
  samples : Nat
  torqueSum : Int
  errorMin : Option Int
  errorMax : Option Int
  crossings : Nat
  lastSign : Option Sign
  firstTime : Option (BitVec 32)
  lastTime : Option (BitVec 32)
  deriving DecidableEq, Repr

/-- Empty accumulators: before the first sample of a sub-window the errors, the sign and the times are absent (R141,
R148; assumption log 34). -/
def Accumulators.empty : Accumulators := ⟨0, 0, 0, none, none, 0, none, none, none⟩

/-- The result of a sub-window (R147). -/
structure SubResult where
  closes : Nat
  samples : Nat
  meanTorque : Option Int
  ripple : Option Nat
  crossings : Nat
  elapsed : Option Nat
  frequency : Option Nat
  deriving DecidableEq, Repr

/-- A result record (R147, R148, R149). `closes` and `samples` are those of the one sub-window in FIXED and the totals
in STEPPED. `subs` and `chosen` belong to STEPPED. -/
structure ProbeResult where
  probe : ProbeId
  owner : Option ProbeOwner
  station : Option StationIx
  mode : ProbeMode
  window : Nat
  outcome : Cause
  cycle : Option CycleNo
  closes : Nat
  samples : Nat
  meanTorque : Option Int
  ripple : Option Nat
  crossings : Nat
  elapsed : Option Nat
  frequency : Option Nat
  subs : List SubResult
  chosen : Option Nat
  deriving DecidableEq, Repr

/-- A probe (R141). -/
structure Probe where
  state : ProbeState
  owner : Option ProbeOwner
  station : Option StationIx
  mode : ProbeMode
  window : Nat
  sub : Nat
  acc : Accumulators
  completed : List SubResult
  result : Option ProbeResult
  deriving DecidableEq, Repr

/-- A probe after reset (R154); the mode, window and sub-window are the model's choice (assumption log 1). -/
def Probe.reset : Probe := ⟨.idle, none, none, .fixed, 16, 1, Accumulators.empty, [], none⟩

/-! ## Console check and Trip Unit (chapter 10) -/

inductive CheckState where
  | inactive | running | failed
  deriving DecidableEq, Repr

inductive FailureReason where
  | expiry | wrongAnswer
  deriving DecidableEq, Repr

/-- The Console Check Unit's state (R155). The deadline timer is STOPPED where `deadline` is none and otherwise RUNNING
with that many microseconds left. -/
structure ConsoleCheck where
  state : CheckState
  challenge : BitVec 16
  sequence : BitVec 8
  window : Option Nat
  deadline : Option Nat
  reason : Option FailureReason
  deriving DecidableEq, Repr

/-- The Console Check Unit after reset (R167). -/
def ConsoleCheck.reset : ConsoleCheck := ⟨.inactive, 4660#16, 0#8, none, none, none⟩

/-- The trip cause set (R164). -/
structure TripSet where
  console : Bool
  runaway : Bool
  stage : Bool
  deriving DecidableEq, Repr

/-! ## The bridge behind its ports, and the whole state -/

/-- Everything behind the ports. -/
structure Bridge where
  release : Bool
  tracker : Tracker
  stations : Vector (Option Station) 32
  mask : BitVec 32
  treatments : Vector (Option Treatment) 32
  groups : Vector DriveGroup 8
  store : Vector StageRecord 128
  probe1 : Probe
  probe2 : Probe
  check : ConsoleCheck
  trip : TripSet
  events : List Event
  eventsLost : Bool
  timeBase : BitVec 32
  choices : List Nat
  choiceCount : Nat
  deriving DecidableEq, Repr

/-- The state of the machine. `pending` is the queue of commands that wait, first in first out. -/
structure State where
  pending : List Instr
  resetAsserted : Bool
  resetPending : Option Scope
  strapA : Strap
  strapB : Strap
  address : Byte
  link : Link
  bridge : Bridge
  deriving DecidableEq, Repr

/-- The Link Interface after every reset (R17, R184). -/
def Link.reset : Link :=
  { driveQueue := [], driveTx := none, forwardQueue := [], localQueue := [], lineTx := none, lastTaken := .own,
    frameErrorLine := ⟨false, false⟩, frameErrorDrive := ⟨false, false⟩, upCongestion := ⟨false, false⟩,
    downCongestion := ⟨false, false⟩, slip := ⟨false, false⟩, requestDiscarded := ⟨false, false⟩ }

/-- The Cycle Tracker after every reset (R17). -/
def Tracker.reset : Tracker := ⟨.unsynced, none, 0, .stopped, 20⟩

/-- Everything behind the ports after a pin or FULL reset (R33, R47, R71, R86, R99, R128, R140, R154, R167, R184). The
RELEASE level is the one of the input (R163). -/
def Bridge.reset : Bridge :=
  { release := false, tracker := Tracker.reset, stations := Vector.replicate 32 none, mask := 0#32,
    treatments := Vector.replicate 32 none, groups := Vector.replicate 8 (DriveGroup.fresh GroupRecord.default),
    store := Vector.replicate 128 StageRecord.empty, probe1 := Probe.reset, probe2 := Probe.reset,
    check := ConsoleCheck.reset, trip := ⟨false, false, false⟩, events := [], eventsLost := false, timeBase := 0#32,
    choices := [], choiceCount := 0 }

/-- The machine after a pin reset has been released, with both straps open and RELEASE inactive (R182, R183, R187;
assumption log 2 for the levels of the pins). -/
def State.reset : State :=
  { pending := [], resetAsserted := false, resetPending := none, strapA := .isOpen, strapB := .isOpen,
    address := 121#8, link := Link.reset, bridge := Bridge.reset }

end Sys2Proof.Machine
end

