-- ==== Sys2Proof/Machine/Ops.lean ====
section
/-! DEFINITION. The named operations: access to the tables, membership, surface values, events, trip causes, free
choices, the queues and transmitters of the link, and the port flags. -/

namespace Sys2Proof.Machine

/-! ## Access to the tables -/

/-- The group's number, 1 to 8. -/
def groupNumber (g : GroupIx) : Nat := g.val + 1

/-- A station entry; none when it is FREE. -/
def Bridge.station (b : Bridge) (i : StationIx) : Option Station := b.stations[i]

def Bridge.setStation (b : Bridge) (i : StationIx) (x : Option Station) : Bridge :=
  { b with stations := b.stations.set i x }

/-- Changes a BOUND entry; a FREE entry stays FREE. -/
def Bridge.modifyStation (b : Bridge) (i : StationIx) (f : Station → Station) : Bridge :=
  b.setStation i ((b.station i).map f)

def Bridge.modifyRun (b : Bridge) (i : StationIx) (f : StationRun → StationRun) : Bridge :=
  b.modifyStation i fun st => { st with run := f st.run }

def Bridge.group (b : Bridge) (g : GroupIx) : DriveGroup := b.groups[g]

def Bridge.setGroup (b : Bridge) (g : GroupIx) (x : DriveGroup) : Bridge := { b with groups := b.groups.set g x }

def Bridge.modifyGroup (b : Bridge) (g : GroupIx) (f : DriveGroup → DriveGroup) : Bridge :=
  b.setGroup g (f (b.group g))

def Bridge.probe (b : Bridge) : ProbeId → Probe
  | .p1 => b.probe1
  | .p2 => b.probe2

def Bridge.setProbe (b : Bridge) (p : ProbeId) (x : Probe) : Bridge :=
  match p with
  | .p1 => { b with probe1 := x }
  | .p2 => { b with probe2 := x }

/-- A stage record by its index; an index outside the store names no record and reads as EMPTY (R93 finds it first). -/
def Bridge.stageAt (b : Bridge) (i : Nat) : StageRecord := (b.store[i]?).getD StageRecord.empty

/-- The record of a group's current stage; EMPTY where the group has none. -/
def Bridge.currentStage (b : Bridge) (g : GroupIx) : StageRecord :=
  match (b.group g).stage with
  | some i => b.stageAt i
  | none => StageRecord.empty

/-- Changes every BOUND entry at once. -/
def Bridge.mapStations (b : Bridge) (f : StationIx → Station → Station) : Bridge :=
  { b with stations := Vector.ofFn fun i => (b.station i).map (f i) }

/-- Changes every group at once. -/
def Bridge.mapGroups (b : Bridge) (f : GroupIx → DriveGroup → DriveGroup) : Bridge :=
  { b with groups := Vector.ofFn fun g => f g (b.group g) }

/-- The station indices, ascending. -/
def stationIxs : List StationIx := List.finRange 32

/-- The groups, ascending. -/
def groupIxs : List GroupIx := List.finRange 8

/-! ## Membership and the leader (R49, R50) -/

/-- Whether entry `i` is BOUND with its group field naming `g` (R49). -/
def Bridge.isMember (b : Bridge) (g : GroupIx) (i : StationIx) : Bool :=
  match b.station i with
  | some st => decide (st.config.group = some g)
  | none => false

/-- The members of a group, in ascending station index (R49). -/
def Bridge.members (b : Bridge) (g : GroupIx) : List StationIx := stationIxs.filter (b.isMember g)

/-- Changes every member of a group at once. -/
def Bridge.mapMembers (b : Bridge) (g : GroupIx) (f : StationIx → Station → Station) : Bridge :=
  b.mapStations fun i st => if st.config.group = some g then f i st else st

/-- Whether entry `i` is BOUND with the role LEADER. -/
def Bridge.isLeaderRole (b : Bridge) (i : StationIx) : Bool :=
  match b.station i with
  | some st => decide (st.config.role = .leader)
  | none => false

/-- The leader: the one member with the role LEADER, where exactly one has it (R50). -/
def Bridge.leader (b : Bridge) (g : GroupIx) : Option StationIx :=
  match (b.members g).filter b.isLeaderRole with
  | [i] => some i
  | _ => none

/-- The entry that binds a drive address (R18). -/
def Bridge.boundTo (b : Bridge) (a : Byte) : Option StationIx :=
  stationIxs.find? fun i =>
    match b.station i with
    | some st => decide (st.config.address = a)
    | none => false

/-! ## Arithmetic (00_scope, Conventions; R19) -/

/-- A value clamped to `lo` to `hi`. -/
def clampTo (lo hi v : Int) : Int := if v < lo then lo else if hi < v then hi else v

/-- A value clamped to plus or minus `l` (00_scope, Arithmetic). -/
def clampAbs (l : Nat) (v : Int) : Int := clampTo (-(l : Int)) l v

/-- The range of the link's speed fields, -8388608 to +8388607 (R19, R78). -/
def clampSpeed (v : Int) : Int := clampTo (-8388608) 8388607 v

/-- A value multiplied by a polarity (R19). -/
def signed (p : Polarity) (v : Int) : Int :=
  match p with
  | .plus => v
  | .minus => -v

/-- The surface value of a speed: -8388608 taken with polarity -1 gives +8388607 (R19). -/
def surfaceSpeed (p : Polarity) (v : Int) : Int := clampSpeed (signed p v)

/-- The surface value of a torque (R19). -/
def surfaceTorque (p : Polarity) (v : Int) : Int := signed p v

/-- A step of at most `rate` from `c` toward `target` (R106). -/
def approach (c target : Int) (rate : Nat) : Int :=
  if (target - c).natAbs ≤ rate then target else if c < target then c + rate else c - rate

/-! ## Run states (R74, R100) -/

def DriveGroup.isRunning (g : DriveGroup) : Bool := decide (g.runState = .running)

def DriveGroup.isHeld (g : DriveGroup) : Bool := decide (g.runState = .held)

/-- RUNNING or HELD. -/
def DriveGroup.inPlan (g : DriveGroup) : Bool := g.isRunning || g.isHeld

/-- ABORTING, or FAULT with sub-state UNWINDING (R120). -/
def DriveGroup.unwinds (g : DriveGroup) : Bool :=
  match g.runState with
  | .aborting => true
  | .fault _ .unwinding => true
  | _ => false

/-- IDLE or DONE: the run states in which a group's tables are not locked (R29, R69). -/
def DriveGroup.unlocked (g : DriveGroup) : Bool :=
  match g.runState with
  | .idle => true
  | .done => true
  | _ => false

/-- The run states the bypass causes CONSOLE, RELEASE, LINK and MEMBER_FATAL reach (R125). -/
def DriveGroup.active (g : DriveGroup) : Bool := g.inPlan || g.unwinds

/-- The override mode (R74). -/
inductive Mode where
  | speed | trims | none
  deriving DecidableEq, Repr

/-- A speed-override stage kind (R74). -/
def StageKind.overridesSpeed : StageKind → Bool
  | .creep | .bump | .tune | .thread | .handback => true
  | .empty | .pass | .trim => false

/-- The trims field of a record is ON. -/
def StageRecord.trimsOn (r : StageRecord) : Bool := decide (r.trims = some true)

/-- The override mode of a stage (R74, the rows of RUNNING and HELD). -/
def StageRecord.mode (r : StageRecord) : Mode :=
  if r.kind.overridesSpeed then .speed
  else
    match r.kind with
    | .trim => .trims
    | .pass => if r.trimsOn then .trims else .none
    | _ => .none

/-- A group's override mode (R74). -/
def Bridge.mode (b : Bridge) (g : GroupIx) : Mode :=
  if (b.group g).inPlan then (b.currentStage g).mode else if (b.group g).unwinds then .speed else .none

/-- Whether the group's current stage has trims on (R60, R62, R74). -/
def Bridge.trimsOn (b : Bridge) (g : GroupIx) : Bool := (b.group g).inPlan && (b.currentStage g).trimsOn

/-- The recorded master reference as its readers take it: 0 where it is absent (R80). -/
def DriveGroup.reference (g : DriveGroup) : Int :=
  match g.masterRef with
  | some r => r.speed
  | none => 0

/-! ## Events (R174 to R176) and trip causes (R164 to R166) -/

/-- Appends an event, or sets EVENTS_LOST where the queue is full (R174, R175). -/
def Bridge.append (b : Bridge) (e : Event) : Bridge :=
  if b.events.length < Config.eventCapacity then { b with events := b.events ++ [e] } else { b with eventsLost := true }

/-- Posts an event with the current cycle number (R176). -/
def Bridge.post (b : Bridge) (kind : EventKind) (group : Option GroupIx := none) (station : Option StationIx := none)
    (stage : Option Nat := none) (tag : Option Byte := none) (cause : Option Cause := none) : Bridge :=
  b.append ⟨kind, b.tracker.cycle, group, station, stage, tag, cause⟩

/-- Posts an event of a group with its plan tag. -/
def Bridge.postGroup (b : Bridge) (kind : EventKind) (g : GroupIx) (stage : Option Nat := none)
    (cause : Option Cause := none) (station : Option StationIx := none) : Bridge :=
  b.post kind (some g) station stage (b.group g).planTag cause

/-- The TRIP output is open exactly when the set is non-empty (R164). -/
def TripSet.isOpen (t : TripSet) : Bool := t.console || t.runaway || t.stage

/-- Adds one cause to the set; only CONSOLE, RUNAWAY and STAGE are trip causes. -/
def TripSet.insert (t : TripSet) (c : Cause) : TripSet :=
  match c with
  | .console => { t with console := true }
  | .runaway => { t with runaway := true }
  | .stage => { t with stage := true }
  | _ => t

/-- A cause is sent to the Trip Unit (R165): entering an empty set it posts TRIP_OPENED. -/
def Bridge.sendTrip (b : Bridge) (c : Cause) : Bridge :=
  if b.trip.isOpen then { b with trip := b.trip.insert c }
  else { b.post .tripOpened (cause := some c) with trip := b.trip.insert c }

/-- STAGE is removed from the set; TRIP_CLOSED is posted where this leaves it empty (R166). -/
def Bridge.clearStageTrip (b : Bridge) : Bridge :=
  if b.trip.stage then
    let t := { b.trip with stage := false }
    if t.isOpen then { b with trip := t } else { b.post .tripClosed with trip := t }
  else b

/-! ## Free choices (assumption log 3) -/

/-- The next free value: the head of the tape, or the opaque constant where the tape is used up. -/
def Bridge.nextChoice (b : Bridge) : Nat × Bridge :=
  match b.choices with
  | c :: rest => (c, { b with choices := rest })
  | [] => (Config.freeChoice b.choiceCount, { b with choiceCount := b.choiceCount + 1 })

/-- A free choice of one of `n` things: an index below `n`. Nothing is drawn where there is only one. -/
def Bridge.choose (b : Bridge) (n : Nat) : Nat × Bridge :=
  if n ≤ 1 then (0, b) else (b.nextChoice.1 % n, b.nextChoice.2)

/-- Acts that come together, taken one after another in a free order. `ready rest a` says that `a` may be taken while
the acts of `rest` are still to be taken; `draw n` makes a free choice of one of `n`. The first argument bounds the
number of acts. -/
def inFreeOrder {α σ : Type} [DecidableEq α] (ready : List α → α → Bool) (draw : Nat → σ → Nat × σ) (act : α → σ → σ) :
    Nat → List α → σ → σ
  | 0, _, s => s
  | n + 1, rest, s =>
    let may := rest.filter (ready rest)
    let c := draw may.length s
    match may[c.1]? with
    | some a => inFreeOrder ready draw act n (rest.erase a) (act a c.2)
    | none => s

/-! ## Port flags (R10) -/

def PortFlag.clear : PortFlag := ⟨false, false⟩

/-- The flag's latching event: set, without the mark. -/
def PortFlag.latch (_ : PortFlag) : PortFlag := ⟨true, false⟩

/-- A Status frame is composed: a flag that is set receives the mark. -/
def PortFlag.carry (f : PortFlag) : PortFlag := ⟨f.on, f.on || f.marked⟩

/-- The end of a Status frame's transmission: a flag that holds the mark is cleared and loses it. -/
def PortFlag.sent (f : PortFlag) : PortFlag := if f.marked then PortFlag.clear else f

/-- Every port flag, REQUEST_DISCARDED among them. -/
def Link.mapFlags (l : Link) (f : PortFlag → PortFlag) : Link :=
  { l with
    frameErrorLine := f l.frameErrorLine, frameErrorDrive := f l.frameErrorDrive, upCongestion := f l.upCongestion,
    downCongestion := f l.downCongestion, slip := f l.slip, requestDiscarded := f l.requestDiscarded }

/-! ## Queues and transmitters (1.2) -/

/-- A frame for the drive-port transmit queue (R6). -/
def Link.sendDown (l : Link) (f : Frame) : Link :=
  match l.driveTx with
  | none => { l with driveTx := some f }
  | some _ =>
    if l.driveQueue.length < Config.driveCapacity then { l with driveQueue := l.driveQueue ++ [f] }
    else { l with downCongestion := l.downCongestion.latch }

/-- The end of a transmission on the drive port (R6). -/
def Link.driveEnd (l : Link) : Link :=
  match l.driveTx, l.driveQueue with
  | none, _ => l
  | some _, [] => { l with driveTx := none }
  | some _, f :: rest => { l with driveTx := some f, driveQueue := rest }

def Link.takeForward (l : Link) (f : Frame) (rest : List Frame) : Link :=
  { l with forwardQueue := rest, lineTx := some (.forwarded f), lastTaken := .forward }

def Link.takeOwn (l : Link) (f : LocalFrame) (rest : List LocalFrame) : Link :=
  { l with localQueue := rest, lineTx := some (.own f), lastTaken := .own }

/-- The choice of the line-port transmitter (R9). -/
def Link.chooseLine (l : Link) : Link :=
  match l.forwardQueue, l.localQueue with
  | [], [] => { l with lineTx := none }
  | f :: rest, [] => l.takeForward f rest
  | [], f :: rest => l.takeOwn f rest
  | f :: frest, o :: orest =>
    match l.lastTaken with
    | .forward => l.takeOwn o orest
    | .own => l.takeForward f frest

/-- The choice made when a frame has entered a queue: only an IDLE transmitter makes it (R9). -/
def Link.kick (l : Link) : Link :=
  match l.lineTx with
  | none => l.chooseLine
  | some _ => l

/-- A frame for the line-port forward queue (R7). -/
def Link.sendUp (l : Link) (f : Frame) : Link :=
  if l.forwardQueue.length < Config.forwardCapacity then { l with forwardQueue := l.forwardQueue ++ [f] }.kick
  else { l with upCongestion := l.upCongestion.latch }

def LocalFrame.isStatus : LocalFrame → Bool
  | .status _ => true
  | .reply _ | .brsReply _ => false

/-- The Reply frames that wait in the local queue (R169). -/
def Link.waitingReplies (l : Link) : Nat := (l.localQueue.filter fun f => !f.isStatus).length

/-- A Reply frame enters the local queue (R8). -/
def Link.sendReply (l : Link) (f : LocalFrame) : Link := { l with localQueue := l.localQueue ++ [f] }.kick

/-- A Status frame enters the local queue, in place of one that waits (R8). -/
def Link.sendStatus (l : Link) (f : Frame) : Link :=
  { l with localQueue := (l.localQueue.filter fun x : LocalFrame => !x.isStatus) ++ [LocalFrame.status f] }.kick

/-- The end of a transmission on the line port, apart from a bridge reset: after a Status frame every flag that holds the
carried mark is cleared, also one that a later Status frame has marked meanwhile (R10; assumption log 31), and the
transmitter chooses (R9). -/
def Link.lineEnd (l : Link) : Link :=
  match l.lineTx with
  | none => l
  | some (.own (.status _)) => (l.mapFlags PortFlag.sent).chooseLine
  | some _ => l.chooseLine

/-! ## The state -/

/-- Frames that arrive are discarded without a check (R1, R180, R183). -/
def State.held (s : State) : Bool := s.resetAsserted || s.resetPending.isSome

def State.withBridge (s : State) (b : Bridge) : State := { s with bridge := b }

def State.withLink (s : State) (l : Link) : State := { s with link := l }

end Sys2Proof.Machine
end

