-- ==== Sys2Proof/Machine/Operands.lean ====
section
/-! DEFINITION. Operands and result fields (R186): widths, presence bytes, enumerations, lists and sets, the operand
list of every service, and the codes of 12.4 to 12.6. -/

namespace Sys2Proof.Machine

/-! ## Widths (R186) -/

/-- The width in bytes of a field of range `lo` to `hi`, and whether it is signed (the table of R186). -/
structure FieldShape where
  width : Nat
  signed : Bool
  deriving DecidableEq, Repr

def fieldShape (lo hi : Int) : FieldShape :=
  if 0 ≤ lo ∧ hi ≤ 255 then ⟨1, false⟩
  else if -128 ≤ lo ∧ hi ≤ 127 then ⟨1, true⟩
  else if 0 ≤ lo ∧ hi ≤ 65535 then ⟨2, false⟩
  else if -32768 ≤ lo ∧ hi ≤ 32767 then ⟨2, true⟩
  else if -8388608 ≤ lo ∧ hi ≤ 8388607 then ⟨3, true⟩
  else if 0 ≤ lo ∧ hi ≤ 4294967295 then ⟨4, false⟩
  else ⟨4, true⟩

/-- The values a field of that shape can carry. -/
def FieldShape.holds (f : FieldShape) (v : Int) : Bool :=
  if f.signed then decide (-(2 ^ (8 * f.width - 1) : Int) ≤ v ∧ v < 2 ^ (8 * f.width - 1))
  else decide (0 ≤ v ∧ v < 2 ^ (8 * f.width))

/-- The number that bytes spell, most significant byte first (chapter 12). -/
def natOfBytes (bytes : List Byte) : Nat := bytes.foldl (fun n b => 256 * n + b.toNat) 0

/-- The value of the bytes of a field: two's complement where it is signed. -/
def FieldShape.value (f : FieldShape) (bytes : List Byte) : Int :=
  let n := natOfBytes bytes
  if f.signed ∧ 2 ^ (8 * f.width - 1) ≤ n then (n : Int) - 2 ^ (8 * f.width) else n

/-! ## Reading operands -/

/-- A reader takes its operand from the front of the bytes, and answers nothing where R186 gives BAD_OPERAND. -/
abbrev Reader := StateT (List Byte) Option

/-- A number of range `lo` to `hi`. -/
def readInt (lo hi : Int) : Reader Int := fun bytes =>
  let f := fieldShape lo hi
  let v := f.value (bytes.take f.width)
  if f.width ≤ bytes.length ∧ lo ≤ v ∧ v ≤ hi then some (v, bytes.drop f.width) else none

/-- A number that is not negative. -/
def readNat (lo hi : Nat) : Reader Nat := do
  let v ← readInt lo hi
  return v.toNat

/-- One byte, taken as it comes. -/
def readByte : Reader Byte
  | b :: rest => some (b, rest)
  | [] => none

/-- An enumerated value: its place in the list that defines it. -/
def readEnum {α : Type} (values : List α) : Reader α
  | b :: rest => (values[b.toNat]?).map fun v => (v, rest)
  | [] => none

/-- A value that may be absent: a presence byte, then the value. -/
def readOpt {α : Type} (read : Reader α) : Reader (Option α)
  | b :: rest =>
    if b = 0#8 then some (none, rest)
    else if b = 1#8 then (read rest).map fun r => (some r.1, r.2)
    else none
  | [] => none

/-- The whole of a service's operands: a byte left over is surplus (R170). -/
def decodeOperands {α : Type} (read : Reader α) (bytes : List Byte) : Option α :=
  match read bytes with
  | some (v, []) => some v
  | _ => none

def readStation : Reader StationIx := do
  let i ← readNat 0 31
  return Fin.ofNat 32 i

/-- A group number 1 to 8. -/
def readGroup : Reader GroupIx := do
  let n ← readNat 1 8
  return Fin.ofNat 8 (n - 1)

/-- A group field: NONE is coded 0 (R186). -/
def readGroupOrNone : Reader (Option GroupIx) := do
  let n ← readNat 0 8
  return if n = 0 then none else some (Fin.ofNat 8 (n - 1))

/-- P1 and P2 are coded 1 and 2 (R186). -/
def readProbe : Reader ProbeId := do
  let n ← readNat 1 2
  return if n = 1 then .p1 else .p2

/-! ## Codes: enumerations in the order that defines them (R186) -/

def roles : List Role := [.leader, .member]
def polarities : Polarity → Int
  | .plus => 1
  | .minus => -1
def stageKinds : List StageKind := [.empty, .pass, .trim, .creep, .bump, .tune, .thread, .handback]
def stageExits : List StageExit := [.dwell, .confirm, .settled, .dwellThenConfirm]
/-- ON, OFF (R87), with true for ON. -/
def trimsValues : List Bool := [true, false]
def faultActions : List FaultAction := [.halt, .trip, .excursion]
def stageNexts : List StageNext := [.next, .ret, .fin]
def probeModes : List ProbeMode := [.fixed, .stepped]
/-- FULL is coded 0 and TABLES_KEPT 1 (R186). -/
def scopes : List Scope := [.full, .tablesKept]

def Role.code : Role → Nat
  | .leader => 0
  | .member => 1

def CloseMark.code : CloseMark → Nat
  | .isOpen => 0
  | .closed => 1
  | .exempt => 2

def Validity.code : Validity → Nat
  | .valid => 0
  | .invalid => 1
  | .fatal => 2

def Treatment.code : Treatment → Nat
  | .altered => 0
  | .passed => 1
  | .noSlot => 2

def StageKind.code : StageKind → Nat
  | .empty => 0
  | .pass => 1
  | .trim => 2
  | .creep => 3
  | .bump => 4
  | .tune => 5
  | .thread => 6
  | .handback => 7

def StageExit.code : StageExit → Nat
  | .dwell => 0
  | .confirm => 1
  | .settled => 2
  | .dwellThenConfirm => 3

def trimsCode (isOn : Bool) : Nat := if isOn then 0 else 1

def FaultAction.code : FaultAction → Nat
  | .halt => 0
  | .trip => 1
  | .excursion => 2

def StageNext.code : StageNext → Nat
  | .next => 0
  | .ret => 1
  | .fin => 2

def ShareOutcome.code : ShareOutcome → Nat
  | .single => 0
  | .suspended => 1
  | .belowFloor => 2
  | .evaluated => 3

def ProbeId.code : ProbeId → Nat
  | .p1 => 1
  | .p2 => 2

def ProbeMode.code : ProbeMode → Nat
  | .fixed => 0
  | .stepped => 1

def Origin.code : Origin → Nat
  | .plan => 0
  | .excursion => 1

def Scope.code : Scope → Nat
  | .full => 0
  | .tablesKept => 1

/-- The console check states, as 12.5 codes them too. -/
def CheckState.code : CheckState → Nat
  | .inactive => 0
  | .running => 1
  | .failed => 2

/-- The run states of 12.5, with the sub-state of FAULT. -/
def RunState.code : RunState → Nat
  | .idle => 0
  | .running => 1
  | .held => 2
  | .aborting => 3
  | .fault _ .unwinding => 4
  | .fault _ .settled => 5
  | .done => 6

/-- The phases of 12.5; 0 is none. -/
def Phase.code : Phase → Nat
  | .ramp => 1
  | .dwell => 2
  | .awaitConfirm => 3
  | .rise => 4
  | .fall => 5
  | .settling => 6
  | .waitProbe => 7
  | .probing => 8
  | .blend => 9

def phaseCode : Option Phase → Nat
  | none => 0
  | some p => p.code

/-- The event kinds, in the order of the table of R176. -/
def EventKind.code : EventKind → Nat
  | .stageEntered => 0
  | .stageDone => 1
  | .planDone => 2
  | .planAborted => 3
  | .groupFault => 4
  | .excursionTaken => 5
  | .excursionPending => 6
  | .excursionReturn => 7
  | .offsetLearned => 8
  | .stationInvalid => 9
  | .stationValid => 10
  | .stationFatal => 11
  | .probeDone => 12
  | .tripOpened => 13
  | .tripClosed => 14
  | .checkFailed => 15
  | .linkSynced => 16
  | .linkLost => 17

/-- The cause codes of 12.6. -/
def Cause.code : Cause → Nat
  | .alarm => 1
  | .memberLost => 2
  | .direction => 3
  | .tuneFailed => 4
  | .memberFatal => 5
  | .console => 6
  | .release => 7
  | .link => 8
  | .memberMasked => 9
  | .stageInvalid => 10
  | .excursionOverflow => 12
  | .runaway => 13
  | .stage => 14
  | .expiry => 15
  | .wrongAnswer => 16
  | .completed => 17
  | .invalidated => 18
  | .cancelled => 19

/-! ## Writing result fields -/

/-- The bytes of a number in a field of range `lo` to `hi`. Where the field cannot carry the value, its bytes are free
(assumption log 14). -/
def putInt (lo hi v : Int) : List Byte :=
  let f := fieldShape lo hi
  let w := if f.holds v then BitVec.ofInt 32 v else Config.unrepresentable v
  (be32 w).drop (4 - f.width)

def putNat (hi v : Nat) : List Byte := putInt 0 hi v

/-- One byte. -/
def putByte (v : Nat) : List Byte := putNat 255 v

/-- True or set is 1, false or clear is 0. -/
def putFlag (b : Bool) : List Byte := [if b then 1#8 else 0#8]

def putOpt {α : Type} (put : α → List Byte) : Option α → List Byte
  | none => [0#8]
  | some v => 1#8 :: put v

/-- A list: a count byte and its elements. -/
def putList {α : Type} (put : α → List Byte) (items : List α) : List Byte := putByte items.length ++ items.flatMap put

/-- A speed takes 3 signed bytes (R186). -/
def putSpeed (v : Int) : List Byte := putInt (-8388608) 8388607 v

/-- A torque, as a Feedback Frame carries it, takes 2 signed bytes (12.3). -/
def putTorque (v : Int) : List Byte := putInt (-32768) 32767 v

def putTrim (v : Int) : List Byte := putInt (-3000) 3000 v

def putCycle (c : CycleNo) : List Byte := be16 c

def putStation (i : StationIx) : List Byte := putByte i.val

def putGroup (g : GroupIx) : List Byte := putByte (groupNumber g)

def groupOrNone : Option GroupIx → Nat
  | none => 0
  | some g => groupNumber g

/-- A byte whose bit `i` is the `i`-th flag. -/
def bitmask (flags : List Bool) : Nat :=
  match flags with
  | [] => 0
  | f :: rest => (if f then 1 else 0) + 2 * bitmask rest

/-- The drive status byte, with the bits of 12.3. -/
def DriveStatus.code (d : DriveStatus) : Nat := bitmask [d.ready, d.running, d.fault, d.limitActive]

/-- The trip cause set as a bitmask: bit 0 CONSOLE, bit 1 RUNAWAY, bit 2 STAGE (12.5). -/
def TripSet.code (t : TripSet) : Nat := bitmask [t.console, t.runaway, t.stage]

/-- The ten conditions, in the order of 12.5. -/
def Conditions.flags (c : Conditions) : List Bool :=
  [c.fbMissing, c.fbLate, c.fbOverrun, c.headroom, c.driveFault, c.speedDev, c.runaway, c.shareDev, c.fight,
    c.direction]

def putConditions (c : Conditions) : List Byte := c.flags.flatMap putFlag

/-! ## Operand lists of the services -/

/-- STW's operands (the entry before R28, and the ranges of 2.1): the index, the configuration without its offset, and
the offset operand. -/
structure StwOperands where
  index : StationIx
  config : StationConfig
  offset : Option Int
  deriving DecidableEq, Repr

/-- The checks of R28 that the operands alone decide are the readers' ranges. -/
def readStw : Reader StwOperands := do
  let index ← readStation
  let address ← readNat 1 120
  let group ← readGroupOrNone
  let role ← readEnum roles
  let share ← readNat 0 1000
  let sign ← readInt (-1) 1
  if sign = 0 then failure
  let clamp ← readNat 1000 3000
  let headroom ← readNat 1000 4000
  if headroom < clamp then failure
  let window ← readNat 0 50000
  let overspeed ← readInt 1000 300000
  let limit ← readNat 3 240
  let hold ← readNat 0 247
  if 250 < limit + hold then failure
  let offset ← readOpt (readInt (-3000) 3000)
  return {
    index := index
    config := {
      address := BitVec.ofNat 8 address, group := group, role := role, share := share,
      polarity := if sign = 1 then .plus else .minus, clamp := clamp, headroom := headroom, window := window,
      overspeed := overspeed.toNat, limit := limit, hold := hold, offset := 0 }
    offset := offset }

/-- GRW's operands (4.8): the group and its record. -/
structure GrwOperands where
  group : GroupIx
  record : GroupRecord
  deriving DecidableEq, Repr

/-- The ranges of 4.1, and the checks of R68. -/
def readGrw : Reader GrwOperands := do
  let group ← readGroup
  let gain ← readNat 0 255
  let trimLimit ← readNat 0 3000
  let shareFloor ← readNat 0 2000
  let shareWindow ← readNat 1 500
  let fightThreshold ← readNat 0 1000
  let drawReference ← readOpt readGroup
  if drawReference = some group then failure
  let drawTarget ← readOpt (readNat 9000 11000)
  let drawWindow ← readNat 1 1000
  let alarmLimit ← readNat 3 240
  let alarmHold ← readNat 0 247
  if 250 < alarmLimit + alarmHold then failure
  let abortRamp ← readNat 1 5000
  let blendWindow ← readNat 0 5000
  let planFirst ← readNat 0 127
  let planLength ← readNat 1 32
  return {
    group := group
    record := {
      gain := gain, trimLimit := trimLimit, shareFloor := shareFloor, shareWindow := shareWindow,
      fightThreshold := fightThreshold, drawReference := drawReference, drawTarget := drawTarget,
      drawWindow := drawWindow, alarmLimit := alarmLimit, alarmHold := alarmHold, abortRamp := abortRamp,
      blendWindow := blendWindow, planFirst := planFirst, planLength := planLength } }

/-! ### Stage fields by kind (R88) -/

/-- The class of a field for a kind (R88). A conditional class comes down to one of these three by the controlling field
as it stands in the record. -/
inductive FieldClass where
  | required | optional | notAllowed
  deriving DecidableEq, Repr

/-- Class D, dwell (R88). -/
def dwellClass (r : StageRecord) : FieldClass :=
  match r.exit with
  | some .dwell | some .settled | some .dwellThenConfirm => .required
  | some .confirm => .notAllowed
  | none => .optional

/-- Class S, settle window (R88). -/
def settleClass (r : StageRecord) : FieldClass :=
  match r.exit with
  | some .settled => .required
  | some .dwell | some .confirm | some .dwellThenConfirm => .notAllowed
  | none => .optional

/-- Class X, excursion target (R88). -/
def targetClass (r : StageRecord) : FieldClass :=
  match r.faultAction with
  | some .excursion => .required
  | some .halt | some .trip => .notAllowed
  | none => .optional

/-- The thirteen rows of the table of R88, in its order: whether the field is present, and its class for the record's
kind. The ON of TRIM and TUNE is a field that is always present (R89): required, once ON is stored. -/
def StageRecord.fieldTable (r : StageRecord) : List (Bool × FieldClass) :=
  let k := r.kind
  let speeds := [StageKind.creep, .bump, .tune, .thread]
  let timed := [StageKind.pass, .trim, .creep, .thread]
  let tune : FieldClass := if k = .tune then .required else .notAllowed
  [ (r.target.isSome, if k ∈ speeds then .required else .notAllowed),
    (r.ramp.isSome, if k ∈ StageKind.handback :: speeds then .required else .notAllowed),
    (r.dwell.isSome, if k ∈ timed then dwellClass r else if k = .bump ∨ k = .tune then .required else .notAllowed),
    (r.exit.isSome, if k ∈ timed then .required else .notAllowed),
    (r.trims.isSome, if k = .empty then .notAllowed else .required),
    (r.cap.isSome, if k = .bump then .optional else .notAllowed),
    (r.settleWindow.isSome, if k ∈ timed then settleClass r else tune),
    (r.probeWindow.isSome, tune),
    (r.rippleLimit.isSome, tune),
    (r.retries.isSome, tune),
    (r.faultAction.isSome, if k = .empty then .notAllowed else .required),
    (r.excTarget.isSome, if k = .empty then .notAllowed else targetClass r),
    (r.next.isSome, if k = .empty then .notAllowed else .required) ]

/-- No field is present that the kind does not allow (R96), an EMPTY record's among them (R87). -/
def StageRecord.allowed (r : StageRecord) : Bool := r.fieldTable.all fun f => !(f.1 && decide (f.2 = .notAllowed))

/-- A dwell of 0 is refused with exit SETTLED or kind TUNE (R90). -/
def StageRecord.zeroDwell (r : StageRecord) : Bool :=
  decide (r.dwell = some 0 ∧ (r.exit = some .settled ∨ r.kind = .tune))

/-- The record SGW stores: ON in the trims field of TRIM and TUNE (R89). -/
def StageRecord.stored (r : StageRecord) : StageRecord :=
  if r.kind = .trim ∨ r.kind = .tune then { r with trims := some true } else r

/-- SGW's operands (6.5): the index and the record as written. -/
structure SgwOperands where
  index : Fin 128
  record : StageRecord
  deriving DecidableEq, Repr

/-- The ranges of R87, and the checks of R96. -/
def readSgw : Reader SgwOperands := do
  let index ← readNat 0 127
  let kind ← readEnum stageKinds
  let target ← readOpt (readInt (-300000) 300000)
  let ramp ← readOpt (readNat 1 5000)
  let dwell ← readOpt (readNat 0 65535)
  let exit ← readOpt (readEnum stageExits)
  let trims ← readOpt (readEnum trimsValues)
  let cap ← readOpt (readNat 0 4000)
  let settleWindow ← readOpt (readNat 1 500)
  let probeWindow ← readOpt (readNat 16 1024)
  let rippleLimit ← readOpt (readNat 1 65535)
  let retries ← readOpt (readNat 0 3)
  let faultAction ← readOpt (readEnum faultActions)
  let excTarget ← readOpt (readNat 0 255)
  let next ← readOpt (readEnum stageNexts)
  let record : StageRecord := {
    kind := kind, target := target, ramp := ramp, dwell := dwell, exit := exit, trims := trims, cap := cap,
    settleWindow := settleWindow, probeWindow := probeWindow, rippleLimit := rippleLimit, retries := retries,
    faultAction := faultAction, excTarget := excTarget, next := next }
  if !record.allowed || record.zeroDwell then failure
  return { index := Fin.ofNat 128 index, record := record }

/-- SGR's operands: a stage index and, optionally, a group number (R98). -/
structure SgrOperands where
  index : Fin 128
  group : Option GroupIx
  deriving DecidableEq, Repr

def readSgr : Reader SgrOperands := do
  let index ← readNat 0 127
  let group ← readOpt readGroup
  return { index := Fin.ofNat 128 index, group := group }

/-- OMW's operand: the mask, bit `i` the enable of index `i` (R83, R186). -/
def readMask : Reader (BitVec 32) := do
  let v ← readNat 0 4294967295
  return BitVec.ofNat 32 v

/-- PBS's operands (R142): probe, station index, window W, mode. -/
structure PbsOperands where
  probe : ProbeId
  station : StationIx
  window : Nat
  mode : ProbeMode
  deriving DecidableEq, Repr

def readPbs : Reader PbsOperands := do
  let probe ← readProbe
  let station ← readStation
  let window ← readNat 16 1024
  let mode ← readEnum probeModes
  return { probe := probe, station := station, window := window, mode := mode }

/-- CKS's operand: the check window, 5 to 500 ms (R157). -/
def readCheckWindow : Reader Nat := readNat 5 500

/-- CKA's operand: the answer, 16 bits (R158). -/
def readAnswer : Reader (BitVec 16) := do
  let v ← readNat 0 65535
  return BitVec.ofNat 16 v

/-- EVR's operand: the count, 1 to 8 (R177). -/
def readCount : Reader Nat := readNat 1 8

/-- LKW's operand: the cycle-loss time, 3 to 100 ms (R172). -/
def readLoss : Reader Nat := readNat 3 100

/-- BRS's operand: the scope (R180). -/
def readScope : Reader Scope := readEnum scopes

/-- No operands. -/
def readNothing : Reader Unit := pure ()

end Sys2Proof.Machine
end

