-- ==== Sys2Proof/Machine/Flags.lean ====
section
/-! DEFINITION. The condition flags and the two leaky counters: conditions at a station close (R35 to R37), the validity
step (R38 to R41), the flag pairs and the alarm step of a group (R37, R66, R67), clearing by CNR and GST (R44, R46) and
the group summary (R45). -/

namespace Sys2Proof.Machine

/-! ## Conditions of a station -/

/-- One or more feedback-quality conditions are present (3.1). -/
def Conditions.quality (c : Conditions) : Bool :=
  c.fbMissing || c.fbLate || c.fbOverrun || c.headroom || c.driveFault

/-- Each flag that is set in either (R37). -/
def Conditions.union (a b : Conditions) : Conditions :=
  ⟨a.fbMissing || b.fbMissing, a.fbLate || b.fbLate, a.fbOverrun || b.fbOverrun, a.headroom || b.headroom,
    a.driveFault || b.driveFault, a.speedDev || b.speedDev, a.runaway || b.runaway, a.shareDev || b.shareDev,
    a.fight || b.fight, a.direction || b.direction⟩

/-- Each flag that is set in both: what CNR leaves latched (R44). -/
def Conditions.inter (a b : Conditions) : Conditions :=
  ⟨a.fbMissing && b.fbMissing, a.fbLate && b.fbLate, a.fbOverrun && b.fbOverrun, a.headroom && b.headroom,
    a.driveFault && b.driveFault, a.speedDev && b.speedDev, a.runaway && b.runaway, a.shareDev && b.shareDev,
    a.fight && b.fight, a.direction && b.direction⟩

/-- The latch where it is fresh (R35). -/
def StationRun.freshLatch (r : StationRun) : Option Latch := if r.fresh then r.latch else none

/-- HEADROOM of a fresh latch (R35). -/
def headroomAt (c : StationConfig) (l : Latch) : Bool := decide (c.headroom < (surfaceTorque c.polarity l.torque).natAbs)

/-- SPEED_DEV of a fresh latch (R35). -/
def speedDevAt (c : StationConfig) (lastSent : Option Int) (l : Latch) : Bool :=
  match lastSent with
  | some sent => decide (c.window < (surfaceSpeed c.polarity l.speed - sent).natAbs)
  | none => false

/-- RUNAWAY of a fresh latch (R35). -/
def runawayAt (c : StationConfig) (l : Latch) : Bool := decide (c.overspeed < (surfaceSpeed c.polarity l.speed).natAbs)

/-- The present conditions a station close leaves: the seven station-close conditions of R26 and R35, and the three of
the group as they were (R36). -/
def closeConditions (c : StationConfig) (r : StationRun) (boundary : Bool) : Conditions :=
  match r.freshLatch with
  | some l =>
    { r.present with
      fbMissing := boundary, fbLate := r.late, fbOverrun := r.overrun, headroom := headroomAt c l,
      driveFault := l.status.fault, speedDev := speedDevAt c r.lastSent l, runaway := runawayAt c l }
  | none =>
    { r.present with
      fbMissing := boundary, fbLate := r.late, fbOverrun := r.overrun, headroom := false, driveFault := false,
      speedDev := false, runaway := false }

/-! ## The leaky counters -/

/-- One step of a leaky counter with limit `l` and hold `h` (R38, R66): up 3 and to `l + h` where that reaches `l`,
down 1 and not below 0. `tripped` is INVALID for a station and ALARM for a group; it becomes true at a rise that reaches
`l` and false at a fall that leaves the counter below `l`. -/
def leakyStep (l h counter : Nat) (tripped counts : Bool) : Nat × Bool :=
  if counts then if counter + 3 < l then (counter + 3, tripped) else (l + h, true)
  else (counter - 1, tripped && decide (l ≤ counter - 1))

/-- Step 2 of R42: the counter and the state after a close with the present conditions `p` (R38, R40, R41). -/
def validityStep (c : StationConfig) (r : StationRun) (p : Conditions) : Nat × Validity :=
  match r.validity with
  | .fatal => (r.counter, .fatal)
  | v =>
    if p.runaway then (255, .fatal)
    else
      let n := leakyStep c.limit c.hold r.counter (decide (v = .invalid)) p.quality
      (n.1, if n.2 then .invalid else .valid)

/-- The transition of a close: the state it made, or none where the state stays (R42). -/
def transitionOf (before after : Validity) : Option Validity := if before = after then none else some after

/-- Steps 1 and 2 of R42 on the runtime record: the conditions, the latched flags, the pending marks (R26) and the
counter. -/
def StationRun.closed (c : StationConfig) (r : StationRun) (boundary : Bool) : StationRun :=
  let p := closeConditions c r boundary
  let n := validityStep c r p
  { r with late := false, overrun := false, present := p, latched := r.latched.union p, counter := n.1, validity := n.2 }

/-- SHARE_DEV, FIGHT and DIRECTION as a group close delivers them (R36, R37). -/
def StationRun.delivered (r : StationRun) (shareDev fight direction : Bool) : StationRun :=
  let p := { r.present with shareDev := shareDev, fight := fight, direction := direction }
  { r with present := p, latched := r.latched.union p }

/-- CNR's clearing (R44). -/
def StationRun.cleared (r : StationRun) : StationRun := { r with latched := r.latched.inter r.present }

/-! ## Conditions of a group -/

/-- A group close sets a group flag (R37, R64). -/
def FlagPair.set (f : FlagPair) (present : Bool) : FlagPair := ⟨present, f.latched || present⟩

/-- GST's clearing (R46). -/
def FlagPair.cleared (f : FlagPair) : FlagPair := ⟨f.present, f.latched && f.present⟩

/-- A condition of a member counts for the alarm (R66). -/
def Conditions.process (c : Conditions) : Bool := c.speedDev || c.shareDev || c.fight || c.direction

def Bridge.memberPresent (b : Bridge) (i : StationIx) : Conditions :=
  match b.station i with
  | some st => st.run.present
  | none => Conditions.none

def Bridge.memberLatched (b : Bridge) (i : StationIx) : Conditions :=
  match b.station i with
  | some st => st.run.latched
  | none => Conditions.none

/-- A condition counts at this group close (R66). -/
def Bridge.alarmCounts (b : Bridge) (g : GroupIx) : Bool :=
  ((b.members g).any fun i => (b.memberPresent i).process) || (b.group g).draw.present

/-- The alarm step (R66, R67). -/
def Bridge.alarmStep (b : Bridge) (g : GroupIx) : Bridge :=
  let x := b.group g
  let n := leakyStep x.record.alarmLimit x.record.alarmHold x.alarmCounter x.alarm (b.alarmCounts g)
  b.setGroup g { x with alarmCounter := n.1, alarm := n.2 }

/-- The twelve flags of a group summary, in the order of 12.5 (R45). -/
def Bridge.summary (b : Bridge) (g : GroupIx) : List Bool :=
  ((b.members g).foldl (fun c i => c.union (b.memberLatched i)) Conditions.none).flags
    ++ [(b.group g).draw.latched, (b.group g).shareSuspended.latched]

end Sys2Proof.Machine
end

