-- ==== Sys2Proof/Machine/Probes.lean ====
section
/-! DEFINITION. The probe units and the Probe Arbiter (chapter 9): claims, grants, sampling, results, early ends. -/

namespace Sys2Proof.Machine

/-- The completed close record that the Validity Unit hands on (R42). -/
structure CloseRecord where
  station : StationIx
  cycle : CycleNo
  fresh : Bool
  validity : Validity
  transition : Option Validity
  present : Conditions
  deriving DecidableEq, Repr

/-! ## Ownership and the arbiter -/

/-- A probe is free for the arbiter: IDLE, or DONE with owner REQUEST (R141). -/
def Probe.free (p : Probe) : Bool :=
  match p.state, p.owner with
  | .idle, _ => true
  | .done, some (.request _) => true
  | _, _ => false

/-- The probe a group owns (R100, R141). -/
def Bridge.ownedProbe (b : Bridge) (g : GroupIx) : Option ProbeId :=
  if b.probe1.owner = some (.group g) then some .p1
  else if b.probe2.owner = some (.group g) then some .p2
  else none

/-- The lowest group of the waiting set (R144). -/
def Bridge.lowestWaiting (b : Bridge) : Option GroupIx := groupIxs.find? fun g => (b.group g).waiting

/-- A run starts: it takes the owner, the station, the mode and W, empties the accumulators and the completed
sub-windows and makes the result absent (R141 to R143). -/
def startedProbe (owner : ProbeOwner) (station : StationIx) (mode : ProbeMode) (window : Nat) : Probe :=
  { state := .running, owner := some owner, station := some station, mode := mode, window := window, sub := 1,
    acc := Accumulators.empty, completed := [], result := none }

/-- A probe is granted to a group: a FIXED run on its leader with the probe window of its current stage record; the
group's phase becomes PROBING and it leaves the waiting set (R143, R144). -/
def Bridge.grant (b : Bridge) (p : ProbeId) (g : GroupIx) : Bridge :=
  match b.leader g, (b.currentStage g).probeWindow with
  | some i, some w =>
    (b.setProbe p (startedProbe (.group g) i .fixed w)).modifyGroup g fun x =>
      { x with phase := some .probing, waiting := false }
  | _, _ => b

/-- A TUNE stage's claim (R143). -/
def Bridge.claim (b : Bridge) (g : GroupIx) : Bridge :=
  if b.probe1.free then b.grant .p1 g
  else if b.probe2.free then b.grant .p2 g
  else b.modifyGroup g fun x => { x with phase := some .waitProbe, waiting := true }

/-- A probe has become free: the arbiter grants it to the lowest waiting group, if any (R144). -/
def Bridge.probeFreed (b : Bridge) (p : ProbeId) : Bridge :=
  match b.lowestWaiting with
  | some g => b.grant p g
  | none => b

/-! ## Results (R147, R148) -/

/-- The result of a sub-window (R147). -/
def Accumulators.result (a : Accumulators) : SubResult :=
  let elapsed :=
    match a.firstTime, a.lastTime with
    | some t0, some t1 => if a.samples < 2 then none else some (t1 - t0).toNat
    | _, _ => none
  { closes := a.closes
    samples := a.samples
    meanTorque := if a.samples = 0 then none else some (a.torqueSum.tdiv a.samples)
    ripple :=
      match a.errorMin, a.errorMax with
      | some lo, some hi => if a.samples = 0 then none else some (hi - lo).toNat
      | _, _ => none
    crossings := a.crossings
    elapsed := elapsed
    frequency :=
      match elapsed with
      | some e => if e = 0 then none else some (a.crossings * 100000000 / (2 * e))
      | none => none }

/-- The length of a sub-window (R147, R148). -/
def Probe.length (p : Probe) : Nat :=
  match p.sub with
  | 2 => p.window + p.window / 4
  | 3 => p.window + p.window / 2
  | _ => p.window

/-- The median of three numbers (R148). -/
def median (a b c : Nat) : Nat := max (min a b) (min (max a b) c)

/-- The chosen sub-window, 1 to 3: the earliest whose ripple amplitude is the median of the three (R148). -/
def chosenSub (subs : List SubResult) : Option Nat :=
  match subs with
  | [x, y, z] =>
    match x.ripple, y.ripple, z.ripple with
    | some a, some b, some c =>
      let m := median a b c
      some (if a = m then 1 else if b = m then 2 else 3)
    | _, _, _ => none
  | _ => none

/-- The result record of a STEPPED run (R148, R149) that has ended with `subs`. With no chosen sub-window the crossings
are a free value (assumption log 15) and the other run-level fields are absent (assumption log 16). -/
def Probe.steppedResult (p : Probe) (id : ProbeId) (cycle : Option CycleNo) (outcome : Cause) (subs : List SubResult)
    (freeCrossings : Nat) : ProbeResult :=
  let chosen := if outcome = .completed then chosenSub subs else none
  let sub := chosen.bind fun n => subs[n - 1]?
  { probe := id, owner := p.owner, station := p.station, mode := p.mode, window := p.window, outcome := outcome
    cycle := cycle
    closes := (subs.map SubResult.closes).sum
    samples := (subs.map SubResult.samples).sum
    meanTorque := sub.bind SubResult.meanTorque
    ripple := sub.bind SubResult.ripple
    crossings := (sub.map SubResult.crossings).getD freeCrossings
    elapsed := sub.bind SubResult.elapsed
    frequency := sub.bind SubResult.frequency
    subs := subs
    chosen := chosen }

/-- The result record of a FIXED run (R147, R149). -/
def Probe.fixedResult (p : Probe) (id : ProbeId) (cycle : Option CycleNo) (outcome : Cause) : ProbeResult :=
  let r := p.acc.result
  { probe := id, owner := p.owner, station := p.station, mode := p.mode, window := p.window, outcome := outcome
    cycle := cycle, closes := r.closes, samples := r.samples, meanTorque := r.meanTorque, ripple := r.ripple
    crossings := r.crossings, elapsed := r.elapsed, frequency := r.frequency, subs := [], chosen := none }

/-- The result record that a run ending now leaves, with the sub-window in progress as its last one. -/
def Bridge.probeResult (b : Bridge) (id : ProbeId) (outcome : Cause) : ProbeResult :=
  let p := b.probe id
  match p.mode with
  | .fixed => p.fixedResult id b.tracker.cycle outcome
  | .stepped =>
    p.steppedResult id b.tracker.cycle outcome (p.completed ++ [p.acc.result])
      (Config.freeCrossings b.choiceCount).toNat

/-- A result whose crossings are free uses one free value up. -/
def ProbeResult.drawn (r : ProbeResult) : Nat := if r.mode = .stepped ∧ r.chosen = none then 1 else 0

/-! ## Ends of a run -/

/-- The run ends and the probe becomes DONE. A request-owned probe posts PROBE_DONE and is free (R147, R149, R153). -/
def Bridge.endRun (b : Bridge) (id : ProbeId) (outcome : Cause) : Bridge :=
  let p := b.probe id
  let r := b.probeResult id outcome
  let b := { b.setProbe id { p with state := .done, result := some r } with choiceCount := b.choiceCount + r.drawn }
  match p.owner with
  | some (.request tag) =>
    (b.post .probeDone (station := p.station) (tag := some tag) (cause := some outcome)).probeFreed id
  | _ => b

/-- The run ends with outcome CANCELLED: the probe becomes IDLE with no owner and keeps the result (R150, R151). -/
def Bridge.cancelRun (b : Bridge) (id : ProbeId) : Bridge :=
  let p := b.probe id
  let r := b.probeResult id .cancelled
  { b.setProbe id { p with state := .idle, owner := none, result := some r } with
    choiceCount := b.choiceCount + r.drawn }

/-- A DONE probe becomes IDLE with no owner; its result record stays (R113, R151, R152). -/
def Bridge.idleProbe (b : Bridge) (id : ProbeId) : Bridge :=
  b.setProbe id { b.probe id with state := .idle, owner := none }

/-- A group gives up the probe it owns, whatever its state, and the arbiter is answered; or it leaves the waiting set
(R151, R144). -/
def Bridge.releaseProbe (b : Bridge) (g : GroupIx) : Bridge :=
  let b := b.modifyGroup g fun x => { x with waiting := false }
  match b.ownedProbe g with
  | none => b
  | some p =>
    match (b.probe p).state with
    | .running => (b.cancelRun p).probeFreed p
    | _ => (b.idleProbe p).probeFreed p

/-! ## Sampling (R145) -/

def signOf (e : Int) : Option Sign := if e < 0 then some .neg else if 0 < e then some .pos else none

/-- A sample of the sub-window: steps 3 to 6 of R145. -/
def Accumulators.sample (a : Accumulators) (torque error : Int) (time : BitVec 32) : Accumulators :=
  { a with
    samples := a.samples + 1
    torqueSum := a.torqueSum + torque
    errorMin := some (match a.errorMin with | some lo => min lo error | none => error)
    errorMax := some (match a.errorMax with | some hi => max hi error | none => error)
    crossings :=
      match a.lastSign, signOf error with
      | some x, some y => if x = y then a.crossings else a.crossings + 1
      | _, _ => a.crossings
    lastSign := match signOf error with | some y => some y | none => a.lastSign
    firstTime := match a.firstTime with | some t => some t | none => some time
    lastTime := some time }

/-- A close counted in the sub-window: steps 1 to 6 of R145. -/
def Accumulators.count (a : Accumulators) (st : Station) (fresh : Bool) (time : BitVec 32) : Accumulators :=
  let a := { a with closes := a.closes + 1 }
  match fresh, st.run.latch, st.run.lastSent with
  | true, some l, some sent =>
    a.sample (surfaceTorque st.config.polarity l.torque) (surfaceSpeed st.config.polarity l.speed - sent) time
  | _, _, _ => a

/-- Step 7 of R145: the sub-window ends at its length, and with the last one the run (R147, R148). It is taken at a close
without a sample as well (assumption log 32). -/
def Bridge.endSubWindow (b : Bridge) (id : ProbeId) : Bridge :=
  let p := b.probe id
  if p.acc.closes ≠ p.length then b
  else if p.mode = .stepped ∧ p.sub < 3 then
    b.setProbe id
      { p with sub := p.sub + 1, acc := Accumulators.empty, completed := p.completed ++ [p.acc.result] }
  else b.endRun id .completed

/-- The transition ends a run (R149). -/
def endsRun : Option Validity → Bool
  | some .invalid | some .fatal => true
  | _ => false

/-- A completed close reaches a probe that runs on the station (R145, R149). -/
def Bridge.probeClose (b : Bridge) (id : ProbeId) (r : CloseRecord) : Bridge :=
  let p := b.probe id
  if p.state = .running ∧ p.station = some r.station then
    if endsRun r.transition then b.endRun id .invalidated
    else
      match b.station r.station with
      | some st => (b.setProbe id { p with acc := p.acc.count st r.fresh b.timeBase }).endSubWindow id
      | none => b
  else b

end Sys2Proof.Machine
end

