-- ==== Sys2Proof/Machine/Share.lean ====
section
/-! DEFINITION. Share evaluation, trims, draw and the delivery of group conditions: the group close's steps 1, 2, 3 and
5 (R54 to R64). -/

namespace Sys2Proof.Machine

/-! ## Share evaluation (R55 to R59) -/

/-- An evaluated member's close sample: VALID, fresh, HEADROOM clear (R55). -/
def RosterEntry.evaluated (e : RosterEntry) : Bool :=
  decide (e.sample.validity = .valid) && e.sample.fresh && !e.sample.headroom

/-- A roster member's torque clamped to its station's torque clamp (R56). -/
def Bridge.clampedTorque (b : Bridge) (e : RosterEntry) : Int :=
  match b.station e.station with
  | some st => clampAbs st.config.clamp (e.sample.torque.getD 0)
  | none => 0

/-- The nominal share of a station's entry, as it stands at the close (R53, R57). -/
def Bridge.nominalShare (b : Bridge) (i : StationIx) : Int :=
  match b.station i with
  | some st => st.config.share
  | none => 0

/-- The sum of the evaluated members' clamped torques (R56). -/
def Bridge.torqueTotal (b : Bridge) (roster : List RosterEntry) : Int :=
  ((roster.filter RosterEntry.evaluated).map b.clampedTorque).sum

/-- The outcome of the close (R55, R56). -/
def Bridge.shareOutcome (b : Bridge) (r : GroupRecord) (roster : List RosterEntry) : ShareOutcome :=
  let t := b.torqueTotal roster
  if roster.length < 2 then .single
  else if (roster.filter RosterEntry.evaluated).length < 2 then .suspended
  else if t.natAbs < r.shareFloor ∨ t = 0 then .belowFloor
  else .evaluated

/-- FIGHT (R58): of the opposite sign to T, with a magnitude above the fight threshold. -/
def fights (threshold : Nat) (torque total : Int) : Bool :=
  decide ((0 < torque ∧ total < 0 ∨ torque < 0 ∧ 0 < total) ∧ threshold < torque.natAbs)

/-- What an evaluated member gets at an EVALUATED close (R57, R58). -/
def judgeShare (r : GroupRecord) (torque total nominal : Int) : ShareJudgement :=
  let share := (torque * 1000).tdiv total
  let e := share - nominal
  { torque := torque, share := share, error := e, shareDev := decide (r.shareWindow < e.natAbs)
    fight := fights r.fightThreshold torque total }

/-- The share result of a group close with the roster that stands (R55 to R59). -/
def Bridge.shareResult (b : Bridge) (g : GroupIx) (cycle : CycleNo) : ShareResult :=
  let r := (b.group g).record
  let roster := (b.group g).roster
  let t := b.torqueTotal roster
  let outcome := b.shareOutcome r roster
  { cycle := cycle
    outcome := outcome
    total := if outcome = .single ∨ outcome = .suspended then none else some t
    members := roster.map fun e =>
      { station := e.station
        evaluated := e.evaluated
        judgement :=
          if outcome = .evaluated ∧ e.evaluated = true then
            some (judgeShare r (b.clampedTorque e) t (b.nominalShare e.station))
          else none } }

/-- What a share result gives a station; none where it judged none for it. -/
def ShareResult.judgement (r : ShareResult) (i : StationIx) : Option ShareJudgement :=
  (r.members.find? fun m => decide (m.station = i)).bind MemberShare.judgement

/-- Step 1 of R54. -/
def Bridge.evaluateShares (b : Bridge) (g : GroupIx) (cycle : CycleNo) : Bridge :=
  b.setGroup g { b.group g with shareResult := some (b.shareResult g cycle) }

/-! ## Trims (R60 to R62) -/

/-- The trim update of one evaluated member (R60, R61). -/
def updatedTrim (r : GroupRecord) (trim error : Int) : Int := clampAbs r.trimLimit (trim - (error * r.gain).tdiv 256)

/-- Step 2 of R54: the trims of the evaluated members, in RUNNING or HELD with trims on (R60). -/
def Bridge.updateTrims (b : Bridge) (g : GroupIx) : Bridge :=
  let x := b.group g
  match b.trimsOn g, x.shareResult with
  | true, some r =>
    b.mapMembers g fun i st =>
      match r.judgement i with
      | some j => { st with run := { st.run with trim := updatedTrim x.record st.run.trim j.error } }
      | none => st
  | _, _ => b

/-- The seeding of trims from learned offsets (R62). -/
def Bridge.seedTrims (b : Bridge) (g : GroupIx) : Bridge :=
  let limit := (b.group g).record.trimLimit
  b.mapMembers g fun _ st => { st with run := { st.run with trim := clampAbs limit st.config.offset } }

def Bridge.seedWhen (b : Bridge) (g : GroupIx) (seeds : Bool) : Bridge := if seeds then b.seedTrims g else b

/-- A trim limit that has been lowered clamps the members' trims (R69). -/
def Bridge.clampTrims (b : Bridge) (g : GroupIx) : Bridge :=
  let limit := (b.group g).record.trimLimit
  b.mapMembers g fun _ st => { st with run := { st.run with trim := clampAbs limit st.run.trim } }

/-! ## Closed leader speed and draw (R63, R64) -/

/-- The leader's surface speed from its close sample in this close, where the group has a leader whose sample shows
VALID and fresh (R63, R64). -/
def Bridge.leaderSample (b : Bridge) (g : GroupIx) : Option Int :=
  (b.leader g).bind fun i =>
    ((b.group g).roster.find? fun e => decide (e.station = i)).bind fun e =>
      if e.sample.validity = .valid ∧ e.sample.fresh = true then e.sample.speed else none

/-- The closed leader speed a draw may use at a close of `cycle`: of this cycle or the one before, and at least 500
(R64). -/
def Bridge.drawBase (b : Bridge) (ref : GroupIx) (cycle : CycleNo) : Option Int :=
  match (b.group ref).closedLeader with
  | some c => if (c.cycle = cycle ∨ c.cycle + 1#16 = cycle) ∧ 500 ≤ c.speed then some c.speed else none
  | none => none

/-- DRAW at this close (R64). -/
def Bridge.drawPresent (b : Bridge) (g : GroupIx) (cycle : CycleNo) : Bool :=
  let r := (b.group g).record
  match r.drawReference, r.drawTarget, b.leaderSample g with
  | some ref, some target, some v =>
    match b.drawBase ref cycle with
    | some base => decide (r.drawWindow < ((v * 10000).tdiv base - target).natAbs)
    | none => false
  | _, _, _ => false

/-- The closed leader speed of step 3 of R54 (R63). -/
def Bridge.recordLeader (b : Bridge) (g : GroupIx) (cycle : CycleNo) : Bridge :=
  match b.leaderSample g with
  | some v => b.setGroup g { b.group g with closedLeader := some ⟨v, cycle⟩ }
  | none => b

/-! ## Delivery (R36, step 5 of R54) -/

/-- Step 5 of R54: SHARE_DEV, FIGHT and DIRECTION for every member, DRAW and SHARE_SUSPENDED for the group. `failing` are
the members that fail the direction check. -/
def Bridge.deliver (b : Bridge) (g : GroupIx) (draw : Bool) (failing : List StationIx) : Bridge :=
  let x := b.group g
  let judged := fun i => x.shareResult.bind fun r => r.judgement i
  let suspended := decide (x.shareResult.map ShareResult.outcome = some .suspended)
  let b := b.setGroup g { x with draw := x.draw.set draw, shareSuspended := x.shareSuspended.set suspended }
  b.mapMembers g fun i st =>
    { st with
      run := st.run.delivered (((judged i).map ShareJudgement.shareDev).getD false)
        (((judged i).map ShareJudgement.fight).getD false) (decide (i ∈ failing)) }

end Sys2Proof.Machine
end

