-- ==== Sys2Proof/Machine/Stages.lean ====
section
/-! DEFINITION. The completeness check (R93, R94) and the stage machine: entry, progress, ends, fault actions,
excursions, returns, faults and unwinding (chapters 7 and 8). -/

namespace Sys2Proof.Machine

/-! ## Completeness and validation (R93, R94) -/

/-- A defect (R93). -/
inductive Defect where
  | indexOutsideStore
  | kindEmpty
  | fieldMissing (field : Nat)
  | targetOutsideStore
  | returnInPlan
  deriving DecidableEq, Repr

/-- The defect and field codes of R186. -/
def Defect.codes : Defect → Nat × Nat
  | .indexOutsideStore => (1, 0)
  | .kindEmpty => (2, 0)
  | .fieldMissing field => (3, field)
  | .targetOutsideStore => (4, 0)
  | .returnInPlan => (5, 0)

/-- COMPLETE is coded 0 (R186). -/
def verdictCodes : Option Defect → Nat × Nat
  | none => (0, 0)
  | some d => d.codes

/-- The first required field that is absent, 1 to 13 in the order of the table of R88. -/
def StageRecord.missingField (r : StageRecord) : Option Nat :=
  (r.fieldTable.findIdx? fun f => !f.1 && decide (f.2 = .required)).map (· + 1)

/-- The index lies in a plan range (R92). -/
def PlanRange.contains (p : PlanRange) (i : Nat) : Bool := decide (p.first ≤ i ∧ i < p.first + p.length)

/-- The last index of a plan range (R92). -/
def PlanRange.last (p : PlanRange) : Nat := p.first + p.length - 1

/-- The completeness check of a record against a plan range, or against no range (R93, R98); none is COMPLETE. -/
def Bridge.verdict (b : Bridge) (range : Option PlanRange) (i : Nat) : Option Defect :=
  let r := b.stageAt i
  if 128 ≤ i then some .indexOutsideStore
  else if r.kind = .empty then some .kindEmpty
  else
    match r.missingField with
    | some field => some (.fieldMissing field)
    | none =>
      if r.faultAction = some .excursion ∧ 128 ≤ r.excTarget.getD 0 then some .targetOutsideStore
      else if (range.map fun p => p.contains i) = some true ∧ r.next = some .ret then some .returnInPlan
      else none

/-- A group's plan range, as its record gives it (R92). -/
def GroupRecord.range (r : GroupRecord) : PlanRange := ⟨r.planFirst, r.planLength⟩

/-- The excursion targets below 128 that the records of a range name (R94). -/
def Bridge.namedTargets (b : Bridge) (p : PlanRange) : List Nat :=
  (List.range' p.first p.length).filterMap fun i =>
    let r := b.stageAt i
    if r.faultAction = some .excursion then r.excTarget.filter (· < 128) else none

/-- The checked set of R94, ascending. -/
def Bridge.checkedSet (b : Bridge) (p : PlanRange) : List Nat :=
  (List.range 128).filter fun i => p.contains i || decide (i ∈ b.namedTargets p)

/-- The validation of a plan (R94): the reported index and its defect, or none where the plan passes. -/
def Bridge.planDefect (b : Bridge) (p : PlanRange) : Option (Nat × Defect) :=
  if 127 < p.last then some (128, .indexOutsideStore)
  else (b.checkedSet p).findSome? fun i => (b.verdict (some p) i).map fun d => (i, d)

/-! ## Faults (R126) and becoming DONE or IDLE -/

/-- The commanded speed with which an unwind begins: C where the group was in mode SPEED, and the recorded master
reference where it was not (R120). -/
def Bridge.unwindStart (b : Bridge) (g : GroupIx) : Int :=
  if b.mode g = .speed then (b.group g).speed else (b.group g).reference

/-- FAULT with sub-state UNWINDING. -/
def DriveGroup.faultUnwinds (x : DriveGroup) : Bool :=
  match x.runState with
  | .fault _ .unwinding => true
  | _ => false

/-- The blend count at an entry into FAULT (R126): 0 where an unwind begins, and 0 where FAULT UNWINDING becomes FAULT
SETTLED, which keeps nothing of its unwind (assumption log 28); otherwise it stays. -/
def DriveGroup.faultBlend (x : DriveGroup) (sub : FaultSub) : Nat :=
  match sub with
  | .unwinding => if x.unwinds then x.blend else 0
  | .settled => if x.faultUnwinds then 0 else x.blend

/-- Entry into FAULT (R126). `stage` is the stage index GROUP_FAULT carries. -/
def Bridge.enterFault (b : Bridge) (g : GroupIx) (cause : Cause) (sub : FaultSub) (station : Option StationIx)
    (stage : Option Nat) : Bridge :=
  let x := b.group g
  let faulted : DriveGroup :=
    { x with
      runState := .fault cause sub, phase := none, stack := [], deferred := none
      speed := if sub = .unwinding then b.unwindStart g else x.speed
      blend := x.faultBlend sub }
  ((b.setGroup g faulted).postGroup .groupFault g stage (some cause) station).releaseProbe g

/-- Entry into FAULT with the current stage index. -/
def Bridge.fault (b : Bridge) (g : GroupIx) (cause : Cause) (sub : FaultSub) (station : Option StationIx := none) :
    Bridge :=
  b.enterFault g cause sub station (b.group g).stage

/-- A bypass cause that reaches a group in RUNNING, HELD, ABORTING or FAULT UNWINDING: FAULT SETTLED (R125). -/
def Bridge.bypass (b : Bridge) (cause : Cause) (station : Option StationIx) (g : GroupIx) : Bridge :=
  if (b.group g).active then b.fault g cause .settled station else b

/-- A bypass cause that reaches every group from one event, in ascending group number (R125). -/
def Bridge.bypassAll (b : Bridge) (cause : Cause) : Bridge := groupIxs.foldl (fun b g => b.bypass cause none g) b

/-- The group becomes DONE (R115). -/
def Bridge.becomeDone (b : Bridge) (g : GroupIx) : Bridge :=
  (b.modifyGroup g fun x => { x with runState := .done, phase := none, stack := [], deferred := none }).postGroup
    .planDone g

/-- The group becomes IDLE: its stage index, plan tag and plan range become absent (R119, R120). -/
def DriveGroup.toIdle (x : DriveGroup) : DriveGroup :=
  { x with
    runState := .idle, phase := none, stage := none, planTag := none, planRange := none, stack := [], deferred := none }

/-! ## Stage entry (R95, R103, R104, R109) -/

/-- The phase in which a stage begins, with C as it stands (R104). -/
def StageRecord.firstPhase (r : StageRecord) (speed : Int) : Phase :=
  let waits : Phase := if r.exit = some .confirm then .awaitConfirm else .dwell
  match r.kind with
  | .creep | .thread => if r.target = some speed then waits else .ramp
  | .bump => if r.target = some speed then .dwell else .rise
  | .tune => .settling
  | .handback => .blend
  | .pass | .trim | .empty => waits

/-- The settle count a stage starts with (R103). -/
def StageRecord.firstSettle (r : StageRecord) : Nat :=
  if r.exit = some .settled ∨ r.kind = .tune then r.dwell.getD 0 else 0

/-- The BUMP entry actuals: each member's surface actual speed as its latch stands (R109). -/
def Bridge.entryActuals (b : Bridge) (g : GroupIx) : List EntryActual :=
  (b.members g).map fun i =>
    { station := i
      speed := (b.station i).bind fun st => st.run.latch.map fun l => surfaceSpeed st.config.polarity l.speed }

/-- Step 6 of R103, for a BUMP stage. -/
def Bridge.recordEntry (b : Bridge) (g : GroupIx) (r : StageRecord) : Bridge :=
  if r.kind = .bump then
    let actuals := b.entryActuals g
    b.modifyGroup g fun x => { x with bumpEntry := some x.speed, bumpActuals := actuals }
  else b

/-- Steps 1 to 7 of R103, of a record that has passed its check. `wasSpeed` and `hadTrims` are the mode SPEED and trims
ON of the group just before the entry. -/
def Bridge.beginStage (b : Bridge) (g : GroupIx) (i : Nat) (wasSpeed hadTrims : Bool) : Bridge :=
  let r := b.stageAt i
  let b := b.modifyGroup g fun x => { x with stage := some i, runState := .running }
  let b := b.postGroup .stageEntered g (some i)
  let b := b.modifyGroup g fun x =>
    { x with
      dwell := r.dwell.getD 0, settle := r.firstSettle, blend := 0
      retries := if r.kind = .tune then r.retries.getD 0 else x.retries
      speed := if r.mode = .speed ∧ wasSpeed = false then x.reference else x.speed }
  let b := (b.seedWhen g (r.trimsOn && !hadTrims)).recordEntry g r
  b.modifyGroup g fun x => { x with phase := some (r.firstPhase x.speed) }

/-- A stage entry (R95, R103). -/
def Bridge.enterStage (b : Bridge) (g : GroupIx) (i : Nat) : Bridge :=
  match b.verdict (b.group g).planRange i with
  | some _ => b.enterFault g .stageInvalid .unwinding none (some i)
  | none => b.beginStage g i (decide (b.mode g = .speed)) (b.trimsOn g)

/-! ## Excursions (R130 to R133) -/

/-- The frame for the current stage (R130). -/
def Bridge.frameOf (b : Bridge) (g : GroupIx) (i : Nat) (phase : Phase) : StackFrame :=
  let x := b.group g
  { stage := i
    phase := phase
    dwell := x.dwell
    retries := if (b.stageAt i).kind = .tune then x.retries else 0
    origin := if (x.planRange.map fun p => p.contains i) = some true then .plan else .excursion }

/-- The group takes an excursion to `target` (R131). -/
def Bridge.takeExcursion (b : Bridge) (g : GroupIx) (target : Nat) (cause : Cause) (station : Option StationIx) :
    Bridge :=
  match (b.group g).stage, (b.group g).phase with
  | some i, some ph =>
    let frame := b.frameOf g i ph
    let b := b.modifyGroup g fun x => { x with stack := frame :: x.stack }
    let b := b.releaseProbe g
    (b.postGroup .excursionTaken g (some target) (some cause) station).enterStage g target
  | _, _ => b

/-- A deferred TUNE_FAILED sends the stage back to SETTLING (R133). -/
def Bridge.resettle (b : Bridge) (g : GroupIx) : Bridge :=
  let dwell := (b.currentStage g).dwell.getD 0
  b.modifyGroup g fun x => { x with phase := some .settling, settle := dwell }

/-- The excursion is deferred, or overflows (R133). -/
def Bridge.deferExcursion (b : Bridge) (g : GroupIx) (target : Nat) (cause : Cause) (station : Option StationIx) :
    Bridge :=
  match (b.group g).deferred, (b.group g).stage with
  | some _, _ => b.fault g .excursionOverflow .unwinding station
  | none, some i =>
    let b := b.modifyGroup g fun x => { x with deferred := some ⟨target, i, cause, station⟩ }
    let b := b.postGroup .excursionPending g (some target) (some cause) station
    if cause = .tuneFailed then b.resettle g else b
  | none, none => b

/-- A fault trigger under the current stage's fault action (R123, R124). -/
def Bridge.takeFaultAction (b : Bridge) (g : GroupIx) (cause : Cause) (station : Option StationIx := none) : Bridge :=
  let r := b.currentStage g
  match r.faultAction with
  | none => b
  | some .halt => b.fault g cause .unwinding station
  | some .trip => (b.fault g cause .settled station).sendTrip .stage
  | some .excursion =>
    if (b.group g).isHeld then b.fault g cause .unwinding station
    else
      match r.excTarget with
      | none => b
      | some target =>
        if (b.group g).stack.length < Config.stackDepth then b.takeExcursion g target cause station
        else b.deferExcursion g target cause station

/-! ## Stage end and return (R115, R134 to R137) -/

/-- The phase of a resumed stage (R136). -/
def StageRecord.resumedPhase (r : StageRecord) (speed : Int) (pushed : Phase) : Phase :=
  match r.kind with
  | .creep | .thread =>
    if (pushed = .dwell ∨ pushed = .awaitConfirm) ∧ r.target ≠ some speed then .ramp else pushed
  | .bump => if r.target = some speed then .dwell else .rise
  | .tune => .settling
  | .handback => .blend
  | .pass | .trim | .empty => pushed

/-- The counts and the phase of a resumed stage (R136); a count its row does not name is kept (assumption log 11). -/
def DriveGroup.resumed (x : DriveGroup) (r : StageRecord) (f : StackFrame) : DriveGroup :=
  { x with
    phase := some (r.resumedPhase x.speed f.phase)
    dwell :=
      match r.kind with
      | .pass | .trim | .creep | .thread => f.dwell
      | .bump => r.dwell.getD 0
      | .tune | .handback | .empty => x.dwell
    settle := if r.exit = some .settled ∨ r.kind = .tune then r.dwell.getD 0 else x.settle
    retries := if r.kind = .tune then f.retries else x.retries
    blend := if r.kind = .handback then 0 else x.blend }

/-- The top frame is popped and its stage resumed: steps 1 to 5 of R135 (R136). -/
def Bridge.resume (b : Bridge) (g : GroupIx) (f : StackFrame) (rest : List StackFrame) : Bridge :=
  let r := b.stageAt f.stage
  let popped := b.modifyGroup g fun x =>
    { x with stack := rest, stage := some f.stage, runState := .running }.resumed r f
  ((popped.recordEntry g r).seedWhen g (r.trimsOn && !b.trimsOn g)).postGroup .excursionReturn g (some f.stage)

/-- A return (R135, R137). -/
def Bridge.returnTo (b : Bridge) (g : GroupIx) (f : StackFrame) (rest : List StackFrame) : Bridge :=
  let b := b.resume g f rest
  if (b.group g).alarm then b.takeFaultAction g .alarm else b

/-- RETURN: the deferred excursion in place of a return, or a return (R134, R135). It meets one of the two (R138); with
neither, nothing happens (assumption log 17). -/
def Bridge.endWithReturn (b : Bridge) (g : GroupIx) : Bridge :=
  match (b.group g).deferred, (b.group g).stack with
  | some d, _ =>
    let b := b.modifyGroup g fun x => { x with deferred := none }
    (b.postGroup .excursionTaken g (some d.target) (some d.cause) d.station).enterStage g d.target
  | none, f :: rest => b.returnTo g f rest
  | none, [] => b

/-- The stage ends (R115). -/
def Bridge.endStage (b : Bridge) (g : GroupIx) : Bridge :=
  match (b.group g).stage with
  | none => b
  | some i =>
    let next := (b.stageAt i).next
    let b := b.postGroup .stageDone g (some i)
    match next with
    | some .next =>
      if ((b.group g).planRange.map PlanRange.last) = some i then b.becomeDone g else b.enterStage g (i + 1)
    | some .fin => b.becomeDone g
    | some .ret => b.endWithReturn g
    | none => b

/-! ## Stage progress (R105 to R114) -/

/-- The close is settled (R108). -/
def ShareResult.settled (r : ShareResult) (window : Nat) : Bool :=
  match r.outcome with
  | .single => true
  | .evaluated => r.members.all fun m =>
      match m.judgement with
      | some j => decide (j.error.natAbs ≤ window)
      | none => true
  | .suspended | .belowFloor => false

/-- The settle count is taken; the result says whether the settle condition is met (R108). -/
def Bridge.takeSettle (b : Bridge) (g : GroupIx) : Bridge × Bool :=
  let r := b.currentStage g
  let x := b.group g
  let settled := (x.shareResult.map fun s => s.settled (r.settleWindow.getD 0)) = some true
  if settled then (b.setGroup g { x with settle := x.settle - 1 }, decide (x.settle - 1 = 0))
  else (b.setGroup g { x with settle := r.dwell.getD 0 }, false)

/-- The dwell count is taken (R107); the result says whether the phase ends. -/
def Bridge.takeDwell (b : Bridge) (g : GroupIx) : Bridge × Bool :=
  let x := b.group g
  (b.setGroup g { x with dwell := x.dwell - 1 }, decide (x.dwell - 1 = 0))

def Bridge.setPhase (b : Bridge) (g : GroupIx) (p : Phase) : Bridge :=
  b.modifyGroup g fun x => { x with phase := some p }

/-- A ramp step of C toward `target` (R106). -/
def Bridge.rampTo (b : Bridge) (g : GroupIx) (target : Int) (rate : Nat) : Bridge :=
  b.modifyGroup g fun x => { x with speed := approach x.speed target rate }

/-- RAMP and RISE (R106). -/
def Bridge.progressRamp (b : Bridge) (g : GroupIx) : Bridge :=
  let r := b.currentStage g
  match r.target, r.ramp with
  | some target, some rate =>
    let b := b.rampTo g target rate
    if (b.group g).speed = target then b.setPhase g (if r.exit = some .confirm then .awaitConfirm else .dwell) else b
  | _, _ => b

/-- DWELL (R107, R108, R110). -/
def Bridge.progressDwell (b : Bridge) (g : GroupIx) : Bridge :=
  let r := b.currentStage g
  if r.kind = .bump then
    let n := b.takeDwell g
    if n.2 then n.1.setPhase g .fall else n.1
  else
    match r.exit with
    | some .dwell =>
      let n := b.takeDwell g
      if n.2 then n.1.endStage g else n.1
    | some .dwellThenConfirm =>
      let n := b.takeDwell g
      if n.2 then n.1.setPhase g .awaitConfirm else n.1
    | some .settled =>
      let n := b.takeSettle g
      if n.2 then n.1.endStage g else n.1
    | some .confirm | none => b

/-- FALL (R111). -/
def Bridge.progressFall (b : Bridge) (g : GroupIx) : Bridge :=
  match (b.group g).bumpEntry, (b.currentStage g).ramp with
  | some entry, some rate =>
    let b := b.rampTo g entry rate
    if (b.group g).speed = entry then b.endStage g else b
  | _, _ => b

/-- SETTLING (R106, R108, R112). -/
def Bridge.progressSettling (b : Bridge) (g : GroupIx) : Bridge :=
  let r := b.currentStage g
  match r.target, r.ramp with
  | some target, some rate =>
    if (b.group g).speed = target then
      let n := b.takeSettle g
      if n.2 then n.1.claim g else n.1
    else b.rampTo g target rate
  | _, _ => b

/-- Each member's learned offset becomes its trim (R113). -/
def Bridge.learnOffsets (b : Bridge) (g : GroupIx) : Bridge :=
  b.mapMembers g fun _ st => { st with config := { st.config with offset := st.run.trim } }

/-- The probe's result lets a TUNE stage learn (R113, R147): COMPLETED, with a ripple amplitude within the limit. -/
def ProbeResult.passes (r : ProbeResult) (limit : Nat) : Bool :=
  match r.ripple with
  | some a => decide (r.outcome = .completed ∧ a ≤ limit)
  | none => false

/-- The stage judges the result it has taken (R113). -/
def Bridge.judgeProbe (b : Bridge) (g : GroupIx) (passes : Bool) : Bridge :=
  if passes then ((b.learnOffsets g).postGroup .offsetLearned g (b.group g).stage).endStage g
  else if 0 < (b.group g).retries then
    (b.modifyGroup g fun x => { x with retries := x.retries - 1 }).resettle g
  else b.takeFaultAction g .tuneFailed

/-- PROBING (R113). -/
def Bridge.progressProbing (b : Bridge) (g : GroupIx) : Bridge :=
  match b.ownedProbe g with
  | none => b.resettle g
  | some p =>
    if (b.probe p).state = .done then
      let limit := (b.currentStage g).rippleLimit.getD 0
      let passes := ((b.probe p).result.map fun r => r.passes limit) = some true
      ((b.idleProbe p).probeFreed p).judgeProbe g passes
    else b

/-- The blend count after a step of C, and whether it has reached 4 (R114, R120). -/
def Bridge.takeBlend (b : Bridge) (g : GroupIx) : Bridge × Bool :=
  let x := b.group g
  let n := if (x.speed - x.reference).natAbs ≤ x.record.blendWindow then x.blend + 1 else 0
  (b.setGroup g { x with blend := n }, decide (n = 4))

/-- BLEND (R114). -/
def Bridge.progressBlend (b : Bridge) (g : GroupIx) : Bridge :=
  match (b.currentStage g).ramp with
  | some rate =>
    let n := (b.rampTo g (b.group g).reference rate).takeBlend g
    if n.2 then n.1.endStage g else n.1
  | none => b

/-- The progress of the current stage of a RUNNING group (step 2 of R105). -/
def Bridge.progress (b : Bridge) (g : GroupIx) : Bridge :=
  match (b.group g).phase with
  | some .ramp | some .rise => b.progressRamp g
  | some .dwell => b.progressDwell g
  | some .fall => b.progressFall g
  | some .settling => b.progressSettling g
  | some .probing => b.progressProbing g
  | some .blend => b.progressBlend g
  | some .awaitConfirm | some .waitProbe | none => b

/-! ## The unwind (R120) -/

/-- The unwind has reached its fourth close: an ABORTING group becomes IDLE, a FAULT settles (R120). -/
def Bridge.endUnwind (b : Bridge) (g : GroupIx) : Bridge :=
  match (b.group g).runState with
  | .fault cause _ => b.modifyGroup g fun x => { x with runState := .fault cause .settled }
  | _ => (b.postGroup .planAborted g).modifyGroup g DriveGroup.toIdle

/-- The unwind step (R120). -/
def Bridge.unwindStep (b : Bridge) (g : GroupIx) : Bridge :=
  let n := (b.rampTo g (b.group g).reference (b.group g).record.abortRamp).takeBlend g
  if n.2 then n.1.endUnwind g else n.1

/-! ## The direction check (R110) -/

/-- The next close is the last DWELL close of a BUMP stage (R107, R110). -/
def Bridge.atDirectionCheck (b : Bridge) (g : GroupIx) : Bool :=
  let x := b.group g
  x.isRunning && decide ((b.currentStage g).kind = .bump ∧ x.phase = some .dwell ∧ x.dwell ≤ 1)

/-- A member passes: its speed has changed in the sense of the bump (R110). -/
def hasSense (bump change : Int) : Bool := decide (0 < bump ∧ 0 < change ∨ bump < 0 ∧ change < 0)

/-- A roster member fails the direction check (R110). -/
def DriveGroup.failsDirection (x : DriveGroup) (bump : Int) (e : RosterEntry) : Bool :=
  match e.sample.speed, (x.bumpActuals.find? fun a => decide (a.station = e.station)).bind EntryActual.speed with
  | some v, some v0 =>
    decide (e.sample.validity = .valid) && e.sample.fresh && decide (bump ≠ 0) && !hasSense bump (v - v0)
  | _, _ => false

/-- The members that fail the direction check of this close, ascending (R110). -/
def Bridge.failingMembers (b : Bridge) (g : GroupIx) : List StationIx :=
  let x := b.group g
  match b.atDirectionCheck g, (b.currentStage g).target, x.bumpEntry with
  | true, some target, some entry =>
    (b.members g).filter fun i =>
      x.roster.any fun e => decide (e.station = i) && x.failsDirection (target - entry) e
  | _, _, _ => []

/-- Step 7 of R54: triggers, then progress or the unwind (R105). The run state is read once, at the start of the step: a
group that step 2 itself puts in FAULT UNWINDING makes its first unwind step at its next close (assumption log 29). -/
def Bridge.stageProgress (b : Bridge) (g : GroupIx) (failing : List StationIx) (alarmSet : Bool) : Bridge :=
  let x := b.group g
  match x.inPlan, failing with
  | true, i :: _ => b.takeFaultAction g .direction (some i)
  | true, [] =>
    if alarmSet then b.takeFaultAction g .alarm
    else if x.isRunning then b.progress g
    else b
  | false, _ => if x.unwinds then b.unwindStep g else b

end Sys2Proof.Machine
end

