-- ==== Sys2Proof/Machine/Closes.lean ====
section
/-! DEFINITION. Closes: the group close (R54), the member's close record at its group (R52), a station leaving a group
(R53), the station close and its hand-on (R26, R42), the boundary (R20) and the pending sets (R51). -/

namespace Sys2Proof.Machine

/-! ## The group close (R54) -/

/-- The roster that has formed becomes the close roster, in ascending station index, and the group awaits no close
(R52, R54). -/
def DriveGroup.takeRoster (x : DriveGroup) : DriveGroup :=
  { x with
    roster := stationIxs.filterMap fun i => x.forming.find? fun e => decide (e.station = i)
    forming := [], pendingSet := none }

/-- Steps 1 to 5 of R54, with the members that fail the direction check. -/
def Bridge.judgeGroup (b : Bridge) (g : GroupIx) (cycle : CycleNo) : Bridge × List StationIx :=
  let b := (b.modifyGroup g DriveGroup.takeRoster).evaluateShares g cycle
  let b := (b.updateTrims g).recordLeader g cycle
  let failing := b.failingMembers g
  (b.deliver g (b.drawPresent g cycle) failing, failing)

/-- The group close for a cycle (R54). -/
def Bridge.groupClose (b : Bridge) (g : GroupIx) (cycle : CycleNo) : Bridge :=
  let j := b.judgeGroup g cycle
  let stepped := j.1.alarmStep g
  stepped.stageProgress g j.2 ((stepped.group g).alarm && !(j.1.group g).alarm)

/-! ## A member's close record at its group (R52) -/

/-- Step 1 of R52: MEMBER_LOST in a speed-override stage (R121), MEMBER_FATAL (R125). -/
def Bridge.groupTransition (b : Bridge) (g : GroupIx) (r : CloseRecord) : Bridge :=
  match r.transition with
  | some .invalid =>
    if (b.group g).inPlan && (b.currentStage g).kind.overridesSpeed then
      b.takeFaultAction g .memberLost (some r.station)
    else b
  | some .fatal => b.bypass .memberFatal (some r.station) g
  | some .valid | none => b

/-- The close sample (R52). -/
def Bridge.closeSample (b : Bridge) (r : CloseRecord) : CloseSample :=
  let value := fun f : Polarity → Latch → Int =>
    (b.station r.station).bind fun st => st.run.latch.map fun l => f st.config.polarity l
  { validity := r.validity, fresh := r.fresh, headroom := r.present.headroom
    speed := value fun p l => surfaceSpeed p l.speed
    torque := value fun p l => surfaceTorque p l.torque }

/-- Steps 2 and 3 of R52. -/
def Bridge.countClose (b : Bridge) (g : GroupIx) (r : CloseRecord) : Bridge :=
  match (b.group g).pendingSet with
  | none => b
  | some p =>
    if p.cycle = r.cycle ∧ r.station ∈ p.stations then
      let rest := p.stations.erase r.station
      let sample := b.closeSample r
      let b := b.modifyGroup g fun x =>
        { x with
          forming := x.forming ++ [⟨r.station, sample⟩]
          pendingSet := if rest = [] then none else some ⟨p.cycle, rest⟩ }
      if rest = [] then b.groupClose g p.cycle else b
    else b

/-- The Group Controller receives a member's completed close record (R52). -/
def Bridge.groupReceives (b : Bridge) (g : GroupIx) (r : CloseRecord) : Bridge := (b.groupTransition g r).countClose g r

/-- A station leaves a group (R53). -/
def Bridge.leaveGroup (b : Bridge) (g : GroupIx) (i : StationIx) : Bridge :=
  match (b.group g).pendingSet with
  | none => b
  | some p =>
    let rest := p.stations.erase i
    let formed := (b.group g).forming.filter fun e => decide (e.station ≠ i)
    let b := b.modifyGroup g fun x =>
      { x with forming := formed, pendingSet := if rest = [] then none else some ⟨p.cycle, rest⟩ }
    if rest = [] ∧ formed ≠ [] then b.groupClose g p.cycle else b

/-! ## The station close (R26, R42) -/

/-- A block that receives a completed close (R42). -/
inductive Recipient where
  | group (g : GroupIx)
  | probe (p : ProbeId)
  deriving DecidableEq, Repr

/-- A probe is RUNNING on the station. -/
def Bridge.runsOn (b : Bridge) (i : StationIx) (p : ProbeId) : Bool :=
  decide ((b.probe p).state = .running ∧ (b.probe p).station = some i)

/-- The probes that are RUNNING on the station. -/
def Bridge.runsHeld (b : Bridge) (i : StationIx) : List ProbeId := [ProbeId.p1, .p2].filter (b.runsOn i)

/-- The station's group, and each probe that is RUNNING on the station (R42). -/
def Bridge.recipients (b : Bridge) (r : CloseRecord) (group : Option GroupIx) : List Recipient :=
  (group.toList.map Recipient.group) ++ ((b.runsHeld r.station).map Recipient.probe)

/-- A recipient takes the close. The second part of `h` is the probes whose run the hand-on found and no reaction to the
close has ended: a run that the group's reaction to its transition ends (R52, R151) is not reached by the close, nor is a
run that the group's close then starts on the same probe (R145, R149). -/
def Bridge.receive (r : CloseRecord) (x : Recipient) (h : Bridge × List ProbeId) : Bridge × List ProbeId :=
  match x with
  | .group g => (h.1.groupReceives g r, h.2.filter ((h.1.groupTransition g r).runsOn r.station))
  | .probe p => (if p ∈ h.2 then h.1.probeClose p r else h.1, h.2)

/-- Step 5 of R42: the completed close is handed on, with no order between its recipients. -/
def Bridge.handOn (b : Bridge) (r : CloseRecord) (group : Option GroupIx) : Bridge :=
  let blocks := b.recipients r group
  (inFreeOrder (fun _ _ => true) (fun n (h : Bridge × List ProbeId) => ((h.1.choose n).1, ((h.1.choose n).2, h.2)))
    (Bridge.receive r) blocks.length blocks (b, b.runsHeld r.station)).1

/-- Step 3 of R42 (R43). -/
def Bridge.postValidity (b : Bridge) (i : StationIx) (group : Option GroupIx) (transition : Option Validity) : Bridge :=
  match transition with
  | some .invalid => b.post .stationInvalid group (some i)
  | some .valid => b.post .stationValid group (some i)
  | some .fatal => b.post .stationFatal group (some i) (cause := some .runaway)
  | none => b

/-- The record of a close that took the runtime from `before` to `after` (R42). -/
def closeRecord (i : StationIx) (cycle : CycleNo) (before after : StationRun) : CloseRecord :=
  { station := i, cycle := cycle, fresh := after.fresh, validity := after.validity
    transition := transitionOf before.validity after.validity, present := after.present }

/-- The station close (R26, R42). -/
def Bridge.stationClose (b : Bridge) (i : StationIx) (cycle : CycleNo) (boundary : Bool) : Bridge :=
  match b.station i with
  | none => b
  | some st =>
    let run := st.run.closed st.config boundary
    let r := closeRecord i cycle st.run run
    let b := (b.setStation i (some { st with run := run })).postValidity i st.config.group r.transition
    let b := if r.transition = some .fatal then b.sendTrip .runaway else b
    b.handOn r st.config.group

/-! ## The boundary (R20) and the pending sets (R51) -/

/-- The entries that close at the boundary (R20). -/
def Bridge.openStations (b : Bridge) : List StationIx :=
  stationIxs.filter fun i => decide ((b.station i).map (fun st => st.run.mark) = some .isOpen)

/-- Step 2 of R20 for every BOUND entry. -/
def Bridge.openCycle (b : Bridge) : Bridge :=
  b.mapStations fun _ st => { st with run := { st.run with fresh := false, mark := .isOpen } }

/-- Each group forms the pending set of the new cycle (R51). -/
def Bridge.formPending (b : Bridge) (cycle : CycleNo) : Bridge :=
  b.mapGroups fun g x =>
    { x with pendingSet := if b.members g = [] then none else some ⟨cycle, b.members g⟩, forming := [] }

end Sys2Proof.Machine
end

