-- ==== Sys2Proof/Machine/Rewriter.lean ====
section
/-! DEFINITION. The Reference Rewriter (chapter 5) and the composition of the Status frame (R179, 12.5). -/

namespace Sys2Proof.Machine

/-! ## Treating a slot (R73 to R78) -/

/-- The conditions of R75 for a slot of the station at `i` in group `g`. -/
def Bridge.mayAlter (b : Bridge) (i : StationIx) (g : GroupIx) : Bool :=
  decide (b.tracker.sync = .synced) && decide (b.check.state = .running) && b.release && b.mask.getLsbD i.val
    && decide (b.mode g ≠ .none)

/-- The group for which a station's slot is altered; none where the slot is PASSED (R73). -/
def Bridge.alteringGroup (b : Bridge) (i : StationIx) : Option GroupIx :=
  ((b.station i).bind fun st => st.config.group).filter fun g => b.mayAlter i g

/-- The speed reference of R76, before the clamp. -/
def Bridge.formSpeed (b : Bridge) (g : GroupIx) (st : Station) (m : Int) : Int :=
  let x := b.group g
  let p := st.config.polarity
  match b.mode g with
  | .speed => if b.trimsOn g then signed p (x.speed + st.run.trim) else signed p x.speed
  | .trims => m + signed p st.run.trim
  | .none => m

/-- The torque cap that stands (R77). -/
def Bridge.torqueCap (b : Bridge) (g : GroupIx) : Option Nat :=
  if (b.group g).inPlan && decide ((b.currentStage g).kind = .bump) then (b.currentStage g).cap else none

/-- The torque limit of an altered slot (R77, R78). -/
def Bridge.formTorque (b : Bridge) (g : GroupIx) (m : BitVec 16) : BitVec 16 :=
  match b.torqueCap g with
  | some cap => if cap < m.toNat then BitVec.ofNat 16 cap else m
  | none => m

/-- An ALTERED slot (R76 to R78). -/
def Bridge.alterSlot (b : Bridge) (g : GroupIx) (st : Station) (x : Slot) : Slot :=
  { x with
    speed := BitVec.ofInt 24 (clampSpeed (b.formSpeed g st x.speed.toInt))
    torqueLimit := b.formTorque g x.torqueLimit }

/-- A slot as it leaves (R73). -/
def Bridge.treatSlot (b : Bridge) (x : Slot) : Slot :=
  match b.boundTo x.addr with
  | none => x
  | some i =>
    match b.alteringGroup i, b.station i with
    | some g, some st => b.alterSlot g st x
    | _, _ => x

/-- The last slot with an address, in slot order (R73). -/
def lastSlot (slots : List Slot) (a : Byte) : Option Slot := (slots.filter fun x => decide (x.addr = a)).getLast?

/-! ## Records (R79, R80) -/

/-- The last sent reference of a BOUND entry, from the slots as they leave (R79). -/
def lastSentOf (treated : List Slot) (st : Station) : Option Int :=
  (lastSlot treated st.config.address).map fun x => surfaceSpeed st.config.polarity x.speed.toInt

/-- The last treatment of a BOUND entry's index (R79). -/
def Bridge.treatmentOf (b : Bridge) (slots : List Slot) (i : StationIx) (st : Station) : Treatment :=
  match lastSlot slots st.config.address with
  | none => .noSlot
  | some _ => if (b.alteringGroup i).isSome then .altered else .passed

/-- The records of R79 for every BOUND entry, for slots that leave as `treated`. -/
def Bridge.recordSent (b : Bridge) (slots treated : List Slot) : Bridge :=
  let treatments := Vector.ofFn fun i : StationIx =>
    match b.station i with
    | some st => some (b.treatmentOf slots i st)
    | none => b.treatments[i]
  { b.mapStations fun _ st => { st with run := { st.run with lastSent := lastSentOf treated st } } with
    treatments := treatments }

/-- The master reference the frame holds for a group: that of the last slot addressed to its leader (R80). -/
def Bridge.masterSpeed (b : Bridge) (slots : List Slot) (g : GroupIx) : Option Int :=
  (b.leader g).bind fun i =>
    (b.station i).bind fun st =>
      (lastSlot slots st.config.address).map fun x => surfaceSpeed st.config.polarity x.speed.toInt

/-- The recorded master references after an arrival (R80). -/
def Bridge.recordMasters (b : Bridge) (number : CycleNo) (slots : List Slot) : Bridge :=
  b.mapGroups fun g x =>
    match b.masterSpeed slots g with
    | some v => { x with masterRef := some ⟨v, number⟩ }
    | none => x

/-! ## The Status frame (R179, 12.5) -/

/-- A group block (12.5). The phase is shown in RUNNING and HELD (R179). -/
def Bridge.groupBlock (b : Bridge) (g : GroupIx) : List Byte :=
  let x := b.group g
  putByte x.runState.code ++ putByte (if x.inPlan then phaseCode x.phase else 0) ++ putByte (x.stage.getD 255)
    ++ putByte x.stack.length ++ putFlag x.deferred.isSome ++ putSpeed x.speed ++ putFlag x.alarm
    ++ be16 (BitVec.ofNat 16 (bitmask (b.summary g)))

/-- A station entry (12.5). -/
def Bridge.stationByte (b : Bridge) (i : StationIx) : List Byte :=
  match b.station i with
  | none => putByte 0
  | some st => putByte (st.run.validity.code + 1)

/-- The flags byte (12.5). -/
def Link.flagBits (l : Link) (eventsLost : Bool) : Nat :=
  bitmask [l.frameErrorLine.on, l.frameErrorDrive.on, l.upCongestion.on, l.downCongestion.on, l.slip.on,
    l.requestDiscarded.on, eventsLost]

/-- The 131 bytes of a Status frame's body (12.5). -/
def statusBody (l : Link) (b : Bridge) : List Byte :=
  be16 (b.tracker.cycle.getD 0) ++ putFlag (decide (b.tracker.sync = .synced)) ++ putByte b.check.state.code
    ++ be16 b.check.challenge ++ [b.check.sequence] ++ putByte b.trip.code ++ putFlag b.release
    ++ groupIxs.flatMap b.groupBlock ++ stationIxs.flatMap b.stationByte ++ putByte b.events.length
    ++ putByte (l.flagBits b.eventsLost)

/-- A Status frame (R5, R179). -/
def statusFrame (address : Byte) (l : Link) (b : Bridge) : Frame := ⟨0#8, address, kindStatus, statusBody l b⟩

end Sys2Proof.Machine
end

