-- ==== Sys2Proof/Machine/Resets.lean ====
section
/-! DEFINITION. The resets (R180 to R184) and the commands PIN_RESET_ASSERT and PIN_RESET_RELEASE. -/

namespace Sys2Proof.Machine

/-- The runtime record of a new binding (R30), with the trim of a station that joins a group (R49). -/
def StationRun.newBinding : StationRun :=
  { mark := .exempt, latch := none, fresh := false, late := false, overrun := false, lastSent := none, counter := 0
    validity := .valid, present := Conditions.none, latched := Conditions.none, trim := 0 }

/-- FULL (R182): every piece takes its pin-reset value. The RELEASE level is that of the input (R163). -/
def Bridge.resetFull (b : Bridge) : Bridge :=
  { Bridge.reset with release := b.release, choices := b.choices, choiceCount := b.choiceCount }

/-- TABLES_KEPT (R182): the station configurations, the group records, the Stage Store and the Override Mask are kept
(R34, R72, R86, R99). -/
def Bridge.resetKept (b : Bridge) : Bridge :=
  { b.resetFull with
    stations := Vector.ofFn fun i : StationIx => (b.station i).map fun st => ⟨st.config, StationRun.newBinding⟩
    groups := Vector.ofFn fun g : GroupIx => DriveGroup.fresh (b.group g).record
    store := b.store
    mask := b.mask }

def Bridge.resetTo (b : Bridge) : Scope → Bridge
  | .full => b.resetFull
  | .tablesKept => b.resetKept

/-- The address the straps give (R187). -/
def strapAddress (a b : Strap) : Byte :=
  match a, b with
  | .isOpen, .isOpen => 121#8
  | .tiedLow, .isOpen => 122#8
  | .isOpen, .tiedLow => 123#8
  | .tiedLow, .tiedLow => 124#8

/-- A bridge reset takes effect (R182, R184, R187). -/
def State.bridgeReset (s : State) (scope : Scope) : State :=
  { s with
    resetPending := none, address := strapAddress s.strapA s.strapB, link := Link.reset
    bridge := s.bridge.resetTo scope }

/-- PIN_RESET_ASSERT (R183): the values of FULL, which stand while the input stays asserted. An input that is asserted
already gives no edge (assumption log 5). -/
def execPinResetAssert (s : State) : Host.Outcome State Fault Refusal :=
  .next
    (if s.resetAsserted then s
    else { s with resetAsserted := true, resetPending := none, link := Link.reset, bridge := s.bridge.resetFull })

/-- PIN_RESET_RELEASE (R183): the bridge takes frames from the next arrival, with the address the straps give. -/
def execPinResetRelease (s : State) : Host.Outcome State Fault Refusal :=
  .next (if s.resetAsserted then { s with resetAsserted := false, address := strapAddress s.strapA s.strapB } else s)

end Sys2Proof.Machine
end

