-- ==== Sys2Proof/Machine/Timers.lean ====
section
/-! DEFINITION. The timers, the console check's failure and the RELEASE input: CYCLE_LOSS_EXPIRY, CHECK_DEADLINE_EXPIRY,
RELEASE_FALL, RELEASE_RISE, and the microsecond that passes when no command waits. -/

namespace Sys2Proof.Machine

/-- The cycle-loss timer is RUNNING. -/
def CycleTimer.isRunning : CycleTimer → Bool
  | .running _ => true
  | .stopped | .expired => false

/-- Loss of sync (R16): the tracker is UNSYNCED with run count 0, LINK_LOST is posted, and cause LINK reaches the
groups. -/
def Bridge.loseSync (b : Bridge) : Bridge :=
  ({ b with tracker := { b.tracker with sync := .unsynced, runCount := 0 } }.post .linkLost).bypassAll .link

/-- The cycle-loss timer expires (R13). -/
def Bridge.cycleLoss (b : Bridge) : Bridge :=
  if b.tracker.timer.isRunning then
    let e := { b with tracker := { b.tracker with timer := .expired, runCount := 0 } }
    if e.tracker.sync = .synced then e.loseSync else e
  else b

/-- The console check becomes FAILED (R160). -/
def Bridge.failCheck (b : Bridge) (reason : FailureReason) (tag : Option Byte) : Bridge :=
  let cause : Cause := match reason with | .expiry => .expiry | .wrongAnswer => .wrongAnswer
  let b := { b with check := { b.check with state := .failed, deadline := none, reason := some reason } }
  ((b.post .checkFailed (tag := tag) (cause := some cause)).sendTrip .console).bypassAll .console

/-- The deadline timer expires while the check is RUNNING (R159). -/
def Bridge.deadlineExpiry (b : Bridge) : Bridge :=
  if b.check.state = .running ∧ b.check.deadline.isSome = true then b.failCheck .expiry none else b

/-- CYCLE_LOSS_EXPIRY (R13). A timer that is not RUNNING does not expire (assumption log 5). -/
def execCycleLossExpiry (s : State) : Host.Outcome State Fault Refusal := .next (s.withBridge s.bridge.cycleLoss)

/-- CHECK_DEADLINE_EXPIRY (R159). A timer that is not RUNNING does not expire (assumption log 5). -/
def execCheckDeadlineExpiry (s : State) : Host.Outcome State Fault Refusal :=
  .next (s.withBridge s.bridge.deadlineExpiry)

/-- RELEASE_FALL (R162). -/
def execReleaseFall (s : State) : Host.Outcome State Fault Refusal :=
  .next (if s.bridge.release then s.withBridge ({ s.bridge with release := false }.bypassAll .release) else s)

/-- RELEASE_RISE (R163). -/
def execReleaseRise (s : State) : Host.Outcome State Fault Refusal :=
  .next (s.withBridge { s.bridge with release := true })

/-! ## A microsecond (assumption log 4) -/

/-- A running timer has one microsecond less to run. -/
def CycleTimer.tick : CycleTimer → CycleTimer
  | .running n => .running (n - 1)
  | t => t

/-- The two timers. -/
inductive TimerAct where
  | loss | deadline
  deriving DecidableEq, Repr

/-- The timers that have run their full time. -/
def Bridge.dueTimers (b : Bridge) : List TimerAct :=
  (if b.tracker.timer = .running 0 then [.loss] else [])
    ++ (if b.check.state = .running ∧ b.check.deadline = some 0 then [.deadline] else [])

def Bridge.expire (a : TimerAct) (b : Bridge) : Bridge :=
  match a with
  | .loss => b.cycleLoss
  | .deadline => b.deadlineExpiry

/-- A microsecond passes: the time base counts (R146) and the timers that reach the end of their time expire, in a free
order. No timer runs while the RESET input is asserted (R183), and the time base stays at its reset value. -/
def Bridge.microsecond (b : Bridge) : Bridge :=
  let b :=
    { b with
      timeBase := b.timeBase + 1#32
      tracker := { b.tracker with timer := b.tracker.timer.tick }
      check := { b.check with deadline := b.check.deadline.map (· - 1) } }
  let due := b.dueTimers
  inFreeOrder (fun _ _ => true) (fun n b => b.choose n) Bridge.expire due.length due b

/-- What a step does when no command waits. -/
def State.tick (s : State) : State := if s.resetAsserted then s else s.withBridge s.bridge.microsecond

end Sys2Proof.Machine
end

