-- ==== Sys2Proof/WellFormed.lean ====
section
/-! DEFINITION. Which commands are well formed: each row of the table names an event with conditions on the frame it
carries, and a command that carries a frame against them names no event of the part. -/

namespace Sys2Proof

/-- A Request body fits a frame (12.1: body length 0 to 65535). -/
abbrev fitsBody (n : Nat) : Bool := decide (n ≤ 65535)

/-- Well-formedness of a command: the conditions its row puts on the frame it carries, apart from those on the state.
A Cycle Frame has 1 to 48 slots (R1); a forwarded frame is of a kind its port does not act on (R2, R3); a frame in
error fails its check (R1); an unknown service's body names no service (R170); a body fits a frame (12.1). -/
def Instr.wellFormed (i : Instr) : Bool :=
  match i with
  | .cycleFrameArrival _ _ _ slots => decide (1 ≤ slots.length ∧ slots.length ≤ 48)
  | .feedbackFrameArrival _ _ _ _ _ _ _ => true
  | .frameForwarded .line f => fitsBody f.body.length && decide (f.kind ≠ kindCycle) && f.bodyPasses
  | .frameForwarded .drive f => fitsBody f.body.length && decide (f.kind ≠ kindFeedback) && f.bodyPasses
  | .frameError _ received => (Frame.ofBytes received).isNone
  | .frameDiscardedResetPending _ _ => true
  | .requestDiscarded _ body => fitsBody body.length
  | .unknownService src body => fitsBody body.length && (knownRequest src body).isNone
  | .drivePortTransmissionEnd | .linePortTransmissionEnd | .cycleLossExpiry | .checkDeadlineExpiry
  | .releaseFall | .releaseRise | .pinResetAssert | .pinResetRelease => true
  | .stw _ _ ops | .str _ _ ops | .stc _ _ ops | .cnr _ _ ops | .grw _ _ ops | .grr _ _ ops | .omw _ _ ops
  | .omr _ _ ops | .sgw _ _ ops | .sgr _ _ ops | .pls _ _ ops | .plh _ _ ops | .plr _ _ ops | .plc _ _ ops
  | .pla _ _ ops | .gst _ _ ops | .pbs _ _ ops | .pbc _ _ ops | .pbr _ _ ops | .cks _ _ ops | .cka _ _ ops
  | .ckx _ _ ops | .tpc _ _ ops | .evr _ _ ops | .lkw _ _ ops | .idr _ _ ops | .brs _ _ ops =>
    fitsBody (ops.length + 2)

end Sys2Proof
end

