-- ==== Sys2Proof/Machine/Arrivals.lean ====
section
/-! DEFINITION. Arrivals that are not service requests, and the ends of transmissions: CYCLE_FRAME_ARRIVAL,
FEEDBACK_FRAME_ARRIVAL, FRAME_FORWARDED, FRAME_ERROR, FRAME_DISCARDED_RESET_PENDING, DRIVE_PORT_TRANSMISSION_END and
LINE_PORT_TRANSMISSION_END. -/

namespace Sys2Proof.Machine

/-! ## Discarded and forwarded frames -/

/-- FRAME_ERROR of a port is latched (R1, R10). -/
def Link.latchError (l : Link) : Port → Link
  | .line => { l with frameErrorLine := l.frameErrorLine.latch }
  | .drive => { l with frameErrorDrive := l.frameErrorDrive.latch }

/-- The queue toward the other port (R2, R3). -/
def Link.forward (l : Link) (f : Frame) : Port → Link
  | .line => l.sendDown f
  | .drive => l.sendUp f

/-- The conditions of R1 on the content of a frame. -/
def framePasses (f : Frame) : Bool := fitsBody f.body.length && f.bodyPasses

/-- Frames the bridge acts on at a port (R2, R3). -/
def actedOn (f : Frame) (address : Byte) : Port → Bool
  | .line => decide (f.kind = kindCycle ∨ (f.kind = kindRequest ∧ f.dst = address))
  | .drive => decide (f.kind = kindFeedback)

/-- FRAME_FORWARDED (R2, R3, R4). A frame that the bridge acts on is not the one this command names (assumption
log 5). -/
def execFrameForwarded (port : Port) (frame : Frame) (s : State) : Host.Outcome State Fault Refusal :=
  .next
    (if s.held then s
    else if !framePasses frame then s.withLink (s.link.latchError port)
    else if actedOn frame s.address port then s
    else s.withLink (s.link.forward frame port))

/-- FRAME_ERROR (R1). A run of bytes that passes its check is not the one this command names (assumption log 5). -/
def execFrameError (port : Port) (received : List Byte) (s : State) : Host.Outcome State Fault Refusal :=
  .next (if s.held || (Frame.ofBytes received).isSome then s else s.withLink (s.link.latchError port))

/-- FRAME_DISCARDED_RESET_PENDING (R1, R180, R183): the frame is discarded without a check and latches no flag. -/
def execFrameDiscardedResetPending (_port : Port) (_received : List Byte) (s : State) :
    Host.Outcome State Fault Refusal :=
  .next s

/-! ## Cycle Frames (R11 to R15) -/

/-- A Cycle Frame numbered `n` is good against the previous number `p` (R11). -/
def Tracker.good (t : Tracker) (p : Option CycleNo) (n : CycleNo) : Bool :=
  t.timer.isRunning && decide (p.map (· + 1#16) = some n)

/-- The frame is a slip (R12). -/
def Tracker.slips (t : Tracker) (p : Option CycleNo) (n : CycleNo) : Bool :=
  decide (t.sync = .synced) && decide (p.map (· + 2#16) = some n)

/-- The timer restarts with the setting that stands (R13, R14). -/
def Tracker.restart (t : Tracker) : Tracker := { t with timer := .running (t.setting * 1000) }

/-- The tracker's step for a frame numbered `n`, with the previous number `p` (R11, R12, R13). -/
def Bridge.trackerStep (b : Bridge) (p : Option CycleNo) (n : CycleNo) : Bridge :=
  let t := b.tracker
  let b := { b with tracker := { t.restart with cycle := some n } }
  match t.sync with
  | .unsynced =>
    if t.good p n then
      let b := { b with tracker := { b.tracker with runCount := t.runCount + 1 } }
      if t.runCount + 1 = 8 then { b with tracker := { b.tracker with sync := .synced } }.post .linkSynced else b
    else { b with tracker := { b.tracker with runCount := 0 } }
  | .synced => if p.map (· + 1#16) = some n ∨ t.slips p n = true then b else b.loseSync

/-- What a Cycle Frame arrival causes (R15): the tracker's step, the boundary close of each OPEN entry (R20), the record
of the master references (R80), the treatment of the slots (R73) and the Status frame (R178). -/
inductive CycleAct where
  | tracker
  | boundary (i : StationIx)
  | record
  | treat
  | status
  deriving DecidableEq, Repr

/-- The order that R15, R80 and R178 lay down among them: the Rewriter and the Status frame come after the tracker's
step, and a master reference is recorded before its slot is treated. All other orders are free (R15, R16, R20, R81). -/
def cycleReady (rest : List CycleAct) : CycleAct → Bool
  | .tracker | .boundary _ => true
  | .record | .status => decide (CycleAct.tracker ∉ rest)
  | .treat => decide (CycleAct.tracker ∉ rest ∧ CycleAct.record ∉ rest)

/-- The Cycle Frame, the previous cycle number and the bridge's address, for the acts of an arrival. -/
structure CycleContext where
  dst : Byte
  src : Byte
  number : CycleNo
  slots : List Slot
  previous : Option CycleNo
  address : Byte
  deriving DecidableEq, Repr

/-- One act of a Cycle Frame arrival, on the link and the bridge behind it. -/
def cycleAct (c : CycleContext) (a : CycleAct) (x : Link × Bridge) : Link × Bridge :=
  match a with
  | .tracker =>
    (if x.2.tracker.slips c.previous c.number then { x.1 with slip := x.1.slip.latch } else x.1,
      x.2.trackerStep c.previous c.number)
  | .boundary i =>
    match c.previous with
    | some p => (x.1, x.2.stationClose i p true)
    | none => x
  | .record => (x.1, x.2.recordMasters c.number c.slots)
  | .treat =>
    let treated := c.slots.map x.2.treatSlot
    (x.1.sendDown (cycleFrame c.dst c.src c.number treated), x.2.recordSent c.slots treated)
  | .status => ((x.1.mapFlags PortFlag.carry).sendStatus (statusFrame c.address x.1 x.2), x.2)

/-- The acts of an arrival: the boundary closes are those of the entries OPEN for the ending cycle (R15, R20). -/
def cycleActs (c : CycleContext) (b : Bridge) : List CycleAct :=
  let closing := match c.previous with | some _ => b.openStations | none => []
  .tracker :: (closing.map CycleAct.boundary) ++ [.record, .treat, .status]

/-- A Cycle Frame that passes its check begins a new cycle (R15). Its number is current for every event the arrival
posts (R43, assumption log 24); after the acts every entry is OPEN (R20) and the pending sets are formed (R51). -/
def beginCycle (c : CycleContext) (x : Link × Bridge) : Link × Bridge :=
  let acts := cycleActs c x.2
  let b := { x.2 with tracker := { x.2.tracker with cycle := some c.number } }
  let y := inFreeOrder cycleReady
    (fun n (y : Link × Bridge) => ((y.2.choose n).1, (y.1, (y.2.choose n).2))) (cycleAct c) acts.length acts (x.1, b)
  (y.1, y.2.openCycle.formPending c.number)

/-- CYCLE_FRAME_ARRIVAL (R15). A slot count outside 1 to 48 fails the check (R1). -/
def execCycleFrameArrival (dst src : Byte) (number : CycleNo) (slots : List Slot) (s : State) :
    Host.Outcome State Fault Refusal :=
  let c : CycleContext := ⟨dst, src, number, slots, s.bridge.tracker.cycle, s.address⟩
  .next
    (if s.held then s
    else if slots.length < 1 ∨ 48 < slots.length then s.withLink (s.link.latchError .line)
    else { s with link := (beginCycle c (s.link, s.bridge)).1, bridge := (beginCycle c (s.link, s.bridge)).2 })

/-! ## Feedback Frames (R21 to R25) -/

/-- The tag of a validity state (12.3). -/
def Validity.tag : Validity → Byte
  | .valid => 1#8
  | .invalid => 2#8
  | .fatal => 3#8

/-- The bridge tag a Feedback Frame from `src` receives on its arrival (R21, R25). -/
def Bridge.feedbackTag (b : Bridge) (src : Byte) : Byte :=
  match (b.boundTo src).bind b.station with
  | some st => st.run.validity.tag
  | none => 4#8

/-- The four status bits the bridge reads (12.3). -/
def driveStatus (status : Byte) : DriveStatus :=
  ⟨status.getLsbD 0, status.getLsbD 1, status.getLsbD 2, status.getLsbD 3⟩

/-- The feedback that arrived, as the latch takes it (R22). -/
def feedbackLatch (number : CycleNo) (speed : BitVec 24) (torque : BitVec 16) (status : Byte) : Latch :=
  ⟨number, speed.toInt, torque.toInt, driveStatus status⟩

/-- What an arrival does to the runtime record, apart from the close (R22, R23, R24). `current` says that the frame
carries the current cycle number. -/
def StationRun.feedback (r : StationRun) (current : Bool) (l : Latch) : StationRun :=
  if current then
    match r.mark with
    | .isOpen => { r with latch := some l, fresh := true, mark := .closed }
    | .closed => { r with latch := some l, overrun := true }
    | .exempt => { r with latch := some l, fresh := true }
  else { r with late := true }

/-- Feedback Intake's work on an arrival from `src` (R21 to R24). -/
def Bridge.takeFeedback (b : Bridge) (src : Byte) (l : Latch) : Bridge :=
  match b.boundTo src with
  | none => b
  | some i =>
    match b.station i with
    | none => b
    | some st =>
      let current := decide (b.tracker.cycle = some l.cycle)
      let b := b.setStation i (some { st with run := st.run.feedback current l })
      if current ∧ st.run.mark = .isOpen then b.stationClose i l.cycle false else b

/-- FEEDBACK_FRAME_ARRIVAL (R21 to R25): Intake takes the frame, the bridge tag is set to the state before a close it
causes, and the frame is forwarded. -/
def execFeedbackFrameArrival (dst src : Byte) (number : CycleNo) (speed : BitVec 24) (torque : BitVec 16)
    (status _tag : Byte) (s : State) : Host.Outcome State Fault Refusal :=
  let tagged := feedbackFrame dst src number speed torque status (s.bridge.feedbackTag src)
  .next
    (if s.held then s
    else
      { s with
        link := s.link.sendUp tagged
        bridge := s.bridge.takeFeedback src (feedbackLatch number speed torque status) })

/-! ## Ends of transmissions -/

/-- DRIVE_PORT_TRANSMISSION_END (R6). -/
def execDrivePortTransmissionEnd (s : State) : Host.Outcome State Fault Refusal := .next (s.withLink s.link.driveEnd)

/-- LINE_PORT_TRANSMISSION_END (R9, R10, R182). -/
def execLinePortTransmissionEnd (s : State) : Host.Outcome State Fault Refusal :=
  .next
    (match s.link.lineTx, s.resetPending with
    | some (.own (.brsReply _)), some scope => s.bridgeReset scope
    | _, _ => s.withLink s.link.lineEnd)

end Sys2Proof.Machine
end

