-- ==== Sys2Proof/Machine/Responder.lean ====
section
/-! DEFINITION. The Service Responder: admission (R169), answers and Replies (R170, R171, 12.4), and the commands
REQUEST_DISCARDED and UNKNOWN_SERVICE. -/

namespace Sys2Proof.Machine

/-- The refusal codes (12.4). -/
inductive RefusalCode where
  | unknownService | badOperand | noSuchEntry | locked | notSynced | notReleased | checkNotRunning | checkFailedBefore
  | busy | wrongState | wrongOwner | planInvalid | sharesInvalid | memberDisabled | memberNotValid | notAwaiting
  | wrongAnswer | late
  deriving DecidableEq, Repr

def RefusalCode.code : RefusalCode → Nat
  | .unknownService => 1
  | .badOperand => 2
  | .noSuchEntry => 3
  | .locked => 4
  | .notSynced => 5
  | .notReleased => 6
  | .checkNotRunning => 7
  | .checkFailedBefore => 8
  | .busy => 9
  | .wrongState => 10
  | .wrongOwner => 11
  | .planInvalid => 12
  | .sharesInvalid => 13
  | .memberDisabled => 14
  | .memberNotValid => 15
  | .notAwaiting => 16
  | .wrongAnswer => 17
  | .late => 18

/-- What a service answers (R171): DONE or ACCEPTED with its result fields, or REFUSED with the refusal's detail. -/
inductive Answer where
  | done (fields : List Byte)
  | accepted (fields : List Byte)
  | refused (code : RefusalCode) (detail : List Byte)
  deriving DecidableEq, Repr

/-- Status, refusal code, and detail or result fields (12.4). -/
def Answer.bytes : Answer → List Byte
  | .done fields => putByte 1 ++ putByte 0 ++ fields
  | .accepted fields => putByte 2 ++ putByte 0 ++ fields
  | .refused code detail => putByte 3 ++ putByte code.code ++ detail

/-- A Reply frame (R5, R171, 12.4). -/
def replyFrame (address src tag code : Byte) (a : Answer) : Frame := ⟨src, address, kindReply, tag :: code :: a.bytes⟩

/-- What a service does: its answer, and the bridge it leaves (R170). -/
abbrev Service := Bridge → Answer × Bridge

/-- A service that is refused and changes nothing (R171). -/
def refuse (code : RefusalCode) (detail : List Byte := []) : Service := fun b => (.refused code detail, b)

/-- A service with operands: those that do not decode give BAD_OPERAND as the first check (R170, R186). -/
def withOperands {α : Type} (read : Reader α) (operands : List Byte) (f : α → Service) : Service :=
  match decodeOperands read operands with
  | some a => f a
  | none => refuse .badOperand

/-- Admission (R169, R180): while frames are held nothing is taken; with four Replies waiting the Request is discarded
and REQUEST_DISCARDED is latched; otherwise the Request is taken. -/
def State.offer (s : State) (take : State → State) : State :=
  if s.held then s
  else if Config.replyCapacity ≤ s.link.waitingReplies then
    s.withLink { s.link with requestDiscarded := s.link.requestDiscarded.latch }
  else take s

/-- A Request with service code `code` that is taken: the service acts, and its Reply enters the local queue (R171). -/
def State.answer (s : State) (src tag code : Byte) (f : Service) : State :=
  { s with
    link := s.link.sendReply (.reply (replyFrame s.address src tag code (f s.bridge).1))
    bridge := (f s.bridge).2 }

/-- A Request offered to the Responder (R169 to R171). -/
def State.serve (s : State) (src tag code : Byte) (f : Service) : State := s.offer fun s => s.answer src tag code f

/-- REQUEST_DISCARDED (R169). A Request that would be taken is not the one this command names (assumption log 5). -/
def execRequestDiscarded (_src : Byte) (_body : List Byte) (s : State) : Host.Outcome State Fault Refusal :=
  .next (s.offer fun s => s)

/-- UNKNOWN_SERVICE (R170). A body that names a service is not the one this command names (assumption log 5). -/
def execUnknownService (src : Byte) (body : List Byte) (s : State) : Host.Outcome State Fault Refusal :=
  let tag := body.headD 0#8
  let code := body.tail.headD 0#8
  .next (if (knownRequest src body).isSome then s else s.serve src tag code (refuse .unknownService))

end Sys2Proof.Machine
end

