-- ==== Sys2Proof/Machine/TableServices.lean ====
section
/-! DEFINITION. The services of the tables: STW, STR, STC, CNR, GRW, GRR, OMW, OMR, SGW, SGR. -/

namespace Sys2Proof.Machine

/-! ## Reply fields of a station (R31, R44) -/

/-- The fields of STR: FREE or BOUND, then every configuration field and every runtime field, each present or absent
(R31, R186; assumption log 12). -/
def stationFields (x : Option Station) : List Byte :=
  let config := fun put : StationConfig → List Byte => putOpt (fun st : Station => put st.config) x
  let run := fun put : StationRun → List Byte => putOpt (fun st : Station => put st.run) x
  let latch := fun put : Latch → List Byte => putOpt put (x.bind fun st => st.run.latch)
  putFlag x.isSome
    ++ config (fun c => [c.address]) ++ config (fun c => putByte (groupOrNone c.group))
    ++ config (fun c => putByte c.role.code) ++ config (fun c => putNat 1000 c.share)
    ++ config (fun c => putInt (-1) 1 (polarities c.polarity)) ++ config (fun c => putNat 3000 c.clamp)
    ++ config (fun c => putNat 4000 c.headroom) ++ config (fun c => putNat 50000 c.window)
    ++ config (fun c => putNat 300000 c.overspeed) ++ config (fun c => putByte c.limit)
    ++ config (fun c => putByte c.hold) ++ config (fun c => putInt (-3000) 3000 c.offset)
    ++ run (fun r => putByte r.mark.code)
    ++ latch (fun l => putCycle l.cycle) ++ latch (fun l => putSpeed l.speed) ++ latch (fun l => putTorque l.torque)
    ++ latch (fun l => putByte l.status.code)
    ++ run (fun r => putFlag r.fresh) ++ run (fun r => putFlag r.late) ++ run (fun r => putFlag r.overrun)
    ++ putOpt putSpeed (x.bind fun st => st.run.lastSent)
    ++ run (fun r => putByte r.counter) ++ run (fun r => putByte r.validity.code)

/-- The fields of CNR: one byte for each present and each latched value (R44; assumption log 35). -/
def conditionFields (r : StationRun) : List Byte :=
  putByte r.counter ++ putByte r.validity.code ++ putConditions r.present ++ putConditions r.latched

/-! ## STW (R28 to R30, R49, R53, R80) -/

/-- The drive address is held by another BOUND entry, or the group has six other members (R28). -/
def Bridge.stwConflict (b : Bridge) (o : StwOperands) : Bool :=
  (match b.boundTo o.config.address with
    | some j => decide (j ≠ o.index)
    | none => false)
  || (match o.config.group with
    | some g => decide (6 ≤ ((b.members g).filter fun i => decide (i ≠ o.index)).length)
    | none => false)

/-- A group is locked: a run state other than IDLE or DONE (R29). -/
def Bridge.locked (b : Bridge) (g : Option GroupIx) : Bool :=
  match g with
  | some g => !(b.group g).unlocked
  | none => false

/-- The write changes the drive address of a BOUND entry (R29, R30). -/
def movesStation (before : Option Station) (address : Byte) : Bool :=
  match before with
  | some st => decide (st.config.address ≠ address)
  | none => false

/-- A probe is RUNNING on the entry (R29, R32). -/
def Bridge.probed (b : Bridge) (i : StationIx) : Bool :=
  [ProbeId.p1, .p2].any fun p => decide ((b.probe p).state = .running ∧ (b.probe p).station = some i)

/-- The group field of an entry. -/
def groupOf (x : Option Station) : Option GroupIx := x.bind fun st => st.config.group

/-- The station of the entry is FATAL. -/
def isFatal (x : Option Station) : Bool := decide (x.map (fun st => st.run.validity) = some .fatal)

/-- The runtime record after a rewrite in place (R30, R36, R49). -/
def StationRun.rewritten (r : StationRun) (before after : StationConfig) : StationRun :=
  let r := if before.polarity = after.polarity then r else { r with lastSent := none }
  if before.group = after.group then r
  else
    { r with trim := 0, present := { r.present with shareDev := false, fight := false, direction := false } }

/-- The entry a write leaves (R30): a rewrite in place, or a new binding. An absent learned offset operand keeps the
offset where the drive address is kept, and gives 0 otherwise. -/
def writtenStation (before : Option Station) (config : StationConfig) (offset : Option Int) : Station :=
  match before with
  | some st =>
    if st.config.address = config.address then
      let config := { config with offset := offset.getD st.config.offset }
      ⟨config, st.run.rewritten st.config config⟩
    else ⟨{ config with offset := offset.getD 0 }, StationRun.newBinding⟩
  | none => ⟨{ config with offset := offset.getD 0 }, StationRun.newBinding⟩

/-- The recorded master reference becomes absent where the group's leader changes, or its entry is rebound or cleared
(R80). `before` is the bridge before the write to entry `i`; `rebound` says that the write rebinds or clears it. -/
def Bridge.dropReferences (b before : Bridge) (i : StationIx) (rebound : Bool) : Bridge :=
  b.mapGroups fun g x =>
    if b.leader g ≠ before.leader g ∨ (rebound = true ∧ before.leader g = some i) then { x with masterRef := none } else x

/-- The entry leaves its group `g` at a write (R49, R53). -/
def Bridge.leaves (b : Bridge) (i : StationIx) (g : Option GroupIx) : Bridge :=
  match g with
  | some g => b.leaveGroup g i
  | none => b

/-- A write to entry `i` takes effect: the entry, the master references and the group it leaves. `rebound` says that a
BOUND entry is rebound or cleared. -/
def Bridge.writeEntry (b : Bridge) (i : StationIx) (x : Option Station) (rebound : Bool) : Bridge :=
  let before := b.station i
  let left := if rebound || decide (groupOf before ≠ groupOf x) then groupOf before else none
  ((b.setStation i x).dropReferences b i rebound).leaves i left

/-- STW (R28 to R30). -/
def stationWrite (o : StwOperands) : Service := fun b =>
  let before := b.station o.index
  let moves := movesStation before o.config.address
  if b.stwConflict o then refuse .badOperand [] b
  else if b.locked (groupOf before) || b.locked o.config.group then refuse .locked [] b
  else if moves && b.probed o.index then refuse .busy [] b
  else if moves && isFatal before then refuse .wrongState [] b
  else
    let b := b.writeEntry o.index (some (writtenStation before o.config o.offset)) moves
    (.done (stationFields (b.station o.index)), b)

def execStw (src tag : Byte) (operands : List Byte) (s : State) : Host.Outcome State Fault Refusal :=
  .next (s.serve src tag 1#8 (withOperands readStw operands stationWrite))

/-! ## STR (R31) -/

def stationRead (i : StationIx) : Service := fun b => (.done (stationFields (b.station i)), b)

def execStr (src tag : Byte) (operands : List Byte) (s : State) : Host.Outcome State Fault Refusal :=
  .next (s.serve src tag 2#8 (withOperands readStation operands stationRead))

/-! ## STC (R32) -/

/-- STC's effect: the entry becomes FREE and its last treatment absent (R32, R79). -/
def Bridge.clearEntry (b : Bridge) (i : StationIx) : Bridge :=
  { b with treatments := b.treatments.set i none }.writeEntry i none true

def stationClear (i : StationIx) : Service := fun b =>
  let before := b.station i
  if before = none then refuse .noSuchEntry [] b
  else if b.locked (groupOf before) then refuse .locked [] b
  else if b.probed i then refuse .busy [] b
  else if isFatal before then refuse .wrongState [] b
  else (.done [], b.clearEntry i)

def execStc (src tag : Byte) (operands : List Byte) (s : State) : Host.Outcome State Fault Refusal :=
  .next (s.serve src tag 3#8 (withOperands readStation operands stationClear))

/-! ## CNR (R44) -/

def conditionsRead (i : StationIx) : Service := fun b =>
  match b.station i with
  | none => refuse .noSuchEntry [] b
  | some st => (.done (conditionFields st.run), b.setStation i (some { st with run := st.run.cleared }))

def execCnr (src tag : Byte) (operands : List Byte) (s : State) : Host.Outcome State Fault Refusal :=
  .next (s.serve src tag 40#8 (withOperands readStation operands conditionsRead))

/-! ## GRW and GRR (R68 to R70) -/

/-- Every field of a group record, in the order of 4.1. -/
def recordFields (r : GroupRecord) : List Byte :=
  putByte r.gain ++ putNat 3000 r.trimLimit ++ putNat 2000 r.shareFloor ++ putNat 500 r.shareWindow
    ++ putNat 1000 r.fightThreshold ++ putOpt putGroup r.drawReference ++ putOpt (putNat 11000) r.drawTarget
    ++ putNat 1000 r.drawWindow ++ putByte r.alarmLimit ++ putByte r.alarmHold ++ putNat 5000 r.abortRamp
    ++ putNat 5000 r.blendWindow ++ putByte r.planFirst ++ putByte r.planLength

/-- A member's item: station index, role, nominal share, learned offset, current trim (R70). -/
def Bridge.memberFields (b : Bridge) (i : StationIx) : List Byte :=
  match b.station i with
  | none => []
  | some st =>
    putStation i ++ putByte st.config.role.code ++ putNat 1000 st.config.share ++ putInt (-3000) 3000 st.config.offset
      ++ putTrim st.run.trim

/-- A judged member's fields (R59): clamped torque, actual share, share error, SHARE_DEV, FIGHT. The actual share and the
share error take 3 signed bytes (assumption log 33). -/
def judgementFields (j : ShareJudgement) : List Byte :=
  putInt (-3000) 3000 j.torque ++ putSpeed j.share ++ putSpeed j.error ++ putFlag j.shareDev ++ putFlag j.fight

def memberShareFields (m : MemberShare) : List Byte :=
  putStation m.station ++ putFlag m.evaluated ++ putOpt judgementFields m.judgement

/-- A share result (R59). -/
def shareFields (r : ShareResult) : List Byte :=
  putCycle r.cycle ++ putByte r.outcome.code ++ putOpt (putInt (-18000) 18000) r.total
    ++ putList memberShareFields r.members

/-- A roster member with its close sample (R52, R70). -/
def rosterFields (e : RosterEntry) : List Byte :=
  putStation e.station ++ putByte e.sample.validity.code ++ putFlag e.sample.fresh ++ putFlag e.sample.headroom
    ++ putOpt putSpeed e.sample.speed ++ putOpt putTorque e.sample.torque

def cycleSpeedFields (c : CycleSpeed) : List Byte := putSpeed c.speed ++ putCycle c.cycle

def flagPairFields (f : FlagPair) : List Byte := putFlag f.present ++ putFlag f.latched

/-- The fields of GRR (R70; assumption log 12). -/
def Bridge.groupFields (b : Bridge) (g : GroupIx) : List Byte :=
  let x := b.group g
  recordFields x.record ++ putList b.memberFields (b.members g) ++ putOpt putStation (b.leader g)
    ++ putOpt shareFields x.shareResult ++ putList rosterFields x.roster ++ putOpt cycleSpeedFields x.closedLeader
    ++ putByte x.alarmCounter ++ putFlag x.alarm ++ flagPairFields x.draw ++ flagPairFields x.shareSuspended

/-- GRW (R69). The Reply carries the record alone, in the form of GRR's first item (assumption log 12). -/
def groupWrite (o : GrwOperands) : Service := fun b =>
  if b.locked (some o.group) then refuse .locked [] b
  else
    let b := (b.setGroup o.group { b.group o.group with record := o.record }).clampTrims o.group
    (.done (recordFields (b.group o.group).record), b)

def execGrw (src tag : Byte) (operands : List Byte) (s : State) : Host.Outcome State Fault Refusal :=
  .next (s.serve src tag 4#8 (withOperands readGrw operands groupWrite))

/-- GRR (R70). -/
def groupRead (g : GroupIx) : Service := fun b => (.done (b.groupFields g), b)

def execGrr (src tag : Byte) (operands : List Byte) (s : State) : Host.Outcome State Fault Refusal :=
  .next (s.serve src tag 5#8 (withOperands readGroup operands groupRead))

/-! ## OMW and OMR (R83 to R85) -/

/-- The lowest member of a group whose enable the write clears (R84). -/
def Bridge.maskedMember (b : Bridge) (mask : BitVec 32) (g : GroupIx) : Option StationIx :=
  (b.members g).find? fun i => b.mask.getLsbD i.val && !mask.getLsbD i.val

/-- MEMBER_MASKED reaches a group in RUNNING, HELD or ABORTING (R84, R125). -/
def Bridge.maskFault (station : Option StationIx) (b : Bridge) (g : GroupIx) : Bridge :=
  match station with
  | none => b
  | some i =>
    if (b.group g).inPlan || decide ((b.group g).runState = .aborting) then
      b.fault g .memberMasked .unwinding (some i)
    else b

/-- OMW (R83, R84). -/
def maskWrite (mask : BitVec 32) : Service := fun b =>
  let after := groupIxs.foldl (fun a g => a.maskFault (b.maskedMember mask g) g) { b with mask := mask }
  (.done (be32 after.mask), after)

def execOmw (src tag : Byte) (operands : List Byte) (s : State) : Host.Outcome State Fault Refusal :=
  .next (s.serve src tag 8#8 (withOperands readMask operands maskWrite))

/-- OMR's fields: the mask, and the last treatment of each index, present or absent (R85; assumption log 12). -/
def Bridge.maskFields (b : Bridge) : List Byte :=
  be32 b.mask ++ stationIxs.flatMap fun i => putOpt (fun t : Treatment => putByte t.code) b.treatments[i]

def maskRead : Service := fun b => (.done b.maskFields, b)

def execOmr (src tag : Byte) (operands : List Byte) (s : State) : Host.Outcome State Fault Refusal :=
  .next (s.serve src tag 9#8 (withOperands readNothing operands fun _ => maskRead))

/-! ## SGW and SGR (R96 to R98) -/

/-- The record's kind and its thirteen fields, each present or absent: the first item of SGR (R98). -/
def StageRecord.bytes (r : StageRecord) : List Byte :=
  putByte r.kind.code ++ putOpt (putInt (-300000) 300000) r.target ++ putOpt (putNat 5000) r.ramp
    ++ putOpt (putNat 65535) r.dwell ++ putOpt (fun e : StageExit => putByte e.code) r.exit
    ++ putOpt (fun t : Bool => putByte (trimsCode t)) r.trims ++ putOpt (putNat 4000) r.cap
    ++ putOpt (putNat 500) r.settleWindow ++ putOpt (putNat 1024) r.probeWindow ++ putOpt (putNat 65535) r.rippleLimit
    ++ putOpt (putNat 3) r.retries ++ putOpt (fun a : FaultAction => putByte a.code) r.faultAction
    ++ putOpt (putNat 255) r.excTarget ++ putOpt (fun n : StageNext => putByte n.code) r.next

/-- The fields of SGR: the record, the verdict of the check against `range`, and the two lists of groups (R98; assumption
log 12). -/
def Bridge.stageFields (b : Bridge) (i : Fin 128) (range : Option PlanRange) : List Byte :=
  let v := verdictCodes (b.verdict range i.val)
  b.store[i].bytes ++ putByte v.1 ++ putByte v.2
    ++ putList putGroup (groupIxs.filter fun g => (b.group g).record.range.contains i.val)
    ++ putList putGroup (groupIxs.filter fun g => (b.group g).inPlan && decide ((b.group g).stage = some i.val))

/-- SGW (R96, R97). The Reply carries the record alone, in the form of SGR's first item (assumption log 12). -/
def stageWrite (o : SgwOperands) : Service := fun b =>
  if groupIxs.any fun g => (b.group g).inPlan then refuse .locked [] b
  else
    (.done o.record.stored.bytes, { b with store := b.store.set o.index o.record.stored })

def execSgw (src tag : Byte) (operands : List Byte) (s : State) : Host.Outcome State Fault Refusal :=
  .next (s.serve src tag 6#8 (withOperands readSgw operands stageWrite))

/-- SGR (R98). -/
def stageRead (o : SgrOperands) : Service := fun b =>
  (.done (b.stageFields o.index (o.group.map fun g => (b.group g).record.range)), b)

def execSgr (src tag : Byte) (operands : List Byte) (s : State) : Host.Outcome State Fault Refusal :=
  .next (s.serve src tag 7#8 (withOperands readSgr operands stageRead))

end Sys2Proof.Machine
end

