-- ==== Sys2Proof/Machine/PlanServices.lean ====
section
/-! DEFINITION. The plan services: PLS, PLH, PLR, PLC, PLA, GST. -/

namespace Sys2Proof.Machine

/-! ## PLS (R101, R102) -/

/-- The nominal shares of a group's members, summed (R101). -/
def Bridge.shareSum (b : Bridge) (g : GroupIx) : Int := ((b.members g).map b.nominalShare).sum

/-- The lowest member whose enable is clear (R101). -/
def Bridge.disabledMember (b : Bridge) (g : GroupIx) : Option StationIx :=
  (b.members g).find? fun i => !b.mask.getLsbD i.val

/-- The lowest member that is INVALID or FATAL (R101). -/
def Bridge.unfitMember (b : Bridge) (g : GroupIx) : Option StationIx :=
  (b.members g).find? fun i => decide ((b.station i).map (fun st => st.run.validity) ≠ some .valid)

/-- The refusal of a PLS, in the order of R101 after BAD_OPERAND, with its detail; none where every check passes. -/
def Bridge.startRefusal (b : Bridge) (g : GroupIx) : Option (RefusalCode × List Byte) :=
  if b.tracker.sync = .unsynced then some (.notSynced, [])
  else if b.release = false then some (.notReleased, [])
  else if b.check.state ≠ .running then some (.checkNotRunning, [])
  else if (b.group g).unlocked = false then some (.wrongState, [])
  else
    match b.planDefect (b.group g).record.range with
    | some d => some (.planInvalid, putByte d.1 ++ putByte d.2.codes.1 ++ putByte d.2.codes.2)
    | none =>
      if (b.leader g).isNone ∨ b.shareSum g ≠ 1000 then some (.sharesInvalid, [])
      else
        match b.disabledMember g, b.unfitMember g with
        | some i, _ => some (.memberDisabled, putStation i)
        | none, some i => some (.memberNotValid, putStation i)
        | none, none => none

/-- The plan starts (R102). -/
def Bridge.startPlan (b : Bridge) (g : GroupIx) (tag : Byte) : Bridge :=
  let r := (b.group g).record.range
  (b.modifyGroup g fun x => { x with planTag := some tag, planRange := some r, stack := [], deferred := none }).enterStage
    g r.first

def planStart (tag : Byte) (g : GroupIx) : Service := fun b =>
  match b.startRefusal g with
  | some r => refuse r.1 r.2 b
  | none => (.accepted [], b.startPlan g tag)

def execPls (src tag : Byte) (operands : List Byte) (s : State) : Host.Outcome State Fault Refusal :=
  .next (s.serve src tag 16#8 (withOperands readGroup operands (planStart tag)))

/-! ## PLH (R116) -/

/-- A hold of a RUNNING group; a TUNE stage in PROBING or WAIT_PROBE gives its probe or its place up and goes to
SETTLING. -/
def Bridge.holdPlan (b : Bridge) (g : GroupIx) : Bridge :=
  let probing := decide ((b.group g).phase = some .probing ∨ (b.group g).phase = some .waitProbe)
  let b := b.modifyGroup g fun x => { x with runState := .held }
  if probing then (b.releaseProbe g).resettle g else b

def planHold (g : GroupIx) : Service := fun b =>
  if (b.group g).isRunning then (.done [], b.holdPlan g) else refuse .wrongState [] b

def execPlh (src tag : Byte) (operands : List Byte) (s : State) : Host.Outcome State Fault Refusal :=
  .next (s.serve src tag 17#8 (withOperands readGroup operands planHold))

/-! ## PLR (R117) -/

def planResume (g : GroupIx) : Service := fun b =>
  if b.release = false then refuse .notReleased [] b
  else if b.check.state ≠ .running then refuse .checkNotRunning [] b
  else if (b.group g).isHeld then (.done [], b.modifyGroup g fun x => { x with runState := .running })
  else refuse .wrongState [] b

def execPlr (src tag : Byte) (operands : List Byte) (s : State) : Host.Outcome State Fault Refusal :=
  .next (s.serve src tag 18#8 (withOperands readGroup operands planResume))

/-! ## PLC (R118) -/

def planConfirm (g : GroupIx) : Service := fun b =>
  if (b.group g).isRunning = false then refuse .wrongState [] b
  else if (b.group g).phase ≠ some .awaitConfirm then refuse .notAwaiting [] b
  else (.done [], b.endStage g)

def execPlc (src tag : Byte) (operands : List Byte) (s : State) : Host.Outcome State Fault Refusal :=
  .next (s.serve src tag 19#8 (withOperands readGroup operands planConfirm))

/-! ## PLA (R119) -/

/-- PLA of a group in RUNNING or HELD. -/
def Bridge.abortPlan (b : Bridge) (g : GroupIx) : Bridge :=
  if b.mode g = .speed then
    (b.modifyGroup g fun x =>
      { x with runState := .aborting, phase := none, blend := 0, stack := [], deferred := none }).releaseProbe g
  else ((b.postGroup .planAborted g).modifyGroup g DriveGroup.toIdle).releaseProbe g

/-- The table of R119. -/
def Bridge.planAbort (b : Bridge) (g : GroupIx) : Bridge :=
  match (b.group g).runState with
  | .running | .held => b.abortPlan g
  | .fault _ .unwinding => b.modifyGroup g fun x => { x with runState := .aborting }
  | .fault _ .settled | .done => b.modifyGroup g DriveGroup.toIdle
  | .aborting | .idle => b

def planAbort (g : GroupIx) : Service := fun b => (.done [], b.planAbort g)

def execPla (src tag : Byte) (operands : List Byte) (s : State) : Host.Outcome State Fault Refusal :=
  .next (s.serve src tag 20#8 (withOperands readGroup operands planAbort))

/-! ## GST (R127, R46) -/

/-- The fault cause, in FAULT. -/
def RunState.cause : RunState → Option Cause
  | .fault cause _ => some cause
  | _ => none

/-- A return-stack frame (R130). -/
def frameFields (f : StackFrame) : List Byte :=
  putByte f.stage ++ putByte f.phase.code ++ putNat 65535 f.dwell ++ putByte f.retries ++ putByte f.origin.code

/-- The pending slot's target, deferring stage, cause and station (R130). -/
def deferredFields (d : Deferred) : List Byte :=
  putByte d.target ++ putByte d.stage ++ putByte d.cause.code ++ putOpt putStation d.station

/-- The probe the group owns, or WAITING, or none: 0 none, 1 P1, 2 P2, 3 WAITING (assumption log 12). -/
def Bridge.probeByte (b : Bridge) (g : GroupIx) : List Byte :=
  match b.ownedProbe g with
  | some p => putByte p.code
  | none => putByte (if (b.group g).waiting then 3 else 0)

/-- The entry speed, shown while the group is in a BUMP stage (R127; assumption log 19). -/
def Bridge.shownEntry (b : Bridge) (g : GroupIx) : Option Int :=
  if (b.group g).inPlan && decide ((b.currentStage g).kind = .bump) then (b.group g).bumpEntry else none

def Bridge.trimFields (b : Bridge) (i : StationIx) : List Byte :=
  match b.station i with
  | some st => putTrim st.run.trim
  | none => []

/-- The fields of GST (R127; assumption log 12), with the summary as a bitmask of 2 bytes (assumption log 35). -/
def Bridge.stateFields (b : Bridge) (g : GroupIx) : List Byte :=
  let x := b.group g
  putByte x.runState.code ++ putByte (phaseCode x.phase) ++ putOpt (fun c : Cause => putByte c.code) x.runState.cause
    ++ putOpt putByte x.stage ++ putOpt (fun t : Byte => [t]) x.planTag
    ++ putOpt (fun r : PlanRange => putByte r.first ++ putByte r.length) x.planRange
    ++ putSpeed x.speed ++ putNat 65535 x.dwell ++ putNat 65535 x.settle ++ putByte x.blend ++ putByte x.retries
    ++ putOpt putSpeed (b.shownEntry g) ++ b.probeByte g ++ putList frameFields x.stack.reverse
    ++ putOpt deferredFields x.deferred ++ putOpt cycleSpeedFields x.masterRef ++ putList b.trimFields (b.members g)
    ++ putByte x.alarmCounter ++ putFlag x.alarm ++ be16 (BitVec.ofNat 16 (bitmask (b.summary g)))
    ++ flagPairFields x.draw ++ flagPairFields x.shareSuspended

/-- GST clears the group's own latched flags that are not present (R46). -/
def groupState (g : GroupIx) : Service := fun b =>
  (.done (b.stateFields g),
    b.modifyGroup g fun x => { x with draw := x.draw.cleared, shareSuspended := x.shareSuspended.cleared })

def execGst (src tag : Byte) (operands : List Byte) (s : State) : Host.Outcome State Fault Refusal :=
  .next (s.serve src tag 21#8 (withOperands readGroup operands groupState))

end Sys2Proof.Machine
end

