-- ==== Sys2Proof/Machine/ProbeServices.lean ====
section
/-! DEFINITION. The probe services: PBS, PBC, PBR. -/

namespace Sys2Proof.Machine

/-! ## PBS (R142) -/

def probeStart (tag : Byte) (o : PbsOperands) : Service := fun b =>
  if b.station o.station = none then refuse .noSuchEntry [] b
  else if (b.probe o.probe).state = .running then refuse .busy [] b
  else (.accepted [], b.setProbe o.probe (startedProbe (.request tag) o.station o.mode o.window))

def execPbs (src tag : Byte) (operands : List Byte) (s : State) : Host.Outcome State Fault Refusal :=
  .next (s.serve src tag 24#8 (withOperands readPbs operands (probeStart tag)))

/-! ## Reply fields of a probe (R141, R147, R148; assumption log 12) -/

/-- An owner: REQUEST 0 with its tag, or GROUP 1 with its number. -/
def ownerFields : ProbeOwner → List Byte
  | .request tag => putByte 0 ++ [tag]
  | .group g => putByte 1 ++ putGroup g

/-- The result of a sub-window, in the order of R147 (widths, that of the mean torque among them: assumption log 33). -/
def subFields (r : SubResult) : List Byte :=
  putNat 65535 r.closes ++ putNat 65535 r.samples ++ putOpt putTorque r.meanTorque
    ++ putOpt (putNat 4294967295) r.ripple ++ putNat 65535 r.crossings ++ putOpt (putNat 4294967295) r.elapsed
    ++ putOpt (putInt (-2147483648) 2147483647) (r.frequency.map fun f => (f : Int))

/-- The owner and the station of a run, which has both. -/
def runFields (owner : Option ProbeOwner) (station : Option StationIx) : List Byte :=
  (owner.toList.flatMap ownerFields) ++ station.toList.flatMap putStation

/-- A result record, with the fields of R147 in its order and then the sub-window list and the chosen sub-window of R148.
The totals of closes and samples of a STEPPED record stand in the places of R147's closes and samples, and a FIXED record
carries an empty list and an absent chosen sub-window (assumption log 12). Widths are those of a sub-window (assumption
log 33), and the cycle is absent where the bridge has none (assumption log 34). -/
def resultFields (r : ProbeResult) : List Byte :=
  putByte r.probe.code ++ runFields r.owner r.station ++ putByte r.mode.code
    ++ putNat 65535 r.window ++ putByte r.outcome.code ++ putOpt putCycle r.cycle ++ putNat 65535 r.closes
    ++ putNat 65535 r.samples ++ putOpt putTorque r.meanTorque ++ putOpt (putNat 4294967295) r.ripple
    ++ putNat 65535 r.crossings ++ putOpt (putNat 4294967295) r.elapsed
    ++ putOpt (putInt (-2147483648) 2147483647) (r.frequency.map fun f => (f : Int)) ++ putList subFields r.subs
    ++ putOpt putByte r.chosen

/-- The code of the last non-zero error sign, in one signed byte: -1 or +1, the model's choice (assumption log 30). -/
def signCode : Sign → Int
  | .neg => -1
  | .pos => 1

/-- The partial accumulators of a RUNNING probe, in the order of 9.1; the torque sum and the two errors take 4 signed bytes.
The errors, the sign and the times stand behind presence bytes, absent before the first sample (assumption logs 12, 30,
33 and 34). -/
def accumulatorFields (a : Accumulators) : List Byte :=
  putNat 65535 a.closes ++ putNat 65535 a.samples ++ putInt (-2147483648) 2147483647 a.torqueSum
    ++ putOpt (putInt (-2147483648) 2147483647) a.errorMin ++ putOpt (putInt (-2147483648) 2147483647) a.errorMax
    ++ putNat 65535 a.crossings ++ putOpt (fun s : Sign => putInt (-1) 1 (signCode s)) a.lastSign
    ++ putOpt be32 a.firstTime ++ putOpt be32 a.lastTime

/-- A RUNNING probe: owner, station, mode, W, sub-window, partial accumulators, completed sub-windows (R152). -/
def runningFields (p : Probe) : List Byte :=
  runFields p.owner p.station ++ putByte p.mode.code ++ putNat 65535 p.window ++ putByte p.sub ++ accumulatorFields p.acc
    ++ putList subFields p.completed

/-! ## PBC (R150) -/

/-- The probe's owner is GROUP (R150). -/
def Probe.groupOwned (p : Probe) : Bool :=
  match p.owner with
  | some (.group _) => true
  | _ => false

def probeCancel (p : ProbeId) : Service := fun b =>
  if (b.probe p).groupOwned then refuse .wrongOwner [] b
  else if (b.probe p).state ≠ .running then refuse .wrongState [] b
  else (.done (resultFields (b.probeResult p .cancelled)), (b.cancelRun p).probeFreed p)

def execPbc (src tag : Byte) (operands : List Byte) (s : State) : Host.Outcome State Fault Refusal :=
  .next (s.serve src tag 25#8 (withOperands readProbe operands probeCancel))

/-! ## PBR (R152) -/

def probeRead (p : ProbeId) : Service := fun b =>
  let x := b.probe p
  match x.state with
  | .running => (.done (runningFields x), b)
  | .done => (.done (x.result.toList.flatMap resultFields), (b.idleProbe p).probeFreed p)
  | .idle => (.done (putOpt resultFields x.result), b)

def execPbr (src tag : Byte) (operands : List Byte) (s : State) : Host.Outcome State Fault Refusal :=
  .next (s.serve src tag 26#8 (withOperands readProbe operands probeRead))

end Sys2Proof.Machine
end

