-- ==== Sys2Proof/Machine/CheckServices.lean ====
section
/-! DEFINITION. The services of the console check and the Trip Unit: CKS, CKA, CKX, TPC. -/

namespace Sys2Proof.Machine

/-- The expected answer (R156). -/
def expectedAnswer (c : BitVec 16) (q : BitVec 8) : BitVec 16 := 3#16 * c + q.zeroExtend 16

/-- The check advances (R156). -/
def ConsoleCheck.advance (k : ConsoleCheck) : ConsoleCheck :=
  { k with challenge := 5#16 * k.challenge + 3#16, sequence := k.sequence + 1#8 }

/-- The deadline timer starts or restarts with a window in milliseconds (R155). -/
def ConsoleCheck.restart (k : ConsoleCheck) (window : Nat) : ConsoleCheck := { k with deadline := some (window * 1000) }

/-! ## CKS (R157) -/

def checkStart (window : Nat) : Service := fun b =>
  match b.check.state with
  | .failed => refuse .checkFailedBefore [] b
  | st =>
    let k := if st = .running then b.check.advance else { b.check with state := .running }
    let k := { k with window := some window }.restart window
    (.done (be16 k.challenge ++ [k.sequence] ++ putNat 500 window), { b with check := k })

def execCks (src tag : Byte) (operands : List Byte) (s : State) : Host.Outcome State Fault Refusal :=
  .next (s.serve src tag 32#8 (withOperands readCheckWindow operands checkStart))

/-! ## CKA (R158) -/

def checkAnswer (tag : Byte) (answer : BitVec 16) : Service := fun b =>
  match b.check.state, b.check.reason with
  | .running, _ =>
    if answer = expectedAnswer b.check.challenge b.check.sequence then
      let k := b.check.advance.restart (b.check.window.getD 0)
      (.done (be16 k.challenge ++ [k.sequence]), { b with check := k })
    else (.refused .wrongAnswer [], b.failCheck .wrongAnswer (some tag))
  | .inactive, _ => refuse .wrongState [] b
  | .failed, some .expiry => refuse .late [] b
  | .failed, _ => refuse .wrongState [] b

def execCka (src tag : Byte) (operands : List Byte) (s : State) : Host.Outcome State Fault Refusal :=
  .next (s.serve src tag 33#8 (withOperands readAnswer operands (checkAnswer tag)))

/-! ## CKX (R161) -/

/-- A group in RUNNING, HELD or ABORTING prevents CKX (R161). -/
def DriveGroup.preventsStop (x : DriveGroup) : Bool := x.inPlan || decide (x.runState = .aborting)

def checkStop : Service := fun b =>
  if b.check.state = .running ∧ (groupIxs.any fun g => (b.group g).preventsStop) = false then
    (.done [], { b with check := { b.check with state := .inactive, deadline := none } })
  else refuse .wrongState [] b

def execCkx (src tag : Byte) (operands : List Byte) (s : State) : Host.Outcome State Fault Refusal :=
  .next (s.serve src tag 34#8 (withOperands readNothing operands fun _ => checkStop))

/-! ## TPC (R166) -/

/-- The set of causes as a bitmask in the fewest bytes, bit `i` for the cause coded `i` (R186): CONSOLE is coded 6,
RUNAWAY 13 and STAGE 14 (12.6), so the set takes two bytes (assumption log 25). -/
def tripFields (t : TripSet) : List Byte :=
  let bit := fun (inSet : Bool) (c : Cause) => if inSet then 2 ^ c.code else 0
  be16 (BitVec.ofNat 16 (bit t.console .console + bit t.runaway .runaway + bit t.stage .stage))

def tripClear : Service := fun b => (.done (tripFields b.clearStageTrip.trip), b.clearStageTrip)

def execTpc (src tag : Byte) (operands : List Byte) (s : State) : Host.Outcome State Fault Refusal :=
  .next (s.serve src tag 49#8 (withOperands readNothing operands fun _ => tripClear))

end Sys2Proof.Machine
end

