-- ==== Sys2Proof/Machine/BridgeServices.lean ====
section
/-! DEFINITION. The services of the Responder itself: EVR, LKW, IDR, BRS. -/

namespace Sys2Proof.Machine

/-! ## EVR (R177) -/

/-- An Event Queue entry (R186). -/
def eventFields (e : Event) : List Byte :=
  putByte e.kind.code ++ putOpt putCycle e.cycle ++ putOpt putGroup e.group ++ putOpt putStation e.station
    ++ putOpt putByte e.stage ++ putOpt (fun t : Byte => [t]) e.tag ++ putOpt (fun c : Cause => putByte c.code) e.cause

/-- The entries leave the head of the queue, and EVENTS_LOST is cleared where none is left (R177). -/
def Bridge.drainEvents (b : Bridge) (count : Nat) : Bridge :=
  let rest := b.events.drop count
  { b with events := rest, eventsLost := if rest = [] then false else b.eventsLost }

def eventsRead (count : Nat) : Service := fun b =>
  (.done (putList eventFields (b.events.take count) ++ putFlag b.eventsLost
    ++ putByte (b.drainEvents count).events.length), b.drainEvents count)

def execEvr (src tag : Byte) (operands : List Byte) (s : State) : Host.Outcome State Fault Refusal :=
  .next (s.serve src tag 41#8 (withOperands readCount operands eventsRead))

/-! ## LKW (R172, R14) -/

def linkWrite (setting : Nat) : Service := fun b =>
  (.done (putByte setting), { b with tracker := { b.tracker with setting := setting } })

def execLkw (src tag : Byte) (operands : List Byte) (s : State) : Host.Outcome State Fault Refusal :=
  .next (s.serve src tag 48#8 (withOperands readLoss operands linkWrite))

/-! ## IDR (R173) -/

def identificationFields (address : Byte) : List Byte :=
  putNat 65535 Config.partCode ++ putByte Config.revision ++ [address] ++ putByte Config.stations
    ++ putByte Config.groups ++ putByte Config.stages ++ putByte Config.probes ++ putByte Config.eventCapacity

def identificationRead (address : Byte) : Service := fun b => (.done (identificationFields address), b)

def execIdr (src tag : Byte) (operands : List Byte) (s : State) : Host.Outcome State Fault Refusal :=
  .next (s.serve src tag 51#8 (withOperands readNothing operands fun _ => identificationRead s.address))

/-! ## BRS (R180) -/

/-- BRS is taken: the reset becomes pending and its Reply enters the local queue (R180). -/
def State.takeReset (s : State) (src tag : Byte) (scope : Scope) : State :=
  { s with
    resetPending := some scope
    link := s.link.sendReply (.brsReply (replyFrame s.address src tag 50#8 (.done (putByte scope.code)))) }

def execBrs (src tag : Byte) (operands : List Byte) (s : State) : Host.Outcome State Fault Refusal :=
  .next
    (match decodeOperands readScope operands with
    | some scope => s.offer fun s => s.takeReset src tag scope
    | none => s.serve src tag 50#8 (refuse .badOperand))

end Sys2Proof.Machine
end

