-- ==== Sys2Proof/Machine/Dispatch.lean ====
section
/-! DEFINITION. One arm for each command of spec/opcode_table.json: a direct call of its meaning. -/

namespace Sys2Proof.Machine

def exec (i : Instr) (s : State) : Host.Outcome State Fault Refusal :=
  match i with
  | .cycleFrameArrival dst src number slots => Sys2Proof.Machine.execCycleFrameArrival dst src number slots s
  | .feedbackFrameArrival dst src number speed torque status tag => Sys2Proof.Machine.execFeedbackFrameArrival dst src number speed torque status tag s
  | .frameForwarded port frame => Sys2Proof.Machine.execFrameForwarded port frame s
  | .frameError port received => Sys2Proof.Machine.execFrameError port received s
  | .frameDiscardedResetPending port received => Sys2Proof.Machine.execFrameDiscardedResetPending port received s
  | .requestDiscarded src body => Sys2Proof.Machine.execRequestDiscarded src body s
  | .unknownService src body => Sys2Proof.Machine.execUnknownService src body s
  | .drivePortTransmissionEnd => Sys2Proof.Machine.execDrivePortTransmissionEnd s
  | .linePortTransmissionEnd => Sys2Proof.Machine.execLinePortTransmissionEnd s
  | .cycleLossExpiry => Sys2Proof.Machine.execCycleLossExpiry s
  | .checkDeadlineExpiry => Sys2Proof.Machine.execCheckDeadlineExpiry s
  | .releaseFall => Sys2Proof.Machine.execReleaseFall s
  | .releaseRise => Sys2Proof.Machine.execReleaseRise s
  | .pinResetAssert => Sys2Proof.Machine.execPinResetAssert s
  | .pinResetRelease => Sys2Proof.Machine.execPinResetRelease s
  | .stw src tag operands => Sys2Proof.Machine.execStw src tag operands s
  | .str src tag operands => Sys2Proof.Machine.execStr src tag operands s
  | .stc src tag operands => Sys2Proof.Machine.execStc src tag operands s
  | .cnr src tag operands => Sys2Proof.Machine.execCnr src tag operands s
  | .grw src tag operands => Sys2Proof.Machine.execGrw src tag operands s
  | .grr src tag operands => Sys2Proof.Machine.execGrr src tag operands s
  | .omw src tag operands => Sys2Proof.Machine.execOmw src tag operands s
  | .omr src tag operands => Sys2Proof.Machine.execOmr src tag operands s
  | .sgw src tag operands => Sys2Proof.Machine.execSgw src tag operands s
  | .sgr src tag operands => Sys2Proof.Machine.execSgr src tag operands s
  | .pls src tag operands => Sys2Proof.Machine.execPls src tag operands s
  | .plh src tag operands => Sys2Proof.Machine.execPlh src tag operands s
  | .plr src tag operands => Sys2Proof.Machine.execPlr src tag operands s
  | .plc src tag operands => Sys2Proof.Machine.execPlc src tag operands s
  | .pla src tag operands => Sys2Proof.Machine.execPla src tag operands s
  | .gst src tag operands => Sys2Proof.Machine.execGst src tag operands s
  | .pbs src tag operands => Sys2Proof.Machine.execPbs src tag operands s
  | .pbc src tag operands => Sys2Proof.Machine.execPbc src tag operands s
  | .pbr src tag operands => Sys2Proof.Machine.execPbr src tag operands s
  | .cks src tag operands => Sys2Proof.Machine.execCks src tag operands s
  | .cka src tag operands => Sys2Proof.Machine.execCka src tag operands s
  | .ckx src tag operands => Sys2Proof.Machine.execCkx src tag operands s
  | .tpc src tag operands => Sys2Proof.Machine.execTpc src tag operands s
  | .evr src tag operands => Sys2Proof.Machine.execEvr src tag operands s
  | .lkw src tag operands => Sys2Proof.Machine.execLkw src tag operands s
  | .idr src tag operands => Sys2Proof.Machine.execIdr src tag operands s
  | .brs src tag operands => Sys2Proof.Machine.execBrs src tag operands s

end Sys2Proof.Machine
end

