-- ==== Sys2Proof/Safety.lean ====
section
/-! DEFINITION. What every state the machine reaches satisfies, each part with the rules it comes from, and the words in
which the statements about commands are written. -/

namespace Sys2Proof.Machine

/-! ## Words for statements -/

/-- The Responder takes a Request (R169, R180): no frame is discarded for a reset, and fewer than four Replies wait. -/
def State.takes (s : State) : Bool := !s.held && decide (s.link.waitingReplies < 4)

/-- The state a taken Request leaves: its Reply has entered the local queue and the bridge is `b` (R171). -/
def State.replied (s : State) (src tag code : Byte) (a : Answer) (b : Bridge) : State :=
  { s with link := s.link.sendReply (.reply (replyFrame s.address src tag code a)), bridge := b }

/-- Commands that are the arrival of a frame. -/
def arrives : Instr → Bool
  | .drivePortTransmissionEnd | .linePortTransmissionEnd | .cycleLossExpiry | .checkDeadlineExpiry | .releaseFall
  | .releaseRise | .pinResetAssert | .pinResetRelease => false
  | _ => true

/-- A bypass cause has reached a group or has not (R125, R126): a group in RUNNING, HELD, ABORTING or FAULT UNWINDING is
in FAULT SETTLED with the cause, without phase, frames or deferred excursion and out of the waiting set, and a group that
was in FAULT UNWINDING has the blend count 0 (assumption log 28); any other keeps its run state. Stage index and plan tag
are kept. -/
def Bypassed (cause : Cause) (x y : DriveGroup) : Prop :=
  y.stage = x.stage ∧ y.planTag = x.planTag ∧
    if x.active then
      y.runState = .fault cause .settled ∧ y.phase = none ∧ y.stack = [] ∧ y.deferred = none ∧ y.waiting = false ∧
        ((∃ c, x.runState = .fault c .unwinding) → y.blend = 0)
    else y.runState = x.runState

/-- A group that the work of others leaves as it was, or that the arbiter has granted a probe while it waited (R144). -/
def UnchangedOrGranted (x y : DriveGroup) : Prop :=
  y = x ∨ x.waiting = true ∧ y = { x with phase := some .probing, waiting := false }

/-- Every flag set in the first is set in the second. -/
def Conditions.le (c d : Conditions) : Prop := c.union d = d

/-- What a close and its hand-on leave of an entry: everything but the learned offset, the trim, the three conditions a
group close delivers and the latched flags, which are set to fixed values here so that entries can be compared. -/
def Station.core (st : Station) : Station :=
  { config := { st.config with offset := 0 }
    run :=
      { st.run with
        present := { st.run.present with shareDev := false, fight := false, direction := false }
        latched := Conditions.none, trim := 0 } }

/-- `i` is BOUND to the drive address `a` with the entry `st` (R18). -/
def Bridge.Binds (b : Bridge) (a : Byte) (i : StationIx) (st : Station) : Prop :=
  b.station i = some st ∧ st.config.address = a

/-- The events `es` have been posted in this order (R174); those that found 64 entries are lost (R175). -/
def Posted (b c : Bridge) (es : List Event) : Prop :=
  c.events = (b.events ++ es).take 64 ∧ c.eventsLost = (b.eventsLost || decide (64 < b.events.length + es.length))

/-- The counter and the state after a close of a station that had `counter` and `v`, with quality conditions present or
not and RUNAWAY present or not (R38, R40, R41). -/
def ValidityStepped (c : StationConfig) (r : StationRun) (quality runaway : Bool) (n : Nat) (v : Validity) : Prop :=
  if r.validity = .fatal then n = r.counter ∧ v = .fatal
  else if runaway then n = 255 ∧ v = .fatal
  else if quality then
    if r.counter + 3 < c.limit then n = r.counter + 3 ∧ v = r.validity else n = c.limit + c.hold ∧ v = .invalid
  else n = r.counter - 1 ∧ v = if r.validity = .invalid ∧ c.limit ≤ r.counter - 1 then .invalid else .valid

/-- The seven station-close conditions of a feedback close whose latch has taken `l` (R26, R35). -/
structure ClosedWith (c : StationConfig) (r : StationRun) (l : Latch) (p : Conditions) : Prop where
  fbMissing : p.fbMissing = false
  fbLate : p.fbLate = r.late
  fbOverrun : p.fbOverrun = r.overrun
  headroom : p.headroom = true ↔ c.headroom < l.torque.natAbs
  driveFault : p.driveFault = l.status.fault
  speedDev : p.speedDev = true ↔
    ∃ sent, r.lastSent = some sent ∧ c.window < (surfaceSpeed c.polarity l.speed - sent).natAbs
  runaway : p.runaway = true ↔ c.overspeed < (surfaceSpeed c.polarity l.speed).natAbs

/-- The seven station-close conditions of a boundary close (R26, R35). -/
structure ClosedAtBoundary (r : StationRun) (p : Conditions) : Prop where
  fbMissing : p.fbMissing = true
  fbLate : p.fbLate = r.late
  fbOverrun : p.fbOverrun = r.overrun
  headroom : p.headroom = false
  driveFault : p.driveFault = false
  speedDev : p.speedDev = false
  runaway : p.runaway = false

/-- The group close of `g` for cycle `n` with the close samples `formed`, from `b` to `c`: the share result, the trim
update, the closed leader speed, the direction check, the delivery with the draw, the alarm step and stage progress, in
that order (R54). The roster is ascending (assumption log 10). -/
def GroupCloses (b : Bridge) (g : GroupIx) (n : CycleNo) (formed : List RosterEntry) (c : Bridge) : Prop :=
  let setGroup := fun (b : Bridge) (x : DriveGroup) => ({ b with groups := b.groups.set g x } : Bridge)
  let roster := (List.finRange 32).filterMap fun j => formed.find? fun e => decide (e.station = j)
  let b1 := setGroup b { b.group g with pendingSet := none, forming := [], roster := roster }
  let b2 := setGroup b1 { b1.group g with shareResult := some (b1.shareResult g n) }
  let b3 := (b2.updateTrims g).recordLeader g n
  let b4 := b3.deliver g (b3.drawPresent g n) (b3.failingMembers g)
  let y := b4.group g
  let limit := y.record.alarmLimit
  let z :=
    if b4.alarmCounts g then
      if y.alarmCounter + 3 < limit then { y with alarmCounter := y.alarmCounter + 3 }
      else { y with alarmCounter := limit + y.record.alarmHold, alarm := true }
    else { y with alarmCounter := y.alarmCounter - 1, alarm := y.alarm && decide (limit ≤ y.alarmCounter - 1) }
  c = (setGroup b4 z).stageProgress g (b3.failingMembers g) (z.alarm && !y.alarm)

/-- Station `i` leaves group `g` at a write, from `b` to `c`: while the pending set is not empty the station goes out of it
and its close sample is dropped, and the group closes where the set is now empty and samples of others stand (R53). -/
def LeavesGroup (b c : Bridge) (g : GroupIx) (i : StationIx) : Prop :=
  let x := b.group g
  let formed := x.forming.filter fun e => decide (e.station ≠ i)
  (x.pendingSet = none → c = b) ∧
  ∀ p, x.pendingSet = some p →
    (p.stations.erase i ≠ [] →
      c = { b with
        groups := b.groups.set g { x with pendingSet := some ⟨p.cycle, p.stations.erase i⟩, forming := formed } }) ∧
    (p.stations.erase i = [] → formed = [] →
      c = { b with groups := b.groups.set g { x with pendingSet := none, forming := [] } }) ∧
    (p.stations.erase i = [] → formed ≠ [] → GroupCloses b g p.cycle formed c)

/-- A stage entry of group `g` to the record `i`, from `b` to `c`: the stage with its counts, C, the phase and the BUMP
entry values, and the trims that are seeded where trims come on (R62, R103, R104, R109). -/
def EntersStage (b c : Bridge) (g : GroupIx) (i : Nat) : Prop :=
  let x := b.group g
  let r := b.stageAt i
  let speed := if r.kind.overridesSpeed = true ∧ b.mode g ≠ .speed then x.reference else x.speed
  let waits : Phase := if r.exit = some .confirm then .awaitConfirm else .dwell
  c.group g =
    { x with
      runState := .running
      stage := some i
      dwell := r.dwell.getD 0
      settle := if r.exit = some .settled ∨ r.kind = .tune then r.dwell.getD 0 else 0
      blend := 0
      retries := if r.kind = .tune then r.retries.getD 0 else x.retries
      speed := speed
      phase :=
        some (match r.kind with
          | .creep | .thread => if r.target = some speed then waits else .ramp
          | .bump => if r.target = some speed then .dwell else .rise
          | .tune => .settling
          | .handback => .blend
          | .pass | .trim | .empty => waits)
      bumpEntry := if r.kind = .bump then some speed else x.bumpEntry
      bumpActuals :=
        if r.kind = .bump then
          (b.members g).map fun i =>
            ⟨i, (b.station i).bind fun st => st.run.latch.map fun l => surfaceSpeed st.config.polarity l.speed⟩
        else x.bumpActuals } ∧
  ∀ j, c.station j = (b.station j).map fun st =>
    if st.config.group = some g ∧ r.trims = some true ∧ b.trimsOn g = false then
      let limit : Int := x.record.trimLimit
      let v := st.config.offset
      { st with run := { st.run with trim := if v < -limit then -limit else if limit < v then limit else v } }
    else st

/-- Group `g` gives up the probe it owns, from `b` to `c`: a RUNNING one ends CANCELLED and is IDLE, a DONE one is IDLE
with its result, and the lowest other group that waits takes the freed probe at once, with empty accumulators (R144, R151;
assumption log 34). A group that owns none frees none. -/
def GivesUpProbe (b c : Bridge) (g : GroupIx) : Prop :=
  (∀ q, (b.probe q).owner ≠ some (.group g) → c.probe q = b.probe q) ∧
  ((∀ q, (b.probe q).owner ≠ some (.group g)) → ∀ k, k ≠ g → c.group k = b.group k) ∧
  ∀ p, (b.probe p).owner = some (.group g) →
    let x := b.probe p
    let y := c.probe p
    let waits := fun k => k ≠ g ∧ (b.group k).waiting = true
    ((∀ k, ¬waits k) →
      y = { x with state := .idle, owner := none, result := y.result } ∧ (∀ k, k ≠ g → c.group k = b.group k) ∧
      (x.state ≠ .running → y.result = x.result) ∧
      (x.state = .running →
        ∃ r, y.result = some r ∧ r.outcome = .cancelled ∧ r.probe = p ∧ r.owner = x.owner ∧ r.station = x.station ∧
          r.mode = x.mode ∧ r.window = x.window ∧ r.cycle = b.tracker.cycle ∧ r.chosen = none ∧
          (x.mode = .fixed → r.subs = [] ∧
            x.acc.result = ⟨r.closes, r.samples, r.meanTorque, r.ripple, r.crossings, r.elapsed, r.frequency⟩))) ∧
    (∀ k i w, waits k → (∀ j, waits j → k ≤ j) → b.leader k = some i → (b.currentStage k).probeWindow = some w →
      y = { state := .running, owner := some (.group k), station := some i, mode := .fixed, window := w, sub := 1
            acc := ⟨0, 0, 0, none, none, 0, none, none, none⟩, completed := [], result := none } ∧
      c.group k = { b.group k with phase := some .probing, waiting := false } ∧
      ∀ j, j ≠ g → j ≠ k → c.group j = b.group j)

/-- The acts of a Cycle Frame arrival, taken one after another. Before each of them, and after the last, the choices of
the order may have used free values up (assumption log 3). -/
def CycleReaches (c : CycleContext) : List CycleAct → Link × Bridge → Link × Bridge → Prop
  | [], x, y => ∃ cs n, y = (x.1, { x.2 with choices := cs, choiceCount := n })
  | a :: rest, x, y =>
    ∃ cs n, CycleReaches c rest (cycleAct c a (x.1, { x.2 with choices := cs, choiceCount := n })) y

/-! ## Resets (R17, R33, R34, R47, R48, R71, R72, R86, R99, R128, R140, R154, R167, R184) -/

/-- The Link Interface after every reset (R17, R184). -/
structure Link.AtReset (l : Link) : Prop where
  driveQueue : l.driveQueue = []
  driveTx : l.driveTx = none
  forwardQueue : l.forwardQueue = []
  localQueue : l.localQueue = []
  lineTx : l.lineTx = none
  lastTaken : l.lastTaken = .own
  frameErrorLine : l.frameErrorLine = ⟨false, false⟩
  frameErrorDrive : l.frameErrorDrive = ⟨false, false⟩
  upCongestion : l.upCongestion = ⟨false, false⟩
  downCongestion : l.downCongestion = ⟨false, false⟩
  slip : l.slip = ⟨false, false⟩
  requestDiscarded : l.requestDiscarded = ⟨false, false⟩

/-- A group's runtime after every reset (R71, R86, R128, R140, R154). -/
structure DriveGroup.RuntimeAtReset (x : DriveGroup) : Prop where
  pendingSet : x.pendingSet = none
  forming : x.forming = []
  roster : x.roster = []
  shareResult : x.shareResult = none
  closedLeader : x.closedLeader = none
  draw : x.draw = ⟨false, false⟩
  shareSuspended : x.shareSuspended = ⟨false, false⟩
  alarmCounter : x.alarmCounter = 0
  alarm : x.alarm = false
  masterRef : x.masterRef = none
  runState : x.runState = .idle
  phase : x.phase = none
  planTag : x.planTag = none
  planRange : x.planRange = none
  stage : x.stage = none
  speed : x.speed = 0
  dwell : x.dwell = 0
  settle : x.settle = 0
  blend : x.blend = 0
  retries : x.retries = 0
  bumpEntry : x.bumpEntry = none
  bumpActuals : x.bumpActuals = []
  stack : x.stack = []
  deferred : x.deferred = none
  waiting : x.waiting = false

/-- A probe after every reset (R154; empty accumulators: assumption log 34). -/
structure Probe.AtReset (p : Probe) : Prop where
  state : p.state = .idle
  owner : p.owner = none
  station : p.station = none
  acc : p.acc = ⟨0, 0, 0, none, none, 0, none, none, none⟩
  completed : p.completed = []
  result : p.result = none

/-- What every reset gives the bridge behind its ports (R17, R86, R128, R154, R167, R184). -/
structure Bridge.RuntimeAtReset (b : Bridge) : Prop where
  tracker : b.tracker = ⟨.unsynced, none, 0, .stopped, 20⟩
  treatments : ∀ i : Fin 32, b.treatments[i] = none
  groups : ∀ g, (b.group g).RuntimeAtReset
  probes : ∀ p, (b.probe p).AtReset
  check : b.check = ⟨.inactive, 4660#16, 0#8, none, none, none⟩
  trip : b.trip = ⟨false, false, false⟩
  events : b.events = []
  eventsLost : b.eventsLost = false
  timeBase : b.timeBase = 0#32

/-- A pin reset or BRS FULL: no entry is BOUND, the mask is clear, the records are the default ones (R71), the store is
EMPTY. -/
structure Bridge.AtFullReset (b : Bridge) : Prop extends b.RuntimeAtReset where
  stations : ∀ i, b.station i = none
  mask : b.mask = 0#32
  records : ∀ g, (b.group g).record = ⟨0, 0, 100, 50, 100, none, none, 50, 24, 8, 100, 100, 0, 1⟩
  store : ∀ i : Fin 128,
    b.store[i] = ⟨.empty, none, none, none, none, none, none, none, none, none, none, none, none, none⟩

/-- The runtime record of a new binding (R30), with the trim a station that joins a group receives (R49). -/
def newRun : StationRun := ⟨.exempt, none, false, false, false, none, 0, .valid, Conditions.none, Conditions.none, 0⟩

/-- BRS TABLES_KEPT: the configurations, the mask, the records and the store are those of `before`; every BOUND entry has
the runtime of a new binding. -/
structure Bridge.AtKeptReset (before b : Bridge) : Prop extends b.RuntimeAtReset where
  stations : ∀ i, b.station i = (before.station i).map fun st => ⟨st.config, newRun⟩
  mask : b.mask = before.mask
  records : ∀ g, (b.group g).record = (before.group g).record
  store : b.store = before.store

/-! ## Queues (R6 to R9, R174) -/

/-- The bounds of the three queues, and what an IDLE transmitter means. -/
structure Link.Sound (l : Link) : Prop where
  drive : l.driveQueue.length ≤ 8
  driveIdle : l.driveTx = none → l.driveQueue = []
  forward : l.forwardQueue.length ≤ 16
  replies : l.waitingReplies ≤ 4
  status : (l.localQueue.filter LocalFrame.isStatus).length ≤ 1
  lineIdle : l.lineTx = none → l.forwardQueue = [] ∧ l.localQueue = []

/-- The queues of the link and the Event Queue keep their bounds. -/
def State.QueuesSound (s : State) : Prop := s.link.Sound ∧ s.bridge.events.length ≤ 64

/-! ## Counters (R28, R38, R40, R66, R68, R71) -/

/-- A station's limits, and its counter: 255 exactly in FATAL, and otherwise 0 to 250. -/
structure Station.Counted (st : Station) : Prop where
  limit : 3 ≤ st.config.limit
  total : st.config.limit + st.config.hold ≤ 250
  fatal : st.run.validity = .fatal → st.run.counter = 255
  other : st.run.validity ≠ .fatal → st.run.counter ≤ 250

/-- A group's alarm limits and its alarm counter, and a plan range of at least one record (R68, R71). -/
structure DriveGroup.Counted (x : DriveGroup) : Prop where
  limit : 3 ≤ x.record.alarmLimit
  total : x.record.alarmLimit + x.record.alarmHold ≤ 250
  counter : x.alarmCounter ≤ 250
  plan : 1 ≤ x.record.planLength

/-- The validity counters and the alarm counters keep their ranges. -/
def Bridge.CountersSound (b : Bridge) : Prop :=
  (∀ i st, b.station i = some st → st.Counted) ∧ ∀ g, (b.group g).Counted

/-! ## Console check and trip causes (R40, R155, R160, R164) -/

/-- The check's window and deadline follow its state, and CONSOLE is in the set exactly while the check is FAILED;
RUNAWAY is in it while a station is FATAL. -/
structure Bridge.TripSound (b : Bridge) : Prop where
  running : b.check.state = .running → b.check.window.isSome = true ∧ b.check.deadline.isSome = true
  stopped : b.check.state ≠ .running → b.check.deadline = none
  reason : b.check.reason.isSome = true ↔ b.check.state = .failed
  console : b.trip.console = true ↔ b.check.state = .failed
  runaway : ∀ i st, b.station i = some st → st.run.validity = .fatal → b.trip.runaway = true

/-! ## The return stack (R100, R129) -/

/-- At most three frames; the pending slot is occupied only while there are three; outside RUNNING and HELD a group has
neither, nor a phase; and it is in the waiting set only while RUNNING in WAIT_PROBE. -/
structure DriveGroup.StackSound (x : DriveGroup) : Prop where
  depth : x.stack.length ≤ 3
  slot : x.deferred.isSome = true → x.stack.length = 3
  empty : x.inPlan = false → x.stack = [] ∧ x.deferred = none
  phase : x.phase.isSome = x.inPlan
  waits : x.waiting = true → x.runState = .running ∧ x.phase = some .waitProbe

def Bridge.StacksSound (b : Bridge) : Prop := ∀ g, (b.group g).StackSound

/-! ## The Station Table (R28) -/

/-- No two entries hold one address, and no group has more than six members. -/
structure Bridge.TableSound (b : Bridge) : Prop where
  addresses : ∀ i j x y, b.station i = some x → b.station j = some y → x.config.address = y.config.address → i = j
  members : ∀ g, (b.members g).length ≤ 6

/-! ## Close marks (R20, R22, R30) -/

/-- The latch of an OPEN entry is not fresh: the frame that makes it fresh closes the entry. -/
def Bridge.MarksSound (b : Bridge) : Prop :=
  ∀ i st, b.station i = some st → st.run.mark = .isOpen → st.run.fresh = false

/-! ## Trims (R61) -/

/-- Every member's trim is within its group's trim limit. -/
def Bridge.TrimsSound (b : Bridge) : Prop :=
  ∀ i st g, b.station i = some st → st.config.group = some g →
    st.run.trim.natAbs ≤ (b.group g).record.trimLimit

/-! ## Probes (R141) -/

/-- A probe has an owner exactly when it is not IDLE, and one that is not IDLE has a station. -/
structure Probe.Sound (p : Probe) : Prop where
  owner : p.owner = none ↔ p.state = .idle
  station : p.state ≠ .idle → p.station.isSome = true

def Bridge.ProbesSound (b : Bridge) : Prop := ∀ p, (b.probe p).Sound

/-- A group that owns a probe is RUNNING in PROBING, and it owns one probe (R112, R116, R141, R151). -/
structure Bridge.OwnersSound (b : Bridge) : Prop where
  owner : ∀ p g, (b.probe p).owner = some (.group g) →
    (b.group g).runState = .running ∧ (b.group g).phase = some .probing
  single : ∀ p q g, (b.probe p).owner = some (.group g) → (b.probe q).owner = some (.group g) → p = q

/-- The return stacks, the phases, the waiting set and the probes of the groups follow their run states. -/
structure Bridge.RunsSound (b : Bridge) : Prop where
  stacked : b.StacksSound
  owners : b.OwnersSound

/-! ## Operand lists as bytes, in the order and the widths of R186 -/

/-- STW's operands: index, then the configuration fields in the order of 2.1, the learned offset last and optional. -/
def StwOperands.bytes (o : StwOperands) : List Byte :=
  putByte o.index.val ++ [o.config.address] ++ putByte (groupOrNone o.config.group) ++ putByte o.config.role.code
    ++ putNat 1000 o.config.share ++ putInt (-1) 1 (polarities o.config.polarity) ++ putNat 3000 o.config.clamp
    ++ putNat 4000 o.config.headroom ++ putNat 50000 o.config.window ++ putNat 300000 o.config.overspeed
    ++ putByte o.config.limit ++ putByte o.config.hold ++ putOpt (putInt (-3000) 3000) o.offset

/-- The ranges of 2.1 and the checks of R28 that the operands alone decide. The offset stands beside the configuration,
whose own offset an operand list leaves at 0. -/
structure StwOperands.InRange (o : StwOperands) : Prop where
  address : 1 ≤ o.config.address.toNat ∧ o.config.address.toNat ≤ 120
  share : o.config.share ≤ 1000
  clamp : 1000 ≤ o.config.clamp ∧ o.config.clamp ≤ 3000
  headroom : o.config.clamp ≤ o.config.headroom ∧ o.config.headroom ≤ 4000
  window : o.config.window ≤ 50000
  overspeed : 1000 ≤ o.config.overspeed ∧ o.config.overspeed ≤ 300000
  limit : 3 ≤ o.config.limit ∧ o.config.limit ≤ 240
  total : o.config.limit + o.config.hold ≤ 250
  own : o.config.offset = 0
  offset : ∀ v, o.offset = some v → -3000 ≤ v ∧ v ≤ 3000

/-- GRW's operands: the group number, then the record's fields in the order of 4.1. -/
def GrwOperands.bytes (o : GrwOperands) : List Byte :=
  putGroup o.group ++ putByte o.record.gain ++ putNat 3000 o.record.trimLimit ++ putNat 2000 o.record.shareFloor
    ++ putNat 500 o.record.shareWindow ++ putNat 1000 o.record.fightThreshold ++ putOpt putGroup o.record.drawReference
    ++ putOpt (putNat 11000) o.record.drawTarget ++ putNat 1000 o.record.drawWindow ++ putByte o.record.alarmLimit
    ++ putByte o.record.alarmHold ++ putNat 5000 o.record.abortRamp ++ putNat 5000 o.record.blendWindow
    ++ putByte o.record.planFirst ++ putByte o.record.planLength

/-- The ranges of 4.1 and the checks of R68. -/
structure GrwOperands.InRange (o : GrwOperands) : Prop where
  gain : o.record.gain ≤ 255
  trimLimit : o.record.trimLimit ≤ 3000
  shareFloor : o.record.shareFloor ≤ 2000
  shareWindow : 1 ≤ o.record.shareWindow ∧ o.record.shareWindow ≤ 500
  fightThreshold : o.record.fightThreshold ≤ 1000
  drawReference : o.record.drawReference ≠ some o.group
  drawTarget : ∀ v, o.record.drawTarget = some v → 9000 ≤ v ∧ v ≤ 11000
  drawWindow : 1 ≤ o.record.drawWindow ∧ o.record.drawWindow ≤ 1000
  alarmLimit : 3 ≤ o.record.alarmLimit ∧ o.record.alarmLimit ≤ 240
  total : o.record.alarmLimit + o.record.alarmHold ≤ 250
  abortRamp : 1 ≤ o.record.abortRamp ∧ o.record.abortRamp ≤ 5000
  blendWindow : o.record.blendWindow ≤ 5000
  planFirst : o.record.planFirst ≤ 127
  planLength : 1 ≤ o.record.planLength ∧ o.record.planLength ≤ 32

/-- SGW's operands: the index, the kind, then the thirteen fields in the order of R87. -/
def SgwOperands.bytes (o : SgwOperands) : List Byte :=
  putByte o.index.val ++ putByte o.record.kind.code ++ putOpt (putInt (-300000) 300000) o.record.target
    ++ putOpt (putNat 5000) o.record.ramp ++ putOpt (putNat 65535) o.record.dwell
    ++ putOpt (fun e : StageExit => putByte e.code) o.record.exit
    ++ putOpt (fun t : Bool => putByte (trimsCode t)) o.record.trims ++ putOpt (putNat 4000) o.record.cap
    ++ putOpt (putNat 500) o.record.settleWindow ++ putOpt (putNat 1024) o.record.probeWindow
    ++ putOpt (putNat 65535) o.record.rippleLimit ++ putOpt (putNat 3) o.record.retries
    ++ putOpt (fun a : FaultAction => putByte a.code) o.record.faultAction ++ putOpt (putNat 255) o.record.excTarget
    ++ putOpt (fun n : StageNext => putByte n.code) o.record.next

/-- The ranges of R87 and the checks of R90 and R96. -/
structure SgwOperands.InRange (o : SgwOperands) : Prop where
  target : ∀ v, o.record.target = some v → -300000 ≤ v ∧ v ≤ 300000
  ramp : ∀ v, o.record.ramp = some v → 1 ≤ v ∧ v ≤ 5000
  dwell : ∀ v, o.record.dwell = some v → v ≤ 65535
  cap : ∀ v, o.record.cap = some v → v ≤ 4000
  settleWindow : ∀ v, o.record.settleWindow = some v → 1 ≤ v ∧ v ≤ 500
  probeWindow : ∀ v, o.record.probeWindow = some v → 16 ≤ v ∧ v ≤ 1024
  rippleLimit : ∀ v, o.record.rippleLimit = some v → 1 ≤ v ∧ v ≤ 65535
  retries : ∀ v, o.record.retries = some v → v ≤ 3
  excTarget : ∀ v, o.record.excTarget = some v → v ≤ 255
  allowed : o.record.allowed = true
  zeroDwell : o.record.zeroDwell = false

/-- SGR's operands: the index, and a group number or none. -/
def SgrOperands.bytes (o : SgrOperands) : List Byte := putByte o.index.val ++ putOpt putGroup o.group

/-- PBS's operands: probe, station index, W, mode. -/
def PbsOperands.bytes (o : PbsOperands) : List Byte :=
  putByte o.probe.code ++ putStation o.station ++ putNat 1024 o.window ++ putByte o.mode.code

end Sys2Proof.Machine
end

