-- ==== Sys2Proof/Certificates/Slice0/Obligations.lean ====
section
/-! DEFINITION. The statements for the provers. Each says what its name says; OBLIGATIONS.json lists them with the rules
of spec/ they come from. `s.takes` says that the Responder takes a Request, and `s.replied` what a taken Request leaves
when the bridge behind the ports is then `b` (Safety.lean). -/

open Sys2Proof Sys2Proof.Machine

/-! ## The step -/

/-- A step runs the command at the front of the queue on the state with the queue's rest. -/
def Obligations.StepRunsFrontCommand : Prop :=
  ∀ (c : Instr) (s : State), step { s with pending := c :: s.pending } = exec c s

/-- With no command waiting a step is one microsecond (the model's choice, assumption log 4): nothing while RESET is
asserted; otherwise the time base counts (R146), both timers run, and one that reaches its end expires. -/
def Obligations.EmptyQueueStepIsAMicrosecond : Prop :=
  ∀ s : State, s.pending = [] →
    (s.resetAsserted = true → step s = .next s) ∧
    (s.resetAsserted = false →
      let b : Bridge :=
        { s.bridge with
          timeBase := s.bridge.timeBase + 1#32
          tracker :=
            { s.bridge.tracker with
              timer := match s.bridge.tracker.timer with | .running n => .running (n - 1) | t => t }
          check := { s.bridge.check with deadline := s.bridge.check.deadline.map (· - 1) } }
      let loss := b.tracker.timer = .running 0
      let due := b.check.state = .running ∧ b.check.deadline = some 0
      (∃ t, step s = .next t ∧ t.bridge.timeBase = s.bridge.timeBase + 1#32) ∧
      (¬loss → ¬due → step s = .next { s with bridge := b }) ∧
      (loss → ¬due → step s = exec .cycleLossExpiry { s with bridge := b }) ∧
      (¬loss → due → step s = exec .checkDeadlineExpiry { s with bridge := b }))

/-- Every command answers a next state in every state, and changes neither the queue nor the straps. That a command whose
event cannot happen in the state it finds answers a next state too is the model's choice (assumption log 5), and so is
that no command changes a strap (assumption log 20). -/
def Obligations.EveryCommandCompletes : Prop :=
  ∀ (c : Instr) (s : State), ∃ t, exec c s = .next t ∧ t.pending = s.pending ∧ t.strapA = s.strapA ∧ t.strapB = s.strapB

/-- The machine after a pin reset has been released, and that every invariant of this file holds there. That both
straps are open is the model's choice (assumption log 2). What empty accumulators hold is assumption log 34. -/
def Obligations.ResetStateHasTheResetValues : Prop :=
  (State.reset.pending = [] ∧ State.reset.resetAsserted = false ∧ State.reset.resetPending = none ∧
    State.reset.address = 121#8 ∧ State.reset.link.AtReset ∧ State.reset.bridge.AtFullReset) ∧
  (State.reset.QueuesSound ∧ State.reset.bridge.CountersSound ∧ State.reset.bridge.TripSound ∧
    State.reset.bridge.TableSound ∧ State.reset.bridge.TrimsSound ∧ State.reset.bridge.ProbesSound ∧
    State.reset.bridge.MarksSound ∧ State.reset.bridge.RunsSound)

/-! ## Frames that the bridge does not act on, and the transmitters -/

/-- FRAME_FORWARDED on the line port and DRIVE_PORT_TRANSMISSION_END: the drive-port queue and transmitter (R2, R6);
FRAME_FORWARDED on the drive port: the forward queue, and an IDLE line-port transmitter that takes the frame at once (R3,
R7, R9). -/
def Obligations.ForwardedFrames : Prop :=
  (∀ (f : Frame) (s : State), s.held = false → f.body.length ≤ 65535 → f.kind ≠ 1#8 →
    ¬(f.kind = 3#8 ∧ f.dst = s.address) → (f.kind = 2#8 → f.body.length = 9) →
    exec (.frameForwarded .line f) s =
      .next { s with
        link :=
          if s.link.driveTx = none then { s.link with driveTx := some f }
          else if s.link.driveQueue.length < 8 then { s.link with driveQueue := s.link.driveQueue ++ [f] }
          else { s.link with downCongestion := ⟨true, false⟩ } }) ∧
  (∀ (f : Frame) (s : State), s.link.driveTx = some f → s.link.driveQueue = [] →
    exec .drivePortTransmissionEnd s = .next { s with link := { s.link with driveTx := none } }) ∧
  (∀ (f g : Frame) (rest : List Frame) (s : State), s.link.driveTx = some f → s.link.driveQueue = g :: rest →
    exec .drivePortTransmissionEnd s =
      .next { s with link := { s.link with driveTx := some g, driveQueue := rest } }) ∧
  (∀ (f : Frame) (s : State), s.held = false → s.link.Sound → f.body.length ≤ 65535 → f.kind ≠ 2#8 →
     (f.kind = 1#8 → f.bodyPasses = true) →
     exec (.frameForwarded .drive f) s =
       .next { s with
         link :=
           if 16 ≤ s.link.forwardQueue.length then { s.link with upCongestion := ⟨true, false⟩ }
           else if s.link.lineTx = none then { s.link with lineTx := some (.forwarded f), lastTaken := .forward }
           else { s.link with forwardQueue := s.link.forwardQueue ++ [f] } })

/-- LINE_PORT_TRANSMISSION_END, other than that of the Reply to a BRS: after a Status frame the flags that hold the mark
are cleared (R10; also a flag that a later Status frame has marked meanwhile: the model's choice, assumption log 31), and
the transmitter chooses between its queues (R9). And what `State.replied` says of a Reply: its
frame, and its entry into the local queue or, where the transmitter is IDLE, its transmission (R5, R8, R9, R171, 12.4). -/
def Obligations.LineTransmitterAndReplies : Prop :=
  (∀ (x : Sending) (s : State), s.link.lineTx = some x →
     (∀ f, x = .own (.brsReply f) → s.resetPending = none) →
     ∃ t : State, exec .linePortTransmissionEnd s = .next t ∧
       t = { s with link := t.link } ∧ t.link.driveQueue = s.link.driveQueue ∧ t.link.driveTx = s.link.driveTx ∧
       (let after := fun f : PortFlag =>
          match x with
          | .own (.status _) => if f.marked = true then ⟨false, false⟩ else f
          | _ => f
        t.link.frameErrorLine = after s.link.frameErrorLine ∧ t.link.frameErrorDrive = after s.link.frameErrorDrive ∧
        t.link.upCongestion = after s.link.upCongestion ∧ t.link.downCongestion = after s.link.downCongestion ∧
        t.link.slip = after s.link.slip ∧ t.link.requestDiscarded = after s.link.requestDiscarded) ∧
       (s.link.forwardQueue = [] → s.link.localQueue = [] →
         t.link.lineTx = none ∧ t.link.lastTaken = s.link.lastTaken ∧ t.link.forwardQueue = [] ∧
           t.link.localQueue = []) ∧
       (∀ f rest, s.link.forwardQueue = f :: rest → (s.link.localQueue = [] ∨ s.link.lastTaken = .own) →
         t.link.lineTx = some (.forwarded f) ∧ t.link.lastTaken = .forward ∧ t.link.forwardQueue = rest ∧
           t.link.localQueue = s.link.localQueue) ∧
       (∀ o rest, s.link.localQueue = o :: rest → (s.link.forwardQueue = [] ∨ s.link.lastTaken = .forward) →
         t.link.lineTx = some (.own o) ∧ t.link.lastTaken = .own ∧ t.link.localQueue = rest ∧
           t.link.forwardQueue = s.link.forwardQueue)) ∧
  (∀ (src tag code : Byte) (a : Answer) (b : Bridge) (s : State), s.link.Sound →
     let fields := match a with
       | .done fields => [1#8, 0#8] ++ fields
       | .accepted fields => [2#8, 0#8] ++ fields
       | .refused refusal detail => [3#8, BitVec.ofNat 8 refusal.code] ++ detail
     let f : Frame := ⟨src, s.address, 4#8, [tag, code] ++ fields⟩
     s.replied src tag code a b =
       { s with
         bridge := b
         link :=
           if s.link.lineTx = none then { s.link with lineTx := some (.own (.reply f)), lastTaken := .own }
           else { s.link with localQueue := s.link.localQueue ++ [.reply f] } })

/-- FRAME_ERROR: a run of bytes that fails its check latches the flag of its port, without the mark (R1, R10). While
frames are held, every arrival is discarded and changes nothing (R1, R180, R183), and FRAME_DISCARDED_RESET_PENDING
never changes anything. -/
def Obligations.DiscardedFrames : Prop :=
  (∀ (received : List Byte) (s : State), s.held = false → Frame.ofBytes received = none →
    exec (.frameError .line received) s =
        .next { s with link := { s.link with frameErrorLine := ⟨true, false⟩ } } ∧
      exec (.frameError .drive received) s =
        .next { s with link := { s.link with frameErrorDrive := ⟨true, false⟩ } }) ∧
  (∀ (c : Instr) (s : State), s.held = true → arrives c = true → exec c s = .next s) ∧
  (∀ (port : Port) (received : List Byte) (s : State),
    exec (.frameDiscardedResetPending port received) s = .next s)

/-! ## Requests and Replies -/

/-- With four Replies waiting a Request is discarded: nothing but REQUEST_DISCARDED changes (R169). A Request that is
taken and names no service is answered UNKNOWN_SERVICE, and operands that do not decode give BAD_OPERAND as the first
check of every service; neither changes the state behind the ports (R170). -/
def Obligations.RequestAdmission : Prop :=
  (∀ (c : Instr) (src : Byte) (body : List Byte) (s : State), c.wellFormed = true →
    (c.request = some (src, body) ∨ c = .requestDiscarded src body) → s.held = false →
    4 ≤ s.link.waitingReplies →
    exec c s = .next { s with link := { s.link with requestDiscarded := ⟨true, false⟩ } }) ∧
  (∀ (src : Byte) (body : List Byte) (s : State), s.takes = true → knownRequest src body = none →
    exec (.unknownService src body) s =
      .next (s.replied src (body.headD 0#8) (body.tail.headD 0#8) (.refused .unknownService []) s.bridge)) ∧
  (∀ (src tag : Byte) (ops : List Byte) (s : State), s.takes = true →
     let bad := fun (c : Instr) (code : Byte) =>
       exec c s = .next (s.replied src tag code (.refused .badOperand []) s.bridge)
     (decodeOperands readStw ops = none → bad (.stw src tag ops) 1#8) ∧
     (decodeOperands readStation ops = none →
       bad (.str src tag ops) 2#8 ∧ bad (.stc src tag ops) 3#8 ∧ bad (.cnr src tag ops) 40#8) ∧
     (decodeOperands readGrw ops = none → bad (.grw src tag ops) 4#8) ∧
     (decodeOperands readGroup ops = none →
       bad (.grr src tag ops) 5#8 ∧ bad (.pls src tag ops) 16#8 ∧ bad (.plh src tag ops) 17#8 ∧
       bad (.plr src tag ops) 18#8 ∧ bad (.plc src tag ops) 19#8 ∧ bad (.pla src tag ops) 20#8 ∧
       bad (.gst src tag ops) 21#8) ∧
     (decodeOperands readSgw ops = none → bad (.sgw src tag ops) 6#8) ∧
     (decodeOperands readSgr ops = none → bad (.sgr src tag ops) 7#8) ∧
     (ops.length ≠ 4 → bad (.omw src tag ops) 8#8) ∧
     (decodeOperands readPbs ops = none → bad (.pbs src tag ops) 24#8) ∧
     (decodeOperands readProbe ops = none → bad (.pbc src tag ops) 25#8 ∧ bad (.pbr src tag ops) 26#8) ∧
     (decodeOperands readCheckWindow ops = none → bad (.cks src tag ops) 32#8) ∧
     (ops.length ≠ 2 → bad (.cka src tag ops) 33#8) ∧
     (ops ≠ [] → bad (.omr src tag ops) 9#8 ∧ bad (.ckx src tag ops) 34#8 ∧ bad (.tpc src tag ops) 49#8 ∧
       bad (.idr src tag ops) 51#8) ∧
     (decodeOperands readCount ops = none → bad (.evr src tag ops) 41#8) ∧
     (decodeOperands readLoss ops = none → bad (.lkw src tag ops) 48#8) ∧
     (decodeOperands readScope ops = none → bad (.brs src tag ops) 50#8))

/-! ## Cycle Frames -/

/-- CYCLE_FRAME_ARRIVAL: the tracker's step, with SLIP, and after a loss of sync no group overrides (R11 to R13, R15,
R16, R178). The eighth good frame posts LINK_SYNCED, a loss of sync LINK_LOST and the GROUP_FAULTs of the groups it
reaches in ascending order, and no other frame posts anything for the tracker. The events of boundary closes may stand
before and after them (assumption logs 3 and 24); with no OPEN entry there are none. -/
def Obligations.CycleFrameStepsTracker : Prop :=
  ∀ (dst src : Byte) (n : CycleNo) (slots : List Slot) (s : State), s.held = false → 1 ≤ slots.length →
    slots.length ≤ 48 →
    let k := s.bridge.tracker
    let good := (∃ left, k.timer = .running left) ∧ ∃ p, k.cycle = some p ∧ n = p + 1#16
    let next := ∃ p, k.cycle = some p ∧ n = p + 1#16
    let slip := k.sync = .synced ∧ ∃ p, k.cycle = some p ∧ n = p + 2#16
    let quiet := k.cycle = none ∨ ∀ i st, s.bridge.station i = some st → st.run.mark ≠ .isOpen
    ∃ t, exec (.cycleFrameArrival dst src n slots) s = .next t ∧
      (let posts := fun own : List Event => s.bridge.events.length ≤ 64 →
         ∃ first last, Posted s.bridge t.bridge (first ++ own ++ last) ∧ (quiet → first = [] ∧ last = [])
       t.bridge.tracker.cycle = some n ∧ t.bridge.tracker.timer = .running (k.setting * 1000) ∧
       t.bridge.tracker.setting = k.setting ∧
       (k.sync = .unsynced → good → t.bridge.tracker.runCount = k.runCount + 1 ∧
         t.bridge.tracker.sync = (if k.runCount + 1 = 8 then .synced else .unsynced) ∧
         posts (if k.runCount + 1 = 8 then [⟨.linkSynced, some n, none, none, none, none, none⟩] else [])) ∧
       (k.sync = .unsynced → ¬good → t.bridge.tracker.runCount = 0 ∧ t.bridge.tracker.sync = .unsynced ∧ posts []) ∧
       (k.sync = .synced → (next ∨ slip) → t.bridge.tracker.runCount = k.runCount ∧
         t.bridge.tracker.sync = .synced ∧ posts []) ∧
       (k.sync = .synced → ¬next → ¬slip → t.bridge.tracker.runCount = 0 ∧ t.bridge.tracker.sync = .unsynced ∧
         (∀ g, (t.bridge.group g).active = false) ∧
         ∃ reached : List GroupIx, reached.Pairwise (· < ·) ∧
           (quiet → reached = (List.finRange 8).filter fun g => (s.bridge.group g).active) ∧
           (∀ g ∈ reached, (t.bridge.group g).runState = .fault .link .settled) ∧
           posts (⟨.linkLost, some n, none, none, none, none, none⟩ ::
             reached.map fun g => ⟨.groupFault, some n, some g, none, (t.bridge.group g).stage,
               (t.bridge.group g).planTag, some .link⟩)) ∧
       (slip → t.link.slip = ⟨true, true⟩) ∧
       (¬slip → t.link.slip = ⟨s.link.slip.on, s.link.slip.on || s.link.slip.marked⟩))

/-- CYCLE_FRAME_ARRIVAL: an OPEN entry closes for the ending cycle with FB_MISSING, every BOUND entry becomes OPEN and
not fresh with its latch kept, and every group awaits its members for the new cycle (R20, R26, R35, R38, R51). The check,
the mask, RELEASE, the Stage Store, the group records and the time base stay as they were. -/
def Obligations.CycleFrameBoundary : Prop :=
  ∀ (dst src : Byte) (n : CycleNo) (slots : List Slot) (s : State), s.held = false → s.bridge.MarksSound →
    1 ≤ slots.length → slots.length ≤ 48 →
    ∃ t, exec (.cycleFrameArrival dst src n slots) s = .next t ∧
      (∀ i, (t.bridge.station i).isSome = (s.bridge.station i).isSome) ∧
      (∀ i x y, s.bridge.station i = some x → t.bridge.station i = some y →
        y.run.mark = .isOpen ∧ y.run.fresh = false ∧ y.run.latch = x.run.latch ∧
        y.config = { x.config with offset := y.config.offset } ∧
        (x.run.mark ≠ .isOpen ∨ s.bridge.tracker.cycle = none →
          y.run.late = x.run.late ∧ y.run.overrun = x.run.overrun ∧ y.run.counter = x.run.counter ∧
            y.run.validity = x.run.validity) ∧
        (x.run.mark = .isOpen → s.bridge.tracker.cycle ≠ none →
          y.run.late = false ∧ y.run.overrun = false ∧ ClosedAtBoundary x.run y.run.present ∧
            ValidityStepped x.config x.run true false y.run.counter y.run.validity)) ∧
      (∀ g, (t.bridge.group g).forming = [] ∧
        (t.bridge.group g).pendingSet =
          if s.bridge.members g = [] then none else some ⟨n, s.bridge.members g⟩) ∧
      t.bridge.check = s.bridge.check ∧ t.bridge.mask = s.bridge.mask ∧ t.bridge.release = s.bridge.release ∧
      t.bridge.store = s.bridge.store ∧ t.bridge.timeBase = s.bridge.timeBase ∧
      (∀ g, (t.bridge.group g).record = (s.bridge.group g).record) ∧
      t.address = s.address ∧ t.resetPending = s.resetPending ∧ t.resetAsserted = s.resetAsserted

/-- CYCLE_FRAME_ARRIVAL: one Cycle Frame goes toward the drives, each slot treated by the bridge as it stands when the
Rewriter takes the frame (R73, R81); the records of R79 and R80 follow its slots; and one Status frame, composed of the
link and the bridge as they stand when it is composed, enters the local queue in place of one that waits (R8, R15, R178).
The arrival is its acts in one order, in which the tracker's step comes before the record of the master references
(assumption log 22), that record before the treatment, and the step before the Status frame (assumption log 23);
`b` is the bridge that the acts before the treatment reach, and `l` and `c` are the link and the bridge that the acts
before the Status frame reach. Where no entry closes at the boundary and sync is not lost, both are the state as it was
but for the tracker, the master references and what the acts before them have recorded. -/
def Obligations.CycleFrameSendsSlotsAndStatus : Prop :=
  ∀ (dst src : Byte) (n : CycleNo) (slots : List Slot) (s : State), s.held = false → s.link.Sound →
    1 ≤ slots.length → slots.length ≤ 48 →
    let ctx : CycleContext := ⟨dst, src, n, slots, s.bridge.tracker.cycle, s.address⟩
    let start : Link × Bridge := (s.link, { s.bridge with tracker := { s.bridge.tracker with cycle := some n } })
    let quiet := s.bridge.tracker.cycle = none ∨ ∀ i st, s.bridge.station i = some st → st.run.mark ≠ .isOpen
    ∃ (t : State) (k l : Link) (b c m : Bridge) (untreated treating unshown showing : List CycleAct),
      exec (.cycleFrameArrival dst src n slots) s = .next t ∧
      (untreated ++ .treat :: treating).Perm (cycleActs ctx s.bridge) ∧
      untreated ++ .treat :: treating = unshown ++ .status :: showing ∧
      .tracker ∈ untreated ∧ .record ∈ untreated ∧ .tracker ∈ unshown ∧
      CycleReaches ctx untreated start (k, b) ∧ CycleReaches ctx (.treat :: treating) (k, b) (t.link, m) ∧
      CycleReaches ctx unshown start (l, c) ∧ CycleReaches ctx (.status :: showing) (l, c) (t.link, m) ∧
      t.bridge = m.openCycle.formPending n ∧
      (b.tracker = t.bridge.tracker ∧ b.check = s.bridge.check ∧ b.mask = s.bridge.mask ∧
        b.release = s.bridge.release ∧ b.store = s.bridge.store ∧
        (∀ g, (b.group g).record = (s.bridge.group g).record) ∧
        (∀ g, (b.group g).masterRef = (t.bridge.group g).masterRef) ∧
        ∀ i, ((b.station i).map fun st => { st.config with offset := 0 }) =
          (s.bridge.station i).map fun st => { st.config with offset := 0 }) ∧
      (c.tracker = t.bridge.tracker ∧ c.check = s.bridge.check ∧ c.release = s.bridge.release) ∧
      (quiet → (s.bridge.tracker.sync = .synced → t.bridge.tracker.sync = .synced) →
        (∀ g, b.group g = { s.bridge.group g with masterRef := (t.bridge.group g).masterRef }) ∧
        (∀ i, b.station i = s.bridge.station i) ∧
        (∀ g, c.group g = { s.bridge.group g with masterRef := (c.group g).masterRef }) ∧
        (∀ i, c.station i = s.bridge.station i ∨ c.station i =
          (s.bridge.station i).map fun st => { st with
            run := { st.run with
              lastSent :=
                (lastSlot (slots.map b.treatSlot) st.config.address).map fun x =>
                  surfaceSpeed st.config.polarity x.speed.toInt } }) ∧
        c.trip = s.bridge.trip ∧ c.events = t.bridge.events ∧ c.eventsLost = t.bridge.eventsLost) ∧
      (l.frameErrorLine = s.link.frameErrorLine ∧ l.frameErrorDrive = s.link.frameErrorDrive ∧
        l.upCongestion = s.link.upCongestion ∧ l.requestDiscarded = s.link.requestDiscarded ∧
        (l.slip = s.link.slip ∨ l.slip = ⟨true, false⟩) ∧
        (l.downCongestion = s.link.downCongestion ∨
          s.link.driveTx ≠ none ∧ 8 ≤ s.link.driveQueue.length ∧ l.downCongestion = ⟨true, false⟩)) ∧
      (let treated := slots.map b.treatSlot
       let f := cycleFrame dst src n treated
       (s.link.driveTx = none → t.link.driveTx = some f ∧ t.link.driveQueue = []) ∧
       (s.link.driveTx ≠ none → s.link.driveQueue.length < 8 →
         t.link.driveTx = s.link.driveTx ∧ t.link.driveQueue = s.link.driveQueue ++ [f]) ∧
       (s.link.driveTx ≠ none → 8 ≤ s.link.driveQueue.length →
         t.link.driveTx = s.link.driveTx ∧ t.link.driveQueue = s.link.driveQueue ∧
           t.link.downCongestion.on = true) ∧
       (∀ i y, t.bridge.station i = some y →
         let alters := ∃ g, y.config.group = some g ∧ b.tracker.sync = .synced ∧ b.check.state = .running ∧
           b.release = true ∧ b.mask.getLsbD i.val = true ∧ b.mode g ≠ .none
         y.run.lastSent =
             (lastSlot treated y.config.address).map (fun x => surfaceSpeed y.config.polarity x.speed.toInt) ∧
           (lastSlot slots y.config.address = none → t.bridge.treatments[i] = some .noSlot) ∧
           (lastSlot slots y.config.address ≠ none → alters → t.bridge.treatments[i] = some .altered) ∧
           (lastSlot slots y.config.address ≠ none → ¬alters → t.bridge.treatments[i] = some .passed)) ∧
       (∀ i, t.bridge.station i = none → t.bridge.treatments[i] = s.bridge.treatments[i]) ∧
       (∀ g, (t.bridge.group g).masterRef =
         match ((s.bridge.leader g).bind s.bridge.station).bind fun st =>
           (lastSlot slots st.config.address).map fun x => surfaceSpeed st.config.polarity x.speed.toInt with
         | some v => some ⟨v, n⟩
         | none => (s.bridge.group g).masterRef) ∧
       (let status := statusFrame s.address l c
        t.link.forwardQueue = s.link.forwardQueue ∧
        (s.link.lineTx = none →
          t.link.lineTx = some (.own (.status status)) ∧ t.link.lastTaken = .own ∧ t.link.localQueue = []) ∧
        (s.link.lineTx ≠ none →
          t.link.lineTx = s.link.lineTx ∧ t.link.lastTaken = s.link.lastTaken ∧
            t.link.localQueue = (s.link.localQueue.filter fun x => !x.isStatus) ++ [.status status])))

/-- A group's override mode (R74) and whether its trims are on, and the treatment of a slot (R73 to R78): PASSED byte for
byte unless every condition of R75 holds; ALTERED with the speed reference of R76 clamped to the range of the field and
the torque limit of R77, its other fields kept. -/
def Obligations.SlotTreatment : Prop :=
  (∀ (b : Bridge) (g : GroupIx),
     let x := b.group g
     let r := b.currentStage g
     (x.inPlan = true → r.kind ∈ [StageKind.creep, .bump, .tune, .thread, .handback] → b.mode g = .speed) ∧
     (x.inPlan = true → r.kind = .trim → b.mode g = .trims) ∧
     (x.inPlan = true → r.kind = .pass → r.trims = some true → b.mode g = .trims) ∧
     (x.inPlan = true → r.kind = .pass → r.trims = some false → b.mode g = .none) ∧
     (x.inPlan = true → (b.trimsOn g = true ↔ r.trims = some true)) ∧
     (x.inPlan = false → b.trimsOn g = false) ∧
     (x.inPlan = true ↔ x.runState = .running ∨ x.runState = .held) ∧
     (x.runState = .aborting → b.mode g = .speed) ∧
     (∀ c, x.runState = .fault c .unwinding → b.mode g = .speed) ∧
     (∀ c, x.runState = .fault c .settled → b.mode g = .none) ∧
     (x.runState = .idle ∨ x.runState = .done → b.mode g = .none)) ∧
  (∀ (b : Bridge) (x : Slot), b.TableSound →
     ((∀ i st, ¬b.Binds x.addr i st) → b.treatSlot x = x) ∧
     (∀ i st, b.Binds x.addr i st → st.config.group = none → b.treatSlot x = x) ∧
     (∀ i st g, b.Binds x.addr i st → st.config.group = some g →
       let alters := b.tracker.sync = .synced ∧ b.check.state = .running ∧ b.release = true ∧
         b.mask.getLsbD i.val = true ∧ b.mode g ≠ .none
       (¬alters → b.treatSlot x = x) ∧
       (alters →
         let y := b.treatSlot x
         let v := match b.mode g with
           | .trims => x.speed.toInt + signed st.config.polarity st.run.trim
           | _ => signed st.config.polarity ((b.group g).speed + if b.trimsOn g then st.run.trim else 0)
         let bumps := (b.group g).inPlan = true ∧ (b.currentStage g).kind = .bump
         y.addr = x.addr ∧ y.control = x.control ∧ y.flags = x.flags ∧
         y.speed.toInt = (if v < -8388608 then -8388608 else if 8388607 < v then 8388607 else v) ∧
         (¬bumps ∨ (b.currentStage g).cap = none → y.torqueLimit = x.torqueLimit) ∧
         (bumps → ∀ cap, (b.currentStage g).cap = some cap →
           y.torqueLimit.toNat = min cap x.torqueLimit.toNat))))

/-- The Status frame: 131 bytes, with the cycle number, the tracker, the console check, the trip causes and the RELEASE
level in front, a block of 11 bytes for each group, a byte for each station entry, and the event count and the flags at
the end (12.5, R179). A stage index, a stack depth and a commanded speed are read where their fields can carry them; what
stands there otherwise is free (assumption log 14). -/
def Obligations.StatusFrameLayout : Prop :=
  ∀ (address : Byte) (l : Link) (b : Bridge), b.events.length ≤ 64 →
    let f := statusFrame address l b
    f.dst = 0#8 ∧ f.src = address ∧ f.kind = 5#8 ∧ f.body.length = 131 ∧
    f.body.take 9 =
      be16 (b.tracker.cycle.getD 0#16) ++ [if b.tracker.sync = .synced then 1#8 else 0#8] ++
        [match b.check.state with | .inactive => 0#8 | .running => 1#8 | .failed => 2#8] ++
        be16 b.check.challenge ++ [b.check.sequence] ++
        [(if b.trip.console then 1#8 else 0#8) + (if b.trip.runaway then 2#8 else 0#8) +
          (if b.trip.stage then 4#8 else 0#8)] ++
        [if b.release then 1#8 else 0#8] ∧
    (∀ g : GroupIx, ∃ (stage depth : Byte) (speed : BitVec 24) (summary : BitVec 16),
      let x := b.group g
      (f.body.drop (9 + 11 * g.val)).take 11 =
        [match x.runState with
          | .idle => 0#8 | .running => 1#8 | .held => 2#8 | .aborting => 3#8
          | .fault _ .unwinding => 4#8 | .fault _ .settled => 5#8 | .done => 6#8] ++
        [if x.runState = .running ∨ x.runState = .held then
          match x.phase with
          | none => 0#8 | some .ramp => 1#8 | some .dwell => 2#8 | some .awaitConfirm => 3#8 | some .rise => 4#8
          | some .fall => 5#8 | some .settling => 6#8 | some .waitProbe => 7#8 | some .probing => 8#8
          | some .blend => 9#8
        else 0#8] ++
        [stage, depth, if x.deferred.isSome then 1#8 else 0#8] ++ be24 speed ++ [if x.alarm then 1#8 else 0#8] ++
        be16 summary ∧
      (x.stage = none → stage = 255#8) ∧ (∀ i, x.stage = some i → i ≤ 127 → stage.toNat = i) ∧
      (x.stack.length ≤ 3 → depth.toNat = x.stack.length) ∧
      (-8388608 ≤ x.speed → x.speed ≤ 8388607 → speed.toInt = x.speed) ∧
      ∀ k, summary.getLsbD k = true ↔ (b.summary g)[k]? = some true) ∧
    (f.body.drop 97).take 32 =
      (List.finRange 32).map (fun i =>
        match b.station i with
        | none => 0#8
        | some st => match st.run.validity with | .valid => 1#8 | .invalid => 2#8 | .fatal => 3#8) ∧
    f.body.drop 129 =
      [BitVec.ofNat 8 b.events.length,
        (if l.frameErrorLine.on then 1#8 else 0#8) + (if l.frameErrorDrive.on then 2#8 else 0#8) +
          (if l.upCongestion.on then 4#8 else 0#8) + (if l.downCongestion.on then 8#8 else 0#8) +
          (if l.slip.on then 16#8 else 0#8) + (if l.requestDiscarded.on then 32#8 else 0#8) +
          (if b.eventsLost then 64#8 else 0#8)]

/-! ## Feedback Frames -/

/-- FEEDBACK_FRAME_ARRIVAL: the frame goes up with the bridge tag of the station's validity as it stood on the arrival,
or UNBOUND, in which case nothing behind the ports changes (R3, R7, R21, R25). A frame that closes no station, because it
is late, a second one, or of an EXEMPT station, leaves its marks on the entry and changes nothing else (R23, R24). -/
def Obligations.FeedbackIsTaggedAndForwarded : Prop :=
  ∀ (dst src : Byte) (n : CycleNo) (speed : BitVec 24) (torque : BitVec 16) (status tag : Byte) (s : State),
    s.held = false → s.bridge.TableSound →
    ∃ (t : State) (out : Byte), exec (.feedbackFrameArrival dst src n speed torque status tag) s = .next t ∧
      t = { s with link := t.link, bridge := t.bridge } ∧
      (∀ i st, s.bridge.Binds src i st →
        out = match st.run.validity with | .valid => 1#8 | .invalid => 2#8 | .fatal => 3#8) ∧
      ((∀ i st, ¬s.bridge.Binds src i st) → out = 4#8 ∧ t.bridge = s.bridge) ∧
      (s.link.Sound →
       let f := feedbackFrame dst src n speed torque status out
       t.link =
         if 16 ≤ s.link.forwardQueue.length then { s.link with upCongestion := ⟨true, false⟩ }
         else if s.link.lineTx = none then { s.link with lineTx := some (.forwarded f), lastTaken := .forward }
         else { s.link with forwardQueue := s.link.forwardQueue ++ [f] }) ∧
      (∀ i st, s.bridge.Binds src i st →
        let l : Latch := ⟨n, speed.toInt, torque.toInt,
          ⟨status.getLsbD 0, status.getLsbD 1, status.getLsbD 2, status.getLsbD 3⟩⟩
        let leaves := fun run : StationRun =>
          t.bridge = { s.bridge with stations := s.bridge.stations.set i (some { st with run := run }) }
        (s.bridge.tracker.cycle ≠ some n → leaves { st.run with late := true }) ∧
        (s.bridge.tracker.cycle = some n → st.run.mark = .closed →
          leaves { st.run with latch := some l, overrun := true }) ∧
        (s.bridge.tracker.cycle = some n → st.run.mark = .exempt →
          leaves { st.run with latch := some l, fresh := true }))

/-- FEEDBACK_FRAME_ARRIVAL that closes its station: the latch, the marks, the seven conditions and their latched flags,
the counter and the validity state (R22, R26, R35, R37 to R42). A station that becomes FATAL puts RUNAWAY into the trip
cause set (R40). The change of state posts its event, and RUNAWAY entering an empty set posts TRIP_OPENED, ahead of every
event of the group and the probes that take the close (R42, R43, R165). Other entries keep what belongs to their own
closes, and the blocks that no close reaches keep all. -/
def Obligations.FeedbackClosesStation : Prop :=
  ∀ (dst src : Byte) (n : CycleNo) (speed : BitVec 24) (torque : BitVec 16) (status tag : Byte) (i : StationIx)
    (st : Station) (s : State),
    s.held = false → s.bridge.TableSound → s.bridge.Binds src i st → s.bridge.tracker.cycle = some n →
    st.run.mark = .isOpen →
    let l : Latch := ⟨n, speed.toInt, torque.toInt,
      ⟨status.getLsbD 0, status.getLsbD 1, status.getLsbD 2, status.getLsbD 3⟩⟩
    ∃ (t : State) (y : Station), exec (.feedbackFrameArrival dst src n speed torque status tag) s = .next t ∧
      t.bridge.station i = some y ∧
      y.config = { st.config with offset := y.config.offset } ∧
      y.run.latch = some l ∧ y.run.fresh = true ∧ y.run.mark = .closed ∧ y.run.late = false ∧ y.run.overrun = false ∧
      y.run.lastSent = st.run.lastSent ∧ ClosedWith st.config st.run l y.run.present ∧
      ValidityStepped st.config st.run
        (y.run.present.fbLate || y.run.present.fbOverrun || y.run.present.headroom || y.run.present.driveFault)
        y.run.present.runaway y.run.counter y.run.validity ∧
      st.run.latched.le y.run.latched ∧
      (let p := y.run.present
       let q := y.run.latched
       (p.fbLate → q.fbLate) ∧ (p.fbOverrun → q.fbOverrun) ∧ (p.headroom → q.headroom) ∧
         (p.driveFault → q.driveFault) ∧ (p.speedDev → q.speedDev) ∧ (p.runaway → q.runaway)) ∧
      (let turns := st.run.validity ≠ .fatal ∧ y.run.validity = .fatal
       let opens : List Event :=
         if s.bridge.trip = ⟨false, false, false⟩ then
           [⟨.tripOpened, some n, none, none, none, none, some .runaway⟩] else []
       let own : List Event :=
         if y.run.validity = st.run.validity then []
         else match y.run.validity with
           | .invalid => [⟨.stationInvalid, some n, st.config.group, some i, none, none, none⟩]
           | .valid => [⟨.stationValid, some n, st.config.group, some i, none, none, none⟩]
           | .fatal => ⟨.stationFatal, some n, st.config.group, some i, none, none, some .runaway⟩ :: opens
       (turns → t.bridge.trip.runaway = true) ∧ (¬turns → t.bridge.trip.runaway = s.bridge.trip.runaway) ∧
       t.bridge.trip.console = s.bridge.trip.console ∧
       (s.bridge.events.length ≤ 64 →
         ∃ more, Posted s.bridge t.bridge (own ++ more) ∧
           (st.config.group = none →
             (∀ p, ¬((s.bridge.probe p).state = .running ∧ (s.bridge.probe p).station = some i)) → more = []))) ∧
      (∀ j, j ≠ i → (t.bridge.station j).map Station.core = (s.bridge.station j).map Station.core) ∧
      t.bridge.tracker = s.bridge.tracker ∧ t.bridge.mask = s.bridge.mask ∧ t.bridge.store = s.bridge.store ∧
      t.bridge.treatments = s.bridge.treatments ∧ t.bridge.check = s.bridge.check ∧
      t.bridge.release = s.bridge.release ∧ t.bridge.timeBase = s.bridge.timeBase ∧
      (∀ g, (t.bridge.group g).record = (s.bridge.group g).record ∧
        (t.bridge.group g).masterRef = (s.bridge.group g).masterRef)

/-- FEEDBACK_FRAME_ARRIVAL that is the last close a group awaits, for a group that runs no plan and does not unwind: the
group closes for the cycle with the roster of its closed members and steps its alarm counter (R52, R54, R59, R66, R67).
The roster that forms is held apart from the one that has closed, and the latter is in ascending order (assumption log
10). -/
def Obligations.LastMemberClosesGroup : Prop :=
  ∀ (dst src : Byte) (n : CycleNo) (speed : BitVec 24) (torque : BitVec 16) (status tag : Byte) (i : StationIx)
    (st : Station) (g : GroupIx) (s : State),
    s.held = false → s.bridge.TableSound → s.bridge.Binds src i st → s.bridge.tracker.cycle = some n →
    st.run.mark = .isOpen → st.config.group = some g → (s.bridge.group g).pendingSet = some ⟨n, [i]⟩ →
    (s.bridge.group g).active = false →
    ∃ t, exec (.feedbackFrameArrival dst src n speed torque status tag) s = .next t ∧
      (let x := s.bridge.group g
       let y := t.bridge.group g
       let limit := x.record.alarmLimit
       y.pendingSet = none ∧ y.forming = [] ∧
       y.roster.map RosterEntry.station =
         (List.finRange 32).filter (fun j => decide (j = i) || (x.forming.map RosterEntry.station).contains j) ∧
       y.shareResult.map ShareResult.cycle = some n ∧
       y.runState = x.runState ∧
       (t.bridge.alarmCounts g = true → x.alarmCounter + 3 < limit →
         y.alarmCounter = x.alarmCounter + 3 ∧ y.alarm = x.alarm) ∧
       (t.bridge.alarmCounts g = true → limit ≤ x.alarmCounter + 3 →
         y.alarmCounter = limit + x.record.alarmHold ∧ y.alarm = true) ∧
       (t.bridge.alarmCounts g = false →
         y.alarmCounter = x.alarmCounter - 1 ∧ (y.alarm = true ↔ x.alarm = true ∧ limit ≤ x.alarmCounter - 1)))

/-- FEEDBACK_FRAME_ARRIVAL that closes a station of a group, in every run state of the group. The group gives the
transition to its stage machine; a close that its pending set does not await is not counted; a close that it awaits joins
the roster with its close sample; and the last one closes the group with the share result, the trim update, the closed
leader speed, the direction check, the delivery with the draw, the alarm step and stage progress, in that order (R52,
R54). The roster is ascending (assumption log 10). `m` is the bridge to which the station's close is handed on, and `u`
what the group makes of it: a probe that runs on the station may take the close before or after the group (R42,
assumption log 3), and without one there is nothing in between. -/
def Obligations.MemberCloseReachesItsGroup : Prop :=
  ∀ (dst src : Byte) (n : CycleNo) (speed : BitVec 24) (torque : BitVec 16) (status tag : Byte) (i : StationIx)
    (st : Station) (g : GroupIx) (s : State),
    s.held = false → s.bridge.TableSound → s.bridge.Binds src i st → s.bridge.tracker.cycle = some n →
    st.run.mark = .isOpen → st.config.group = some g →
    let latch : Latch := ⟨n, speed.toInt, torque.toInt,
      ⟨status.getLsbD 0, status.getLsbD 1, status.getLsbD 2, status.getLsbD 3⟩⟩
    let run := { st.run with latch := some latch, fresh := true, mark := .closed }.closed st.config false
    let r : CloseRecord :=
      { station := i, cycle := n, fresh := true, validity := run.validity
        transition := if run.validity = st.run.validity then none else some run.validity, present := run.present }
    let sample : CloseSample :=
      { validity := run.validity, fresh := true, headroom := run.present.headroom
        speed := some (surfaceSpeed st.config.polarity speed.toInt)
        torque := some (surfaceTorque st.config.polarity torque.toInt) }
    let setGroup := fun (b : Bridge) (x : DriveGroup) => ({ b with groups := b.groups.set g x } : Bridge)
    ∃ (t : State) (closed m u : Bridge), exec (.feedbackFrameArrival dst src n speed torque status tag) s = .next t ∧
      closed =
        { s.bridge with
          stations := s.bridge.stations.set i (some { st with run := run })
          trip := if r.transition = some .fatal then { s.bridge.trip with runaway := true } else s.bridge.trip
          events := closed.events, eventsLost := closed.eventsLost } ∧
      (m = { closed with
          groups := m.groups, probe1 := m.probe1, probe2 := m.probe2, events := m.events, eventsLost := m.eventsLost
          choices := m.choices, choiceCount := m.choiceCount } ∧
        ∀ k, UnchangedOrGranted (closed.group k) (m.group k)) ∧
      (let b := m.groupTransition g r
       let x := b.group g
       ((∀ p, x.pendingSet = some p → p.cycle = n → i ∉ p.stations) → u = b) ∧
       (∀ p, x.pendingSet = some p → p.cycle = n → i ∈ p.stations →
         let forming := x.forming ++ [⟨i, sample⟩]
         (p.stations.erase i ≠ [] →
           u = setGroup b { x with forming := forming, pendingSet := some ⟨n, p.stations.erase i⟩ }) ∧
         (p.stations.erase i = [] → GroupCloses b g n forming u))) ∧
      (t.bridge = { u with
          groups := t.bridge.groups, probe1 := t.bridge.probe1, probe2 := t.bridge.probe2, events := t.bridge.events
          eventsLost := t.bridge.eventsLost, choices := t.bridge.choices, choiceCount := t.bridge.choiceCount } ∧
        ∀ k, UnchangedOrGranted (u.group k) (t.bridge.group k)) ∧
      ((∀ p, ¬((s.bridge.probe p).state = .running ∧ (s.bridge.probe p).station = some i)) →
        m = closed ∧ t.bridge = u)

/-- A member's transition at its group (step 1 of R52): INVALID in a speed-override stage of a RUNNING or HELD group is the
fault trigger MEMBER_LOST (R121), FATAL the bypass cause MEMBER_FATAL (R125), and each names the station; nothing else
does anything. And through FEEDBACK_FRAME_ARRIVAL: the run state in which the group is left by a bypass, and by a trigger
under HALT, under TRIP, and under EXCURSION while HELD (R123, R124). That a bypass sets the blend count of a group in FAULT
UNWINDING to 0 is assumption log 28. -/
def Obligations.TransitionReachesItsGroup : Prop :=
  (∀ (b : Bridge) (g : GroupIx) (r : CloseRecord),
    let x := b.group g
    let c := b.groupTransition g r
    let lost := (x.runState = .running ∨ x.runState = .held) ∧
      (b.currentStage g).kind ∈ [StageKind.creep, .bump, .tune, .thread, .handback]
    (r.transition = none ∨ r.transition = some .valid → c = b) ∧
    (r.transition = some .invalid → lost → c = b.takeFaultAction g .memberLost (some r.station)) ∧
    (r.transition = some .invalid → ¬lost → c = b) ∧
    (r.transition = some .fatal → x.active = false → c = b) ∧
    (r.transition = some .fatal → x.active = true →
      Bypassed .memberFatal x (c.group g) ∧ (∀ k, k ≠ g → UnchangedOrGranted (b.group k) (c.group k)) ∧
      c.stations = b.stations ∧ c.trip = b.trip ∧ c.check = b.check ∧ c.tracker = b.tracker ∧ c.mask = b.mask ∧
      c.store = b.store ∧
      (b.OwnersSound → ∀ p, (c.probe p).owner ≠ some (.group g)) ∧
      (b.events.length ≤ 64 → Posted b c
        [⟨.groupFault, b.tracker.cycle, some g, some r.station, x.stage, x.planTag, some .memberFatal⟩]))) ∧
  (∀ (dst src : Byte) (n : CycleNo) (speed : BitVec 24) (torque : BitVec 16) (status tag : Byte) (i : StationIx)
    (st : Station) (g : GroupIx) (s : State),
    s.held = false → s.bridge.TableSound → s.bridge.Binds src i st → s.bridge.tracker.cycle = some n →
    st.run.mark = .isOpen → st.config.group = some g →
    ∃ (t : State) (y : Station), exec (.feedbackFrameArrival dst src n speed torque status tag) s = .next t ∧
      t.bridge.station i = some y ∧
      (let x := s.bridge.group g
       let z := t.bridge.group g
       let r := s.bridge.currentStage g
       (st.run.validity ≠ .fatal → y.run.validity = .fatal → x.active = true → Bypassed .memberFatal x z) ∧
       (st.run.validity = .valid → y.run.validity = .invalid → x.inPlan = true →
         r.kind ∈ [StageKind.creep, .bump, .tune, .thread, .handback] →
         ((r.faultAction = some .halt ∨ r.faultAction = some .excursion ∧ x.runState = .held) →
           z.runState = .fault .memberLost .unwinding ∧ z.stage = x.stage ∧ z.planTag = x.planTag ∧ z.stack = []) ∧
         (r.faultAction = some .trip →
           z.runState = .fault .memberLost .settled ∧ z.stage = x.stage ∧ z.planTag = x.planTag ∧ z.stack = [] ∧
             t.bridge.trip.stage = true))))

/-! ## Shares and trims -/

/-- The share result of a group close with the roster that stands, over the torques clamped to the stations' torque clamps
and their nominal shares (R55 to R59). -/
def Obligations.ShareEvaluation : Prop :=
  ∀ (b : Bridge) (g : GroupIx) (n : CycleNo),
    let x := b.group g
    let ev := x.roster.filter fun e => decide (e.sample.validity = .valid) && e.sample.fresh && !e.sample.headroom
    let sum := (ev.map b.clampedTorque).sum
    let r := b.shareResult g n
    (∀ i st, b.station i = some st → b.nominalShare i = st.config.share) ∧
    (∀ e st v, b.station e.station = some st → e.sample.torque = some v →
      let limit : Int := st.config.clamp
      b.clampedTorque e = if v < -limit then -limit else if limit < v then limit else v) ∧
    r.cycle = n ∧
    (x.roster.length < 2 → r.outcome = .single ∧ r.total = none) ∧
    (2 ≤ x.roster.length → ev.length < 2 → r.outcome = .suspended ∧ r.total = none) ∧
    (2 ≤ x.roster.length → 2 ≤ ev.length → (sum.natAbs < x.record.shareFloor ∨ sum = 0) →
      r.outcome = .belowFloor ∧ r.total = some sum) ∧
    (2 ≤ x.roster.length → 2 ≤ ev.length → x.record.shareFloor ≤ sum.natAbs → sum ≠ 0 →
      r.outcome = .evaluated ∧ r.total = some sum) ∧
    r.members.map MemberShare.station = x.roster.map RosterEntry.station ∧
    (∀ e ∈ x.roster, ∃ m ∈ r.members, m.station = e.station ∧ (m.evaluated = true ↔ e ∈ ev) ∧
      (r.outcome ≠ .evaluated ∨ e ∉ ev → m.judgement = none) ∧
      (r.outcome = .evaluated → e ∈ ev → ∃ j, m.judgement = some j ∧
        j.torque = b.clampedTorque e ∧ j.share = (j.torque * 1000).tdiv sum ∧
        j.error = j.share - b.nominalShare e.station ∧
        (j.shareDev = true ↔ x.record.shareWindow < j.error.natAbs) ∧
        (j.fight = true ↔
          (0 < j.torque ∧ sum < 0 ∨ j.torque < 0 ∧ 0 < sum) ∧ x.record.fightThreshold < j.torque.natAbs)))

/-- The trim update of a group close: every evaluated member's trim moves by -(e x K) / 256, truncated toward zero, and
is clamped to the trim limit; the others, and every trim of a group with trims off, stay (R60, R61). -/
def Obligations.TrimUpdate : Prop :=
  ∀ (b : Bridge) (g : GroupIx) (i : StationIx) (st : Station), b.station i = some st →
    let x := b.group g
    let kept := (b.updateTrims g).station i = some st
    (b.trimsOn g = false → b.updateTrims g = b) ∧
    (st.config.group ≠ some g → kept) ∧
    (∀ r, b.trimsOn g = true → st.config.group = some g → x.shareResult = some r →
      (r.judgement i = none → kept) ∧
      (∀ j, r.judgement i = some j →
        let moved := st.run.trim - (j.error * x.record.gain).tdiv 256
        let limit : Int := x.record.trimLimit
        (b.updateTrims g).station i = some { st with
          run := { st.run with trim := if moved < -limit then -limit else if limit < moved then limit else moved } }))

/-! ## The stage machine at a group close (step 7 of R54) -/

/-- What a group close judges besides the shares: the closed leader speed (R63), the draw (R64), the members that fail the
direction check of a BUMP stage (R110), the delivery of SHARE_DEV, FIGHT and DIRECTION to every member with DRAW and
SHARE_SUSPENDED for the group (R36, R37, R55), and what counts for the alarm (R66). And the group's summary (R45). -/
def Obligations.GroupConditions : Prop :=
  (∀ (b : Bridge) (g : GroupIx) (n : CycleNo),
    let x := b.group g
    let leads := fun v : Int => ∃ i e, b.leader g = some i ∧
      x.roster.find? (fun e => decide (e.station = i)) = some e ∧ e.sample.validity = .valid ∧
      e.sample.fresh = true ∧ e.sample.speed = some v
    (∀ v, leads v →
      b.recordLeader g n = { b with groups := b.groups.set g { x with closedLeader := some ⟨v, n⟩ } }) ∧
    ((∀ v, ¬leads v) → b.recordLeader g n = b) ∧
    (b.drawPresent g n = true ↔
      ∃ ref target v base cycle, x.record.drawReference = some ref ∧ x.record.drawTarget = some target ∧ leads v ∧
        (b.group ref).closedLeader = some ⟨base, cycle⟩ ∧ (cycle = n ∨ cycle + 1#16 = n) ∧ 500 ≤ base ∧
        x.record.drawWindow < ((v * 10000).tdiv base - target).natAbs)) ∧
  (∀ (b : Bridge) (g : GroupIx),
    let x := b.group g
    (b.failingMembers g).Pairwise (· < ·) ∧
    ∀ i, i ∈ b.failingMembers g ↔
      x.runState = .running ∧ (b.currentStage g).kind = .bump ∧ x.phase = some .dwell ∧ x.dwell ≤ 1 ∧
      i ∈ b.members g ∧
      ∃ target entry e v v0, (b.currentStage g).target = some target ∧ x.bumpEntry = some entry ∧ target ≠ entry ∧
        e ∈ x.roster ∧ e.station = i ∧ e.sample.validity = .valid ∧ e.sample.fresh = true ∧
        e.sample.speed = some v ∧ x.bumpActuals.find? (fun a => decide (a.station = i)) = some ⟨i, some v0⟩ ∧
        ¬(0 < target - entry ∧ 0 < v - v0 ∨ target - entry < 0 ∧ v - v0 < 0)) ∧
  (∀ (b : Bridge) (g : GroupIx) (draw : Bool) (failing : List StationIx),
    let x := b.group g
    let c := b.deliver g draw failing
    let suspended := decide (x.shareResult.map ShareResult.outcome = some .suspended)
    c = { b with
      stations := c.stations
      groups := b.groups.set g { x with
        draw := ⟨draw, x.draw.latched || draw⟩
        shareSuspended := ⟨suspended, x.shareSuspended.latched || suspended⟩ } } ∧
    ∀ i, (b.station i = none → c.station i = none) ∧
      ∀ st, b.station i = some st →
        (st.config.group ≠ some g → c.station i = some st) ∧
        (st.config.group = some g →
          ∃ p : Conditions,
            c.station i = some { st with run := { st.run with present := p, latched := st.run.latched.union p } } ∧
            p = { st.run.present with shareDev := p.shareDev, fight := p.fight, direction := p.direction } ∧
            (p.shareDev = true ↔ ∃ v j, x.shareResult = some v ∧ v.judgement i = some j ∧ j.shareDev = true) ∧
            (p.fight = true ↔ ∃ v j, x.shareResult = some v ∧ v.judgement i = some j ∧ j.fight = true) ∧
            (p.direction = true ↔ i ∈ failing))) ∧
  (∀ (b : Bridge) (g : GroupIx),
    (b.alarmCounts g = true ↔ (b.group g).draw.present = true ∨
      ∃ i st, b.station i = some st ∧ st.config.group = some g ∧
        (st.run.present.speedDev = true ∨ st.run.present.shareDev = true ∨ st.run.present.fight = true ∨
          st.run.present.direction = true)) ∧
    (b.summary g).length = 12 ∧
    (∀ k, k < 10 → ((b.summary g)[k]? = some true ↔
      ∃ i st, b.station i = some st ∧ st.config.group = some g ∧ st.run.latched.flags[k]? = some true)) ∧
    (b.summary g)[10]? = some (b.group g).draw.latched ∧
    (b.summary g)[11]? = some (b.group g).shareSuspended.latched)

/-- Step 7 of a group close, for a group in RUNNING or HELD. Its triggers come first, and DIRECTION wins over ALARM
(step 1 of R105). The progress of a RUNNING group's stage where no trigger is taken: RAMP and RISE; the dwell count and
the settle count of an exit; FALL; SETTLING with its settle count and the claim it ends in, on P1, on P2 or in the
waiting set; PROBING without a result; BLEND; and the phases that wait. A HELD group makes none (R104 to R108, R110 to
R114, R143). Where a stage ends, `Bridge.endStage` says what follows, of which PlanConfirm and ReturnAtStageEnd speak;
that no unwind step is made at that close where the stage end itself faults the group STAGE_INVALID is the model's
choice (assumption log 29). What empty accumulators hold is assumption log 34. -/
def Obligations.StageProgressAtClose : Prop :=
  ∀ (b : Bridge) (g : GroupIx),
    let x := b.group g
    let r := b.currentStage g
    let set := fun y : DriveGroup => ({ b with groups := b.groups.set g y } : Bridge)
    let leaves := fun y : DriveGroup => b.stageProgress g [] false = set y
    let ends := fun y : DriveGroup => b.stageProgress g [] false = (set y).endStage g
    let settled := ∃ v, x.shareResult = some v ∧ (v.outcome = .single ∨
      v.outcome = .evaluated ∧ ∀ m ∈ v.members, ∀ j, m.judgement = some j → j.error.natAbs ≤ r.settleWindow.getD 0)
    (x.runState = .running ∨ x.runState = .held →
      (∀ i rest alarm, b.stageProgress g (i :: rest) alarm = b.takeFaultAction g .direction (some i)) ∧
      b.stageProgress g [] true = b.takeFaultAction g .alarm) ∧
    (x.runState = .held → b.stageProgress g [] false = b) ∧
    (∀ target rate, x.runState = .running → (x.phase = some .ramp ∨ x.phase = some .rise) → r.target = some target →
      r.ramp = some rate →
      ((target - x.speed).natAbs ≤ rate →
        leaves { x with
          speed := target, phase := some (if r.exit = some .confirm then .awaitConfirm else .dwell) }) ∧
      (rate < (target - x.speed).natAbs → x.speed < target → leaves { x with speed := x.speed + rate }) ∧
      (rate < (target - x.speed).natAbs → target < x.speed → leaves { x with speed := x.speed - rate })) ∧
    (x.runState = .running → x.phase = some .dwell → r.kind ≠ .bump →
      (r.exit = some .dwell ∨ r.exit = some .dwellThenConfirm) → 1 < x.dwell →
      leaves { x with dwell := x.dwell - 1 }) ∧
    (x.runState = .running → x.phase = some .dwell → r.kind ≠ .bump → r.exit = some .dwell → x.dwell ≤ 1 →
      ends { x with dwell := 0 }) ∧
    (x.runState = .running → x.phase = some .dwell → r.kind ≠ .bump → r.exit = some .dwellThenConfirm → x.dwell ≤ 1 →
      leaves { x with dwell := 0, phase := some .awaitConfirm }) ∧
    (x.runState = .running → x.phase = some .dwell → r.kind ≠ .bump → r.exit = some .settled →
      (¬settled → leaves { x with settle := r.dwell.getD 0 }) ∧
      (settled → 1 < x.settle → leaves { x with settle := x.settle - 1 }) ∧
      (settled → x.settle ≤ 1 → ends { x with settle := 0 })) ∧
    (x.runState = .running → x.phase = some .dwell → r.kind = .bump → 1 < x.dwell →
      leaves { x with dwell := x.dwell - 1 }) ∧
    (x.runState = .running → x.phase = some .dwell → r.kind = .bump → x.dwell ≤ 1 →
      leaves { x with dwell := 0, phase := some .fall }) ∧
    (∀ entry rate, x.runState = .running → x.phase = some .fall → x.bumpEntry = some entry → r.ramp = some rate →
      (rate < (entry - x.speed).natAbs →
        leaves { x with speed := if x.speed < entry then x.speed + rate else x.speed - rate }) ∧
      ((entry - x.speed).natAbs ≤ rate → ends { x with speed := entry })) ∧
    (∀ target rate, x.runState = .running → x.phase = some .settling → r.target = some target → r.ramp = some rate →
      x.speed ≠ target →
      leaves { x with
        speed :=
          if (target - x.speed).natAbs ≤ rate then target
          else if x.speed < target then x.speed + rate else x.speed - rate }) ∧
    (∀ rate, x.runState = .running → x.phase = some .settling → r.target = some x.speed → r.ramp = some rate →
      (¬settled → leaves { x with settle := r.dwell.getD 0 }) ∧
      (settled → 1 < x.settle → leaves { x with settle := x.settle - 1 }) ∧
      (settled → x.settle ≤ 1 →
        let free := fun y : Probe => y.state = .idle ∨ y.state = .done ∧ ∃ tag, y.owner = some (.request tag)
        (¬free b.probe1 → ¬free b.probe2 →
          leaves { x with settle := 0, phase := some .waitProbe, waiting := true }) ∧
        ∀ i w, b.leader g = some i → r.probeWindow = some w →
          let granted := set { x with settle := 0, phase := some .probing, waiting := false }
          let run : Probe :=
            { state := .running, owner := some (.group g), station := some i, mode := .fixed, window := w, sub := 1
              acc := ⟨0, 0, 0, none, none, 0, none, none, none⟩, completed := [], result := none }
          (free b.probe1 → b.stageProgress g [] false = { granted with probe1 := run }) ∧
          (¬free b.probe1 → free b.probe2 → b.stageProgress g [] false = { granted with probe2 := run }))) ∧
    (x.runState = .running → x.phase = some .probing →
      ((∀ p, (b.probe p).owner ≠ some (.group g)) →
        leaves { x with phase := some .settling, settle := r.dwell.getD 0 }) ∧
      (∀ p, b.ownedProbe g = some p → (b.probe p).state ≠ .done → b.stageProgress g [] false = b)) ∧
    (∀ rate, x.runState = .running → x.phase = some .blend → r.ramp = some rate →
      let v := if (x.reference - x.speed).natAbs ≤ rate then x.reference
        else if x.speed < x.reference then x.speed + rate else x.speed - rate
      let n := if (v - x.reference).natAbs ≤ x.record.blendWindow then x.blend + 1 else 0
      (n ≠ 4 → leaves { x with speed := v, blend := n }) ∧ (n = 4 → ends { x with speed := v, blend := 4 })) ∧
    (x.runState = .running → (x.phase = some .awaitConfirm ∨ x.phase = some .waitProbe) →
      b.stageProgress g [] false = b)

/-- The unwind step of an ABORTING group and of a group in FAULT UNWINDING (R120). The blend count stands at 4 after an
unwind that has come to its end (assumption log 28). -/
def Obligations.UnwindAtClose : Prop :=
  ∀ (b : Bridge) (g : GroupIx) (failing : List StationIx) (alarm : Bool), b.events.length ≤ 64 →
    let x := b.group g
    let c := b.stageProgress g failing alarm
    let v := if (x.reference - x.speed).natAbs ≤ x.record.abortRamp then x.reference
      else if x.speed < x.reference then x.speed + x.record.abortRamp else x.speed - x.record.abortRamp
    let n := if (v - x.reference).natAbs ≤ x.record.blendWindow then x.blend + 1 else 0
    (∀ cause, x.runState = .fault cause .unwinding →
      c = { b with
        groups := b.groups.set g
          { x with
            speed := v, blend := n, runState := .fault cause (if n = 4 then .settled else .unwinding) } }) ∧
    (x.runState = .aborting → n ≠ 4 →
      c = { b with groups := b.groups.set g { x with speed := v, blend := n } }) ∧
    (x.runState = .aborting → n = 4 →
      c.group g =
        { x with
          speed := v, blend := n, runState := .idle, phase := none, stage := none, planTag := none, planRange := none,
          stack := [], deferred := none } ∧
      Posted b c [⟨.planAborted, b.tracker.cycle, some g, none, none, x.planTag, none⟩] ∧
      ∀ k, k ≠ g → c.group k = b.group k)

/-- A fault trigger under the fault actions HALT and TRIP, and EXCURSION in HELD; the group gives up the probe it owns
(R123, R124, R126, R151). What empty accumulators hold is assumption log 34. -/
def Obligations.FaultActionsHaltAndTrip : Prop :=
  ∀ (b : Bridge) (g : GroupIx) (cause : Cause) (i : Option StationIx), b.events.length ≤ 64 → b.OwnersSound →
    (b.group g).inPlan = true →
    let x := b.group g
    let r := b.currentStage g
    let c := b.takeFaultAction g cause i
    let y := c.group g
    let fault : Event := ⟨.groupFault, b.tracker.cycle, some g, i, x.stage, x.planTag, some cause⟩
    let common := y.phase = none ∧ y.stack = [] ∧ y.deferred = none ∧ y.waiting = false ∧ y.stage = x.stage ∧
      y.planTag = x.planTag ∧ (∀ p, (c.probe p).owner ≠ some (.group g)) ∧ GivesUpProbe b c g ∧
      c.stations = b.stations
    ((r.faultAction = some .halt ∨ r.faultAction = some .excursion ∧ x.runState = .held) →
      y.runState = .fault cause .unwinding ∧ common ∧ y.blend = 0 ∧
        y.speed = (if b.mode g = .speed then x.speed else x.reference) ∧ c.trip = b.trip ∧ Posted b c [fault]) ∧
    (r.faultAction = some .trip →
      y.runState = .fault cause .settled ∧ common ∧ c.trip = { b.trip with stage := true } ∧
        Posted b c (if b.trip = ⟨false, false, false⟩ then
          [fault, ⟨.tripOpened, b.tracker.cycle, none, none, none, none, some .stage⟩] else [fault]))

/-- A fault trigger of a RUNNING group under EXCURSION: taken while fewer than three frames stand, deferred while three
stand, and an overflow while a deferred one waits (R130 to R133). A group that leaves its stage gives up the probe it
owns (R151). What empty accumulators hold is assumption log 34. -/
def Obligations.FaultActionExcursion : Prop :=
  ∀ (b : Bridge) (g : GroupIx) (cause : Cause) (i : Option StationIx) (target stage : Nat) (phase : Phase),
    b.events.length ≤ 64 → (b.group g).runState = .running → (b.group g).stage = some stage →
    (b.group g).phase = some phase → (b.currentStage g).faultAction = some .excursion →
    (b.currentStage g).excTarget = some target →
    let x := b.group g
    let c := b.takeFaultAction g cause i
    let y := c.group g
    (x.stack.length < 3 → b.verdict x.planRange target = none →
      y.runState = .running ∧ y.stage = some target ∧ y.deferred = x.deferred ∧ y.waiting = false ∧
      y.stack =
        { stage := stage, phase := phase, dwell := x.dwell
          retries := if (b.currentStage g).kind = .tune then x.retries else 0
          origin := if (x.planRange.map fun p => p.contains stage) = some true then .plan else .excursion } :: x.stack ∧
      EntersStage { b with groups := b.groups.set g { x with stack := y.stack, waiting := false } } c g target ∧
      (b.OwnersSound → GivesUpProbe b c g) ∧
      Posted b c [⟨.excursionTaken, b.tracker.cycle, some g, i, some target, x.planTag, some cause⟩,
        ⟨.stageEntered, b.tracker.cycle, some g, none, some target, x.planTag, none⟩]) ∧
    (x.stack.length < 3 → b.verdict x.planRange target ≠ none →
      y.runState = .fault .stageInvalid .unwinding ∧ y.stage = some stage ∧ y.stack = [] ∧
      (b.OwnersSound → GivesUpProbe b c g) ∧
      Posted b c [⟨.excursionTaken, b.tracker.cycle, some g, i, some target, x.planTag, some cause⟩,
        ⟨.groupFault, b.tracker.cycle, some g, none, some target, x.planTag, some .stageInvalid⟩]) ∧
    (3 ≤ x.stack.length → x.deferred = none →
      y.runState = .running ∧ y.stage = some stage ∧ y.stack = x.stack ∧
      y.deferred = some ⟨target, stage, cause, i⟩ ∧
      y.phase = some (if cause = .tuneFailed then .settling else phase) ∧
      Posted b c [⟨.excursionPending, b.tracker.cycle, some g, i, some target, x.planTag, some cause⟩]) ∧
    (3 ≤ x.stack.length → x.deferred ≠ none →
      y.runState = .fault .excursionOverflow .unwinding ∧ y.stack = [] ∧ y.deferred = none ∧
      (b.OwnersSound → GivesUpProbe b c g) ∧
      Posted b c [⟨.groupFault, b.tracker.cycle, some g, i, some stage, x.planTag, some .excursionOverflow⟩])

/-- A TUNE stage at the close at which its probe is DONE. It takes the result, which makes the probe IDLE and frees it for
the arbiter (`Bridge.probeFreed`, of which ProbeCancelAndRead speaks). A result that passes is learnt: every member's trim
becomes its learned offset, OFFSET_LEARNED is posted, and the stage ends (R113, R115, R188). Another one uses a retry, or
with none left is the fault trigger TUNE_FAILED under the stage's fault action (R113, R121). -/
def Obligations.TuneTakesItsResult : Prop :=
  ∀ (b : Bridge) (g : GroupIx) (p : ProbeId) (result : ProbeResult) (limit stage : Nat),
    (b.group g).runState = .running → (b.group g).phase = some .probing → (b.group g).waiting = false →
    (b.group g).stage = some stage → b.ownedProbe g = some p → (b.probe p).state = .done →
    (b.probe p).result = some result → (b.currentStage g).rippleLimit = some limit →
    let x := b.group g
    let passes := result.outcome = .completed ∧ ∃ a, result.ripple = some a ∧ a ≤ limit
    let c := b.stageProgress g [] false
    let put := fun (b : Bridge) (y : Probe) => match p with | .p1 => { b with probe1 := y } | .p2 => { b with probe2 := y }
    let freed := (put b { b.probe p with state := .idle, owner := none }).probeFreed p
    ((∀ k, (b.group k).waiting = false) →
      (c.probe p).state = .idle ∧ (c.probe p).owner = none ∧ (c.probe p).result = some result) ∧
    (passes →
      (∃ d : Bridge, c = d.endStage g ∧
        d = { freed with stations := d.stations, events := d.events, eventsLost := d.eventsLost } ∧
        (∀ i, d.station i = (b.station i).map fun st =>
          if st.config.group = some g then { st with config := { st.config with offset := st.run.trim } } else st) ∧
        (b.events.length ≤ 64 →
          Posted b d [⟨.offsetLearned, b.tracker.cycle, some g, none, some stage, x.planTag, none⟩])) ∧
      ∀ i x y, b.station i = some x → c.station i = some y →
        y.config.offset = if x.config.group = some g then x.run.trim else x.config.offset) ∧
    (¬passes → 0 < x.retries →
      c = { freed with
        groups := freed.groups.set g
          { x with retries := x.retries - 1, phase := some .settling, settle := (b.currentStage g).dwell.getD 0 } } ∧
      c.stations = b.stations) ∧
    (¬passes → x.retries = 0 → c = freed.takeFaultAction g .tuneFailed)

/-! ## Timers and pins -/

/-- CYCLE_LOSS_EXPIRY of a RUNNING timer (R13, R16), and CHECK_DEADLINE_EXPIRY while the check is RUNNING (R159, R160,
R165, R125). R13 and R159 speak of a timer that has run its full time; that the command expires a RUNNING timer whatever
time it has left is the model's choice (assumption log 6). That a bypass sets the blend count of a group in FAULT
UNWINDING to 0 is assumption log 28. -/
def Obligations.TimersExpire : Prop :=
  (∀ (left : Nat) (s : State), s.bridge.tracker.timer = .running left → s.bridge.events.length ≤ 64 →
    let expired : Tracker := { s.bridge.tracker with timer := .expired, runCount := 0 }
    (s.bridge.tracker.sync = .unsynced →
      exec .cycleLossExpiry s = .next { s with bridge := { s.bridge with tracker := expired } }) ∧
    (s.bridge.tracker.sync = .synced →
      ∃ t, exec .cycleLossExpiry s = .next t ∧ t = { s with bridge := t.bridge } ∧
        t.bridge.tracker = { expired with sync := .unsynced } ∧
        (∀ g, Bypassed .link (s.bridge.group g) (t.bridge.group g)) ∧
        (s.bridge.RunsSound → ∀ p g, (t.bridge.probe p).owner ≠ some (.group g)) ∧
        Posted s.bridge t.bridge
          (⟨.linkLost, s.bridge.tracker.cycle, none, none, none, none, none⟩ ::
            ((List.finRange 8).filter fun g => (s.bridge.group g).active).map fun g =>
              ⟨.groupFault, s.bridge.tracker.cycle, some g, none, (s.bridge.group g).stage,
                (s.bridge.group g).planTag, some .link⟩) ∧
        t.bridge.stations = s.bridge.stations ∧ t.bridge.mask = s.bridge.mask ∧ t.bridge.store = s.bridge.store ∧
        t.bridge.check = s.bridge.check ∧ t.bridge.trip = s.bridge.trip ∧ t.bridge.release = s.bridge.release)) ∧
  (∀ (left : Nat) (s : State), s.bridge.check.state = .running → s.bridge.check.deadline = some left →
    s.bridge.events.length ≤ 64 →
    ∃ t, exec .checkDeadlineExpiry s = .next t ∧ t = { s with bridge := t.bridge } ∧
      t.bridge.check = { s.bridge.check with state := .failed, deadline := none, reason := some .expiry } ∧
      t.bridge.trip = { s.bridge.trip with console := true } ∧
      (∀ g, Bypassed .console (s.bridge.group g) (t.bridge.group g)) ∧
      (s.bridge.RunsSound → ∀ p g, (t.bridge.probe p).owner ≠ some (.group g)) ∧
      Posted s.bridge t.bridge
        (⟨.checkFailed, s.bridge.tracker.cycle, none, none, none, none, some .expiry⟩ ::
          (if s.bridge.trip = ⟨false, false, false⟩ then
            [⟨.tripOpened, s.bridge.tracker.cycle, none, none, none, none, some .console⟩] else []) ++
          ((List.finRange 8).filter fun g => (s.bridge.group g).active).map fun g =>
            ⟨.groupFault, s.bridge.tracker.cycle, some g, none, (s.bridge.group g).stage,
              (s.bridge.group g).planTag, some .console⟩) ∧
      t.bridge.stations = s.bridge.stations ∧ t.bridge.mask = s.bridge.mask ∧ t.bridge.store = s.bridge.store ∧
      t.bridge.tracker = s.bridge.tracker ∧ t.bridge.release = s.bridge.release)

/-- RELEASE_FALL of an active input, and RELEASE_RISE of an inactive one (R162, R163). That a bypass sets the blend count of
a group in FAULT UNWINDING to 0 is assumption log 28. -/
def Obligations.ReleaseEdges : Prop :=
  (∀ s : State, s.bridge.release = true → s.bridge.events.length ≤ 64 →
    ∃ t, exec .releaseFall s = .next t ∧ t = { s with bridge := t.bridge } ∧ t.bridge.release = false ∧
      (∀ g, Bypassed .release (s.bridge.group g) (t.bridge.group g)) ∧
      (s.bridge.RunsSound → ∀ p g, (t.bridge.probe p).owner ≠ some (.group g)) ∧
      Posted s.bridge t.bridge
        (((List.finRange 8).filter fun g => (s.bridge.group g).active).map fun g =>
          ⟨.groupFault, s.bridge.tracker.cycle, some g, none, (s.bridge.group g).stage,
            (s.bridge.group g).planTag, some .release⟩) ∧
      t.bridge.trip = s.bridge.trip ∧ t.bridge.stations = s.bridge.stations ∧ t.bridge.mask = s.bridge.mask ∧
      t.bridge.store = s.bridge.store ∧ t.bridge.check = s.bridge.check ∧ t.bridge.tracker = s.bridge.tracker) ∧
  (∀ s : State, exec .releaseRise s = .next { s with bridge := { s.bridge with release := true } })

/-- PIN_RESET_ASSERT and PIN_RESET_RELEASE (R17, R182, R183, R187). A taken BRS makes its reset pending and answers
DONE with the scope (R180); at the end of its Reply's transmission the reset takes effect (R9, R182, R187). What empty
accumulators hold is assumption log 34. -/
def Obligations.Resets : Prop :=
  (∀ s : State, s.resetAsserted = false →
    ∃ t, exec .pinResetAssert s = .next t ∧ t.resetAsserted = true ∧ t.resetPending = none ∧ t.link.AtReset ∧
      t.bridge.AtFullReset ∧ t.bridge.release = s.bridge.release ∧ t.pending = s.pending) ∧
  (∀ s : State, s.resetAsserted = true →
    exec .pinResetRelease s =
      .next { s with
        resetAsserted := false
        address := match s.strapA, s.strapB with
          | .isOpen, .isOpen => 121#8
          | .tiedLow, .isOpen => 122#8
          | .isOpen, .tiedLow => 123#8
          | .tiedLow, .tiedLow => 124#8 }) ∧
  (∀ (src tag : Byte) (s : State), s.takes = true → s.link.Sound →
    ∀ (code : Byte) (scope : Scope), (code = 0#8 ∧ scope = .full ∨ code = 1#8 ∧ scope = .tablesKept) →
    let f : Frame := ⟨src, s.address, 4#8, [tag, 50#8, 1#8, 0#8, code]⟩
    exec (.brs src tag [code]) s =
      .next { s with
        resetPending := some scope
        link :=
          if s.link.lineTx = none then { s.link with lineTx := some (.own (.brsReply f)), lastTaken := .own }
          else { s.link with localQueue := s.link.localQueue ++ [.brsReply f] } }) ∧
  (∀ (f : Frame) (scope : Scope) (s : State), s.link.lineTx = some (.own (.brsReply f)) →
    s.resetPending = some scope →
    ∃ t, exec .linePortTransmissionEnd s = .next t ∧ t.resetPending = none ∧ t.link.AtReset ∧
      t.address = (match s.strapA, s.strapB with
        | .isOpen, .isOpen => 121#8
        | .tiedLow, .isOpen => 122#8
        | .isOpen, .tiedLow => 123#8
        | .tiedLow, .tiedLow => 124#8) ∧
      t.bridge.release = s.bridge.release ∧ t.resetAsserted = s.resetAsserted ∧
      (scope = .full → t.bridge.AtFullReset) ∧ (scope = .tablesKept → Bridge.AtKeptReset s.bridge t.bridge))

/-! ## The tables -/

/-- STW that passes every check: a new binding, a rewrite in place or a move (R30, R49, R80). The mask stays; other
entries keep their configuration and their own closes. A group's master reference becomes absent where its leader
changes, or the write rebinds its leader. The group that the station leaves, by a move or by another group field, drops it
from its pending set and its samples, and closes where it awaited this station last (R53), with an ascending roster
(assumption log 10). -/
def Obligations.StationWriteTakesEffect : Prop :=
  ∀ (src tag : Byte) (ops : List Byte) (o : StwOperands) (s : State), s.takes = true →
    decodeOperands readStw ops = some o →
    (∀ j st, s.bridge.Binds o.config.address j st → j = o.index) →
    (∀ g, o.config.group = some g → ((s.bridge.members g).filter (· ≠ o.index)).length < 6) →
    (∀ g, o.config.group = some g ∨ (∃ st, s.bridge.station o.index = some st ∧ st.config.group = some g) →
      (s.bridge.group g).runState = .idle ∨ (s.bridge.group g).runState = .done) →
    let moves := ∃ st, s.bridge.station o.index = some st ∧ st.config.address ≠ o.config.address
    (moves → ∀ p, ¬((s.bridge.probe p).state = .running ∧ (s.bridge.probe p).station = some o.index)) →
    (moves → ∀ st, s.bridge.station o.index = some st → st.run.validity ≠ .fatal) →
    ∃ t, exec (.stw src tag ops) s =
        .next (s.replied src tag 1#8 (.done (stationFields (t.bridge.station o.index))) t.bridge) ∧
      t = s.replied src tag 1#8 (.done (stationFields (t.bridge.station o.index))) t.bridge ∧
      t.bridge.station o.index =
        some (match s.bridge.station o.index with
          | none => ⟨{ o.config with offset := o.offset.getD 0 }, newRun⟩
          | some st =>
            if st.config.address ≠ o.config.address then ⟨{ o.config with offset := o.offset.getD 0 }, newRun⟩
            else
              let run := if st.config.polarity = o.config.polarity then st.run else { st.run with lastSent := none }
              ⟨{ o.config with offset := o.offset.getD st.config.offset },
                if st.config.group = o.config.group then run
                else { run with
                  trim := 0, present := { run.present with shareDev := false, fight := false, direction := false } }⟩) ∧
      (∀ j, j ≠ o.index → (t.bridge.station j).map Station.core = (s.bridge.station j).map Station.core) ∧
      t.bridge.mask = s.bridge.mask ∧ t.bridge.treatments = s.bridge.treatments ∧ t.bridge.store = s.bridge.store ∧
      t.bridge.check = s.bridge.check ∧ t.bridge.tracker = s.bridge.tracker ∧ t.bridge.trip = s.bridge.trip ∧
      t.bridge.release = s.bridge.release ∧
      (∀ g, (t.bridge.group g).record = (s.bridge.group g).record ∧
        (t.bridge.group g).runState = (s.bridge.group g).runState ∧
        (t.bridge.group g).masterRef =
          if t.bridge.leader g ≠ s.bridge.leader g ∨ moves ∧ s.bridge.leader g = some o.index then none
          else (s.bridge.group g).masterRef) ∧
      (let leaves := fun g => ∃ st, s.bridge.station o.index = some st ∧ st.config.group = some g ∧
         (st.config.address ≠ o.config.address ∨ o.config.group ≠ some g)
       ∃ w : Bridge,
         w = { s.bridge with
           stations := s.bridge.stations.set o.index (t.bridge.station o.index), groups := w.groups } ∧
         (∀ g, w.group g = { s.bridge.group g with masterRef := (t.bridge.group g).masterRef }) ∧
         (∀ g, leaves g → LeavesGroup w t.bridge g o.index) ∧ ((∀ g, ¬leaves g) → t.bridge = w))

/-- The refusals of STW, in the order of R28 and R29: BAD_OPERAND for an address or a full group of the table, LOCKED,
BUSY, WRONG_STATE. -/
def Obligations.StationWriteRefused : Prop :=
  ∀ (src tag : Byte) (ops : List Byte) (o : StwOperands) (s : State), s.takes = true →
    decodeOperands readStw ops = some o → s.bridge.TableSound →
    let conflict := (∃ j st, s.bridge.Binds o.config.address j st ∧ j ≠ o.index) ∨
      ∃ g, o.config.group = some g ∧ 6 ≤ ((s.bridge.members g).filter (· ≠ o.index)).length
    let locked := ∃ g, (o.config.group = some g ∨
        ∃ st, s.bridge.station o.index = some st ∧ st.config.group = some g) ∧
      (s.bridge.group g).runState ≠ .idle ∧ (s.bridge.group g).runState ≠ .done
    let moves := ∃ st, s.bridge.station o.index = some st ∧ st.config.address ≠ o.config.address
    let probed := ∃ p, (s.bridge.probe p).state = .running ∧ (s.bridge.probe p).station = some o.index
    let fatal := ∃ st, s.bridge.station o.index = some st ∧ st.run.validity = .fatal
    let answers := fun code : RefusalCode =>
      exec (.stw src tag ops) s = .next (s.replied src tag 1#8 (.refused code []) s.bridge)
    (conflict → answers .badOperand) ∧
    (¬conflict → locked → answers .locked) ∧
    (¬conflict → ¬locked → moves → probed → answers .busy) ∧
    (¬conflict → ¬locked → moves → ¬probed → fatal → answers .wrongState)

/-- STC: its refusals in the order of R32, and its effect: the entry becomes FREE and its last treatment absent (R32,
R79, R80); the mask stays. The group it leaves drops it from its pending set and its samples, and closes where it awaited
this station last (R53), with an ascending roster (assumption log 10). -/
def Obligations.StationClear : Prop :=
  ∀ (src tag index : Byte) (s : State) (h : index.toNat < 32), s.takes = true →
    let i : StationIx := ⟨index.toNat, h⟩
    let locked := ∃ st g, s.bridge.station i = some st ∧ st.config.group = some g ∧
      (s.bridge.group g).runState ≠ .idle ∧ (s.bridge.group g).runState ≠ .done
    let probed := ∃ p, (s.bridge.probe p).state = .running ∧ (s.bridge.probe p).station = some i
    let fatal := ∃ st, s.bridge.station i = some st ∧ st.run.validity = .fatal
    let answers := fun code : RefusalCode =>
      exec (.stc src tag [index]) s = .next (s.replied src tag 3#8 (.refused code []) s.bridge)
    (s.bridge.station i = none → answers .noSuchEntry) ∧
    (s.bridge.station i ≠ none → locked → answers .locked) ∧
    (s.bridge.station i ≠ none → ¬locked → probed → answers .busy) ∧
    (s.bridge.station i ≠ none → ¬locked → ¬probed → fatal → answers .wrongState) ∧
    (s.bridge.station i ≠ none → ¬locked → ¬probed → ¬fatal →
      ∃ t, exec (.stc src tag [index]) s = .next (s.replied src tag 3#8 (.done []) t.bridge) ∧
        t = s.replied src tag 3#8 (.done []) t.bridge ∧
        t.bridge.station i = none ∧ t.bridge.treatments = s.bridge.treatments.set i none ∧
        (∀ j, j ≠ i → (t.bridge.station j).map Station.core = (s.bridge.station j).map Station.core) ∧
        t.bridge.mask = s.bridge.mask ∧ t.bridge.store = s.bridge.store ∧ t.bridge.check = s.bridge.check ∧
        t.bridge.tracker = s.bridge.tracker ∧ t.bridge.trip = s.bridge.trip ∧
        (∀ g, (t.bridge.group g).record = (s.bridge.group g).record ∧
          (t.bridge.group g).runState = (s.bridge.group g).runState ∧
          (t.bridge.group g).masterRef =
            if t.bridge.leader g ≠ s.bridge.leader g ∨ s.bridge.leader g = some i then none
            else (s.bridge.group g).masterRef) ∧
        (let leaves := fun g => ∃ st, s.bridge.station i = some st ∧ st.config.group = some g
         ∃ w : Bridge,
           w = { s.bridge with
             stations := s.bridge.stations.set i none, treatments := s.bridge.treatments.set i none
             groups := w.groups } ∧
           (∀ g, w.group g = { s.bridge.group g with masterRef := (t.bridge.group g).masterRef }) ∧
           (∀ g, leaves g → LeavesGroup w t.bridge g i) ∧ ((∀ g, ¬leaves g) → t.bridge = w)))

/-- STR, GRR, OMR and SGR change no state but their Reply (R31, R70, R85, R98). GST: the Reply, and the clearing of the
group's own latched flags that are not present; nothing else changes (R46, R127). The bytes of the Replies are
assumption logs 12 and 35. -/
def Obligations.ReadServices : Prop :=
  (∀ (src tag : Byte) (ops : List Byte) (s : State), s.takes = true →
     (∀ i, decodeOperands readStation ops = some i →
       exec (.str src tag ops) s = .next (s.replied src tag 2#8 (.done (stationFields (s.bridge.station i))) s.bridge)) ∧
     (∀ g, decodeOperands readGroup ops = some g →
       exec (.grr src tag ops) s = .next (s.replied src tag 5#8 (.done (s.bridge.groupFields g)) s.bridge)) ∧
     (ops = [] →
       exec (.omr src tag ops) s =
         .next (s.replied src tag 9#8
           (.done (be32 s.bridge.mask ++ (List.finRange 32).flatMap fun i : Fin 32 =>
             match s.bridge.treatments[i] with
             | none => [0#8]
             | some .altered => [1#8, 0#8]
             | some .passed => [1#8, 1#8]
             | some .noSlot => [1#8, 2#8])) s.bridge)) ∧
     (∀ o, decodeOperands readSgr ops = some o →
       exec (.sgr src tag ops) s =
         .next (s.replied src tag 7#8
           (.done (s.bridge.stageFields o.index (o.group.map fun g => (s.bridge.group g).record.range))) s.bridge))) ∧
  (∀ (src tag : Byte) (ops : List Byte) (g : GroupIx) (s : State), s.takes = true →
     decodeOperands readGroup ops = some g →
     let x := s.bridge.group g
     exec (.gst src tag ops) s =
       .next (s.replied src tag 21#8 (.done (s.bridge.stateFields g))
         { s.bridge with
           groups := s.bridge.groups.set g
             { x with
               draw := ⟨x.draw.present, x.draw.latched && x.draw.present⟩
               shareSuspended := ⟨x.shareSuspended.present, x.shareSuspended.latched && x.shareSuspended.present⟩ } }))

/-- CNR: an index outside the table is refused BAD_OPERAND and a FREE entry NO_SUCH_ENTRY; otherwise the Reply carries
the counter, the state and both sets of flags, and each latched flag whose present value is clear is cleared (R44).
That every value takes one byte is assumption log 35. -/
def Obligations.ConditionsRead : Prop :=
  ∀ (src tag index : Byte) (s : State), s.takes = true →
    (32 ≤ index.toNat →
      exec (.cnr src tag [index]) s = .next (s.replied src tag 40#8 (.refused .badOperand []) s.bridge)) ∧
    ∀ h : index.toNat < 32,
      let i : StationIx := ⟨index.toNat, h⟩
      (s.bridge.station i = none →
        exec (.cnr src tag [index]) s = .next (s.replied src tag 40#8 (.refused .noSuchEntry []) s.bridge)) ∧
      (∀ st, s.bridge.station i = some st → st.run.counter ≤ 255 →
        let p := st.run.present
        let q := st.run.latched
        let bytes := fun c : Conditions => (c.flags.map fun f => if f then 1#8 else 0#8 : List Byte)
        let left : Conditions :=
          ⟨q.fbMissing && p.fbMissing, q.fbLate && p.fbLate, q.fbOverrun && p.fbOverrun, q.headroom && p.headroom,
            q.driveFault && p.driveFault, q.speedDev && p.speedDev, q.runaway && p.runaway, q.shareDev && p.shareDev,
            q.fight && p.fight, q.direction && p.direction⟩
        exec (.cnr src tag [index]) s =
          .next (s.replied src tag 40#8
            (.done ([BitVec.ofNat 8 st.run.counter,
              match st.run.validity with | .valid => 0#8 | .invalid => 1#8 | .fatal => 2#8] ++ bytes p ++ bytes q))
            { s.bridge with
              stations := s.bridge.stations.set i (some { st with run := { st.run with latched := left } }) }))

/-- GRW: LOCKED outside IDLE and DONE; otherwise the record is replaced, the members' trims are brought within the new
trim limit, and nothing else changes (R69). SGW: LOCKED while any group is RUNNING or HELD; otherwise the one record is
replaced, with ON stored in the trims of a TRIM or TUNE record, and nothing else changes (R89, R97). That each Reply
carries the record alone is assumption log 12. -/
def Obligations.GroupAndStageWrite : Prop :=
  (∀ (src tag : Byte) (ops : List Byte) (o : GrwOperands) (s : State), s.takes = true →
     decodeOperands readGrw ops = some o →
     let x := s.bridge.group o.group
     (x.runState ≠ .idle → x.runState ≠ .done →
       exec (.grw src tag ops) s = .next (s.replied src tag 4#8 (.refused .locked []) s.bridge)) ∧
     (x.runState = .idle ∨ x.runState = .done →
       ∃ t, exec (.grw src tag ops) s =
           .next (s.replied src tag 4#8 (.done (recordFields o.record)) t.bridge) ∧
         t = s.replied src tag 4#8 (.done (recordFields o.record)) t.bridge ∧
         t.bridge =
           { s.bridge with
             stations := t.bridge.stations, groups := s.bridge.groups.set o.group { x with record := o.record } } ∧
         ∀ i, t.bridge.station i = (s.bridge.station i).map fun st =>
           if st.config.group = some o.group then
             let limit : Int := o.record.trimLimit
             { st with
               run :=
                 { st.run with
                   trim :=
                     if st.run.trim < -limit then -limit else if limit < st.run.trim then limit else st.run.trim } }
           else st)) ∧
  (∀ (src tag : Byte) (ops : List Byte) (o : SgwOperands) (s : State), s.takes = true →
     decodeOperands readSgw ops = some o →
     let runs := ∃ g, (s.bridge.group g).runState = .running ∨ (s.bridge.group g).runState = .held
     let written : StageRecord :=
       if o.record.kind = .trim ∨ o.record.kind = .tune then { o.record with trims := some true } else o.record
     let b := { s.bridge with store := s.bridge.store.set o.index written }
     (runs → exec (.sgw src tag ops) s = .next (s.replied src tag 6#8 (.refused .locked []) s.bridge)) ∧
     (¬runs → exec (.sgw src tag ops) s = .next (s.replied src tag 6#8 (.done written.bytes) b)))

/-- OMW: every enable takes its operand's value; a RUNNING, HELD or ABORTING group one of whose members is cleared goes
to FAULT MEMBER_MASKED, UNWINDING, and names its lowest such member, in ascending group number (R83, R84, R120, R126). -/
def Obligations.MaskWrite : Prop :=
  ∀ (src tag b3 b2 b1 b0 : Byte) (s : State), s.takes = true → s.bridge.events.length ≤ 64 →
    let mask : BitVec 32 := b3 ++ b2 ++ b1 ++ b0
    let cleared := fun g => (s.bridge.members g).find? fun i =>
      s.bridge.mask.getLsbD i.val && !mask.getLsbD i.val
    let reached := fun g => ((s.bridge.group g).inPlan || decide ((s.bridge.group g).runState = .aborting))
      && (cleared g).isSome
    ∃ t, exec (.omw src tag [b3, b2, b1, b0]) s =
        .next (s.replied src tag 8#8 (.done [b3, b2, b1, b0]) t.bridge) ∧
      t = s.replied src tag 8#8 (.done [b3, b2, b1, b0]) t.bridge ∧ t.bridge.mask = mask ∧
      (∀ g, reached g = false → (t.bridge.group g).runState = (s.bridge.group g).runState) ∧
      (∀ g, reached g = true →
        let x := s.bridge.group g
        let y := t.bridge.group g
        y.runState = .fault .memberMasked .unwinding ∧ y.phase = none ∧ y.stack = [] ∧ y.deferred = none ∧
        y.waiting = false ∧ y.stage = x.stage ∧ y.planTag = x.planTag ∧
        y.speed = (if s.bridge.mode g = .speed then x.speed else x.reference) ∧
        y.blend = (if x.runState = .aborting then x.blend else 0)) ∧
      Posted s.bridge t.bridge
        (((List.finRange 8).filter reached).map fun g =>
          ⟨.groupFault, s.bridge.tracker.cycle, some g, cleared g, (s.bridge.group g).stage,
            (s.bridge.group g).planTag, some .memberMasked⟩) ∧
      t.bridge.stations = s.bridge.stations ∧ t.bridge.treatments = s.bridge.treatments ∧
      t.bridge.store = s.bridge.store ∧ t.bridge.check = s.bridge.check ∧ t.bridge.trip = s.bridge.trip ∧
      t.bridge.tracker = s.bridge.tracker ∧ t.bridge.release = s.bridge.release

/-! ## Plans -/

/-- PLS that passes every check: the group is RUNNING in the first stage of its range, with the counts, the commanded
speed, the trims and the phase of a stage entry, and for BUMP the entry speed and every member's entry actual (R102 to
R104, R109, R62). -/
def Obligations.PlanStarts : Prop :=
  ∀ (src tag : Byte) (ops : List Byte) (g : GroupIx) (s : State), s.takes = true →
    decodeOperands readGroup ops = some g → s.bridge.CountersSound → s.bridge.events.length ≤ 64 →
    s.bridge.tracker.sync = .synced → s.bridge.release = true → s.bridge.check.state = .running →
    ((s.bridge.group g).runState = .idle ∨ (s.bridge.group g).runState = .done) →
    s.bridge.planDefect (s.bridge.group g).record.range = none → (s.bridge.leader g).isSome = true →
    s.bridge.shareSum g = 1000 → (∀ i ∈ s.bridge.members g, s.bridge.mask.getLsbD i.val = true) →
    (∀ i st, s.bridge.station i = some st → st.config.group = some g → st.run.validity = .valid) →
    let x := s.bridge.group g
    let first := x.record.planFirst
    let r := s.bridge.stageAt first
    let waits : Phase := if r.exit = some .confirm then .awaitConfirm else .dwell
    ∃ t, exec (.pls src tag ops) s = .next (s.replied src tag 16#8 (.accepted []) t.bridge) ∧
      t = s.replied src tag 16#8 (.accepted []) t.bridge ∧
      (let y := t.bridge.group g
       y.runState = .running ∧ y.stage = some first ∧ y.planTag = some tag ∧
       y.planRange = some ⟨first, x.record.planLength⟩ ∧ y.stack = [] ∧ y.deferred = none ∧
       y.dwell = r.dwell.getD 0 ∧
       y.settle = (if r.exit = some .settled ∨ r.kind = .tune then r.dwell.getD 0 else 0) ∧ y.blend = 0 ∧
       (r.kind = .tune → y.retries = r.retries.getD 0) ∧
       y.speed = (if r.kind ∈ [StageKind.creep, .bump, .tune, .thread, .handback] then x.reference else x.speed) ∧
       (r.kind = .pass ∨ r.kind = .trim → y.phase = some waits) ∧
       (r.kind = .creep ∨ r.kind = .thread →
         y.phase = some (if r.target = some y.speed then waits else .ramp)) ∧
       (r.kind = .bump → y.phase = some (if r.target = some y.speed then .dwell else .rise) ∧
         y.bumpEntry = some y.speed ∧
         y.bumpActuals = (s.bridge.members g).map fun i =>
           ⟨i, (s.bridge.station i).bind fun st => st.run.latch.map fun l => surfaceSpeed st.config.polarity l.speed⟩) ∧
       (r.kind = .tune → y.phase = some .settling) ∧ (r.kind = .handback → y.phase = some .blend) ∧
       y.record = x.record ∧ y.alarmCounter = x.alarmCounter ∧ y.alarm = x.alarm) ∧
      Posted s.bridge t.bridge [⟨.stageEntered, s.bridge.tracker.cycle, some g, none, some first, some tag, none⟩] ∧
      (∀ k, k ≠ g → t.bridge.group k = s.bridge.group k) ∧
      (∀ i, t.bridge.station i = (s.bridge.station i).map fun st =>
        if st.config.group = some g ∧ r.trims = some true then
          let limit : Int := x.record.trimLimit
          let v := st.config.offset
          { st with run := { st.run with trim := if v < -limit then -limit else if limit < v then limit else v } }
        else st) ∧
      t.bridge =
        { s.bridge with
          stations := t.bridge.stations, groups := t.bridge.groups, events := t.bridge.events
          eventsLost := t.bridge.eventsLost }

/-- The refusals of PLS, in the order of R101; a refused PLS changes no state but its Reply. -/
def Obligations.PlanStartRefused : Prop :=
  ∀ (src tag : Byte) (ops : List Byte) (g : GroupIx) (s : State), s.takes = true →
    decodeOperands readGroup ops = some g →
    let b := s.bridge
    let x := b.group g
    let answers := fun (code : RefusalCode) (detail : List Byte) =>
      exec (.pls src tag ops) s = .next (s.replied src tag 16#8 (.refused code detail) b)
    let c1 := b.tracker.sync = .synced
    let c2 := c1 ∧ b.release = true
    let c3 := c2 ∧ b.check.state = .running
    let c4 := c3 ∧ (x.runState = .idle ∨ x.runState = .done)
    let c5 := c4 ∧ b.planDefect x.record.range = none
    let c6 := c5 ∧ (b.leader g).isSome = true ∧ b.shareSum g = 1000
    let disabled := fun i => i ∈ b.members g ∧ b.mask.getLsbD i.val = false
    let unfit := fun i => i ∈ b.members g ∧ ∃ st, b.station i = some st ∧ st.run.validity ≠ .valid
    (¬c1 → answers .notSynced []) ∧
    (c1 → b.release = false → answers .notReleased []) ∧
    (c2 → b.check.state ≠ .running → answers .checkNotRunning []) ∧
    (c3 → x.runState ≠ .idle → x.runState ≠ .done → answers .wrongState []) ∧
    (∀ i d, c4 → b.planDefect x.record.range = some (i, d) →
      answers .planInvalid (putByte i ++ putByte d.codes.1 ++ putByte d.codes.2)) ∧
    (c5 → (b.leader g = none ∨ b.shareSum g ≠ 1000) → answers .sharesInvalid []) ∧
    (∀ i, c6 → disabled i → (∀ j, disabled j → i ≤ j) → answers .memberDisabled [BitVec.ofNat 8 i.val]) ∧
    (∀ i, c6 → (∀ j, ¬disabled j) → unfit i → (∀ j, unfit j → i ≤ j) →
      answers .memberNotValid [BitVec.ofNat 8 i.val])

/-- The completeness check of one record, in the order of R93, and the validation of a plan: the lowest index of the
checked set with a defect, or 128 for a range that leaves the store (R93, R94). -/
def Obligations.PlanValidation : Prop :=
  (∀ (b : Bridge) (range : Option PlanRange) (i : Nat),
    let r := b.stageAt i
    let inRange := ∃ p, range = some p ∧ p.first ≤ i ∧ i < p.first + p.length
    (128 ≤ i → b.verdict range i = some .indexOutsideStore) ∧
    (i < 128 → r.kind = .empty → b.verdict range i = some .kindEmpty) ∧
    (∀ f, i < 128 → r.kind ≠ .empty → r.missingField = some f → b.verdict range i = some (.fieldMissing f)) ∧
    (∀ target, i < 128 → r.kind ≠ .empty → r.missingField = none → r.faultAction = some .excursion →
      r.excTarget = some target → 128 ≤ target → b.verdict range i = some .targetOutsideStore) ∧
    (i < 128 → r.kind ≠ .empty → r.missingField = none →
      (r.faultAction = some .excursion → ∀ target, r.excTarget = some target → target < 128) →
      (inRange → r.next = some .ret → b.verdict range i = some .returnInPlan) ∧
      (¬(inRange ∧ r.next = some .ret) → b.verdict range i = none))) ∧
  (∀ (b : Bridge) (p : PlanRange), 0 < p.length →
    let checked := fun i => i < 128 ∧ ((p.first ≤ i ∧ i < p.first + p.length) ∨
      ∃ j, p.first ≤ j ∧ j < p.first + p.length ∧ (b.stageAt j).faultAction = some .excursion ∧
        (b.stageAt j).excTarget = some i)
    (128 ≤ p.first + p.length - 1 → b.planDefect p = some (128, .indexOutsideStore)) ∧
    (p.first + p.length - 1 < 128 →
      (∀ i d, b.planDefect p = some (i, d) ↔
        checked i ∧ b.verdict (some p) i = some d ∧ ∀ j, checked j → j < i → b.verdict (some p) j = none) ∧
      (b.planDefect p = none ↔ ∀ i, checked i → b.verdict (some p) i = none)))

/-- PLH and PLR: the refusals, and the hold that freezes a group and the resumption that lets it go on (R116, R117).
PLA: the table of R119. A group that is held or aborted gives up the probe it owns (R151). What empty accumulators hold
is assumption log 34. -/
def Obligations.PlanHoldResumeAbort : Prop :=
  (∀ (src tag : Byte) (ops : List Byte) (g : GroupIx) (s : State), s.takes = true →
    decodeOperands readGroup ops = some g →
    let b := s.bridge
    let x := b.group g
    (x.runState ≠ .running →
      exec (.plh src tag ops) s = .next (s.replied src tag 17#8 (.refused .wrongState []) b)) ∧
    (x.runState = .running → x.phase ≠ some .probing → x.phase ≠ some .waitProbe →
      exec (.plh src tag ops) s =
        .next (s.replied src tag 17#8 (.done []) { b with groups := b.groups.set g { x with runState := .held } })) ∧
    (x.runState = .running → (x.phase = some .probing ∨ x.phase = some .waitProbe) → b.OwnersSound →
      ∃ t, exec (.plh src tag ops) s = .next (s.replied src tag 17#8 (.done []) t.bridge) ∧
        t = s.replied src tag 17#8 (.done []) t.bridge ∧
        t.bridge.group g =
          { x with
            runState := .held, phase := some .settling, settle := (b.currentStage g).dwell.getD 0, waiting := false } ∧
        (∀ p, (t.bridge.probe p).owner ≠ some (.group g)) ∧ GivesUpProbe b t.bridge g ∧
        t.bridge.stations = b.stations ∧
        t.bridge.events = b.events ∧ t.bridge.trip = b.trip ∧ t.bridge.check = b.check) ∧
    (b.release = false →
      exec (.plr src tag ops) s = .next (s.replied src tag 18#8 (.refused .notReleased []) b)) ∧
    (b.release = true → b.check.state ≠ .running →
      exec (.plr src tag ops) s = .next (s.replied src tag 18#8 (.refused .checkNotRunning []) b)) ∧
    (b.release = true → b.check.state = .running → x.runState ≠ .held →
      exec (.plr src tag ops) s = .next (s.replied src tag 18#8 (.refused .wrongState []) b)) ∧
    (b.release = true → b.check.state = .running → x.runState = .held →
      exec (.plr src tag ops) s =
        .next (s.replied src tag 18#8 (.done []) { b with groups := b.groups.set g { x with runState := .running } }))) ∧
  (∀ (src tag : Byte) (ops : List Byte) (g : GroupIx) (s : State), s.takes = true →
    decodeOperands readGroup ops = some g → s.bridge.events.length ≤ 64 →
    let b := s.bridge
    let x := b.group g
    let inPlan := x.runState = .running ∨ x.runState = .held
    let toIdle := { x with
      runState := RunState.idle, phase := none, stage := none, planTag := none, planRange := none, stack := []
      deferred := none }
    let leaves := fun (p : Bridge → Prop) => ∃ t, exec (.pla src tag ops) s =
        .next (s.replied src tag 20#8 (.done []) t.bridge) ∧
      t = s.replied src tag 20#8 (.done []) t.bridge ∧ p t.bridge
    (inPlan → b.mode g = .speed →
      leaves fun c =>
        c.group g =
          { x with
            runState := .aborting, phase := none, blend := 0, stack := [], deferred := none, waiting := false } ∧
        c.events = b.events ∧ c.eventsLost = b.eventsLost ∧ c.stations = b.stations ∧
        (b.OwnersSound → (∀ p, (c.probe p).owner ≠ some (.group g)) ∧ GivesUpProbe b c g)) ∧
    (inPlan → b.mode g ≠ .speed →
      leaves fun c =>
        c.group g = { toIdle with waiting := false } ∧ c.stations = b.stations ∧
        Posted b c [⟨.planAborted, b.tracker.cycle, some g, none, none, x.planTag, none⟩] ∧
        (b.OwnersSound → (∀ p, (c.probe p).owner ≠ some (.group g)) ∧ GivesUpProbe b c g)) ∧
    (x.runState = .aborting ∨ x.runState = .idle → leaves fun c => c = b) ∧
    (∀ cause, x.runState = .fault cause .unwinding →
      leaves fun c => c = { b with groups := b.groups.set g { x with runState := .aborting } }) ∧
    ((∃ cause, x.runState = .fault cause .settled) ∨ x.runState = .done →
      leaves fun c => c = { b with groups := b.groups.set g toIdle }))

/-- PLC: its refusals, and the end of a stage that awaits it, with NEXT, END and RETURN (R115, R118, R134, R135), and the
stage entry of NEXT and of a deferred excursion with its counts, phase and BUMP entry values (R103, R104, R109). The end is
`Bridge.endStage`, of which ReturnAtStageEnd says more. -/
def Obligations.PlanConfirm : Prop :=
  ∀ (src tag : Byte) (ops : List Byte) (g : GroupIx) (stage : Nat) (s : State), s.takes = true →
    decodeOperands readGroup ops = some g → s.bridge.events.length ≤ 64 →
    let b := s.bridge
    let x := b.group g
    let r := b.currentStage g
    let cycle := b.tracker.cycle
    let stageDone : Event := ⟨.stageDone, cycle, some g, none, some stage, x.planTag, none⟩
    let leaves := fun (p : Bridge → Prop) => ∃ t, exec (.plc src tag ops) s =
        .next (s.replied src tag 19#8 (.done []) t.bridge) ∧
      t = s.replied src tag 19#8 (.done []) t.bridge ∧ p t.bridge
    let awaits := x.runState = .running ∧ x.phase = some .awaitConfirm ∧ x.stage = some stage
    let isLast := ∃ p, x.planRange = some p ∧ p.first + p.length - 1 = stage
    (x.runState ≠ .running →
      exec (.plc src tag ops) s = .next (s.replied src tag 19#8 (.refused .wrongState []) b)) ∧
    (x.runState = .running → x.phase ≠ some .awaitConfirm →
      exec (.plc src tag ops) s = .next (s.replied src tag 19#8 (.refused .notAwaiting []) b)) ∧
    (awaits → leaves fun c => c = b.endStage g) ∧
    (awaits → (r.next = some .fin ∨ r.next = some .next ∧ isLast) →
      leaves fun c =>
        c.group g = { x with runState := .done, phase := none, stack := [], deferred := none } ∧
        (∀ k, k ≠ g → c.group k = b.group k) ∧ c.stations = b.stations ∧
        Posted b c [stageDone, ⟨.planDone, cycle, some g, none, none, x.planTag, none⟩]) ∧
    (awaits → r.next = some .next → ¬isLast → b.verdict x.planRange (stage + 1) = none →
      leaves fun c =>
        let y := c.group g
        y.runState = .running ∧ y.stage = some (stage + 1) ∧ y.planTag = x.planTag ∧ y.planRange = x.planRange ∧
        y.stack = x.stack ∧ y.deferred = x.deferred ∧
        y.speed = (if (b.stageAt (stage + 1)).mode = .speed ∧ b.mode g ≠ .speed then x.reference else x.speed) ∧
        EntersStage b c g (stage + 1) ∧
        Posted b c [stageDone, ⟨.stageEntered, cycle, some g, none, some (stage + 1), x.planTag, none⟩]) ∧
    (awaits → r.next = some .next → ¬isLast → b.verdict x.planRange (stage + 1) ≠ none →
      leaves fun c =>
        let y := c.group g
        y.runState = .fault .stageInvalid .unwinding ∧ y.stage = some stage ∧ y.stack = [] ∧
        Posted b c [stageDone,
          ⟨.groupFault, cycle, some g, none, some (stage + 1), x.planTag, some .stageInvalid⟩]) ∧
    (∀ f rest, awaits → r.next = some .ret → x.deferred = none → x.stack = f :: rest → x.alarm = false →
      leaves fun c =>
        let y := c.group g
        y.runState = .running ∧ y.stage = some f.stage ∧ y.stack = rest ∧ y.speed = x.speed ∧
        Posted b c [stageDone, ⟨.excursionReturn, cycle, some g, none, some f.stage, x.planTag, none⟩]) ∧
    (∀ d, awaits → r.next = some .ret → x.deferred = some d → b.verdict x.planRange d.target = none →
      leaves fun c =>
        let y := c.group g
        y.runState = .running ∧ y.stage = some d.target ∧ y.stack = x.stack ∧ y.deferred = none ∧
        EntersStage { b with groups := b.groups.set g { x with deferred := none } } c g d.target ∧
        Posted b c [stageDone, ⟨.excursionTaken, cycle, some g, d.station, some d.target, x.planTag, some d.cause⟩,
          ⟨.stageEntered, cycle, some g, none, some d.target, x.planTag, none⟩])

/-- The end of a stage with RETURN. A deferred excursion is taken in place of a return, and faults the group where its
target fails the check (R134). A return restores the phase and the counts that R136 gives for the kind of the resumed
stage and seeds the trims where they come on (R62, R135); with ALARM set it takes the resumed stage's fault action with
cause ALARM (R137). -/
def Obligations.ReturnAtStageEnd : Prop :=
  ∀ (b : Bridge) (g : GroupIx) (stage : Nat), b.events.length ≤ 64 → (b.group g).runState = .running →
    (b.group g).stage = some stage → (b.stageAt stage).next = some .ret →
    let x := b.group g
    let cycle := b.tracker.cycle
    let c := b.endStage g
    let y := c.group g
    let event := fun (kind : EventKind) (i : Option StationIx) (index : Nat) (cause : Option Cause) =>
      (⟨kind, cycle, some g, i, some index, x.planTag, cause⟩ : Event)
    (∀ d, x.deferred = some d → b.verdict x.planRange d.target ≠ none →
      y.runState = .fault .stageInvalid .unwinding ∧ y.stage = some stage ∧ y.phase = none ∧ y.stack = [] ∧
      y.deferred = none ∧
      Posted b c [event .stageDone none stage none, event .excursionTaken d.station d.target (some d.cause),
        event .groupFault none d.target (some .stageInvalid)]) ∧
    (∀ f rest, x.deferred = none → x.stack = f :: rest →
      let r := b.stageAt f.stage
      let waits := f.phase = .dwell ∨ f.phase = .awaitConfirm
      let phase : Phase :=
        match r.kind with
        | .creep | .thread => if waits ∧ r.target ≠ some x.speed then .ramp else f.phase
        | .bump => if r.target = some x.speed then .dwell else .rise
        | .tune => .settling
        | .handback => .blend
        | .pass | .trim | .empty => f.phase
      let returned := [event .stageDone none stage none, event .excursionReturn none f.stage none]
      (x.alarm = false →
        y.runState = .running ∧ y.stage = some f.stage ∧ y.stack = rest ∧ y.deferred = none ∧ y.speed = x.speed ∧
        y.planTag = x.planTag ∧ y.planRange = x.planRange ∧ y.phase = some phase ∧
        (r.kind ∈ [StageKind.pass, .trim, .creep, .thread] → y.dwell = f.dwell) ∧
        (r.kind = .bump → y.dwell = r.dwell.getD 0 ∧ y.bumpEntry = some x.speed ∧
          y.bumpActuals = (b.members g).map fun i =>
            ⟨i, (b.station i).bind fun st => st.run.latch.map fun l => surfaceSpeed st.config.polarity l.speed⟩) ∧
        (r.kind = .tune → y.retries = f.retries) ∧
        (r.exit = some .settled ∨ r.kind = .tune → y.settle = r.dwell.getD 0) ∧
        (r.kind = .handback → y.blend = 0) ∧
        (∀ i, c.station i = (b.station i).map fun st =>
          if st.config.group = some g ∧ r.trims = some true ∧ (b.stageAt stage).trims ≠ some true then
            let limit : Int := x.record.trimLimit
            let v := st.config.offset
            { st with run := { st.run with trim := if v < -limit then -limit else if limit < v then limit else v } }
          else st) ∧
        (∀ k, k ≠ g → c.group k = b.group k) ∧ Posted b c returned) ∧
      (x.alarm = true → r.faultAction = some .halt →
        y.runState = .fault .alarm .unwinding ∧ y.stage = some f.stage ∧ y.phase = none ∧ y.stack = [] ∧ y.blend = 0 ∧
        y.speed = (if r.mode = .speed then x.speed else x.reference) ∧ c.trip = b.trip ∧
        Posted b c (returned ++ [event .groupFault none f.stage (some .alarm)])) ∧
      (x.alarm = true → r.faultAction = some .trip →
        y.runState = .fault .alarm .settled ∧ y.stage = some f.stage ∧ y.phase = none ∧ y.stack = [] ∧
        c.trip = { b.trip with stage := true } ∧
        Posted b c (returned ++ [event .groupFault none f.stage (some .alarm)] ++
          if b.trip = ⟨false, false, false⟩ then [⟨.tripOpened, cycle, none, none, none, none, some .stage⟩] else [])) ∧
      (∀ target, x.alarm = true → r.faultAction = some .excursion → r.excTarget = some target → rest.length ≤ 2 →
        (b.verdict x.planRange target = none →
          y.runState = .running ∧ y.stage = some target ∧ y.deferred = none ∧
          (∃ top, y.stack = top :: rest ∧ top.stage = f.stage ∧ top.phase = phase ∧
            (r.kind ∈ [StageKind.pass, .trim, .creep, .thread] → top.dwell = f.dwell) ∧
            (r.kind = .bump → top.dwell = r.dwell.getD 0) ∧
            top.retries = (if r.kind = .tune then f.retries else 0) ∧
            top.origin =
              if (x.planRange.map fun p => p.contains f.stage) = some true then .plan else .excursion) ∧
          Posted b c (returned ++ [event .excursionTaken none target (some .alarm),
            event .stageEntered none target none])) ∧
        (b.verdict x.planRange target ≠ none →
          y.runState = .fault .stageInvalid .unwinding ∧ y.stage = some f.stage ∧ y.stack = [] ∧
          Posted b c (returned ++ [event .excursionTaken none target (some .alarm),
            event .groupFault none target (some .stageInvalid)]))))

/-! ## Probes -/

/-- PBS: its refusals, and the run it starts (R142). What empty accumulators hold is assumption log 34. -/
def Obligations.ProbeStart : Prop :=
  ∀ (src tag : Byte) (ops : List Byte) (o : PbsOperands) (s : State), s.takes = true →
    decodeOperands readPbs ops = some o →
    let b := s.bridge
    let x : Probe :=
      { state := .running, owner := some (.request tag), station := some o.station, mode := o.mode
        window := o.window, sub := 1, acc := ⟨0, 0, 0, none, none, 0, none, none, none⟩, completed := [], result := none }
    (b.station o.station = none →
      exec (.pbs src tag ops) s = .next (s.replied src tag 24#8 (.refused .noSuchEntry []) b)) ∧
    (b.station o.station ≠ none → (b.probe o.probe).state = .running →
      exec (.pbs src tag ops) s = .next (s.replied src tag 24#8 (.refused .busy []) b)) ∧
    (b.station o.station ≠ none → (b.probe o.probe).state ≠ .running →
      exec (.pbs src tag ops) s =
        .next (s.replied src tag 24#8 (.accepted [])
          (match o.probe with | .p1 => { b with probe1 := x } | .p2 => { b with probe2 := x })))

/-- PBC and PBR: the refusals of PBC, the cancelling of a request's run, and what reading a probe does (R150, R152). A
probe that comes free stays as it is with no group waiting; otherwise the lowest waiting group takes it, for a FIXED
run on its leader with the W of its stage record (R143, R144). The bytes of the Replies are assumption log 12: an IDLE
probe's record stands behind a presence byte, a DONE or CANCELLED run's without one, and no state byte stands before
either; the error sign and the widths of a RUNNING probe's accumulators are assumption logs 30 and 33. That the
sub-window in progress stands last in the record of a cancelled STEPPED run is assumption log 16. What empty
accumulators hold is assumption log 34. -/
def Obligations.ProbeCancelAndRead : Prop :=
  ∀ (src tag code : Byte) (p : ProbeId) (s : State), s.takes = true →
    (code = 1#8 ∧ p = .p1 ∨ code = 2#8 ∧ p = .p2) →
    let b := s.bridge
    let x := b.probe p
    let pbc := fun a c => exec (.pbc src tag [code]) s = .next (s.replied src tag 25#8 a c)
    let pbr := fun a c => exec (.pbr src tag [code]) s = .next (s.replied src tag 26#8 a c)
    let put := fun (b : Bridge) (y : Probe) => match p with | .p1 => { b with probe1 := y } | .p2 => { b with probe2 := y }
    let byGroup := ∃ g, x.owner = some (.group g)
    (byGroup → pbc (.refused .wrongOwner []) b) ∧
    (¬byGroup → x.state ≠ .running → pbc (.refused .wrongState []) b) ∧
    (¬byGroup → x.state = .running →
      ∃ (r : ProbeResult) (free : Nat), r.outcome = .cancelled ∧ r.probe = p ∧ r.owner = x.owner ∧
        r.station = x.station ∧ r.mode = x.mode ∧ r.window = x.window ∧ r.cycle = b.tracker.cycle ∧ r.chosen = none ∧
        (x.mode = .fixed → r.closes = x.acc.closes ∧ r.samples = x.acc.samples ∧ r.crossings = x.acc.crossings ∧
          r.meanTorque = x.acc.result.meanTorque ∧ r.ripple = x.acc.result.ripple ∧ r.subs = []) ∧
        (x.mode = .stepped → r.subs = x.completed ++ [x.acc.result] ∧ r.ripple = none) ∧
        pbc (.done (resultFields r))
          ((put { b with choiceCount := free } { x with state := .idle, owner := none, result := some r }).probeFreed
            p)) ∧
    (x.state = .running → pbr (.done (runningFields x)) b) ∧
    (x.state = .idle → pbr (.done (match x.result with | none => [0#8] | some r => 1#8 :: resultFields r)) b) ∧
    (∀ r, x.state = .done → x.result = some r →
      pbr (.done (resultFields r)) ((put b { x with state := .idle, owner := none }).probeFreed p)) ∧
    (∀ c : Bridge, (∀ g, (c.group g).waiting = false) → c.probeFreed p = c) ∧
    (∀ (c : Bridge) (g : GroupIx) (i : StationIx) (w : Nat), (c.group g).waiting = true →
      (∀ k, (c.group k).waiting = true → g ≤ k) → c.leader g = some i → (c.currentStage g).probeWindow = some w →
      c.probeFreed p =
        put { c with groups := c.groups.set g { c.group g with phase := some .probing, waiting := false } }
          { state := .running, owner := some (.group g), station := some i, mode := .fixed, window := w, sub := 1
            acc := ⟨0, 0, 0, none, none, 0, none, none, none⟩, completed := [], result := none })

/-- The result of a sub-window (R147), and the sub-window a STEPPED run chooses: the earliest of median ripple (R148). -/
def Obligations.SubWindowResults : Prop :=
  (∀ a : Accumulators,
    let r := a.result
    r.closes = a.closes ∧ r.samples = a.samples ∧ r.crossings = a.crossings ∧
    (a.samples = 0 → r.meanTorque = none ∧ r.ripple = none ∧ r.elapsed = none ∧ r.frequency = none) ∧
    (a.samples ≠ 0 → r.meanTorque = some (a.torqueSum.tdiv a.samples) ∧
      ∀ lo hi, a.errorMin = some lo → a.errorMax = some hi → r.ripple = some (hi - lo).toNat) ∧
    (a.samples = 1 → r.elapsed = none ∧ r.frequency = none) ∧
    (∀ t0 t1, 2 ≤ a.samples → a.firstTime = some t0 → a.lastTime = some t1 →
      let e := (t1.toNat + 4294967296 - t0.toNat) % 4294967296
      r.elapsed = some e ∧ (e = 0 → r.frequency = none) ∧
      (e ≠ 0 → r.frequency = some (a.crossings * 100000000 / (2 * e))))) ∧
  (∀ r1 r2 r3 : SubResult,
    (r1.ripple = none ∨ r2.ripple = none ∨ r3.ripple = none → chosenSub [r1, r2, r3] = none) ∧
    (∀ a1 a2 a3, r1.ripple = some a1 → r2.ripple = some a2 → r3.ripple = some a3 →
      let all := [a1, a2, a3]
      ∃ n m, chosenSub [r1, r2, r3] = some n ∧ 1 ≤ n ∧ all[n - 1]? = some m ∧
        2 ≤ all.countP (· ≤ m) ∧ 2 ≤ all.countP (m ≤ ·) ∧ ∀ k, 1 ≤ k → k < n → all[k - 1]? ≠ some m))

/-- A close of its station at a RUNNING probe: what it counts (R145), the end of a sub-window and of the run (R147,
R148), and the void run of a transition to INVALID or FATAL (R149). A request's run posts PROBE_DONE and is free
(R153). That an INVALIDATED STEPPED record has the sub-window in progress last in its list and its totals of closes and
samples over that list is assumption log 16. That a close without a sample ends a sub-window as well is assumption log
32. What empty accumulators hold is assumption log 34. -/
def Obligations.ProbeSamplesClose : Prop :=
  ∀ (b : Bridge) (p : ProbeId) (r : CloseRecord) (st : Station), b.events.length ≤ 64 →
    (b.probe p).state = .running → (b.probe p).station = some r.station → b.station r.station = some st →
    let x := b.probe p
    let old := x.acc
    let c := b.probeClose p r
    let put := fun (b : Bridge) (y : Probe) => match p with | .p1 => { b with probe1 := y } | .p2 => { b with probe2 := y }
    let full := match x.sub with | 2 => x.window + x.window / 4 | 3 => x.window + x.window / 2 | _ => x.window
    let ends := fun (outcome : Cause) (a : Accumulators) => ∃ (v : ProbeResult) (d : Bridge),
      v.probe = p ∧ v.owner = x.owner ∧ v.station = x.station ∧ v.mode = x.mode ∧ v.window = x.window ∧
      v.outcome = outcome ∧ v.cycle = b.tracker.cycle ∧
      (x.mode = .fixed → v.subs = [] ∧ v.chosen = none ∧
        a.result = ⟨v.closes, v.samples, v.meanTorque, v.ripple, v.crossings, v.elapsed, v.frequency⟩) ∧
      (x.mode = .stepped → v.subs = x.completed ++ [a.result] ∧
        v.chosen = (if outcome = .completed then chosenSub v.subs else none) ∧
        v.closes = (v.subs.map SubResult.closes).sum ∧ v.samples = (v.subs.map SubResult.samples).sum ∧
        (v.chosen = none → v.ripple = none) ∧
        (outcome = .completed → v.chosen = none → v.meanTorque = none ∧ v.elapsed = none ∧ v.frequency = none) ∧
        (∀ n u, v.chosen = some n → v.subs[n - 1]? = some u →
          v.ripple = u.ripple ∧ v.meanTorque = u.meanTorque ∧ v.crossings = u.crossings ∧ v.elapsed = u.elapsed ∧
            v.frequency = u.frequency)) ∧
      (∃ free : Nat, d = put { b with choiceCount := free, events := d.events, eventsLost := d.eventsLost }
        { x with acc := a, state := .done, result := some v }) ∧
      (match x.owner with
        | some (.request tag) =>
          c = d.probeFreed p ∧
            Posted b d [⟨.probeDone, b.tracker.cycle, none, x.station, none, some tag, some outcome⟩]
        | _ => c = d ∧ d.events = b.events ∧ d.eventsLost = b.eventsLost)
    (r.transition = some .invalid ∨ r.transition = some .fatal → ends .invalidated old) ∧
    (r.transition ≠ some .invalid → r.transition ≠ some .fatal →
      ∃ a : Accumulators, a.closes = old.closes + 1 ∧
        (r.fresh = false ∨ st.run.latch = none ∨ st.run.lastSent = none → a = { old with closes := a.closes }) ∧
        (∀ l sent, r.fresh = true → st.run.latch = some l → st.run.lastSent = some sent →
          let e := surfaceSpeed st.config.polarity l.speed - sent
          a.samples = old.samples + 1 ∧ a.torqueSum = old.torqueSum + surfaceTorque st.config.polarity l.torque ∧
          a.errorMin = some (match old.errorMin with | some m => if e < m then e else m | none => e) ∧
          a.errorMax = some (match old.errorMax with | some m => if m < e then e else m | none => e) ∧
          a.crossings =
            (if old.lastSign = some .neg ∧ 0 < e ∨ old.lastSign = some .pos ∧ e < 0 then old.crossings + 1
              else old.crossings) ∧
          a.lastSign = (if e < 0 then some .neg else if 0 < e then some .pos else old.lastSign) ∧
          a.firstTime = some (old.firstTime.getD b.timeBase) ∧ a.lastTime = some b.timeBase) ∧
        (a.closes ≠ full → c = put b { x with acc := a }) ∧
        (a.closes = full → x.mode = .stepped → x.sub < 3 →
          c = put b
            { x with
              sub := x.sub + 1, acc := ⟨0, 0, 0, none, none, 0, none, none, none⟩
              completed := x.completed ++ [a.result] }) ∧
        (a.closes = full → (x.mode = .fixed ∨ 3 ≤ x.sub) → ends .completed a))

/-! ## Console check and Trip Unit -/

/-- CKS: refused BAD_OPERAND for a window outside 5 to 500 and CHECK_FAILED_BEFORE in FAILED; from INACTIVE it issues the
challenge as it stands, from RUNNING it advances the check; the window and the deadline are those of the operand (R156,
R157). -/
def Obligations.CheckStart : Prop :=
  ∀ (src tag hi lo : Byte) (s : State), s.takes = true →
    let window := 256 * hi.toNat + lo.toNat
    let k := s.bridge.check
    let refusedAs := fun code : RefusalCode =>
      exec (.cks src tag [hi, lo]) s = .next (s.replied src tag 32#8 (.refused code []) s.bridge)
    let leaves := fun (c : BitVec 16) (q : BitVec 8) =>
      exec (.cks src tag [hi, lo]) s =
        .next (s.replied src tag 32#8 (.done (be16 c ++ [q, hi, lo]))
          { s.bridge with
            check :=
              { k with
                state := .running, challenge := c, sequence := q, window := some window
                deadline := some (window * 1000) } })
    (window < 5 ∨ 500 < window → refusedAs .badOperand) ∧
    (5 ≤ window → window ≤ 500 →
      (k.state = .failed → refusedAs .checkFailedBefore) ∧
      (k.state = .inactive → leaves k.challenge k.sequence) ∧
      (k.state = .running → leaves (5#16 * k.challenge + 3#16) (k.sequence + 1#8)))

/-- CKA: a correct answer advances the check and restarts the deadline; a wrong one fails it; in INACTIVE and FAILED it
is refused by state and reason (R156, R158, R160). That a bypass sets the blend count of a group in FAULT UNWINDING to 0
is assumption log 28. -/
def Obligations.CheckAnswer : Prop :=
  ∀ (src tag hi lo : Byte) (s : State), s.takes = true → s.bridge.events.length ≤ 64 →
    let k := s.bridge.check
    let answer : BitVec 16 := hi ++ lo
    let expected : BitVec 16 := BitVec.ofNat 16 (3 * k.challenge.toNat + k.sequence.toNat)
    let refusedAs := fun code : RefusalCode =>
      exec (.cka src tag [hi, lo]) s = .next (s.replied src tag 33#8 (.refused code []) s.bridge)
    (k.state = .inactive → refusedAs .wrongState) ∧
    (k.state = .failed → k.reason = some .expiry → refusedAs .late) ∧
    (k.state = .failed → k.reason = some .wrongAnswer → refusedAs .wrongState) ∧
    (∀ window, k.state = .running → k.window = some window → answer = expected →
      let c : BitVec 16 := BitVec.ofNat 16 (5 * k.challenge.toNat + 3)
      let q : BitVec 8 := BitVec.ofNat 8 (k.sequence.toNat + 1)
      exec (.cka src tag [hi, lo]) s =
        .next (s.replied src tag 33#8 (.done (be16 c ++ [q]))
          { s.bridge with
            check := { k with challenge := c, sequence := q, deadline := some (window * 1000) } })) ∧
    (k.state = .running → answer ≠ expected →
      ∃ t, exec (.cka src tag [hi, lo]) s = .next (s.replied src tag 33#8 (.refused .wrongAnswer []) t.bridge) ∧
        t = s.replied src tag 33#8 (.refused .wrongAnswer []) t.bridge ∧
        t.bridge.check = { k with state := .failed, deadline := none, reason := some .wrongAnswer } ∧
        t.bridge.trip = { s.bridge.trip with console := true } ∧
        (∀ g, Bypassed .console (s.bridge.group g) (t.bridge.group g)) ∧
        Posted s.bridge t.bridge
          (⟨.checkFailed, s.bridge.tracker.cycle, none, none, none, some tag, some .wrongAnswer⟩ ::
            (if s.bridge.trip = ⟨false, false, false⟩ then
              [⟨.tripOpened, s.bridge.tracker.cycle, none, none, none, none, some .console⟩] else []) ++
            ((List.finRange 8).filter fun g => (s.bridge.group g).active).map fun g =>
              ⟨.groupFault, s.bridge.tracker.cycle, some g, none, (s.bridge.group g).stage,
                (s.bridge.group g).planTag, some .console⟩) ∧
        t.bridge.stations = s.bridge.stations)

/-- CKX: taken with the check RUNNING and no group RUNNING, HELD or ABORTING; refused WRONG_STATE otherwise (R161). -/
def Obligations.CheckStop : Prop :=
  ∀ (src tag : Byte) (s : State), s.takes = true →
    let busy := ∃ g, (s.bridge.group g).runState = .running ∨ (s.bridge.group g).runState = .held ∨
      (s.bridge.group g).runState = .aborting
    (s.bridge.check.state = .running → ¬busy →
      exec (.ckx src tag []) s =
        .next (s.replied src tag 34#8 (.done [])
          { s.bridge with check := { s.bridge.check with state := .inactive, deadline := none } })) ∧
    (s.bridge.check.state ≠ .running ∨ busy →
      exec (.ckx src tag []) s = .next (s.replied src tag 34#8 (.refused .wrongState []) s.bridge))

/-- TPC: STAGE leaves the trip cause set; where this empties it TRIP_CLOSED is posted; nothing else changes. The Reply's
set is the bitmask of assumption log 25 (R164, R166). -/
def Obligations.TripClear : Prop :=
  ∀ (src tag : Byte) (s : State), s.takes = true → s.bridge.events.length ≤ 64 →
    let t := s.bridge.trip
    ∃ u : State, exec (.tpc src tag []) s =
        .next (s.replied src tag 49#8
          (.done (be16 ((if t.console then 64#16 else 0#16) + if t.runaway then 8192#16 else 0#16))) u.bridge) ∧
      u.bridge =
        { s.bridge with
          trip := { t with stage := false }, events := u.bridge.events, eventsLost := u.bridge.eventsLost } ∧
      Posted s.bridge u.bridge
        (if t = ⟨false, false, true⟩ then
          [⟨.tripClosed, s.bridge.tracker.cycle, none, none, none, none, none⟩] else [])

/-! ## The Responder's own services -/

/-- EVR: a count outside 1 to 8 is refused BAD_OPERAND; otherwise the oldest entries go into the Reply and leave the
queue, and EVENTS_LOST is cleared where none is left (R177). -/
def Obligations.EventsRead : Prop :=
  ∀ (src tag count : Byte) (s : State), s.takes = true →
    (count.toNat < 1 ∨ 8 < count.toNat →
      exec (.evr src tag [count]) s = .next (s.replied src tag 41#8 (.refused .badOperand []) s.bridge)) ∧
    (1 ≤ count.toNat → count.toNat ≤ 8 → s.bridge.events.length ≤ 64 →
      let taken := s.bridge.events.take count.toNat
      let rest := s.bridge.events.drop count.toNat
      exec (.evr src tag [count]) s =
        .next (s.replied src tag 41#8
          (.done ([BitVec.ofNat 8 taken.length] ++ taken.flatMap eventFields ++
            [if s.bridge.eventsLost then 1#8 else 0#8] ++ [BitVec.ofNat 8 rest.length]))
          { s.bridge with events := rest, eventsLost := decide (rest ≠ []) && s.bridge.eventsLost }))

/-- LKW: a time outside 3 to 100 is refused BAD_OPERAND; otherwise the setting becomes the operand and nothing else
changes, a RUNNING timer included; the next Cycle Frame arrival restarts the timer for it (R14, R172). -/
def Obligations.LinkSettingsWrite : Prop :=
  ∀ (src tag time : Byte) (s : State), s.takes = true →
    (time.toNat < 3 ∨ 100 < time.toNat →
      exec (.lkw src tag [time]) s = .next (s.replied src tag 48#8 (.refused .badOperand []) s.bridge)) ∧
    (3 ≤ time.toNat → time.toNat ≤ 100 →
      ∃ t, exec (.lkw src tag [time]) s = .next t ∧
        t = s.replied src tag 48#8 (.done [time])
          { s.bridge with tracker := { s.bridge.tracker with setting := time.toNat } } ∧
        ∀ (dst from_ : Byte) (n : CycleNo) (slots : List Slot), 1 ≤ slots.length → slots.length ≤ 48 →
          ∃ u, exec (.cycleFrameArrival dst from_ n slots) t = .next u ∧
            u.bridge.tracker.timer = .running (time.toNat * 1000))

/-- IDR: the part code, the revision, the link address and the capacities; no state changes (R173). -/
def Obligations.IdentificationRead : Prop :=
  ∀ (src tag : Byte) (s : State), s.takes = true →
    exec (.idr src tag []) s =
      .next (s.replied src tag 51#8
        (.done ([0x02#8, 0x6A#8, 1#8, s.address, 32#8, 8#8, 128#8, 2#8, 64#8])) s.bridge)

/-! ## Encodings -/

/-- Decode of encode: the operands of STW, GRW, SGW, SGR and PBS, every field at every value its range admits; and the
operands of the services that take one number: one field of the width of R186, within its range, and nothing after it
(R28, R68, R96, R98, R142, R170, R186). -/
def Obligations.OperandsDecodeAsEncoded : Prop :=
  (∀ o : StwOperands, o.InRange → decodeOperands readStw o.bytes = some o) ∧
  (∀ o : GrwOperands, o.InRange → decodeOperands readGrw o.bytes = some o) ∧
  (∀ o : SgwOperands, o.InRange → decodeOperands readSgw o.bytes = some o) ∧
  (∀ o : SgrOperands, decodeOperands readSgr o.bytes = some o) ∧
  (∀ o : PbsOperands, 16 ≤ o.window → o.window ≤ 1024 → decodeOperands readPbs o.bytes = some o) ∧
  (∀ ops : List Byte,
     (∀ i : StationIx, decodeOperands readStation ops = some i ↔ ops = [BitVec.ofNat 8 i.val]) ∧
     (∀ g : GroupIx, decodeOperands readGroup ops = some g ↔ ops = [BitVec.ofNat 8 (g.val + 1)]) ∧
     (∀ p, decodeOperands readProbe ops = some p ↔ ops = [match p with | .p1 => 1#8 | .p2 => 2#8]) ∧
     (∀ n, decodeOperands readCheckWindow ops = some n ↔ 5 ≤ n ∧ n ≤ 500 ∧ ops = be16 (BitVec.ofNat 16 n)) ∧
     (∀ v, decodeOperands readAnswer ops = some v ↔ ops = be16 v) ∧
     (∀ m, decodeOperands readMask ops = some m ↔ ops = be32 m) ∧
     (∀ n, decodeOperands readCount ops = some n ↔ 1 ≤ n ∧ n ≤ 8 ∧ ops = [BitVec.ofNat 8 n]) ∧
     (∀ n, decodeOperands readLoss ops = some n ↔ 3 ≤ n ∧ n ≤ 100 ∧ ops = [BitVec.ofNat 8 n]) ∧
     (∀ c, decodeOperands readScope ops = some c ↔ ops = [match c with | .full => 0#8 | .tablesKept => 1#8]))

/-- Decode of encode: a frame's bytes are judged to be that frame, and the arrival of the bytes of a well-formed
command's frame at its port is that command (R1 to R3, R169, R170, R185). -/
def Obligations.ArrivalsDecodeAsEncoded : Prop :=
  (∀ f : Frame, f.body.length ≤ 65535 → f.bodyPasses = true → Frame.ofBytes f.bytes = some f) ∧
  (∀ (i : Instr) (address : Byte) (waiting : Nat) (port : Port) (f : Frame), i.wellFormed = true → waiting < 4 →
    i.arrival address = some (port, f) →
    (∀ g, i = .frameForwarded .line g → ¬(g.kind = 3#8 ∧ g.dst = address)) →
    arrivalCommand address false waiting port f.bytes = i)

/-! ## Invariants that every step keeps -/

/-- The queues and the Event Queue keep their bounds, and an IDLE transmitter has nothing to send (R6 to R9, R174). -/
def Obligations.StepKeepsQueues : Prop :=
  ∀ s t : State, s.QueuesSound → step s = .next t → t.QueuesSound

/-- The validity counters and the alarm counters keep their ranges, the counter of a station is 255 exactly in FATAL, and
every plan range has at least one record (R38, R40, R66, R68). -/
def Obligations.StepKeepsCounters : Prop :=
  ∀ s t : State, s.bridge.CountersSound → step s = .next t → t.bridge.CountersSound

/-- CONSOLE is in the trip cause set exactly while the check is FAILED, the deadline runs exactly while it is RUNNING, and
RUNAWAY is in the set while a station is FATAL (R40, R155, R160, R164). -/
def Obligations.StepKeepsTripCauses : Prop :=
  ∀ s t : State, s.bridge.TripSound → step s = .next t → t.bridge.TripSound

/-- No drive address is bound twice, no group has more than six members (R28), every trim is within its group's limit
(R61), a probe has an owner exactly when it is not IDLE (R141), and the latch of an OPEN entry is not fresh (R20, R22). -/
def Obligations.StepKeepsTables : Prop :=
  ∀ s t : State, s.bridge.TableSound → s.bridge.TrimsSound → s.bridge.ProbesSound → s.bridge.MarksSound →
    step s = .next t →
    t.bridge.TableSound ∧ t.bridge.TrimsSound ∧ t.bridge.ProbesSound ∧ t.bridge.MarksSound

/-- The return stacks and pending slots, the phases and the waiting set follow the run states (R100, R129, R133), and a
group that owns a probe is RUNNING in PROBING and owns no other (R112, R141). -/
def Obligations.StepKeepsRuns : Prop :=
  ∀ s t : State, s.bridge.RunsSound → step s = .next t → t.bridge.RunsSound
end

