-- ==== Sys2Proof/Laws/State.lean ====
section
/-! SUPPORT. One lemma for each field of State and Bridge and each named update that leaves it or sets it. -/

namespace Sys2Proof.Machine

/-! ## Updates of State -/

@[simp] theorem State.withBridge_pending (s : State) (b : Bridge) : (s.withBridge b).pending = s.pending := rfl

@[simp] theorem State.withBridge_resetAsserted (s : State) (b : Bridge) : (s.withBridge b).resetAsserted = s.resetAsserted := rfl

@[simp] theorem State.withBridge_resetPending (s : State) (b : Bridge) : (s.withBridge b).resetPending = s.resetPending := rfl

@[simp] theorem State.withBridge_strapA (s : State) (b : Bridge) : (s.withBridge b).strapA = s.strapA := rfl

@[simp] theorem State.withBridge_strapB (s : State) (b : Bridge) : (s.withBridge b).strapB = s.strapB := rfl

@[simp] theorem State.withBridge_address (s : State) (b : Bridge) : (s.withBridge b).address = s.address := rfl

@[simp] theorem State.withBridge_link (s : State) (b : Bridge) : (s.withBridge b).link = s.link := rfl

@[simp] theorem State.withBridge_bridge (s : State) (b : Bridge) : (s.withBridge b).bridge = b := rfl

@[simp] theorem State.withLink_pending (s : State) (l : Link) : (s.withLink l).pending = s.pending := rfl

@[simp] theorem State.withLink_resetAsserted (s : State) (l : Link) : (s.withLink l).resetAsserted = s.resetAsserted := rfl

@[simp] theorem State.withLink_resetPending (s : State) (l : Link) : (s.withLink l).resetPending = s.resetPending := rfl

@[simp] theorem State.withLink_strapA (s : State) (l : Link) : (s.withLink l).strapA = s.strapA := rfl

@[simp] theorem State.withLink_strapB (s : State) (l : Link) : (s.withLink l).strapB = s.strapB := rfl

@[simp] theorem State.withLink_address (s : State) (l : Link) : (s.withLink l).address = s.address := rfl

@[simp] theorem State.withLink_link (s : State) (l : Link) : (s.withLink l).link = l := rfl

@[simp] theorem State.withLink_bridge (s : State) (l : Link) : (s.withLink l).bridge = s.bridge := rfl

@[simp] theorem State.replied_pending (s : State) (src tag code : Byte) (a : Answer) (b : Bridge) : (s.replied src tag code a b).pending = s.pending := rfl

@[simp] theorem State.replied_resetAsserted (s : State) (src tag code : Byte) (a : Answer) (b : Bridge) : (s.replied src tag code a b).resetAsserted = s.resetAsserted := rfl

@[simp] theorem State.replied_resetPending (s : State) (src tag code : Byte) (a : Answer) (b : Bridge) : (s.replied src tag code a b).resetPending = s.resetPending := rfl

@[simp] theorem State.replied_strapA (s : State) (src tag code : Byte) (a : Answer) (b : Bridge) : (s.replied src tag code a b).strapA = s.strapA := rfl

@[simp] theorem State.replied_strapB (s : State) (src tag code : Byte) (a : Answer) (b : Bridge) : (s.replied src tag code a b).strapB = s.strapB := rfl

@[simp] theorem State.replied_address (s : State) (src tag code : Byte) (a : Answer) (b : Bridge) : (s.replied src tag code a b).address = s.address := rfl

@[simp] theorem State.replied_bridge (s : State) (src tag code : Byte) (a : Answer) (b : Bridge) : (s.replied src tag code a b).bridge = b := rfl

/-! ## Updates of Bridge -/

@[simp] theorem Bridge.setStation_release (b : Bridge) (i : StationIx) (x : Option Station) : (b.setStation i x).release = b.release := rfl

@[simp] theorem Bridge.setStation_tracker (b : Bridge) (i : StationIx) (x : Option Station) : (b.setStation i x).tracker = b.tracker := rfl

@[simp] theorem Bridge.setStation_mask (b : Bridge) (i : StationIx) (x : Option Station) : (b.setStation i x).mask = b.mask := rfl

@[simp] theorem Bridge.setStation_treatments (b : Bridge) (i : StationIx) (x : Option Station) : (b.setStation i x).treatments = b.treatments := rfl

@[simp] theorem Bridge.setStation_groups (b : Bridge) (i : StationIx) (x : Option Station) : (b.setStation i x).groups = b.groups := rfl

@[simp] theorem Bridge.setStation_store (b : Bridge) (i : StationIx) (x : Option Station) : (b.setStation i x).store = b.store := rfl

@[simp] theorem Bridge.setStation_probe1 (b : Bridge) (i : StationIx) (x : Option Station) : (b.setStation i x).probe1 = b.probe1 := rfl

@[simp] theorem Bridge.setStation_probe2 (b : Bridge) (i : StationIx) (x : Option Station) : (b.setStation i x).probe2 = b.probe2 := rfl

@[simp] theorem Bridge.setStation_check (b : Bridge) (i : StationIx) (x : Option Station) : (b.setStation i x).check = b.check := rfl

@[simp] theorem Bridge.setStation_trip (b : Bridge) (i : StationIx) (x : Option Station) : (b.setStation i x).trip = b.trip := rfl

@[simp] theorem Bridge.setStation_events (b : Bridge) (i : StationIx) (x : Option Station) : (b.setStation i x).events = b.events := rfl

@[simp] theorem Bridge.setStation_eventsLost (b : Bridge) (i : StationIx) (x : Option Station) : (b.setStation i x).eventsLost = b.eventsLost := rfl

@[simp] theorem Bridge.setStation_timeBase (b : Bridge) (i : StationIx) (x : Option Station) : (b.setStation i x).timeBase = b.timeBase := rfl

@[simp] theorem Bridge.setStation_choices (b : Bridge) (i : StationIx) (x : Option Station) : (b.setStation i x).choices = b.choices := rfl

@[simp] theorem Bridge.setStation_choiceCount (b : Bridge) (i : StationIx) (x : Option Station) : (b.setStation i x).choiceCount = b.choiceCount := rfl

@[simp] theorem Bridge.modifyStation_release (b : Bridge) (i : StationIx) (f : Station → Station) : (b.modifyStation i f).release = b.release := rfl

@[simp] theorem Bridge.modifyStation_tracker (b : Bridge) (i : StationIx) (f : Station → Station) : (b.modifyStation i f).tracker = b.tracker := rfl

@[simp] theorem Bridge.modifyStation_mask (b : Bridge) (i : StationIx) (f : Station → Station) : (b.modifyStation i f).mask = b.mask := rfl

@[simp] theorem Bridge.modifyStation_treatments (b : Bridge) (i : StationIx) (f : Station → Station) : (b.modifyStation i f).treatments = b.treatments := rfl

@[simp] theorem Bridge.modifyStation_groups (b : Bridge) (i : StationIx) (f : Station → Station) : (b.modifyStation i f).groups = b.groups := rfl

@[simp] theorem Bridge.modifyStation_store (b : Bridge) (i : StationIx) (f : Station → Station) : (b.modifyStation i f).store = b.store := rfl

@[simp] theorem Bridge.modifyStation_probe1 (b : Bridge) (i : StationIx) (f : Station → Station) : (b.modifyStation i f).probe1 = b.probe1 := rfl

@[simp] theorem Bridge.modifyStation_probe2 (b : Bridge) (i : StationIx) (f : Station → Station) : (b.modifyStation i f).probe2 = b.probe2 := rfl

@[simp] theorem Bridge.modifyStation_check (b : Bridge) (i : StationIx) (f : Station → Station) : (b.modifyStation i f).check = b.check := rfl

@[simp] theorem Bridge.modifyStation_trip (b : Bridge) (i : StationIx) (f : Station → Station) : (b.modifyStation i f).trip = b.trip := rfl

@[simp] theorem Bridge.modifyStation_events (b : Bridge) (i : StationIx) (f : Station → Station) : (b.modifyStation i f).events = b.events := rfl

@[simp] theorem Bridge.modifyStation_eventsLost (b : Bridge) (i : StationIx) (f : Station → Station) : (b.modifyStation i f).eventsLost = b.eventsLost := rfl

@[simp] theorem Bridge.modifyStation_timeBase (b : Bridge) (i : StationIx) (f : Station → Station) : (b.modifyStation i f).timeBase = b.timeBase := rfl

@[simp] theorem Bridge.modifyStation_choices (b : Bridge) (i : StationIx) (f : Station → Station) : (b.modifyStation i f).choices = b.choices := rfl

@[simp] theorem Bridge.modifyStation_choiceCount (b : Bridge) (i : StationIx) (f : Station → Station) : (b.modifyStation i f).choiceCount = b.choiceCount := rfl

@[simp] theorem Bridge.modifyRun_release (b : Bridge) (i : StationIx) (f : StationRun → StationRun) : (b.modifyRun i f).release = b.release := rfl

@[simp] theorem Bridge.modifyRun_tracker (b : Bridge) (i : StationIx) (f : StationRun → StationRun) : (b.modifyRun i f).tracker = b.tracker := rfl

@[simp] theorem Bridge.modifyRun_mask (b : Bridge) (i : StationIx) (f : StationRun → StationRun) : (b.modifyRun i f).mask = b.mask := rfl

@[simp] theorem Bridge.modifyRun_treatments (b : Bridge) (i : StationIx) (f : StationRun → StationRun) : (b.modifyRun i f).treatments = b.treatments := rfl

@[simp] theorem Bridge.modifyRun_groups (b : Bridge) (i : StationIx) (f : StationRun → StationRun) : (b.modifyRun i f).groups = b.groups := rfl

@[simp] theorem Bridge.modifyRun_store (b : Bridge) (i : StationIx) (f : StationRun → StationRun) : (b.modifyRun i f).store = b.store := rfl

@[simp] theorem Bridge.modifyRun_probe1 (b : Bridge) (i : StationIx) (f : StationRun → StationRun) : (b.modifyRun i f).probe1 = b.probe1 := rfl

@[simp] theorem Bridge.modifyRun_probe2 (b : Bridge) (i : StationIx) (f : StationRun → StationRun) : (b.modifyRun i f).probe2 = b.probe2 := rfl

@[simp] theorem Bridge.modifyRun_check (b : Bridge) (i : StationIx) (f : StationRun → StationRun) : (b.modifyRun i f).check = b.check := rfl

@[simp] theorem Bridge.modifyRun_trip (b : Bridge) (i : StationIx) (f : StationRun → StationRun) : (b.modifyRun i f).trip = b.trip := rfl

@[simp] theorem Bridge.modifyRun_events (b : Bridge) (i : StationIx) (f : StationRun → StationRun) : (b.modifyRun i f).events = b.events := rfl

@[simp] theorem Bridge.modifyRun_eventsLost (b : Bridge) (i : StationIx) (f : StationRun → StationRun) : (b.modifyRun i f).eventsLost = b.eventsLost := rfl

@[simp] theorem Bridge.modifyRun_timeBase (b : Bridge) (i : StationIx) (f : StationRun → StationRun) : (b.modifyRun i f).timeBase = b.timeBase := rfl

@[simp] theorem Bridge.modifyRun_choices (b : Bridge) (i : StationIx) (f : StationRun → StationRun) : (b.modifyRun i f).choices = b.choices := rfl

@[simp] theorem Bridge.modifyRun_choiceCount (b : Bridge) (i : StationIx) (f : StationRun → StationRun) : (b.modifyRun i f).choiceCount = b.choiceCount := rfl

@[simp] theorem Bridge.mapStations_release (b : Bridge) (f : StationIx → Station → Station) : (b.mapStations f).release = b.release := by simp only [Bridge.mapStations]

@[simp] theorem Bridge.mapStations_tracker (b : Bridge) (f : StationIx → Station → Station) : (b.mapStations f).tracker = b.tracker := by simp only [Bridge.mapStations]

@[simp] theorem Bridge.mapStations_mask (b : Bridge) (f : StationIx → Station → Station) : (b.mapStations f).mask = b.mask := by simp only [Bridge.mapStations]

@[simp] theorem Bridge.mapStations_treatments (b : Bridge) (f : StationIx → Station → Station) : (b.mapStations f).treatments = b.treatments := by simp only [Bridge.mapStations]

@[simp] theorem Bridge.mapStations_groups (b : Bridge) (f : StationIx → Station → Station) : (b.mapStations f).groups = b.groups := by simp only [Bridge.mapStations]

@[simp] theorem Bridge.mapStations_store (b : Bridge) (f : StationIx → Station → Station) : (b.mapStations f).store = b.store := by simp only [Bridge.mapStations]

@[simp] theorem Bridge.mapStations_probe1 (b : Bridge) (f : StationIx → Station → Station) : (b.mapStations f).probe1 = b.probe1 := by simp only [Bridge.mapStations]

@[simp] theorem Bridge.mapStations_probe2 (b : Bridge) (f : StationIx → Station → Station) : (b.mapStations f).probe2 = b.probe2 := by simp only [Bridge.mapStations]

@[simp] theorem Bridge.mapStations_check (b : Bridge) (f : StationIx → Station → Station) : (b.mapStations f).check = b.check := by simp only [Bridge.mapStations]

@[simp] theorem Bridge.mapStations_trip (b : Bridge) (f : StationIx → Station → Station) : (b.mapStations f).trip = b.trip := by simp only [Bridge.mapStations]

@[simp] theorem Bridge.mapStations_events (b : Bridge) (f : StationIx → Station → Station) : (b.mapStations f).events = b.events := by simp only [Bridge.mapStations]

@[simp] theorem Bridge.mapStations_eventsLost (b : Bridge) (f : StationIx → Station → Station) : (b.mapStations f).eventsLost = b.eventsLost := by simp only [Bridge.mapStations]

@[simp] theorem Bridge.mapStations_timeBase (b : Bridge) (f : StationIx → Station → Station) : (b.mapStations f).timeBase = b.timeBase := by simp only [Bridge.mapStations]

@[simp] theorem Bridge.mapStations_choices (b : Bridge) (f : StationIx → Station → Station) : (b.mapStations f).choices = b.choices := by simp only [Bridge.mapStations]

@[simp] theorem Bridge.mapStations_choiceCount (b : Bridge) (f : StationIx → Station → Station) : (b.mapStations f).choiceCount = b.choiceCount := by simp only [Bridge.mapStations]

@[simp] theorem Bridge.mapMembers_release (b : Bridge) (g : GroupIx) (f : StationIx → Station → Station) : (b.mapMembers g f).release = b.release := by simp only [Bridge.mapMembers, Bridge.mapStations_release]

@[simp] theorem Bridge.mapMembers_tracker (b : Bridge) (g : GroupIx) (f : StationIx → Station → Station) : (b.mapMembers g f).tracker = b.tracker := by simp only [Bridge.mapMembers, Bridge.mapStations_tracker]

@[simp] theorem Bridge.mapMembers_mask (b : Bridge) (g : GroupIx) (f : StationIx → Station → Station) : (b.mapMembers g f).mask = b.mask := by simp only [Bridge.mapMembers, Bridge.mapStations_mask]

@[simp] theorem Bridge.mapMembers_treatments (b : Bridge) (g : GroupIx) (f : StationIx → Station → Station) : (b.mapMembers g f).treatments = b.treatments := by simp only [Bridge.mapMembers, Bridge.mapStations_treatments]

@[simp] theorem Bridge.mapMembers_groups (b : Bridge) (g : GroupIx) (f : StationIx → Station → Station) : (b.mapMembers g f).groups = b.groups := by simp only [Bridge.mapMembers, Bridge.mapStations_groups]

@[simp] theorem Bridge.mapMembers_store (b : Bridge) (g : GroupIx) (f : StationIx → Station → Station) : (b.mapMembers g f).store = b.store := by simp only [Bridge.mapMembers, Bridge.mapStations_store]

@[simp] theorem Bridge.mapMembers_probe1 (b : Bridge) (g : GroupIx) (f : StationIx → Station → Station) : (b.mapMembers g f).probe1 = b.probe1 := by simp only [Bridge.mapMembers, Bridge.mapStations_probe1]

@[simp] theorem Bridge.mapMembers_probe2 (b : Bridge) (g : GroupIx) (f : StationIx → Station → Station) : (b.mapMembers g f).probe2 = b.probe2 := by simp only [Bridge.mapMembers, Bridge.mapStations_probe2]

@[simp] theorem Bridge.mapMembers_check (b : Bridge) (g : GroupIx) (f : StationIx → Station → Station) : (b.mapMembers g f).check = b.check := by simp only [Bridge.mapMembers, Bridge.mapStations_check]

@[simp] theorem Bridge.mapMembers_trip (b : Bridge) (g : GroupIx) (f : StationIx → Station → Station) : (b.mapMembers g f).trip = b.trip := by simp only [Bridge.mapMembers, Bridge.mapStations_trip]

@[simp] theorem Bridge.mapMembers_events (b : Bridge) (g : GroupIx) (f : StationIx → Station → Station) : (b.mapMembers g f).events = b.events := by simp only [Bridge.mapMembers, Bridge.mapStations_events]

@[simp] theorem Bridge.mapMembers_eventsLost (b : Bridge) (g : GroupIx) (f : StationIx → Station → Station) : (b.mapMembers g f).eventsLost = b.eventsLost := by simp only [Bridge.mapMembers, Bridge.mapStations_eventsLost]

@[simp] theorem Bridge.mapMembers_timeBase (b : Bridge) (g : GroupIx) (f : StationIx → Station → Station) : (b.mapMembers g f).timeBase = b.timeBase := by simp only [Bridge.mapMembers, Bridge.mapStations_timeBase]

@[simp] theorem Bridge.mapMembers_choices (b : Bridge) (g : GroupIx) (f : StationIx → Station → Station) : (b.mapMembers g f).choices = b.choices := by simp only [Bridge.mapMembers, Bridge.mapStations_choices]

@[simp] theorem Bridge.mapMembers_choiceCount (b : Bridge) (g : GroupIx) (f : StationIx → Station → Station) : (b.mapMembers g f).choiceCount = b.choiceCount := by simp only [Bridge.mapMembers, Bridge.mapStations_choiceCount]

@[simp] theorem Bridge.setGroup_release (b : Bridge) (g : GroupIx) (x : DriveGroup) : (b.setGroup g x).release = b.release := rfl

@[simp] theorem Bridge.setGroup_tracker (b : Bridge) (g : GroupIx) (x : DriveGroup) : (b.setGroup g x).tracker = b.tracker := rfl

@[simp] theorem Bridge.setGroup_stations (b : Bridge) (g : GroupIx) (x : DriveGroup) : (b.setGroup g x).stations = b.stations := rfl

@[simp] theorem Bridge.setGroup_mask (b : Bridge) (g : GroupIx) (x : DriveGroup) : (b.setGroup g x).mask = b.mask := rfl

@[simp] theorem Bridge.setGroup_treatments (b : Bridge) (g : GroupIx) (x : DriveGroup) : (b.setGroup g x).treatments = b.treatments := rfl

@[simp] theorem Bridge.setGroup_store (b : Bridge) (g : GroupIx) (x : DriveGroup) : (b.setGroup g x).store = b.store := rfl

@[simp] theorem Bridge.setGroup_probe1 (b : Bridge) (g : GroupIx) (x : DriveGroup) : (b.setGroup g x).probe1 = b.probe1 := rfl

@[simp] theorem Bridge.setGroup_probe2 (b : Bridge) (g : GroupIx) (x : DriveGroup) : (b.setGroup g x).probe2 = b.probe2 := rfl

@[simp] theorem Bridge.setGroup_check (b : Bridge) (g : GroupIx) (x : DriveGroup) : (b.setGroup g x).check = b.check := rfl

@[simp] theorem Bridge.setGroup_trip (b : Bridge) (g : GroupIx) (x : DriveGroup) : (b.setGroup g x).trip = b.trip := rfl

@[simp] theorem Bridge.setGroup_events (b : Bridge) (g : GroupIx) (x : DriveGroup) : (b.setGroup g x).events = b.events := rfl

@[simp] theorem Bridge.setGroup_eventsLost (b : Bridge) (g : GroupIx) (x : DriveGroup) : (b.setGroup g x).eventsLost = b.eventsLost := rfl

@[simp] theorem Bridge.setGroup_timeBase (b : Bridge) (g : GroupIx) (x : DriveGroup) : (b.setGroup g x).timeBase = b.timeBase := rfl

@[simp] theorem Bridge.setGroup_choices (b : Bridge) (g : GroupIx) (x : DriveGroup) : (b.setGroup g x).choices = b.choices := rfl

@[simp] theorem Bridge.setGroup_choiceCount (b : Bridge) (g : GroupIx) (x : DriveGroup) : (b.setGroup g x).choiceCount = b.choiceCount := rfl

@[simp] theorem Bridge.modifyGroup_release (b : Bridge) (g : GroupIx) (f : DriveGroup → DriveGroup) : (b.modifyGroup g f).release = b.release := rfl

@[simp] theorem Bridge.modifyGroup_tracker (b : Bridge) (g : GroupIx) (f : DriveGroup → DriveGroup) : (b.modifyGroup g f).tracker = b.tracker := rfl

@[simp] theorem Bridge.modifyGroup_stations (b : Bridge) (g : GroupIx) (f : DriveGroup → DriveGroup) : (b.modifyGroup g f).stations = b.stations := rfl

@[simp] theorem Bridge.modifyGroup_mask (b : Bridge) (g : GroupIx) (f : DriveGroup → DriveGroup) : (b.modifyGroup g f).mask = b.mask := rfl

@[simp] theorem Bridge.modifyGroup_treatments (b : Bridge) (g : GroupIx) (f : DriveGroup → DriveGroup) : (b.modifyGroup g f).treatments = b.treatments := rfl

@[simp] theorem Bridge.modifyGroup_store (b : Bridge) (g : GroupIx) (f : DriveGroup → DriveGroup) : (b.modifyGroup g f).store = b.store := rfl

@[simp] theorem Bridge.modifyGroup_probe1 (b : Bridge) (g : GroupIx) (f : DriveGroup → DriveGroup) : (b.modifyGroup g f).probe1 = b.probe1 := rfl

@[simp] theorem Bridge.modifyGroup_probe2 (b : Bridge) (g : GroupIx) (f : DriveGroup → DriveGroup) : (b.modifyGroup g f).probe2 = b.probe2 := rfl

@[simp] theorem Bridge.modifyGroup_check (b : Bridge) (g : GroupIx) (f : DriveGroup → DriveGroup) : (b.modifyGroup g f).check = b.check := rfl

@[simp] theorem Bridge.modifyGroup_trip (b : Bridge) (g : GroupIx) (f : DriveGroup → DriveGroup) : (b.modifyGroup g f).trip = b.trip := rfl

@[simp] theorem Bridge.modifyGroup_events (b : Bridge) (g : GroupIx) (f : DriveGroup → DriveGroup) : (b.modifyGroup g f).events = b.events := rfl

@[simp] theorem Bridge.modifyGroup_eventsLost (b : Bridge) (g : GroupIx) (f : DriveGroup → DriveGroup) : (b.modifyGroup g f).eventsLost = b.eventsLost := rfl

@[simp] theorem Bridge.modifyGroup_timeBase (b : Bridge) (g : GroupIx) (f : DriveGroup → DriveGroup) : (b.modifyGroup g f).timeBase = b.timeBase := rfl

@[simp] theorem Bridge.modifyGroup_choices (b : Bridge) (g : GroupIx) (f : DriveGroup → DriveGroup) : (b.modifyGroup g f).choices = b.choices := rfl

@[simp] theorem Bridge.modifyGroup_choiceCount (b : Bridge) (g : GroupIx) (f : DriveGroup → DriveGroup) : (b.modifyGroup g f).choiceCount = b.choiceCount := rfl

@[simp] theorem Bridge.mapGroups_release (b : Bridge) (f : GroupIx → DriveGroup → DriveGroup) : (b.mapGroups f).release = b.release := by simp only [Bridge.mapGroups]

@[simp] theorem Bridge.mapGroups_tracker (b : Bridge) (f : GroupIx → DriveGroup → DriveGroup) : (b.mapGroups f).tracker = b.tracker := by simp only [Bridge.mapGroups]

@[simp] theorem Bridge.mapGroups_stations (b : Bridge) (f : GroupIx → DriveGroup → DriveGroup) : (b.mapGroups f).stations = b.stations := by simp only [Bridge.mapGroups]

@[simp] theorem Bridge.mapGroups_mask (b : Bridge) (f : GroupIx → DriveGroup → DriveGroup) : (b.mapGroups f).mask = b.mask := by simp only [Bridge.mapGroups]

@[simp] theorem Bridge.mapGroups_treatments (b : Bridge) (f : GroupIx → DriveGroup → DriveGroup) : (b.mapGroups f).treatments = b.treatments := by simp only [Bridge.mapGroups]

@[simp] theorem Bridge.mapGroups_store (b : Bridge) (f : GroupIx → DriveGroup → DriveGroup) : (b.mapGroups f).store = b.store := by simp only [Bridge.mapGroups]

@[simp] theorem Bridge.mapGroups_probe1 (b : Bridge) (f : GroupIx → DriveGroup → DriveGroup) : (b.mapGroups f).probe1 = b.probe1 := by simp only [Bridge.mapGroups]

@[simp] theorem Bridge.mapGroups_probe2 (b : Bridge) (f : GroupIx → DriveGroup → DriveGroup) : (b.mapGroups f).probe2 = b.probe2 := by simp only [Bridge.mapGroups]

@[simp] theorem Bridge.mapGroups_check (b : Bridge) (f : GroupIx → DriveGroup → DriveGroup) : (b.mapGroups f).check = b.check := by simp only [Bridge.mapGroups]

@[simp] theorem Bridge.mapGroups_trip (b : Bridge) (f : GroupIx → DriveGroup → DriveGroup) : (b.mapGroups f).trip = b.trip := by simp only [Bridge.mapGroups]

@[simp] theorem Bridge.mapGroups_events (b : Bridge) (f : GroupIx → DriveGroup → DriveGroup) : (b.mapGroups f).events = b.events := by simp only [Bridge.mapGroups]

@[simp] theorem Bridge.mapGroups_eventsLost (b : Bridge) (f : GroupIx → DriveGroup → DriveGroup) : (b.mapGroups f).eventsLost = b.eventsLost := by simp only [Bridge.mapGroups]

@[simp] theorem Bridge.mapGroups_timeBase (b : Bridge) (f : GroupIx → DriveGroup → DriveGroup) : (b.mapGroups f).timeBase = b.timeBase := by simp only [Bridge.mapGroups]

@[simp] theorem Bridge.mapGroups_choices (b : Bridge) (f : GroupIx → DriveGroup → DriveGroup) : (b.mapGroups f).choices = b.choices := by simp only [Bridge.mapGroups]

@[simp] theorem Bridge.mapGroups_choiceCount (b : Bridge) (f : GroupIx → DriveGroup → DriveGroup) : (b.mapGroups f).choiceCount = b.choiceCount := by simp only [Bridge.mapGroups]

@[simp] theorem Bridge.setProbe_release (b : Bridge) (p : ProbeId) (x : Probe) : (b.setProbe p x).release = b.release := by cases p <;> rfl

@[simp] theorem Bridge.setProbe_tracker (b : Bridge) (p : ProbeId) (x : Probe) : (b.setProbe p x).tracker = b.tracker := by cases p <;> rfl

@[simp] theorem Bridge.setProbe_stations (b : Bridge) (p : ProbeId) (x : Probe) : (b.setProbe p x).stations = b.stations := by cases p <;> rfl

@[simp] theorem Bridge.setProbe_mask (b : Bridge) (p : ProbeId) (x : Probe) : (b.setProbe p x).mask = b.mask := by cases p <;> rfl

@[simp] theorem Bridge.setProbe_treatments (b : Bridge) (p : ProbeId) (x : Probe) : (b.setProbe p x).treatments = b.treatments := by cases p <;> rfl

@[simp] theorem Bridge.setProbe_groups (b : Bridge) (p : ProbeId) (x : Probe) : (b.setProbe p x).groups = b.groups := by cases p <;> rfl

@[simp] theorem Bridge.setProbe_store (b : Bridge) (p : ProbeId) (x : Probe) : (b.setProbe p x).store = b.store := by cases p <;> rfl

@[simp] theorem Bridge.setProbe_check (b : Bridge) (p : ProbeId) (x : Probe) : (b.setProbe p x).check = b.check := by cases p <;> rfl

@[simp] theorem Bridge.setProbe_trip (b : Bridge) (p : ProbeId) (x : Probe) : (b.setProbe p x).trip = b.trip := by cases p <;> rfl

@[simp] theorem Bridge.setProbe_events (b : Bridge) (p : ProbeId) (x : Probe) : (b.setProbe p x).events = b.events := by cases p <;> rfl

@[simp] theorem Bridge.setProbe_eventsLost (b : Bridge) (p : ProbeId) (x : Probe) : (b.setProbe p x).eventsLost = b.eventsLost := by cases p <;> rfl

@[simp] theorem Bridge.setProbe_timeBase (b : Bridge) (p : ProbeId) (x : Probe) : (b.setProbe p x).timeBase = b.timeBase := by cases p <;> rfl

@[simp] theorem Bridge.setProbe_choices (b : Bridge) (p : ProbeId) (x : Probe) : (b.setProbe p x).choices = b.choices := by cases p <;> rfl

@[simp] theorem Bridge.setProbe_choiceCount (b : Bridge) (p : ProbeId) (x : Probe) : (b.setProbe p x).choiceCount = b.choiceCount := by cases p <;> rfl

@[simp] theorem Bridge.append_release (b : Bridge) (e : Event) : (b.append e).release = b.release := by
  unfold Bridge.append; split <;> rfl

@[simp] theorem Bridge.append_tracker (b : Bridge) (e : Event) : (b.append e).tracker = b.tracker := by
  unfold Bridge.append; split <;> rfl

@[simp] theorem Bridge.append_stations (b : Bridge) (e : Event) : (b.append e).stations = b.stations := by
  unfold Bridge.append; split <;> rfl

@[simp] theorem Bridge.append_mask (b : Bridge) (e : Event) : (b.append e).mask = b.mask := by
  unfold Bridge.append; split <;> rfl

@[simp] theorem Bridge.append_treatments (b : Bridge) (e : Event) : (b.append e).treatments = b.treatments := by
  unfold Bridge.append; split <;> rfl

@[simp] theorem Bridge.append_groups (b : Bridge) (e : Event) : (b.append e).groups = b.groups := by
  unfold Bridge.append; split <;> rfl

@[simp] theorem Bridge.append_store (b : Bridge) (e : Event) : (b.append e).store = b.store := by
  unfold Bridge.append; split <;> rfl

@[simp] theorem Bridge.append_probe1 (b : Bridge) (e : Event) : (b.append e).probe1 = b.probe1 := by
  unfold Bridge.append; split <;> rfl

@[simp] theorem Bridge.append_probe2 (b : Bridge) (e : Event) : (b.append e).probe2 = b.probe2 := by
  unfold Bridge.append; split <;> rfl

@[simp] theorem Bridge.append_check (b : Bridge) (e : Event) : (b.append e).check = b.check := by
  unfold Bridge.append; split <;> rfl

@[simp] theorem Bridge.append_trip (b : Bridge) (e : Event) : (b.append e).trip = b.trip := by
  unfold Bridge.append; split <;> rfl

@[simp] theorem Bridge.append_timeBase (b : Bridge) (e : Event) : (b.append e).timeBase = b.timeBase := by
  unfold Bridge.append; split <;> rfl

@[simp] theorem Bridge.append_choices (b : Bridge) (e : Event) : (b.append e).choices = b.choices := by
  unfold Bridge.append; split <;> rfl

@[simp] theorem Bridge.append_choiceCount (b : Bridge) (e : Event) : (b.append e).choiceCount = b.choiceCount := by
  unfold Bridge.append; split <;> rfl

end Sys2Proof.Machine
end

