-- ==== Sys2Proof/Laws/Ops.lean ====
section
/-! SUPPORT. What each table access and each shared operation does, in one lemma each: reading after an update, posting
an event, sending a trip cause, free choices, membership. -/

namespace Sys2Proof.Machine

/-! ## Reading after an update -/

@[simp] theorem Bridge.station_setStation (b : Bridge) (i j : StationIx) (x : Option Station) :
    (b.setStation i x).station j = if i = j then x else b.station j := by
  simp [Bridge.station, Bridge.setStation, Vector.getElem_set, Fin.ext_iff]

@[simp] theorem Bridge.station_mapStations (b : Bridge) (f : StationIx → Station → Station) (i : StationIx) :
    (b.mapStations f).station i = (b.station i).map (f i) := by
  simp [Bridge.station, Bridge.mapStations]

@[simp] theorem Bridge.station_mapMembers (b : Bridge) (g : GroupIx) (f : StationIx → Station → Station)
    (i : StationIx) :
    (b.mapMembers g f).station i = (b.station i).map fun st => if st.config.group = some g then f i st else st := by
  simp [Bridge.mapMembers]

@[simp] theorem Bridge.group_setGroup (b : Bridge) (g h : GroupIx) (x : DriveGroup) :
    (b.setGroup g x).group h = if g = h then x else b.group h := by
  simp [Bridge.group, Bridge.setGroup, Vector.getElem_set, Fin.ext_iff]

@[simp] theorem Bridge.group_modifyGroup (b : Bridge) (g h : GroupIx) (f : DriveGroup → DriveGroup) :
    (b.modifyGroup g f).group h = if g = h then f (b.group g) else b.group h := by
  simp [Bridge.modifyGroup]

@[simp] theorem Bridge.group_mapGroups (b : Bridge) (f : GroupIx → DriveGroup → DriveGroup) (g : GroupIx) :
    (b.mapGroups f).group g = f g (b.group g) := by
  simp [Bridge.group, Bridge.mapGroups]

@[simp] theorem Bridge.probe_setProbe (b : Bridge) (p q : ProbeId) (x : Probe) :
    (b.setProbe p x).probe q = if p = q then x else b.probe q := by
  cases p <;> cases q <;> rfl

/-! ## Tables that depend on one field only -/

theorem Bridge.station_congr {b c : Bridge} (h : c.stations = b.stations) (i : StationIx) :
    c.station i = b.station i := by
  simp [Bridge.station, h]

theorem Bridge.group_congr {b c : Bridge} (h : c.groups = b.groups) (g : GroupIx) : c.group g = b.group g := by
  simp [Bridge.group, h]

@[simp] theorem Bridge.station_setGroup (b : Bridge) (g : GroupIx) (x : DriveGroup) (i : StationIx) :
    (b.setGroup g x).station i = b.station i := rfl

@[simp] theorem Bridge.station_modifyGroup (b : Bridge) (g : GroupIx) (f : DriveGroup → DriveGroup) (i : StationIx) :
    (b.modifyGroup g f).station i = b.station i := rfl

@[simp] theorem Bridge.station_mapGroups (b : Bridge) (f : GroupIx → DriveGroup → DriveGroup) (i : StationIx) :
    (b.mapGroups f).station i = b.station i := by
  simp [Bridge.station]

@[simp] theorem Bridge.station_setProbe (b : Bridge) (p : ProbeId) (x : Probe) (i : StationIx) :
    (b.setProbe p x).station i = b.station i := by
  cases p <;> rfl

@[simp] theorem Bridge.station_append (b : Bridge) (e : Event) (i : StationIx) :
    (b.append e).station i = b.station i := by
  simp [Bridge.station]

@[simp] theorem Bridge.group_setStation (b : Bridge) (i : StationIx) (x : Option Station) (g : GroupIx) :
    (b.setStation i x).group g = b.group g := rfl

@[simp] theorem Bridge.group_mapStations (b : Bridge) (f : StationIx → Station → Station) (g : GroupIx) :
    (b.mapStations f).group g = b.group g := by
  simp [Bridge.group]

@[simp] theorem Bridge.group_mapMembers (b : Bridge) (g : GroupIx) (f : StationIx → Station → Station) (h : GroupIx) :
    (b.mapMembers g f).group h = b.group h := by
  simp [Bridge.group]

@[simp] theorem Bridge.group_setProbe (b : Bridge) (p : ProbeId) (x : Probe) (g : GroupIx) :
    (b.setProbe p x).group g = b.group g := by
  cases p <;> rfl

@[simp] theorem Bridge.group_append (b : Bridge) (e : Event) (g : GroupIx) : (b.append e).group g = b.group g := by
  simp [Bridge.group]

@[simp] theorem Bridge.probe_setStation (b : Bridge) (i : StationIx) (x : Option Station) (p : ProbeId) :
    (b.setStation i x).probe p = b.probe p := by
  cases p <;> rfl

@[simp] theorem Bridge.probe_mapStations (b : Bridge) (f : StationIx → Station → Station) (p : ProbeId) :
    (b.mapStations f).probe p = b.probe p := by
  cases p <;> simp [Bridge.probe]

@[simp] theorem Bridge.probe_mapMembers (b : Bridge) (g : GroupIx) (f : StationIx → Station → Station) (p : ProbeId) :
    (b.mapMembers g f).probe p = b.probe p := by
  cases p <;> simp [Bridge.probe]

@[simp] theorem Bridge.probe_setGroup (b : Bridge) (g : GroupIx) (x : DriveGroup) (p : ProbeId) :
    (b.setGroup g x).probe p = b.probe p := by
  cases p <;> rfl

@[simp] theorem Bridge.probe_modifyGroup (b : Bridge) (g : GroupIx) (f : DriveGroup → DriveGroup) (p : ProbeId) :
    (b.modifyGroup g f).probe p = b.probe p := by
  cases p <;> rfl

@[simp] theorem Bridge.probe_append (b : Bridge) (e : Event) (p : ProbeId) : (b.append e).probe p = b.probe p := by
  cases p <;> simp [Bridge.probe]

/-- Membership reads the Station Table only. -/
theorem Bridge.isMember_congr {b c : Bridge} (g : GroupIx) (i : StationIx)
    (h : (c.station i).map (fun st => st.config.group) = (b.station i).map (fun st => st.config.group)) :
    c.isMember g i = b.isMember g i := by
  unfold Bridge.isMember
  cases hb : b.station i <;> cases hc : c.station i <;> simp_all

theorem Bridge.members_congr {b c : Bridge} (g : GroupIx)
    (h : ∀ i, (c.station i).map (fun st => st.config.group) = (b.station i).map (fun st => st.config.group)) :
    c.members g = b.members g :=
  List.filter_congr fun i _ => Bridge.isMember_congr g i (h i)

/-! ## Events -/

/-- An event posted while there is room stands at the tail (R174). -/
theorem Bridge.append_room (b : Bridge) (e : Event) (h : b.events.length < 64) :
    (b.append e).events = b.events ++ [e] ∧ (b.append e).eventsLost = b.eventsLost := by
  simp [Bridge.append, Config.eventCapacity, h]

/-- An event posted to a full queue is discarded (R175). -/
theorem Bridge.append_full (b : Bridge) (e : Event) (h : ¬b.events.length < 64) :
    b.append e = { b with eventsLost := true } := by
  simp [Bridge.append, Config.eventCapacity, h]

theorem Bridge.append_bound (b : Bridge) (e : Event) (h : b.events.length ≤ 64) :
    (b.append e).events.length ≤ 64 := by
  by_cases r : b.events.length < 64
  · simp [(b.append_room e r).1]; omega
  · simpa [b.append_full e r] using h

/-! ## Posted events (R174, R175) -/

theorem Posted.refl (b : Bridge) (h : b.events.length ≤ 64) : Posted b b [] := by
  unfold Posted
  simp [List.take_of_length_le h, Nat.not_lt.mpr h]

theorem Posted.append (b : Bridge) (e : Event) (h : b.events.length ≤ 64) : Posted b (b.append e) [e] := by
  unfold Posted
  by_cases r : b.events.length < 64
  · obtain ⟨h1, h2⟩ := b.append_room e r
    rw [h1, h2]
    refine ⟨(List.take_of_length_le (by simp; omega)).symm, ?_⟩
    simp; omega
  · rw [b.append_full e r]
    have hl : b.events.length = 64 := by omega
    refine ⟨?_, by simp; omega⟩
    simp [← hl]

/-- Where the Event Queue is left as it was, nothing has been posted. -/
theorem Posted.same {b c : Bridge} (h1 : c.events = b.events) (h2 : c.eventsLost = b.eventsLost)
    (h : b.events.length ≤ 64) : ∃ es, Posted b c es :=
  ⟨[], by unfold Posted; rw [h1, h2]; exact Posted.refl b h⟩

/-- Events are counted on the bridge's queue alone. -/
theorem Posted.congr {b c b' c' : Bridge} {es : List Event} (h : Posted b c es) (h1 : b'.events = b.events)
    (h2 : b'.eventsLost = b.eventsLost) (h3 : c'.events = c.events) (h4 : c'.eventsLost = c.eventsLost) :
    Posted b' c' es := by
  unfold Posted at *
  rw [h1, h2, h3, h4]
  exact h

theorem Posted.length {b c : Bridge} {es : List Event} (h : Posted b c es) : c.events.length ≤ 64 := by
  rw [h.1]
  simp

theorem Posted.trans {a b c : Bridge} {es fs : List Event} (h : Posted a b es) (k : Posted b c fs) :
    Posted a c (es ++ fs) := by
  unfold Posted at *
  obtain ⟨h1, h2⟩ := h
  obtain ⟨k1, k2⟩ := k
  rw [k1, k2, h1, h2]
  constructor
  · rw [← List.append_assoc]
    by_cases e : (a.events ++ es).length ≤ 64
    · rw [List.take_of_length_le e]
    · have e' : 64 ≤ (a.events ++ es).length := by omega
      rw [List.take_append_of_le_length (by simp only [List.length_take]; omega),
        List.take_append_of_le_length e', List.take_take]
      rfl
  · rw [Bool.or_assoc]
    congr 1
    by_cases e : 64 < a.events.length + es.length
    · simp only [List.length_append, e, decide_true, Bool.true_or]
      exact (decide_eq_true (by omega)).symm
    · simp only [e, decide_false, Bool.false_or, List.length_append, List.length_take]
      rw [Nat.min_eq_right (by omega), ← Nat.add_assoc]

/-! ## Free choices -/

/-- A choice is of one of the things there are, and it changes only the tape. -/
theorem Bridge.choose_spec (b : Bridge) (n : Nat) (h : 0 < n) :
    (b.choose n).1 < n ∧ ∃ cs k, (b.choose n).2 = { b with choices := cs, choiceCount := k } := by
  unfold Bridge.choose
  split
  · exact ⟨h, b.choices, b.choiceCount, rfl⟩
  · refine ⟨Nat.mod_lt _ h, b.nextChoice.2.choices, b.nextChoice.2.choiceCount, ?_⟩
    unfold Bridge.nextChoice
    cases b.choices <;> rfl

/-- Whatever each act keeps, and the drawing of a choice, acts in a free order keep. -/
theorem inFreeOrder_induction {α σ : Type} [DecidableEq α] (P : σ → Prop) (ready : List α → α → Bool)
    (draw : Nat → σ → Nat × σ) (act : α → σ → σ) (hd : ∀ n s, P s → P (draw n s).2) (ha : ∀ a s, P s → P (act a s)) :
    ∀ n rest s, P s → P (inFreeOrder ready draw act n rest s) := by
  intro n
  induction n with
  | zero => intro rest s h; exact h
  | succ n ih =>
    intro rest s h
    unfold inFreeOrder
    simp only
    split
    · exact ih _ _ (ha _ _ (hd _ _ h))
    · exact h

/-- Whatever each act of a list keeps, and the drawing of a choice, acts of that list in a free order keep. -/
theorem inFreeOrder_members {α σ : Type} [DecidableEq α] (P : σ → Prop) (ready : List α → α → Bool)
    (draw : Nat → σ → Nat × σ) (act : α → σ → σ) (hd : ∀ n s, P s → P (draw n s).2) (all : List α)
    (ha : ∀ a s, a ∈ all → P s → P (act a s)) :
    ∀ n rest {s}, (∀ a ∈ rest, a ∈ all) → P s → P (inFreeOrder ready draw act n rest s) := by
  intro n
  induction n with
  | zero => intro rest s _ h; exact h
  | succ n ih =>
    intro rest s hs h
    unfold inFreeOrder
    simp only
    split
    · rename_i a ha'
      have hmem : a ∈ rest := (List.mem_filter.mp (List.mem_of_getElem? ha')).1
      exact ih _ (fun x hx => hs x (List.mem_of_mem_erase hx)) (ha _ _ (hs _ hmem) (hd _ _ h))
    · exact h

/-- Every act is taken exactly once, and only while it is ready: what holds with all acts still to be taken, and what
each act and each drawing of a choice keeps as the acts that are left become fewer, holds with none left. -/
theorem inFreeOrder_all {α σ : Type} [DecidableEq α] (P : List α → σ → Prop) (ready : List α → α → Bool)
    (draw : Nat → σ → Nat × σ) (act : α → σ → σ) (bound : ∀ n s, 0 < n → (draw n s).1 < n)
    (hd : ∀ n rest s, P rest s → P rest (draw n s).2) (hr : ∀ rest s, P rest s → rest ≠ [] → ∃ a ∈ rest, ready rest a = true)
    (ha : ∀ rest a s, a ∈ rest → ready rest a = true → P rest s → P (rest.erase a) (act a s)) :
    ∀ n rest s, rest.length = n → P rest s → P [] (inFreeOrder ready draw act n rest s) := by
  intro n
  induction n with
  | zero =>
    intro rest s hn h
    rw [List.length_eq_zero_iff] at hn
    subst hn
    exact h
  | succ n ih =>
    intro rest s hn h
    have hne : rest ≠ [] := by rintro rfl; cases hn
    obtain ⟨a, ha1, ha2⟩ := hr rest s h hne
    have hpos : 0 < (rest.filter (ready rest)).length :=
      List.length_pos_of_mem (List.mem_filter.mpr ⟨ha1, ha2⟩)
    have hlt := bound (rest.filter (ready rest)).length s hpos
    have hget := List.getElem?_eq_getElem hlt
    have hmem := List.mem_filter.mp (List.getElem_mem hlt)
    unfold inFreeOrder
    simp only [hget]
    refine ih _ _ ?_ (ha _ _ _ hmem.1 hmem.2 (hd _ _ _ h))
    rw [List.length_erase_of_mem hmem.1, hn]
    rfl

/-- A free choice is below the number of things chosen from. -/
theorem Bridge.choose_lt (b : Bridge) (n : Nat) (h : 0 < n) : (b.choose n).1 < n := (b.choose_spec n h).1

/-- A free choice changes only the tape. -/
theorem Bridge.choose_eq (b : Bridge) (n : Nat) :
    (b.choose n).2 = { b with choices := (b.choose n).2.choices, choiceCount := (b.choose n).2.choiceCount } := by
  unfold Bridge.choose
  split
  · rfl
  · unfold Bridge.nextChoice
    cases b.choices <;> rfl

end Sys2Proof.Machine
end

