-- ==== Sys2Proof/Laws/Frame.lean ====
section
/-! SUPPORT. What the work of the Group Controller, the Probe Arbiter and the closes leaves as it was: one relation and one
lemma for each operation. -/

namespace Sys2Proof.Machine

theorem Station.core_group {st st' : Station} (h : st'.core = st.core) : st'.config.group = st.config.group := by
  have k : st'.core.config.group = st.core.config.group := by rw [h]
  exact k

theorem Station.core_run {st st' : Station} (h : st'.core = st.core) :
    st'.run.mark = st.run.mark ∧ st'.run.latch = st.run.latch ∧ st'.run.fresh = st.run.fresh ∧
      st'.run.late = st.run.late ∧ st'.run.overrun = st.run.overrun ∧ st'.run.lastSent = st.run.lastSent ∧
      st'.run.counter = st.run.counter ∧ st'.run.validity = st.run.validity := by
  have h2 := congrArg Station.run h
  simp only [Station.core, StationRun.mk.injEq] at h2
  exact ⟨h2.1, h2.2.1, h2.2.2.1, h2.2.2.2.1, h2.2.2.2.2.1, h2.2.2.2.2.2.1, h2.2.2.2.2.2.2.1, h2.2.2.2.2.2.2.2.1⟩

/-! ## The order of condition flags -/

theorem Conditions.le_refl (c : Conditions) : c.le c := by
  simp [Conditions.le, Conditions.union]

theorem Conditions.le_trans {c d e : Conditions} (h : c.le d) (k : d.le e) : c.le e := by
  simp only [Conditions.le, Conditions.union] at *
  rw [← k, ← h]
  simp [Bool.or_assoc]

theorem Conditions.le_union (c d : Conditions) : c.le (c.union d) := by
  simp only [Conditions.le, Conditions.union]
  simp

/-! ## Bounds -/

theorem clampAbs_bound (l : Nat) (v : Int) : (clampAbs l v).natAbs ≤ l := by
  unfold clampAbs clampTo
  split
  · omega
  · split <;> omega

theorem leakyStep_bound (l h n : Nat) (t c : Bool) (hl : l + h ≤ 250) (hn : n ≤ 250) :
    (leakyStep l h n t c).1 ≤ 250 := by
  unfold leakyStep
  split
  · split <;> simp only <;> omega
  · simp only; omega

theorem UnchangedOrGranted.trans {x y z : DriveGroup} (h : UnchangedOrGranted x y) (k : UnchangedOrGranted y z) :
    UnchangedOrGranted x z := by
  rcases h with rfl | ⟨hw, rfl⟩
  · exact k
  · rcases k with rfl | ⟨kw, _⟩
    · exact Or.inr ⟨hw, rfl⟩
    · cases kw

/-- What the Group Controller's work leaves of the bridge: the fields that belong to other blocks, the entries up to
`Station.core`, the group records, the latched flags that were set, the events posted before, and the bounds of the
alarm counters, the trims and the probes. `S` says which groups are worked on; the others are unchanged or granted a probe. -/
structure GroupWork (S : GroupIx → Prop) (b c : Bridge) : Prop where
  release : c.release = b.release
  tracker : c.tracker = b.tracker
  mask : c.mask = b.mask
  treatments : c.treatments = b.treatments
  store : c.store = b.store
  check : c.check = b.check
  timeBase : c.timeBase = b.timeBase
  console : c.trip.console = b.trip.console
  runaway : c.trip.runaway = b.trip.runaway
  stations : ∀ i, (c.station i).map Station.core = (b.station i).map Station.core
  latched : ∀ i x y, b.station i = some x → c.station i = some y → x.run.latched.le y.run.latched
  records : ∀ g, (c.group g).record = (b.group g).record
  masters : ∀ g, (c.group g).masterRef = (b.group g).masterRef
  posts : b.events.length ≤ 64 → ∃ es, Posted b c es
  counted : (∀ g, (b.group g).Counted) → ∀ g, (c.group g).Counted
  trims : b.TrimsSound → c.TrimsSound
  probes : b.ProbesSound → c.ProbesSound
  others : ∀ g, ¬S g → UnchangedOrGranted (b.group g) (c.group g)

namespace GroupWork

variable {S : GroupIx → Prop}

theorem mono {T : GroupIx → Prop} {b c : Bridge} (h : GroupWork S b c) (k : ∀ g, S g → T g) : GroupWork T b c :=
  { h with others := fun g n => h.others g fun s => n (k g s) }

/-- Work that leaves the stations, the groups, the probes and the Event Queue. -/
theorem ofSame (b c : Bridge) (release : c.release = b.release) (tracker : c.tracker = b.tracker)
    (mask : c.mask = b.mask) (treatments : c.treatments = b.treatments) (store : c.store = b.store)
    (check : c.check = b.check) (timeBase : c.timeBase = b.timeBase) (console : c.trip.console = b.trip.console)
    (runaway : c.trip.runaway = b.trip.runaway) (stations : ∀ i, c.station i = b.station i)
    (groups : ∀ g, c.group g = b.group g) (probes : ∀ p, c.probe p = b.probe p)
    (posts : b.events.length ≤ 64 → ∃ es, Posted b c es) : GroupWork S b c where
  release := release
  tracker := tracker
  mask := mask
  treatments := treatments
  store := store
  check := check
  timeBase := timeBase
  console := console
  runaway := runaway
  stations i := by rw [stations]
  latched i x y hx hy := by
    rw [stations, hx, Option.some.injEq] at hy
    rw [hy]
    exact Conditions.le_refl _
  records g := by rw [groups]
  masters g := by rw [groups]
  posts := posts
  counted h g := by rw [groups]; exact h g
  trims h i st g hs hg := by rw [groups]; exact h i st g ((stations i).symm.trans hs) hg
  probes h p := by rw [probes]; exact h p
  others g _ := Or.inl (groups g)

theorem refl (b : Bridge) : GroupWork S b b :=
  ofSame b b rfl rfl rfl rfl rfl rfl rfl rfl rfl (fun _ => rfl) (fun _ => rfl) (fun _ => rfl) (Posted.same rfl rfl)

/-- The Event Queue keeps its bound. -/
theorem events {b c : Bridge} (h : GroupWork S b c) (e : b.events.length ≤ 64) : c.events.length ≤ 64 := by
  obtain ⟨es, k⟩ := h.posts e
  exact k.length

/-- An entry that is BOUND after the work was BOUND before it, with the same core. -/
theorem before {b c : Bridge} (h : GroupWork S b c) {i : StationIx} {y : Station} (hy : c.station i = some y) :
    ∃ x, b.station i = some x ∧ y.core = x.core ∧ x.run.latched.le y.run.latched := by
  have hs := h.stations i
  rw [hy] at hs
  cases hb : b.station i with
  | none => rw [hb] at hs; exact absurd hs (by simp)
  | some x =>
    rw [hb] at hs
    exact ⟨x, rfl, Option.some.inj hs, h.latched i x y hb hy⟩

/-- An entry that is BOUND before the work is BOUND after it, with the same core. -/
theorem after {b c : Bridge} (h : GroupWork S b c) {i : StationIx} {x : Station} (hx : b.station i = some x) :
    ∃ y, c.station i = some y ∧ y.core = x.core ∧ x.run.latched.le y.run.latched := by
  have hs := h.stations i
  rw [hx] at hs
  cases hc : c.station i with
  | none => rw [hc] at hs; exact absurd hs (by simp)
  | some y =>
    rw [hc] at hs
    exact ⟨y, rfl, Option.some.inj hs, h.latched i x y hx hc⟩

theorem trans {a b c : Bridge} (h : GroupWork S a b) (k : GroupWork S b c) : GroupWork S a c where
  release := k.release.trans h.release
  tracker := k.tracker.trans h.tracker
  mask := k.mask.trans h.mask
  treatments := k.treatments.trans h.treatments
  store := k.store.trans h.store
  check := k.check.trans h.check
  timeBase := k.timeBase.trans h.timeBase
  console := k.console.trans h.console
  runaway := k.runaway.trans h.runaway
  stations i := (k.stations i).trans (h.stations i)
  latched i x z hx hz := by
    obtain ⟨y, hy, _, l⟩ := k.before hz
    exact Conditions.le_trans (h.latched i x y hx hy) l
  records g := (k.records g).trans (h.records g)
  masters g := (k.masters g).trans (h.masters g)
  posts e := by
    obtain ⟨es, he⟩ := h.posts e
    obtain ⟨fs, hf⟩ := k.posts he.length
    exact ⟨es ++ fs, he.trans hf⟩
  counted e := k.counted (h.counted e)
  trims e := k.trims (h.trims e)
  probes e := k.probes (h.probes e)
  others g n := (h.others g n).trans (k.others g n)

theorem setGroup (b : Bridge) (g : GroupIx) (x : DriveGroup) (h : x.record = (b.group g).record)
    (hm : x.masterRef = (b.group g).masterRef) (hc : (b.group g).Counted → x.Counted) : GroupWork (· = g) b (b.setGroup g x) where
  release := rfl
  tracker := rfl
  mask := rfl
  treatments := rfl
  store := rfl
  check := rfl
  timeBase := rfl
  console := rfl
  runaway := rfl
  stations _ := rfl
  latched i x y hx hy := by
    rw [Bridge.station_setGroup, hx, Option.some.injEq] at hy
    rw [hy]
    exact Conditions.le_refl _
  records k := by
    by_cases e : g = k
    · subst e; simp [h]
    · simp [e]
  masters k := by
    by_cases e : g = k
    · subst e; simp [hm]
    · simp [e]
  posts := Posted.same rfl rfl
  counted hs k := by
    by_cases e : g = k
    · subst e; simpa using hc (hs g)
    · simpa [e] using hs k
  trims hs i st k hi hk := by
    have := hs i st k hi hk
    by_cases e : g = k
    · subst e; simpa [h] using this
    · simpa [e] using this
  probes hs p := by simpa using hs p
  others k n := Or.inl (by simp [Ne.symm n])

/-- A change of a group that leaves its record, its master reference and its alarm counter. -/
theorem modifyGroup (b : Bridge) (g : GroupIx) (f : DriveGroup → DriveGroup)
    (h : (f (b.group g)).record = (b.group g).record) (hm : (f (b.group g)).masterRef = (b.group g).masterRef)
    (hc : (f (b.group g)).alarmCounter = (b.group g).alarmCounter) :
    GroupWork (· = g) b (b.modifyGroup g f) :=
  setGroup b g _ h hm fun k => ⟨by rw [h]; exact k.limit, by rw [h]; exact k.total, by rw [hc]; exact k.counter, by rw [h]; exact k.plan⟩

theorem setProbe (b : Bridge) (p : ProbeId) (x : Probe) (h : (b.probe p).Sound → x.Sound) :
    GroupWork S b (b.setProbe p x) := by
  have k : b.ProbesSound → (b.setProbe p x).ProbesSound := fun hs q => by
    by_cases e : p = q
    · subst e; simpa using h (hs p)
    · simpa [e] using hs q
  have l : ∀ i y z, b.station i = some y → (b.setProbe p x).station i = some z → y.run.latched.le z.run.latched :=
    fun i y z hy hz => by
      rw [Bridge.station_setProbe, hy, Option.some.injEq] at hz
      rw [hz]
      exact Conditions.le_refl _
  have t : b.TrimsSound → (b.setProbe p x).TrimsSound := fun hs i st g hi hg => by
    rw [Bridge.station_setProbe] at hi
    simpa using hs i st g hi hg
  have r : (∀ g, (b.group g).Counted) → ∀ g, ((b.setProbe p x).group g).Counted := fun hs g => by simpa using hs g
  cases p <;>
    exact ⟨rfl, rfl, rfl, rfl, rfl, rfl, rfl, rfl, rfl, fun _ => rfl, l, fun _ => rfl, fun _ => rfl, Posted.same rfl rfl, r, t, k,
      fun _ _ => Or.inl rfl⟩

theorem append (b : Bridge) (e : Event) : GroupWork S b (b.append e) := by
  refine ofSame _ _ ?_ ?_ ?_ ?_ ?_ ?_ ?_ ?_ ?_ (fun i => ?_) (fun g => ?_) (fun p => ?_) fun h => ⟨_, Posted.append b e h⟩ <;> simp

theorem post (b : Bridge) (k : EventKind) (g : Option GroupIx) (i : Option StationIx) (st : Option Nat)
    (t : Option Byte) (c : Option Cause) : GroupWork S b (b.post k g i st t c) := append b _

theorem postGroup (b : Bridge) (k : EventKind) (g : GroupIx) (st : Option Nat) (c : Option Cause)
    (i : Option StationIx) : GroupWork S b (b.postGroup k g st c i) := append b _

/-- A change of every member that its `core` does not see, that clears no latched flag and that keeps the trims within
the group's trim limit. -/
theorem mapMembers (b : Bridge) (g : GroupIx) (f : StationIx → Station → Station)
    (h : ∀ i st, (f i st).core = st.core) (hl : ∀ i (st : Station), st.run.latched.le (f i st).run.latched)
    (ht : ∀ i (st : Station), st.run.trim.natAbs ≤ (b.group g).record.trimLimit →
      (f i st).run.trim.natAbs ≤ (b.group g).record.trimLimit) : GroupWork S b (b.mapMembers g f) where
  release := by simp
  tracker := by simp
  mask := by simp
  treatments := by simp
  store := by simp
  check := by simp
  timeBase := by simp
  console := by simp
  runaway := by simp
  stations i := by
    simp only [Bridge.station_mapMembers, Option.map_map]
    congr 1
    funext st
    by_cases e : st.config.group = some g <;> simp [e, h]
  latched i x y hx hy := by
    rw [Bridge.station_mapMembers, hx] at hy
    simp only [Option.map_some, Option.some.injEq] at hy
    rw [← hy]
    split
    · exact hl i x
    · exact Conditions.le_refl _
  records k := by simp
  masters k := by simp
  posts := Posted.same (by simp) (by simp)
  counted hs k := by simpa using hs k
  trims hs i st k hi hk := by
    rw [Bridge.station_mapMembers] at hi
    cases hb : b.station i with
    | none => rw [hb] at hi; exact absurd hi (by simp)
    | some x =>
      rw [hb] at hi
      simp only [Option.map_some, Option.some.injEq] at hi
      rw [Bridge.group_mapMembers]
      by_cases e : x.config.group = some g
      · rw [if_pos e] at hi
        have hg := Station.core_group (h i x)
        rw [hi, hk, e, Option.some.injEq] at hg
        rw [← hi, hg]
        exact ht i x (hs i x g hb e)
      · rw [if_neg e] at hi
        rw [← hi] at hk ⊢
        exact hs i x k hb hk
  probes hs p := by simpa using hs p
  others k _ := Or.inl (by simp)

theorem setChoices (b : Bridge) (n : Nat) : GroupWork S b { b with choiceCount := n } :=
  ofSame _ _ rfl rfl rfl rfl rfl rfl rfl rfl rfl (fun _ => rfl) (fun _ => rfl) (fun p => by cases p <;> rfl) (Posted.same rfl rfl)

theorem choose (b : Bridge) (n : Nat) : GroupWork S b (b.choose n).2 := by
  unfold Bridge.choose
  split
  · exact refl b
  · unfold Bridge.nextChoice
    cases b.choices <;>
      exact ofSame _ _ rfl rfl rfl rfl rfl rfl rfl rfl rfl (fun _ => rfl) (fun _ => rfl) (fun p => by cases p <;> rfl) (Posted.same rfl rfl)

theorem sendStage (b : Bridge) : GroupWork S b (b.sendTrip .stage) := by
  unfold Bridge.sendTrip
  split
  · exact ofSame _ _ rfl rfl rfl rfl rfl rfl rfl rfl rfl (fun _ => rfl) (fun _ => rfl) (fun p => by cases p <;> rfl) (Posted.same rfl rfl)
  · have h := post (S := S) b .tripOpened none none none none (some .stage)
    exact ofSame _ _ h.release h.tracker h.mask h.treatments h.store h.check h.timeBase rfl rfl
      (fun i => b.station_append _ i) (fun g => b.group_append _ g) (fun p => b.probe_append _ p) h.posts

/-! ## Probes -/

theorem grant (b : Bridge) (p : ProbeId) (g : GroupIx) : GroupWork (· = g) b (b.grant p g) := by
  unfold Bridge.grant
  split
  · exact (setProbe b p _ fun _ => ⟨by simp [startedProbe], by simp [startedProbe]⟩).trans (modifyGroup _ g _ rfl rfl rfl)
  · exact refl b

theorem claim (b : Bridge) (g : GroupIx) : GroupWork (· = g) b (b.claim g) := by
  unfold Bridge.claim
  split
  · exact grant b _ g
  · split
    · exact grant b _ g
    · exact modifyGroup b g _ rfl rfl rfl

/-- The arbiter's grant to a group that waits is work on no group in particular. -/
theorem grantWaiting (b : Bridge) (p : ProbeId) (g : GroupIx) (h : (b.group g).waiting = true) :
    GroupWork S b (b.grant p g) :=
  { grant b p g with
    others := fun k n => by
      by_cases e : k = g
      · subst e
        unfold Bridge.grant
        split
        · exact Or.inr ⟨h, by simp⟩
        · exact Or.inl rfl
      · exact (grant b p g).others k e }

theorem probeFreed (b : Bridge) (p : ProbeId) : GroupWork S b (b.probeFreed p) := by
  unfold Bridge.probeFreed
  split
  · rename_i g h
    exact grantWaiting b p g (by simpa using List.find?_some h)
  · exact refl b

theorem endRun (b : Bridge) (p : ProbeId) (c : Cause) (h : (b.probe p).state ≠ .idle) :
    GroupWork S b (b.endRun p c) := by
  have k : GroupWork S b (b.setProbe p { b.probe p with state := .done, result := some (b.probeResult p c) }) :=
    setProbe b p _ fun k => ⟨⟨fun e => absurd (k.owner.mp e) h, fun e => absurd e (by simp)⟩, fun _ => k.station h⟩
  unfold Bridge.endRun
  simp only
  split
  · exact ((k.trans (setChoices _ _)).trans (post _ _ _ _ _ _ _)).trans (probeFreed _ _)
  · exact k.trans (setChoices _ _)

theorem cancelRun (b : Bridge) (p : ProbeId) : GroupWork S b (b.cancelRun p) :=
  (setProbe b p _ fun _ => ⟨by simp, by simp⟩).trans (setChoices _ _)

theorem idleProbe (b : Bridge) (p : ProbeId) : GroupWork S b (b.idleProbe p) :=
  setProbe b p _ fun _ => ⟨by simp, by simp⟩

theorem releaseProbe (b : Bridge) (g : GroupIx) : GroupWork (· = g) b (b.releaseProbe g) := by
  unfold Bridge.releaseProbe
  have h := modifyGroup b g (fun x => { x with waiting := false }) rfl rfl rfl
  simp only
  split
  · exact h
  · split
    · exact h.trans ((cancelRun _ _).trans (probeFreed _ _))
    · exact h.trans ((idleProbe _ _).trans (probeFreed _ _))

theorem endSubWindow (b : Bridge) (p : ProbeId) (h : (b.probe p).state ≠ .idle) : GroupWork S b (b.endSubWindow p) := by
  unfold Bridge.endSubWindow
  simp only
  split
  · exact refl b
  · split
    · exact setProbe b p _ fun k => ⟨k.owner, k.station⟩
    · exact endRun b p _ h

theorem probeClose (b : Bridge) (p : ProbeId) (r : CloseRecord) : GroupWork S b (b.probeClose p r) := by
  unfold Bridge.probeClose
  simp only
  split
  · rename_i h
    have h1 : (b.probe p).state ≠ .idle := by rw [h.1]; simp
    split
    · exact endRun b p _ h1
    · split
      · refine GroupWork.trans (setProbe b p _ ?_) (endSubWindow _ p ?_)
        · exact fun k => ⟨k.owner, k.station⟩
        · simpa using h1
      · exact refl b
  · exact refl b

/-! ## Faults, entries and ends -/

theorem enterFault (b : Bridge) (g : GroupIx) (c : Cause) (s : FaultSub) (i : Option StationIx) (st : Option Nat) :
    GroupWork (· = g) b (b.enterFault g c s i st) := by
  unfold Bridge.enterFault
  simp only
  refine GroupWork.trans (GroupWork.trans ?_ (postGroup _ _ g _ _ _)) (releaseProbe _ g)
  exact setGroup b g _ rfl rfl fun k => ⟨k.limit, k.total, k.counter, k.plan⟩

theorem fault (b : Bridge) (g : GroupIx) (c : Cause) (s : FaultSub) (i : Option StationIx) :
    GroupWork (· = g) b (b.fault g c s i) := enterFault b g c s i _

theorem bypass (b : Bridge) (c : Cause) (i : Option StationIx) (g : GroupIx) : GroupWork (· = g) b (b.bypass c i g) := by
  unfold Bridge.bypass
  split
  · exact fault b g c _ i
  · exact refl b

theorem foldGroups (f : Bridge → GroupIx → Bridge) (h : ∀ b g, GroupWork S b (f b g)) (gs : List GroupIx) (b : Bridge) :
    GroupWork S b (gs.foldl f b) := by
  induction gs generalizing b with
  | nil => exact refl b
  | cons g gs ih => exact (h b g).trans (ih _)

theorem bypassAll (b : Bridge) (c : Cause) : GroupWork (fun _ => True) b (b.bypassAll c) :=
  foldGroups _ (fun b g => (bypass b c none g).mono fun _ _ => trivial) _ b

theorem becomeDone (b : Bridge) (g : GroupIx) : GroupWork (· = g) b (b.becomeDone g) :=
  (modifyGroup b g _ rfl rfl rfl).trans (postGroup _ _ g _ _ _)

theorem seedTrims (b : Bridge) (g : GroupIx) : GroupWork S b (b.seedTrims g) :=
  mapMembers b g _ (fun _ _ => rfl) (fun _ _ => Conditions.le_refl _) fun _ _ _ => clampAbs_bound _ _

theorem recordEntry (b : Bridge) (g : GroupIx) (r : StageRecord) : GroupWork (· = g) b (b.recordEntry g r) := by
  unfold Bridge.recordEntry
  split
  · exact modifyGroup b g _ rfl rfl rfl
  · exact refl b

theorem seedWhen (b : Bridge) (g : GroupIx) (p : Bool) : GroupWork S b (b.seedWhen g p) := by
  unfold Bridge.seedWhen
  split
  · exact seedTrims b g
  · exact refl b

theorem beginStage (b : Bridge) (g : GroupIx) (i : Nat) (x y : Bool) : GroupWork (· = g) b (b.beginStage g i x y) := by
  unfold Bridge.beginStage
  simp only
  exact (((((modifyGroup b g _ rfl rfl rfl).trans (postGroup _ _ g _ _ _)).trans (modifyGroup _ g _ rfl rfl rfl)).trans
    (seedWhen _ g _)).trans (recordEntry _ g _)).trans (modifyGroup _ g _ rfl rfl rfl)

theorem enterStage (b : Bridge) (g : GroupIx) (i : Nat) : GroupWork (· = g) b (b.enterStage g i) := by
  unfold Bridge.enterStage
  split
  · exact enterFault b g _ _ _ _
  · exact beginStage b g i _ _

theorem takeExcursion (b : Bridge) (g : GroupIx) (t : Nat) (c : Cause) (i : Option StationIx) :
    GroupWork (· = g) b (b.takeExcursion g t c i) := by
  unfold Bridge.takeExcursion
  split
  · exact (((modifyGroup b g _ rfl rfl rfl).trans (releaseProbe _ g)).trans (postGroup _ _ g _ _ _)).trans (enterStage _ g t)
  · exact refl b

theorem resettle (b : Bridge) (g : GroupIx) : GroupWork (· = g) b (b.resettle g) := by
  unfold Bridge.resettle
  exact modifyGroup b g _ rfl rfl rfl

theorem deferExcursion (b : Bridge) (g : GroupIx) (t : Nat) (c : Cause) (i : Option StationIx) :
    GroupWork (· = g) b (b.deferExcursion g t c i) := by
  unfold Bridge.deferExcursion
  split
  · exact fault b g _ _ i
  · simp only
    split
    · exact ((modifyGroup b g _ rfl rfl rfl).trans (postGroup _ _ g _ _ _)).trans (resettle _ g)
    · exact (modifyGroup b g _ rfl rfl rfl).trans (postGroup _ _ g _ _ _)
  · exact refl b

theorem takeFaultAction (b : Bridge) (g : GroupIx) (c : Cause) (i : Option StationIx) :
    GroupWork (· = g) b (b.takeFaultAction g c i) := by
  unfold Bridge.takeFaultAction
  simp only
  split
  · exact refl b
  · exact fault b g c _ i
  · exact (fault b g c _ i).trans (sendStage _)
  · split
    · exact fault b g c _ i
    · split
      · exact refl b
      · split
        · exact takeExcursion b g _ c i
        · exact deferExcursion b g _ c i

theorem resume (b : Bridge) (g : GroupIx) (f : StackFrame) (rest : List StackFrame) :
    GroupWork (· = g) b (b.resume g f rest) := by
  unfold Bridge.resume
  simp only
  refine GroupWork.trans (GroupWork.trans (GroupWork.trans ?_ (recordEntry _ g _)) (seedWhen _ g _))
    (postGroup _ _ g _ _ _)
  exact modifyGroup b g _ rfl rfl rfl

theorem returnTo (b : Bridge) (g : GroupIx) (f : StackFrame) (rest : List StackFrame) :
    GroupWork (· = g) b (b.returnTo g f rest) := by
  unfold Bridge.returnTo
  simp only
  split
  · exact (resume b g f rest).trans (takeFaultAction _ g _ _)
  · exact resume b g f rest

theorem endWithReturn (b : Bridge) (g : GroupIx) : GroupWork (· = g) b (b.endWithReturn g) := by
  unfold Bridge.endWithReturn
  split
  · exact ((modifyGroup b g _ rfl rfl rfl).trans (postGroup _ _ g _ _ _)).trans (enterStage _ g _)
  · exact returnTo b g _ _
  · exact refl b

theorem endStage (b : Bridge) (g : GroupIx) : GroupWork (· = g) b (b.endStage g) := by
  unfold Bridge.endStage
  split
  · exact refl b
  · simp only
    split
    · split
      · exact (postGroup b _ g _ _ _).trans (becomeDone _ g)
      · exact (postGroup b _ g _ _ _).trans (enterStage _ g _)
    · exact (postGroup b _ g _ _ _).trans (becomeDone _ g)
    · exact (postGroup b _ g _ _ _).trans (endWithReturn _ g)
    · exact postGroup b _ g _ _ _

/-! ## Progress and the unwind -/

theorem takeSettle (b : Bridge) (g : GroupIx) : GroupWork (· = g) b (b.takeSettle g).1 := by
  unfold Bridge.takeSettle
  simp only
  split
  · exact setGroup b g _ rfl rfl fun k => ⟨k.limit, k.total, k.counter, k.plan⟩
  · exact setGroup b g _ rfl rfl fun k => ⟨k.limit, k.total, k.counter, k.plan⟩

theorem takeDwell (b : Bridge) (g : GroupIx) : GroupWork (· = g) b (b.takeDwell g).1 := setGroup b g _ rfl rfl fun k => ⟨k.limit, k.total, k.counter, k.plan⟩

theorem setPhase (b : Bridge) (g : GroupIx) (p : Phase) : GroupWork (· = g) b (b.setPhase g p) := modifyGroup b g _ rfl rfl rfl

theorem rampTo (b : Bridge) (g : GroupIx) (t : Int) (r : Nat) : GroupWork (· = g) b (b.rampTo g t r) := modifyGroup b g _ rfl rfl rfl

theorem takeBlend (b : Bridge) (g : GroupIx) : GroupWork (· = g) b (b.takeBlend g).1 := setGroup b g _ rfl rfl fun k => ⟨k.limit, k.total, k.counter, k.plan⟩

theorem progressRamp (b : Bridge) (g : GroupIx) : GroupWork (· = g) b (b.progressRamp g) := by
  unfold Bridge.progressRamp
  simp only
  split
  · split
    · exact (rampTo b g _ _).trans (setPhase _ g _)
    · exact rampTo b g _ _
  · exact refl b

theorem progressDwell (b : Bridge) (g : GroupIx) : GroupWork (· = g) b (b.progressDwell g) := by
  unfold Bridge.progressDwell
  simp only
  split
  · split
    · exact (takeDwell b g).trans (setPhase _ g _)
    · exact takeDwell b g
  · split
    · split
      · exact (takeDwell b g).trans (endStage _ g)
      · exact takeDwell b g
    · split
      · exact (takeDwell b g).trans (setPhase _ g _)
      · exact takeDwell b g
    · split
      · exact (takeSettle b g).trans (endStage _ g)
      · exact takeSettle b g
    · exact refl b
    · exact refl b

theorem progressFall (b : Bridge) (g : GroupIx) : GroupWork (· = g) b (b.progressFall g) := by
  unfold Bridge.progressFall
  split
  · simp only
    split
    · exact (rampTo b g _ _).trans (endStage _ g)
    · exact rampTo b g _ _
  · exact refl b

theorem progressSettling (b : Bridge) (g : GroupIx) : GroupWork (· = g) b (b.progressSettling g) := by
  unfold Bridge.progressSettling
  simp only
  split
  · split
    · split
      · exact (takeSettle b g).trans (claim _ g)
      · exact takeSettle b g
    · exact rampTo b g _ _
  · exact refl b

theorem learnOffsets (b : Bridge) (g : GroupIx) : GroupWork S b (b.learnOffsets g) :=
  mapMembers b g _ (fun _ _ => rfl) (fun _ _ => Conditions.le_refl _) fun _ _ h => h

theorem judgeProbe (b : Bridge) (g : GroupIx) (p : Bool) : GroupWork (· = g) b (b.judgeProbe g p) := by
  unfold Bridge.judgeProbe
  split
  · exact ((learnOffsets b g).trans (postGroup _ _ g _ _ _)).trans (endStage _ g)
  · split
    · exact (modifyGroup b g _ rfl rfl rfl).trans (resettle _ g)
    · exact takeFaultAction b g _ _

theorem progressProbing (b : Bridge) (g : GroupIx) : GroupWork (· = g) b (b.progressProbing g) := by
  unfold Bridge.progressProbing
  split
  · exact resettle b g
  · simp only
    split
    · exact ((idleProbe b _).trans (probeFreed _ _)).trans (judgeProbe _ g _)
    · exact refl b

theorem progressBlend (b : Bridge) (g : GroupIx) : GroupWork (· = g) b (b.progressBlend g) := by
  unfold Bridge.progressBlend
  split
  · simp only
    split
    · exact ((rampTo b g _ _).trans (takeBlend _ g)).trans (endStage _ g)
    · exact (rampTo b g _ _).trans (takeBlend _ g)
  · exact refl b

theorem progress (b : Bridge) (g : GroupIx) : GroupWork (· = g) b (b.progress g) := by
  unfold Bridge.progress
  split
  · exact progressRamp b g
  · exact progressRamp b g
  · exact progressDwell b g
  · exact progressFall b g
  · exact progressSettling b g
  · exact progressProbing b g
  · exact progressBlend b g
  · exact refl b
  · exact refl b
  · exact refl b

theorem endUnwind (b : Bridge) (g : GroupIx) : GroupWork (· = g) b (b.endUnwind g) := by
  unfold Bridge.endUnwind
  split
  · exact modifyGroup b g _ rfl rfl rfl
  · exact (postGroup b _ g _ _ _).trans (modifyGroup _ g _ rfl rfl rfl)

theorem unwindStep (b : Bridge) (g : GroupIx) : GroupWork (· = g) b (b.unwindStep g) := by
  unfold Bridge.unwindStep
  simp only
  split
  · exact ((rampTo b g _ _).trans (takeBlend _ g)).trans (endUnwind _ g)
  · exact (rampTo b g _ _).trans (takeBlend _ g)

theorem stageProgress (b : Bridge) (g : GroupIx) (l : List StationIx) (a : Bool) :
    GroupWork (· = g) b (b.stageProgress g l a) := by
  unfold Bridge.stageProgress
  simp only
  split
  · exact takeFaultAction b g _ _
  · split
    · exact takeFaultAction b g _ _
    · split
      · exact progress b g
      · exact refl b
  · split
    · exact unwindStep b g
    · exact refl b

/-! ## Closes -/

theorem evaluateShares (b : Bridge) (g : GroupIx) (c : CycleNo) : GroupWork (· = g) b (b.evaluateShares g c) :=
  setGroup b g _ rfl rfl fun k => ⟨k.limit, k.total, k.counter, k.plan⟩

theorem updateTrims (b : Bridge) (g : GroupIx) : GroupWork S b (b.updateTrims g) := by
  unfold Bridge.updateTrims
  simp only
  split
  · refine mapMembers b g _ (fun i st => ?_) (fun i st => ?_) fun i st h => ?_
    · cases ShareResult.judgement _ i <;> rfl
    · cases ShareResult.judgement _ i <;> exact Conditions.le_refl _
    · cases ShareResult.judgement _ i
      · exact h
      · exact clampAbs_bound _ _
  · exact refl b

theorem recordLeader (b : Bridge) (g : GroupIx) (c : CycleNo) : GroupWork (· = g) b (b.recordLeader g c) := by
  unfold Bridge.recordLeader
  split
  · exact setGroup b g _ rfl rfl fun k => ⟨k.limit, k.total, k.counter, k.plan⟩
  · exact refl b

theorem deliver (b : Bridge) (g : GroupIx) (d : Bool) (l : List StationIx) : GroupWork (· = g) b (b.deliver g d l) := by
  unfold Bridge.deliver
  simp only
  refine GroupWork.trans ?_
    (mapMembers _ g _ (fun _ _ => rfl) (fun _ (st : Station) => Conditions.le_union st.run.latched _) fun _ _ h => h)
  exact setGroup b g _ rfl rfl fun k => ⟨k.limit, k.total, k.counter, k.plan⟩

theorem judgeGroup (b : Bridge) (g : GroupIx) (c : CycleNo) : GroupWork (· = g) b (b.judgeGroup g c).1 := by
  unfold Bridge.judgeGroup
  simp only
  refine (((GroupWork.trans ?_ (evaluateShares _ g c)).trans (updateTrims _ g)).trans (recordLeader _ g c)).trans
    (deliver _ g _ _)
  exact modifyGroup b g _ rfl rfl rfl

theorem alarmStep (b : Bridge) (g : GroupIx) : GroupWork (· = g) b (b.alarmStep g) :=
  setGroup b g _ rfl rfl fun k => ⟨k.limit, k.total, leakyStep_bound _ _ _ _ _ k.total k.counter, k.plan⟩

theorem groupClose (b : Bridge) (g : GroupIx) (c : CycleNo) : GroupWork (· = g) b (b.groupClose g c) :=
  ((judgeGroup b g c).trans (alarmStep _ g)).trans (stageProgress _ g _ _)

theorem groupTransition (b : Bridge) (g : GroupIx) (r : CloseRecord) : GroupWork (· = g) b (b.groupTransition g r) := by
  unfold Bridge.groupTransition
  split
  · split
    · exact takeFaultAction b g _ _
    · exact refl b
  · exact bypass b _ _ g
  · exact refl b
  · exact refl b

theorem countClose (b : Bridge) (g : GroupIx) (r : CloseRecord) : GroupWork (· = g) b (b.countClose g r) := by
  unfold Bridge.countClose
  split
  · exact refl b
  · split
    · simp only
      split
      · exact (modifyGroup b g _ rfl rfl rfl).trans (groupClose _ g _)
      · exact modifyGroup b g _ rfl rfl rfl
    · exact refl b

theorem groupReceives (b : Bridge) (g : GroupIx) (r : CloseRecord) : GroupWork (· = g) b (b.groupReceives g r) :=
  (groupTransition b g r).trans (countClose _ g r)

theorem leaveGroup (b : Bridge) (g : GroupIx) (i : StationIx) : GroupWork (· = g) b (b.leaveGroup g i) := by
  unfold Bridge.leaveGroup
  split
  · exact refl b
  · simp only
    split
    · exact (modifyGroup b g _ rfl rfl rfl).trans (groupClose _ g _)
    · exact modifyGroup b g _ rfl rfl rfl

end GroupWork

/-- What the free choices, the group's reception and the probes' closes keep is kept by the hand-on of a close. -/
theorem Bridge.handOn_induction (P : Bridge → Prop) (r : CloseRecord) (o : Option GroupIx)
    (hd : ∀ b n, P b → P (b.choose n).2) (hg : ∀ b g, o = some g → P b → P (b.groupReceives g r))
    (hp : ∀ b p, P b → P (b.probeClose p r)) {b : Bridge} (h : P b) : P (b.handOn r o) := by
  have hsub : ∀ a ∈ b.recipients r o, ∀ k, a = .group k → o = some k := by
    intro a ha k hk
    subst hk
    simp only [Bridge.recipients, List.mem_append, List.mem_map, Option.mem_toList] at ha
    rcases ha with ⟨x, hx, hxk⟩ | ⟨x, _, hxk⟩
    · cases hxk; exact hx
    · cases hxk
  unfold Bridge.handOn
  refine inFreeOrder_members (σ := Bridge × List ProbeId) (fun c => P c.1) _ _ _ (fun n s k => hd s.1 n k) _
    (fun a s hm k => ?_) _ _ (fun a ha => ha) h
  cases a with
  | group k' => exact hg s.1 k' (hsub _ hm k' rfl) k
  | probe p =>
    show P (if p ∈ s.2 then s.1.probeClose p r else s.1)
    split
    · exact hp s.1 p k
    · exact k

/-- The hand-on of a close works on the station's group. -/
theorem GroupWork.handOn (b : Bridge) (r : CloseRecord) (g : Option GroupIx) :
    GroupWork (fun k => g = some k) b (b.handOn r g) :=
  Bridge.handOn_induction (fun c => GroupWork _ b c) r g (fun s n h => h.trans (choose s n))
    (fun s k hk h => h.trans ((groupReceives s k r).mono fun j e => by rw [e]; exact hk))
    (fun s p h => h.trans (probeClose s p r)) (refl b)

end Sys2Proof.Machine
end

