-- ==== Sys2Proof/Laws/Services.lean ====
section
/-! SUPPORT. What admission and a taken Request do, in one lemma each, and what an operand list that decodes or does not
decode makes of a service. -/

namespace Sys2Proof.Machine

/-! ## Admission -/

theorem State.takes_iff (s : State) : s.takes = true ↔ s.held = false ∧ s.link.waitingReplies < 4 := by
  simp [State.takes]

theorem State.offer_of_takes {s : State} (h : s.takes = true) (f : State → State) : s.offer f = f s := by
  obtain ⟨h1, h2⟩ := s.takes_iff.mp h
  simp [State.offer, h1, Config.replyCapacity, Nat.not_le.mpr h2]

theorem State.offer_of_held {s : State} (h : s.held = true) (f : State → State) : s.offer f = s := by
  simp [State.offer, h]

/-- With four Replies waiting only REQUEST_DISCARDED changes (R169). -/
theorem State.offer_of_full {s : State} (h : s.held = false) (h4 : 4 ≤ s.link.waitingReplies) (f : State → State) :
    s.offer f = { s with link := { s.link with requestDiscarded := ⟨true, false⟩ } } := by
  simp [State.offer, h, Config.replyCapacity, h4, State.withLink, PortFlag.latch]

/-- What holds of the state, of the state that discards the Request and of the state that takes it holds after
admission. -/
theorem State.offer_induction {s : State} {f : State → State} (P : State → Prop) (h0 : P s) (h1 : s.takes = true → P (f s))
    (h2 : P (s.withLink { s.link with requestDiscarded := ⟨true, false⟩ })) : P (s.offer f) := by
  cases hh : s.held with
  | true => rw [State.offer_of_held hh]; exact h0
  | false =>
    by_cases h4 : 4 ≤ s.link.waitingReplies
    · rw [State.offer_of_full hh h4]; exact h2
    · have ht : s.takes = true := s.takes_iff.mpr ⟨hh, by omega⟩
      rw [State.offer_of_takes ht]
      exact h1 ht

/-! ## A taken Request -/

theorem State.serve_of_takes {s : State} (h : s.takes = true) (src tag code : Byte) (f : Service) :
    s.serve src tag code f = s.replied src tag code (f s.bridge).1 (f s.bridge).2 :=
  State.offer_of_takes h _

theorem State.serve_keeps (s : State) (src tag code : Byte) (f : Service) :
    (s.serve src tag code f).pending = s.pending ∧ (s.serve src tag code f).strapA = s.strapA ∧
      (s.serve src tag code f).strapB = s.strapB ∧ (s.serve src tag code f).address = s.address ∧
      (s.serve src tag code f).resetAsserted = s.resetAsserted ∧
      (s.serve src tag code f).resetPending = s.resetPending :=
  State.offer_induction (fun t : State => t.pending = s.pending ∧ t.strapA = s.strapA ∧ t.strapB = s.strapB ∧
    t.address = s.address ∧ t.resetAsserted = s.resetAsserted ∧ t.resetPending = s.resetPending)
    ⟨rfl, rfl, rfl, rfl, rfl, rfl⟩ (fun _ => ⟨rfl, rfl, rfl, rfl, rfl, rfl⟩) ⟨rfl, rfl, rfl, rfl, rfl, rfl⟩

/-- The bridge a service leaves is its own where it is taken, and the one before otherwise. -/
theorem State.serve_bridge {s : State} {src tag code : Byte} {f : Service} (P : Bridge → Prop) (h0 : P s.bridge)
    (h1 : P (f s.bridge).2) : P (s.serve src tag code f).bridge :=
  State.offer_induction (fun t : State => P t.bridge) h0 (fun _ => h1) h0

theorem withOperands_some {α : Type} {read : Reader α} {operands : List Byte} {a : α}
    (h : decodeOperands read operands = some a) (f : α → Service) : withOperands read operands f = f a := by
  unfold withOperands
  rw [h]

theorem withOperands_none {α : Type} {read : Reader α} {operands : List Byte}
    (h : decodeOperands read operands = none) (f : α → Service) :
    withOperands read operands f = refuse .badOperand := by
  unfold withOperands
  rw [h]

/-- What every service with decoded operands keeps of the bridge, the service with any operands keeps. -/
theorem withOperands_keeps {α : Type} {read : Reader α} {operands : List Byte} {f : α → Service} {b : Bridge}
    (P : Bridge → Prop) (h0 : P b) (h1 : ∀ a, decodeOperands read operands = some a → P (f a b).2) :
    P (withOperands read operands f b).2 := by
  cases h : decodeOperands read operands with
  | some a => rw [withOperands_some h]; exact h1 a h
  | none => rw [withOperands_none h]; exact h0

/-! ## The Reply (R8, R9, R171) -/

theorem Answer.bytes_eq (a : Answer) :
    a.bytes = match a with
      | .done fields => [1#8, 0#8] ++ fields
      | .accepted fields => [2#8, 0#8] ++ fields
      | .refused code detail => [3#8, BitVec.ofNat 8 code.code] ++ detail := by
  rcases a with f | f | ⟨c, d⟩
  · rfl
  · rfl
  · cases c <;> rfl

/-- A Reply waits, or is sent at once by an IDLE transmitter. -/
theorem Link.sendReply_eq {l : Link} (h : l.Sound) (f : LocalFrame) :
    l.sendReply f =
      if l.lineTx = none then { l with lineTx := some (.own f), lastTaken := .own }
      else { l with localQueue := l.localQueue ++ [f] } := by
  unfold Link.sendReply Link.kick
  cases hl : l.lineTx with
  | some x => simp
  | none =>
    obtain ⟨h1, h2⟩ := h.lineIdle hl
    simp only [Link.chooseLine, h1, h2, List.nil_append, Link.takeOwn, ite_true]

/-- A frame for the line port waits, is sent at once, or is lost with UP_CONGESTION (R7, R9). -/
theorem Link.sendUp_eq {l : Link} (h : l.Sound) (f : Frame) :
    l.sendUp f =
      if 16 ≤ l.forwardQueue.length then { l with upCongestion := ⟨true, false⟩ }
      else if l.lineTx = none then { l with lineTx := some (.forwarded f), lastTaken := .forward }
      else { l with forwardQueue := l.forwardQueue ++ [f] } := by
  unfold Link.sendUp Link.kick
  by_cases h16 : 16 ≤ l.forwardQueue.length
  · simp [Config.forwardCapacity, Nat.not_lt.mpr h16, h16, PortFlag.latch]
  · simp only [Config.forwardCapacity, Nat.not_le.mp h16, ite_true, h16, ite_false]
    cases hl : l.lineTx with
    | some x => simp
    | none =>
      obtain ⟨h1, h2⟩ := h.lineIdle hl
      simp only [Link.chooseLine, h1, h2, List.nil_append, Link.takeForward, ite_true]

/-- A Status frame takes the place of one that waits, or is sent at once (R8, R9). -/
theorem Link.sendStatus_eq {l : Link} (h : l.Sound) (f : Frame) :
    l.sendStatus f =
      if l.lineTx = none then { l with lineTx := some (.own (.status f)), lastTaken := .own }
      else { l with localQueue := (l.localQueue.filter fun x => !x.isStatus) ++ [.status f] } := by
  unfold Link.sendStatus Link.kick
  cases hl : l.lineTx with
  | some x => simp
  | none =>
    obtain ⟨h1, h2⟩ := h.lineIdle hl
    simp only [Link.chooseLine, h1, h2, List.filter_nil, List.nil_append, Link.takeOwn, ite_true]

/-- A frame for the drive port is sent at once, waits, or is lost with DOWN_CONGESTION (R6). -/
theorem Link.sendDown_eq (l : Link) (f : Frame) :
    l.sendDown f =
      if l.driveTx = none then { l with driveTx := some f }
      else if l.driveQueue.length < 8 then { l with driveQueue := l.driveQueue ++ [f] }
      else { l with downCongestion := ⟨true, false⟩ } := by
  unfold Link.sendDown
  cases l.driveTx <;> simp [Config.driveCapacity, PortFlag.latch]

end Sys2Proof.Machine
end

