-- ==== Sys2Proof/Laws/Closes.lean ====
section
/-! SUPPORT. What a station close, the intake of a Feedback Frame and the acts of a Cycle Frame arrival leave, in one lemma
each. -/

namespace Sys2Proof.Machine

/-! ## Events and the trip cause RUNAWAY -/

/-- A posted event changes nothing but the Event Queue. -/
theorem Bridge.append_eq (b : Bridge) (e : Event) :
    b.append e = { b with events := (b.append e).events, eventsLost := (b.append e).eventsLost } := by
  unfold Bridge.append
  split <;> rfl

theorem Bridge.postValidity_eq (b : Bridge) (i : StationIx) (g : Option GroupIx) (t : Option Validity) :
    b.postValidity i g t =
        { b with events := (b.postValidity i g t).events, eventsLost := (b.postValidity i g t).eventsLost } ∧
      (b.events.length ≤ 64 → (b.postValidity i g t).events.length ≤ 64) := by
  unfold Bridge.postValidity Bridge.post
  split
  · exact ⟨b.append_eq _, b.append_bound _⟩
  · exact ⟨b.append_eq _, b.append_bound _⟩
  · exact ⟨b.append_eq _, b.append_bound _⟩
  · exact ⟨rfl, id⟩

theorem Bridge.sendRunaway_eq (b : Bridge) :
    b.sendTrip .runaway =
        { b with
          trip := { b.trip with runaway := true }, events := (b.sendTrip .runaway).events
          eventsLost := (b.sendTrip .runaway).eventsLost } ∧
      (b.events.length ≤ 64 → (b.sendTrip .runaway).events.length ≤ 64) := by
  unfold Bridge.sendTrip Bridge.post
  split
  · exact ⟨rfl, id⟩
  · refine ⟨?_, b.append_bound _⟩
    conv_lhs => rw [b.append_eq]
    rfl

/-! ## The station close (R26, R42) -/

/-- A station close writes the entry's runtime record, may post its event and send RUNAWAY, and hands the
completed close on. -/
theorem Bridge.stationClose_eq {b : Bridge} {i : StationIx} {st : Station} (h : b.station i = some st) (cycle : CycleNo)
    (boundary : Bool) :
    ∃ m : Bridge,
      m =
        { b.setStation i (some { st with run := st.run.closed st.config boundary }) with
          events := m.events, eventsLost := m.eventsLost, trip := m.trip } ∧
      m.trip.console = b.trip.console ∧ m.trip.stage = b.trip.stage ∧
      (m.trip.runaway = true ↔ b.trip.runaway = true ∨
        transitionOf st.run.validity (st.run.closed st.config boundary).validity = some .fatal) ∧
      (b.events.length ≤ 64 → m.events.length ≤ 64) ∧
      b.stationClose i cycle boundary =
        m.handOn (closeRecord i cycle st.run (st.run.closed st.config boundary)) st.config.group := by
  generalize hn : b.setStation i (some { st with run := st.run.closed st.config boundary }) = n
  have hev : n.events = b.events := by rw [← hn]; rfl
  have htr : n.trip = b.trip := by rw [← hn]; rfl
  obtain ⟨hp1, hp2⟩ := n.postValidity_eq i st.config.group
    (transitionOf st.run.validity (st.run.closed st.config boundary).validity)
  have hc : b.stationClose i cycle boundary =
      (if (closeRecord i cycle st.run (st.run.closed st.config boundary)).transition = some .fatal then
        (n.postValidity i st.config.group
          (closeRecord i cycle st.run (st.run.closed st.config boundary)).transition).sendTrip .runaway
      else n.postValidity i st.config.group
          (closeRecord i cycle st.run (st.run.closed st.config boundary)).transition).handOn
        (closeRecord i cycle st.run (st.run.closed st.config boundary)) st.config.group := by
    unfold Bridge.stationClose
    rw [h, ← hn]
  rw [hc]
  have ht : (closeRecord i cycle st.run (st.run.closed st.config boundary)).transition =
      transitionOf st.run.validity (st.run.closed st.config boundary).validity := rfl
  rw [ht]
  generalize transitionOf st.run.validity (st.run.closed st.config boundary).validity = v at hp1 hp2 ⊢
  generalize n.postValidity i st.config.group v = q at hp1 hp2 ⊢
  have e1 : q.trip = b.trip := by rw [hp1]; exact htr
  by_cases hf : v = some .fatal
  · rw [if_pos hf]
    obtain ⟨hs1, hs2⟩ := q.sendRunaway_eq
    generalize q.sendTrip .runaway = w at hs1 hs2 ⊢
    have hw : w.trip = { b.trip with runaway := true } := by rw [hs1, e1]
    refine ⟨w, ?_, by rw [hw], by rw [hw], by rw [hw]; simp [hf], fun e => hs2 (hp2 (by rw [hev]; exact e)), rfl⟩
    rw [hw, ← e1]
    conv_lhs => rw [hs1, hp1]
    rw [hp1]
  · rw [if_neg hf]
    refine ⟨q, ?_, by rw [e1], by rw [e1], by rw [e1]; simp [hf], fun e => hp2 (by rw [hev]; exact e), rfl⟩
    conv_lhs => rw [hp1]
    rw [e1, ← htr]

/-! ## A group that runs no plan and does not unwind -/

theorem DriveGroup.inactive_iff (x : DriveGroup) : x.active = false ↔ x.inPlan = false ∧ x.unwinds = false := by
  simp [DriveGroup.active]

theorem DriveGroup.active_congr {x y : DriveGroup} (h : y.runState = x.runState) : y.active = x.active := by
  simp [DriveGroup.active, DriveGroup.inPlan, DriveGroup.isRunning, DriveGroup.isHeld, DriveGroup.unwinds, h]

theorem UnchangedOrGranted.runState {x y : DriveGroup} (h : UnchangedOrGranted x y) : y.runState = x.runState := by
  rcases h with rfl | ⟨_, rfl⟩ <;> rfl

/-- The judging of a close changes the share runtime of its group only. -/
theorem Bridge.judgeGroup_group (b : Bridge) (g : GroupIx) (c : CycleNo) :
    let x := b.group g
    let y := (b.judgeGroup g c).1.group g
    y =
        { x with
          pendingSet := none, forming := [], roster := x.takeRoster.roster
          shareResult := some ((b.modifyGroup g DriveGroup.takeRoster).shareResult g c), closedLeader := y.closedLeader
          draw := y.draw, shareSuspended := y.shareSuspended } ∧
      ∀ k, k ≠ g → (b.judgeGroup g c).1.group k = b.group k := by
  intro x y
  have hu : ∀ b : Bridge, ∀ k, (b.updateTrims g).group k = b.group k := by
    intro b k
    unfold Bridge.updateTrims
    simp only
    split <;> simp
  have hl : ∀ b : Bridge, (b.recordLeader g c).group g =
        { b.group g with closedLeader := ((b.recordLeader g c).group g).closedLeader } ∧
      ∀ k, k ≠ g → (b.recordLeader g c).group k = b.group k := by
    intro b
    unfold Bridge.recordLeader
    split
    · exact ⟨by simp, fun k n => by simp [Ne.symm n]⟩
    · exact ⟨rfl, fun _ _ => rfl⟩
  have hd : ∀ (b : Bridge) d l, (b.deliver g d l).group g =
        { b.group g with
          draw := ((b.deliver g d l).group g).draw, shareSuspended := ((b.deliver g d l).group g).shareSuspended } ∧
      ∀ k, k ≠ g → (b.deliver g d l).group k = b.group k := by
    intro b d l
    unfold Bridge.deliver
    exact ⟨by simp, fun k n => by simp [Ne.symm n]⟩
  have he : ∀ b : Bridge, (b.evaluateShares g c).group g = { b.group g with shareResult := some (b.shareResult g c) } ∧
      ∀ k, k ≠ g → (b.evaluateShares g c).group k = b.group k := by
    intro b
    unfold Bridge.evaluateShares
    exact ⟨by simp, fun k n => by simp [Ne.symm n]⟩
  have hy : y = (b.judgeGroup g c).1.group g := rfl
  constructor
  · unfold Bridge.judgeGroup at hy
    simp only at hy
    rw [(hd _ _ _).1] at hy
    rw [(hl _).1, hu, (he _).1] at hy
    rw [hy]
    simp [DriveGroup.takeRoster, x]
  · intro k n
    unfold Bridge.judgeGroup
    simp only
    rw [(hd _ _ _).2 k n, (hl _).2 k n, hu, (he _).2 k n]
    simp [Ne.symm n]

/-- The judging of a close leaves the probes. -/
theorem Bridge.judgeGroup_probe (b : Bridge) (g : GroupIx) (c : CycleNo) (p : ProbeId) :
    (b.judgeGroup g c).1.probe p = b.probe p := by
  have hu : ∀ b : Bridge, (b.updateTrims g).probe p = b.probe p := by
    intro b
    unfold Bridge.updateTrims
    simp only
    split <;> simp
  have hl : ∀ b : Bridge, (b.recordLeader g c).probe p = b.probe p := by
    intro b
    unfold Bridge.recordLeader
    split <;> simp
  have hd : ∀ (b : Bridge) d l, (b.deliver g d l).probe p = b.probe p := by
    intro b d l
    unfold Bridge.deliver
    simp
  have he : ∀ b : Bridge, (b.evaluateShares g c).probe p = b.probe p := by
    intro b
    unfold Bridge.evaluateShares
    simp
  unfold Bridge.judgeGroup
  simp only
  rw [hd, hl, hu, he]
  simp

/-- Step 7 of R54 does nothing to a group that runs no plan and does not unwind. -/
theorem Bridge.stageProgress_inactive (b : Bridge) (g : GroupIx) (l : List StationIx) (a : Bool)
    (h : (b.group g).active = false) : b.stageProgress g l a = b := by
  obtain ⟨h1, h2⟩ := (b.group g).inactive_iff.mp h
  unfold Bridge.stageProgress
  simp [h1, h2]

/-- The close of a group that runs no plan and does not unwind is steps 1 to 6 of R54. -/
theorem Bridge.groupClose_inactive (b : Bridge) (g : GroupIx) (c : CycleNo) (h : (b.group g).active = false) :
    b.groupClose g c = (b.judgeGroup g c).1.alarmStep g := by
  unfold Bridge.groupClose
  simp only
  apply Bridge.stageProgress_inactive
  have hr : (((b.judgeGroup g c).1.alarmStep g).group g).runState = (b.group g).runState := by
    unfold Bridge.alarmStep
    simp only [Bridge.group_setGroup, ite_true]
    rw [(b.judgeGroup_group g c).1]
  rw [DriveGroup.active_congr hr]
  exact h

theorem Bridge.groupTransition_inactive (b : Bridge) (g : GroupIx) (r : CloseRecord) (h : (b.group g).active = false) :
    b.groupTransition g r = b := by
  obtain ⟨h1, _⟩ := (b.group g).inactive_iff.mp h
  unfold Bridge.groupTransition Bridge.bypass
  split <;> simp [h, h1]

/-- A close record leaves the run state of a group that runs no plan and does not unwind. -/
theorem Bridge.groupReceives_inactive (b : Bridge) (g : GroupIx) (r : CloseRecord) (h : (b.group g).active = false) :
    ((b.groupReceives g r).group g).runState = (b.group g).runState := by
  unfold Bridge.groupReceives
  rw [b.groupTransition_inactive g r h]
  unfold Bridge.countClose
  split
  · rfl
  · split
    · simp only
      split
      · rw [Bridge.groupClose_inactive _ _ _ (by rw [Bridge.group_modifyGroup, if_pos rfl]; exact h)]
        unfold Bridge.alarmStep
        simp only [Bridge.group_setGroup, ite_true]
        rw [(Bridge.judgeGroup_group _ _ _).1]
        simp
      · simp
    · rfl

/-- The hand-on of a close leaves the run state of every group that runs no plan and does not unwind. -/
theorem Bridge.handOn_inactive (b : Bridge) (r : CloseRecord) (o : Option GroupIx) (k : GroupIx)
    (h : (b.group k).active = false) : ((b.handOn r o).group k).runState = (b.group k).runState := by
  refine Bridge.handOn_induction (fun c => (c.group k).runState = (b.group k).runState) r o
    (fun c n e => by rw [c.choose_eq]; exact e) (fun c g _ e => ?_) (fun c p e => ?_) rfl
  · by_cases hg : k = g
    · subst hg
      exact (c.groupReceives_inactive k r (by rw [DriveGroup.active_congr e]; exact h)).trans e
    · exact ((GroupWork.groupReceives c g r).others k hg).runState.trans e
  · exact ((GroupWork.probeClose (S := fun _ => False) c p r).others k id).runState.trans e

/-- A station close leaves the run state of every group that runs no plan and does not unwind. -/
theorem Bridge.stationClose_inactive (b : Bridge) (i : StationIx) (c : CycleNo) (d : Bool) (k : GroupIx)
    (h : (b.group k).active = false) : ((b.stationClose i c d).group k).runState = (b.group k).runState := by
  cases hs : b.station i with
  | none => unfold Bridge.stationClose; rw [hs]
  | some st =>
    obtain ⟨m, hm, _, _, _, _, he⟩ := Bridge.stationClose_eq hs c d
    have hg : m.group k = b.group k := by rw [hm]; rfl
    rw [he, Bridge.handOn_inactive _ _ _ _ (by rw [hg]; exact h), hg]

/-! ## The runtime record a close leaves (R26, R35 to R42) -/

theorem validityStep_stepped (c : StationConfig) (r : StationRun) (p : Conditions) :
    ValidityStepped c r p.quality p.runaway (validityStep c r p).1 (validityStep c r p).2 := by
  unfold ValidityStepped validityStep leakyStep
  cases r.validity <;> cases p.quality <;> cases p.runaway <;> simp
  all_goals (split <;> simp)

theorem surfaceTorque_natAbs (p : Polarity) (v : Int) : (surfaceTorque p v).natAbs = v.natAbs := by
  cases p <;> simp [surfaceTorque, signed]

/-- A close that a current frame causes, with the latch `l` it has brought. -/
theorem StationRun.closed_feedback (c : StationConfig) (r : StationRun) (l : Latch) :
    let q : StationRun := { r with latch := some l, fresh := true, mark := .closed }
    ClosedWith c r l (q.closed c false).present ∧ (q.closed c false).present.fbMissing = false := by
  refine ⟨⟨rfl, rfl, rfl, ?_, rfl, ?_, ?_⟩, rfl⟩
  · simp [StationRun.closed, closeConditions, StationRun.freshLatch, headroomAt, surfaceTorque_natAbs]
  · simp only [StationRun.closed, closeConditions, StationRun.freshLatch, speedDevAt]
    cases r.lastSent <;> simp
  · simp [StationRun.closed, closeConditions, StationRun.freshLatch, runawayAt]

/-- A boundary close of an entry whose latch is not fresh. -/
theorem StationRun.closed_boundary (c : StationConfig) (r : StationRun) (h : r.fresh = false) :
    ClosedAtBoundary r (r.closed c true).present := by
  constructor <;> simp [StationRun.closed, closeConditions, StationRun.freshLatch, h]

theorem StationRun.closed_stepped (c : StationConfig) (r : StationRun) (boundary : Bool) :
    ValidityStepped c r (r.closed c boundary).present.quality (r.closed c boundary).present.runaway
      (r.closed c boundary).counter (r.closed c boundary).validity :=
  validityStep_stepped c r _

/-- A close turns a station FATAL exactly where its state is FATAL after and was not before. -/
theorem transitionOf_fatal (v w : Validity) : transitionOf v w = some .fatal ↔ v ≠ .fatal ∧ w = .fatal := by
  cases v <;> cases w <;> simp [transitionOf]

/-! ## Intake (R21 to R24) -/

/-- The entry a drive address is bound to is the one that holds it. -/
theorem Bridge.boundTo_eq {b : Bridge} (h : b.TableSound) {a : Byte} {i : StationIx} {st : Station}
    (hb : b.Binds a i st) : b.boundTo a = some i := by
  cases hf : b.boundTo a with
  | none =>
    unfold Bridge.boundTo at hf
    rw [List.find?_eq_none] at hf
    have := hf i (List.mem_finRange i)
    rw [hb.1] at this
    simp [hb.2] at this
  | some j =>
    unfold Bridge.boundTo at hf
    have := List.find?_some hf
    cases hj : b.station j with
    | none => rw [hj] at this; simp at this
    | some y =>
      rw [hj] at this
      rw [h.addresses j i y st hj hb.1 (by rw [hb.2]; simpa using this)]

theorem Bridge.boundTo_none {b : Bridge} {a : Byte} (h : ∀ i st, ¬b.Binds a i st) : b.boundTo a = none := by
  unfold Bridge.boundTo
  rw [List.find?_eq_none]
  intro i _
  cases hs : b.station i with
  | none => simp
  | some st => simpa using fun e => h i st ⟨hs, e⟩

/-- An entry found by its drive address holds it. -/
theorem Bridge.binds_of_boundTo {b : Bridge} {a : Byte} {i : StationIx} (h : b.boundTo a = some i) :
    ∃ st, b.Binds a i st := by
  unfold Bridge.boundTo at h
  have := List.find?_some h
  cases hs : b.station i with
  | none => rw [hs] at this; simp at this
  | some st =>
    rw [hs] at this
    exact ⟨st, hs, by simpa using this⟩

/-- The intake of a frame from the station bound at `i`. -/
theorem Bridge.takeFeedback_eq {b : Bridge} (h : b.TableSound) {a : Byte} {i : StationIx} {st : Station}
    (hb : b.Binds a i st) (l : Latch) :
    b.takeFeedback a l =
      let n := b.setStation i (some { st with run := st.run.feedback (decide (b.tracker.cycle = some l.cycle)) l })
      if b.tracker.cycle = some l.cycle ∧ st.run.mark = .isOpen then n.stationClose i l.cycle false else n := by
  unfold Bridge.takeFeedback
  rw [Bridge.boundTo_eq h hb]
  simp only [hb.1, decide_eq_true_eq]

end Sys2Proof.Machine
end

