-- ==== Sys2Proof/Laws/Faults.lean ====
section
/-! SUPPORT. The probe a group gives up, entry into FAULT and the bypass causes: everything each can do, in
one lemma each. -/

namespace Sys2Proof.Machine

/-! ## Grants (R144) and the probe a group gives up (R151) -/

/-- What the arbiter's work and the ends of runs leave: everything but the groups, the probes and the tape. -/
structure ArbiterWork (b c : Bridge) : Prop where
  release : c.release = b.release
  tracker : c.tracker = b.tracker
  stations : c.stations = b.stations
  mask : c.mask = b.mask
  treatments : c.treatments = b.treatments
  store : c.store = b.store
  check : c.check = b.check
  trip : c.trip = b.trip
  events : c.events = b.events
  eventsLost : c.eventsLost = b.eventsLost
  timeBase : c.timeBase = b.timeBase

namespace ArbiterWork

theorem refl (b : Bridge) : ArbiterWork b b := ⟨rfl, rfl, rfl, rfl, rfl, rfl, rfl, rfl, rfl, rfl, rfl⟩

theorem trans {a b c : Bridge} (h : ArbiterWork a b) (k : ArbiterWork b c) : ArbiterWork a c :=
  ⟨k.release.trans h.release, k.tracker.trans h.tracker, k.stations.trans h.stations, k.mask.trans h.mask,
    k.treatments.trans h.treatments, k.store.trans h.store, k.check.trans h.check, k.trip.trans h.trip,
    k.events.trans h.events, k.eventsLost.trans h.eventsLost, k.timeBase.trans h.timeBase⟩

theorem modifyGroup (b : Bridge) (g : GroupIx) (f : DriveGroup → DriveGroup) : ArbiterWork b (b.modifyGroup g f) :=
  ⟨rfl, rfl, rfl, rfl, rfl, rfl, rfl, rfl, rfl, rfl, rfl⟩

theorem setProbe (b : Bridge) (p : ProbeId) (x : Probe) : ArbiterWork b (b.setProbe p x) := by
  cases p <;> exact ⟨rfl, rfl, rfl, rfl, rfl, rfl, rfl, rfl, rfl, rfl, rfl⟩

theorem grant (b : Bridge) (p : ProbeId) (g : GroupIx) : ArbiterWork b (b.grant p g) := by
  unfold Bridge.grant
  split
  · exact (setProbe b p _).trans (modifyGroup _ g _)
  · exact refl b

theorem probeFreed (b : Bridge) (p : ProbeId) : ArbiterWork b (b.probeFreed p) := by
  unfold Bridge.probeFreed
  split
  · exact grant b p _
  · exact refl b

theorem cancelRun (b : Bridge) (p : ProbeId) : ArbiterWork b (b.cancelRun p) := by
  cases p <;> exact ⟨rfl, rfl, rfl, rfl, rfl, rfl, rfl, rfl, rfl, rfl, rfl⟩

theorem idleProbe (b : Bridge) (p : ProbeId) : ArbiterWork b (b.idleProbe p) := setProbe b p _

theorem releaseProbe (b : Bridge) (g : GroupIx) : ArbiterWork b (b.releaseProbe g) := by
  unfold Bridge.releaseProbe
  simp only
  split
  · exact modifyGroup b g _
  · split
    · exact (modifyGroup b g _).trans ((cancelRun _ _).trans (probeFreed _ _))
    · exact (modifyGroup b g _).trans ((idleProbe _ _).trans (probeFreed _ _))

end ArbiterWork

/-- A grant gives the one probe to the one group. -/
theorem Bridge.grant_owner (b : Bridge) (p : ProbeId) (g : GroupIx) (q : ProbeId) :
    ((b.grant p g).probe q).owner = (b.probe q).owner ∨ q = p ∧ ((b.grant p g).probe q).owner = some (.group g) := by
  unfold Bridge.grant
  split
  · by_cases e : p = q
    · exact Or.inr ⟨e.symm, by simp [e, startedProbe]⟩
    · exact Or.inl (by simp [e])
  · exact Or.inl rfl

theorem Bridge.lowestWaiting_waits {b : Bridge} {g : GroupIx} (h : b.lowestWaiting = some g) :
    (b.group g).waiting = true := by
  simpa using List.find?_some h

theorem Bridge.lowestWaiting_none {b : Bridge} (h : ∀ g, (b.group g).waiting = false) : b.lowestWaiting = none := by
  unfold Bridge.lowestWaiting
  rw [List.find?_eq_none]
  intro g _
  simp [h g]

/-- With no group waiting a probe that comes free stays free. -/
theorem Bridge.probeFreed_none {b : Bridge} (h : ∀ g, (b.group g).waiting = false) (p : ProbeId) :
    b.probeFreed p = b := by
  unfold Bridge.probeFreed
  rw [Bridge.lowestWaiting_none h]

/-- A group that does not wait is not changed when a probe comes free, and gets no probe. -/
theorem Bridge.probeFreed_other (b : Bridge) (p : ProbeId) (g : GroupIx) (h : (b.group g).waiting = false) :
    (b.probeFreed p).group g = b.group g ∧
      ∀ q, ((b.probeFreed p).probe q).owner = some (.group g) → (b.probe q).owner = some (.group g) := by
  constructor
  · rcases (GroupWork.probeFreed (S := fun _ => False) b p).others g id with e | ⟨e, _⟩
    · exact e
    · rw [h] at e; cases e
  · intro q hq
    unfold Bridge.probeFreed at hq
    split at hq
    · rename_i k hk
      rcases b.grant_owner p k q with e | ⟨_, e⟩
      · rw [e] at hq; exact hq
      · rw [e] at hq
        cases hq
        rw [Bridge.lowestWaiting_waits hk] at h
        cases h
    · exact hq

/-- The owner of a probe after a run has been cancelled or a probe has been idled. -/
theorem Bridge.cancelRun_owner (b : Bridge) (p q : ProbeId) :
    ((b.cancelRun p).probe q).owner = if p = q then none else (b.probe q).owner := by
  have : ∀ (c : Bridge) n, ({ c with choiceCount := n } : Bridge).probe q = c.probe q := by
    intro c n; cases q <;> rfl
  unfold Bridge.cancelRun
  simp only [this, Bridge.probe_setProbe]
  split <;> rfl

theorem Bridge.idleProbe_owner (b : Bridge) (p q : ProbeId) :
    ((b.idleProbe p).probe q).owner = if p = q then none else (b.probe q).owner := by
  unfold Bridge.idleProbe
  rw [Bridge.probe_setProbe]
  split <;> rfl

theorem Bridge.cancelRun_group (b : Bridge) (p : ProbeId) (g : GroupIx) : (b.cancelRun p).group g = b.group g := by
  cases p <;> rfl

theorem Bridge.idleProbe_group (b : Bridge) (p : ProbeId) (g : GroupIx) : (b.idleProbe p).group g = b.group g := by
  cases p <;> rfl

/-- The probe a group owns, where it owns one, is the one the search finds. -/
theorem Bridge.ownedProbe_none {b : Bridge} {g : GroupIx} (h : b.ownedProbe g = none) (p : ProbeId) :
    (b.probe p).owner ≠ some (.group g) := by
  unfold Bridge.ownedProbe at h
  split at h
  · cases h
  · split at h
    · cases h
    · cases p
      · assumption
      · assumption

theorem Bridge.ownedProbe_some {b : Bridge} {g : GroupIx} {p : ProbeId} (h : b.ownedProbe g = some p) :
    (b.probe p).owner = some (.group g) := by
  unfold Bridge.ownedProbe at h
  split at h
  · cases h; assumption
  · split at h
    · cases h; assumption
    · cases h

/-- After giving its probe up a group is out of the waiting set and otherwise as it was; and it owns no probe where it
owned one at most. -/
theorem Bridge.releaseProbe_group (b : Bridge) (g : GroupIx) :
    (b.releaseProbe g).group g = { b.group g with waiting := false } ∧
      ((∀ p q, (b.probe p).owner = some (.group g) → (b.probe q).owner = some (.group g) → p = q) →
        ∀ p, ((b.releaseProbe g).probe p).owner ≠ some (.group g)) := by
  have hm : (b.modifyGroup g fun x => { x with waiting := false }).group g = { b.group g with waiting := false } := by
    simp
  have hp : ∀ p, (b.modifyGroup g fun x => { x with waiting := false }).probe p = b.probe p := by simp
  unfold Bridge.releaseProbe
  simp only
  generalize (b.modifyGroup g fun x => { x with waiting := false }) = m at hm hp
  cases ho : m.ownedProbe g with
  | none =>
    refine ⟨hm, fun _ p => ?_⟩
    exact Bridge.ownedProbe_none ho p
  | some p =>
    have hop := Bridge.ownedProbe_some ho
    have key : ∀ n : Bridge, n.group g = m.group g → (∀ q, (n.probe q).owner = if p = q then none else (m.probe q).owner) →
        (n.probeFreed p).group g = { b.group g with waiting := false } ∧
          ((∀ p q, (b.probe p).owner = some (.group g) → (b.probe q).owner = some (.group g) → p = q) →
            ∀ q, ((n.probeFreed p).probe q).owner ≠ some (.group g)) := by
      intro n hn hq
      obtain ⟨h1, h2⟩ := n.probeFreed_other p g (by rw [hn, hm])
      refine ⟨by rw [h1, hn, hm], fun single q hqo => ?_⟩
      have hqn := h2 q hqo
      rw [hq q] at hqn
      split at hqn
      · cases hqn
      · rename_i hne
        rw [hp] at hqn hop
        exact hne (single p q hop hqn)
    simp only
    split
    · exact key _ (m.cancelRun_group p g) (m.cancelRun_owner p)
    · exact key _ (m.idleProbe_group p g) (m.idleProbe_owner p)

/-! ## Entry into FAULT (R126) -/

/-- What faults, aborts and the ends of plans leave: everything but the groups, the probes, the Event Queue and the
tape. -/
structure FaultWork (b c : Bridge) : Prop where
  release : c.release = b.release
  tracker : c.tracker = b.tracker
  stations : c.stations = b.stations
  mask : c.mask = b.mask
  treatments : c.treatments = b.treatments
  store : c.store = b.store
  check : c.check = b.check
  trip : c.trip = b.trip
  timeBase : c.timeBase = b.timeBase

namespace FaultWork

theorem refl (b : Bridge) : FaultWork b b := ⟨rfl, rfl, rfl, rfl, rfl, rfl, rfl, rfl, rfl⟩

theorem trans {a b c : Bridge} (h : FaultWork a b) (k : FaultWork b c) : FaultWork a c :=
  ⟨k.release.trans h.release, k.tracker.trans h.tracker, k.stations.trans h.stations, k.mask.trans h.mask,
    k.treatments.trans h.treatments, k.store.trans h.store, k.check.trans h.check, k.trip.trans h.trip,
    k.timeBase.trans h.timeBase⟩

theorem ofArbiter {b c : Bridge} (h : ArbiterWork b c) : FaultWork b c :=
  ⟨h.release, h.tracker, h.stations, h.mask, h.treatments, h.store, h.check, h.trip, h.timeBase⟩

theorem setGroup (b : Bridge) (g : GroupIx) (x : DriveGroup) : FaultWork b (b.setGroup g x) :=
  ⟨rfl, rfl, rfl, rfl, rfl, rfl, rfl, rfl, rfl⟩

theorem append (b : Bridge) (e : Event) : FaultWork b (b.append e) := by
  unfold Bridge.append
  split <;> exact ⟨rfl, rfl, rfl, rfl, rfl, rfl, rfl, rfl, rfl⟩

theorem postGroup (b : Bridge) (k : EventKind) (g : GroupIx) (st : Option Nat) (c : Option Cause)
    (i : Option StationIx) : FaultWork b (b.postGroup k g st c i) := append b _

theorem enterFault (b : Bridge) (g : GroupIx) (c : Cause) (s : FaultSub) (i : Option StationIx) (st : Option Nat) :
    FaultWork b (b.enterFault g c s i st) := by
  unfold Bridge.enterFault
  exact ((setGroup b g _).trans (postGroup _ _ g _ _ _)).trans (ofArbiter (ArbiterWork.releaseProbe _ g))

theorem bypass (b : Bridge) (c : Cause) (i : Option StationIx) (g : GroupIx) : FaultWork b (b.bypass c i g) := by
  unfold Bridge.bypass
  split
  · exact enterFault b g c _ i _
  · exact refl b

theorem foldGroups (f : Bridge → GroupIx → Bridge) (h : ∀ b g, FaultWork b (f b g)) (gs : List GroupIx) (b : Bridge) :
    FaultWork b (gs.foldl f b) := by
  induction gs generalizing b with
  | nil => exact refl b
  | cons g gs ih => exact (h b g).trans (ih _)

theorem bypassAll (b : Bridge) (c : Cause) : FaultWork b (b.bypassAll c) :=
  foldGroups _ (fun b g => bypass b c none g) _ b

end FaultWork

/-- Entry into FAULT: the group, the event and the probe. -/
theorem Bridge.enterFault_spec (b : Bridge) (g : GroupIx) (cause : Cause) (sub : FaultSub) (i : Option StationIx)
    (st : Option Nat) :
    let x := b.group g
    let c := b.enterFault g cause sub i st
    c.group g =
        { x with
          runState := .fault cause sub, phase := none, stack := [], deferred := none
          speed := if sub = .unwinding then b.unwindStart g else x.speed
          blend := x.faultBlend sub
          waiting := false } ∧
      (b.events.length ≤ 64 →
        Posted b c [⟨.groupFault, b.tracker.cycle, some g, i, st, x.planTag, some cause⟩]) ∧
      ((∀ p q, (b.probe p).owner = some (.group g) → (b.probe q).owner = some (.group g) → p = q) →
        ∀ p, (c.probe p).owner ≠ some (.group g)) := by
  unfold Bridge.enterFault
  simp only
  generalize hn : b.setGroup g _ = n
  have hng := congrArg (fun m : Bridge => m.group g) hn
  simp only [Bridge.group_setGroup, ite_true] at hng
  have hpost : n.postGroup .groupFault g st (some cause) i =
      n.append ⟨.groupFault, b.tracker.cycle, some g, i, st, (b.group g).planTag, some cause⟩ := by
    unfold Bridge.postGroup Bridge.post
    rw [← hng, ← hn]
    rfl
  rw [hpost]
  obtain ⟨h1, h2⟩ := (n.append ⟨.groupFault, b.tracker.cycle, some g, i, st, (b.group g).planTag, some cause⟩).releaseProbe_group g
  refine ⟨?_, fun he => ?_, fun single => h2 ?_⟩
  · rw [h1, Bridge.group_append, ← hng]
  · have hw := ArbiterWork.releaseProbe
      (n.append ⟨.groupFault, b.tracker.cycle, some g, i, st, (b.group g).planTag, some cause⟩) g
    have he' : n.events.length ≤ 64 := by rw [← hn]; exact he
    exact (Posted.append n _ he').congr (by rw [← hn]; rfl) (by rw [← hn]; rfl) hw.events hw.eventsLost
  · intro p q
    rw [Bridge.probe_append, Bridge.probe_append, ← hn, Bridge.probe_setGroup, Bridge.probe_setGroup]
    exact single p q

/-! ## Bypass causes (R125) -/

/-- A bypass cause that reaches a group, or does not. -/
theorem Bridge.bypass_spec (b : Bridge) (cause : Cause) (i : Option StationIx) (g : GroupIx) :
    Bypassed cause (b.group g) ((b.bypass cause i g).group g) ∧
      (b.events.length ≤ 64 →
        Posted b (b.bypass cause i g)
          (if (b.group g).active then
            [⟨.groupFault, b.tracker.cycle, some g, i, (b.group g).stage, (b.group g).planTag, some cause⟩]
          else [])) := by
  unfold Bridge.bypass
  split
  · rename_i ha
    obtain ⟨h1, h2, _⟩ := b.enterFault_spec g cause .settled i (b.group g).stage
    refine ⟨?_, h2⟩
    unfold Bridge.fault
    rw [h1]
    unfold Bypassed
    rw [if_pos ha]
    refine ⟨rfl, rfl, rfl, rfl, rfl, rfl, rfl, ?_⟩
    rintro ⟨c, hc⟩
    simp [DriveGroup.faultBlend, DriveGroup.faultUnwinds, hc]
  · rename_i ha
    refine ⟨by simp [Bypassed, ha], fun he => Posted.refl b he⟩

/-- A bypass is not undone by what becomes of other groups afterwards. -/
theorem Bypassed.then {cause : Cause} {x y z : DriveGroup} (h : Bypassed cause x y) (k : UnchangedOrGranted y z) :
    Bypassed cause x z := by
  rcases k with rfl | ⟨hw, rfl⟩
  · exact h
  · unfold Bypassed at *
    split
    · rename_i ha
      rw [if_pos ha, hw] at h
      exact absurd h.2.2.2.2.2.2.1 (by simp)
    · rename_i ha
      rw [if_neg ha] at h
      exact ⟨h.1, h.2.1, h.2.2⟩

/-- What a group was granted before a bypass reaches it makes no difference. -/
theorem Bypassed.after {cause : Cause} {x y z : DriveGroup} (k : UnchangedOrGranted x y) (h : Bypassed cause y z) :
    Bypassed cause x z := by
  rcases k with rfl | ⟨_, rfl⟩
  · exact h
  · exact h

/-- One event's bypass of every group, in ascending group number: each group that it reaches settles with the cause, and
posts its GROUP_FAULT. -/
theorem Bridge.bypassAll_spec (b : Bridge) (cause : Cause) (he : b.events.length ≤ 64) :
    (∀ g, Bypassed cause (b.group g) ((b.bypassAll cause).group g)) ∧
      Posted b (b.bypassAll cause)
        (((List.finRange 8).filter fun g => (b.group g).active).map fun g =>
          ⟨.groupFault, b.tracker.cycle, some g, none, (b.group g).stage, (b.group g).planTag, some cause⟩) := by
  have key : ∀ (gs : List GroupIx) (c : Bridge), gs.Nodup → c.events.length ≤ 64 → c.tracker = b.tracker →
      (∀ g ∈ gs, UnchangedOrGranted (b.group g) (c.group g)) →
      (∀ g ∈ gs, Bypassed cause (b.group g) ((gs.foldl (fun c g => c.bypass cause none g) c).group g)) ∧
      (∀ g, g ∉ gs → UnchangedOrGranted (c.group g) ((gs.foldl (fun c g => c.bypass cause none g) c).group g)) ∧
      Posted c (gs.foldl (fun c g => c.bypass cause none g) c)
        ((gs.filter fun g => (b.group g).active).map fun g =>
          ⟨.groupFault, b.tracker.cycle, some g, none, (b.group g).stage, (b.group g).planTag, some cause⟩) := by
    intro gs
    induction gs with
    | nil =>
      intro c _ hc _ _
      exact ⟨fun g hg => absurd hg (by simp), fun g _ => Or.inl rfl, Posted.refl c hc⟩
    | cons g gs ih =>
      intro c hnd hc ht hu
      obtain ⟨hng, hnd'⟩ := List.nodup_cons.mp hnd
      obtain ⟨s1, s2⟩ := c.bypass_spec cause none g
      have s2' := s2 hc
      have gw := GroupWork.bypass c cause none g
      have ht' : (c.bypass cause none g).tracker = b.tracker := by rw [gw.tracker, ht]
      obtain ⟨i1, i2, i3⟩ := ih (c.bypass cause none g) hnd' s2'.length ht' fun k hk =>
        (hu k (List.mem_cons_of_mem g hk)).trans (gw.others k (by rintro rfl; exact hng hk))
      have hug := hu g List.mem_cons_self
      have hact : (c.group g).active = (b.group g).active := DriveGroup.active_congr hug.runState
      have hsame : (c.group g).stage = (b.group g).stage ∧ (c.group g).planTag = (b.group g).planTag := by
        rcases hug with e | ⟨_, e⟩ <;> rw [e] <;> exact ⟨rfl, rfl⟩
      simp only [List.foldl_cons]
      refine ⟨?_, ?_, ?_⟩
      · intro k hk
        rcases List.mem_cons.mp hk with rfl | hk
        · exact (s1.then (i2 k hng)).after hug
        · exact i1 k hk
      · intro k hk
        rw [List.mem_cons, not_or] at hk
        exact (gw.others k hk.1).trans (i2 k hk.2)
      · have := s2'.trans i3
        rw [hact, hsame.1, hsame.2, ht] at this
        rw [List.filter_cons]
        split
        · rename_i ha
          rw [if_pos ha] at this
          exact this
        · rename_i ha
          rw [if_neg ha] at this
          exact this
  obtain ⟨h1, _, h3⟩ := key groupIxs b (List.nodup_finRange 8) he rfl fun g _ => Or.inl rfl
  exact ⟨fun g => h1 g (List.mem_finRange g), h3⟩

end Sys2Proof.Machine
end

