-- ==== Sys2Proof/Laws/Cycle.lean ====
section
/-! SUPPORT. What each act of a Cycle Frame arrival leaves, and the order in which the acts come. -/

namespace Sys2Proof.Machine

/-! ## The acts and their order (R15, R80, R178) -/

/-- Among acts that are left there is one that may be taken. -/
theorem cycleReady_some (rest : List CycleAct) (h : rest ≠ []) : ∃ a ∈ rest, cycleReady rest a = true := by
  by_cases ht : CycleAct.tracker ∈ rest
  · exact ⟨_, ht, rfl⟩
  by_cases hr : CycleAct.record ∈ rest
  · exact ⟨_, hr, by simp [cycleReady, ht]⟩
  obtain ⟨a, l, rfl⟩ := List.exists_cons_of_ne_nil h
  refine ⟨a, List.mem_cons_self, ?_⟩
  cases a with
  | tracker => rfl
  | boundary i => rfl
  | record => exact absurd List.mem_cons_self hr
  | treat => simp only [cycleReady]; simpa using ⟨by simpa using ht, by simpa using hr⟩
  | status => simp only [cycleReady]; simpa using ht

/-- The acts of an arrival are all different. -/
theorem cycleActs_nodup (c : CycleContext) (b : Bridge) : (cycleActs c b).Nodup := by
  have hf : b.openStations.Nodup := (List.nodup_finRange 32).filter _
  have hm : (b.openStations.map CycleAct.boundary).Nodup := hf.map fun i j e => CycleAct.boundary.inj e
  unfold cycleActs
  cases c.previous with
  | none => simp
  | some p =>
    simp only [List.cons_append, List.nodup_cons, List.nodup_append, hm]
    simp

/-- Whatever an arrival begins with, and the acts keep as they become fewer, holds when all are taken. The acts are
taken each once, the tracker's step before the records, the treatment and the Status frame, and the master references
before the treatment. -/
theorem cycleActs_all (c : CycleContext) (P : List CycleAct → Link × Bridge → Prop) (acts : List CycleAct)
    (x : Link × Bridge) (h0 : P acts x)
    (hd : ∀ rest (l : Link) (b : Bridge) cs n, P rest (l, b) → P rest (l, { b with choices := cs, choiceCount := n }))
    (ha : ∀ rest a l b, a ∈ rest → cycleReady rest a = true → P rest (l, b) → P (rest.erase a) (cycleAct c a (l, b))) :
    P [] (inFreeOrder cycleReady (fun n (y : Link × Bridge) => ((y.2.choose n).1, (y.1, (y.2.choose n).2)))
      (cycleAct c) acts.length acts x) := by
  refine inFreeOrder_all P _ _ _ (fun n s hn => s.2.choose_lt n hn) (fun n rest s h => ?_)
    (fun rest s _ hne => cycleReady_some rest hne) (fun rest a s hm hr h => ha rest a s.1 s.2 hm hr h) _ _ _ rfl h0
  simp only
  rw [s.2.choose_eq n]
  exact hd _ _ _ _ _ h

/-! ## The arrival as its acts in one order -/

/-- The choices that stood at the start make no difference to what acts may reach. -/
theorem CycleReaches.setChoices {c : CycleContext} {acts : List CycleAct} {l : Link} {b : Bridge} {cs : List Nat} {n : Nat}
    {y : Link × Bridge} (h : CycleReaches c acts (l, { b with choices := cs, choiceCount := n }) y) :
    CycleReaches c acts (l, b) y := by
  cases acts <;> exact h

/-- What acts and further acts after them reach. -/
theorem CycleReaches.append {c : CycleContext} {first last : List CycleAct} {x y z : Link × Bridge}
    (h : CycleReaches c first x y) (k : CycleReaches c last y z) : CycleReaches c (first ++ last) x z := by
  induction first generalizing x with
  | nil =>
    obtain ⟨cs, n, rfl⟩ := h
    exact k.setChoices
  | cons a first ih =>
    obtain ⟨cs, n, h⟩ := h
    exact ⟨cs, n, ih h⟩

/-- The choices after the last act make no difference. -/
theorem CycleReaches.choices {c : CycleContext} {acts : List CycleAct} {x : Link × Bridge} {l : Link} {b : Bridge}
    (h : CycleReaches c acts x (l, b)) (cs : List Nat) (n : Nat) :
    CycleReaches c acts x (l, { b with choices := cs, choiceCount := n }) := by
  have := h.append (last := []) (z := (l, { b with choices := cs, choiceCount := n })) ⟨cs, n, rfl⟩
  rwa [List.append_nil] at this

/-- One act. -/
theorem CycleReaches.act (c : CycleContext) (a : CycleAct) (x : Link × Bridge) : CycleReaches c [a] x (cycleAct c a x) :=
  ⟨x.2.choices, x.2.choiceCount, _, _, rfl⟩

/-- An act is ready by what is still to be taken, in whatever order that stands. -/
theorem cycleReady_perm {rest rest' : List CycleAct} (h : rest.Perm rest') (a : CycleAct) :
    cycleReady rest a = cycleReady rest' a := by
  cases a <;> simp [cycleReady, h.mem_iff]

/-- An order in which the acts of an arrival are taken: each is ready while it and the later ones are still to be taken,
and wherever the order is split, the first part reaches a link and a bridge from which the rest reaches the end. -/
structure CycleOrder (c : CycleContext) (order : List CycleAct) (x y : Link × Bridge) : Prop where
  ready : ∀ first a last, order = first ++ a :: last → cycleReady (a :: last) a = true
  splits : ∀ first last, order = first ++ last → ∃ m, CycleReaches c first x m ∧ CycleReaches c last m y

/-- A Cycle Frame arrival is its acts in one order that R15, R80 and R178 allow, and then the opening of the cycle. -/
theorem beginCycle_order (c : CycleContext) (x : Link × Bridge) :
    ∃ (order : List CycleAct) (m : Bridge), order.Perm (cycleActs c x.2) ∧
      CycleOrder c order (x.1, { x.2 with tracker := { x.2.tracker with cycle := some c.number } })
        ((beginCycle c x).1, m) ∧
      (beginCycle c x).2 = m.openCycle.formPending c.number := by
  unfold beginCycle
  simp only
  generalize hs : (x.1, ({ x.2 with tracker := { x.2.tracker with cycle := some c.number } } : Bridge)) = start
  have key := cycleActs_all c
    (fun rest y => ∃ taken : List CycleAct, (taken ++ rest).Perm (cycleActs c x.2) ∧
      (∀ first a last, taken = first ++ a :: last → cycleReady (a :: last ++ rest) a = true) ∧
      ∀ first last, taken = first ++ last → ∃ m, CycleReaches c first start m ∧ CycleReaches c last m y)
    (cycleActs c x.2) start
    ⟨[], by simp, fun first a last h => by simp at h, fun first last h => by
      obtain ⟨rfl, rfl⟩ := List.append_eq_nil_iff.mp h.symm
      exact ⟨start, ⟨start.2.choices, start.2.choiceCount, rfl⟩, ⟨start.2.choices, start.2.choiceCount, rfl⟩⟩⟩
    (fun rest l b cs n ⟨taken, h1, h2, h3⟩ => ⟨taken, h1, h2, fun first last h => by
      obtain ⟨m, k1, k2⟩ := h3 first last h
      exact ⟨m, k1, k2.choices cs n⟩⟩)
    (fun rest a l b hm hr ⟨taken, h1, h2, h3⟩ => by
      have hp := List.perm_cons_erase hm
      refine ⟨taken ++ [a], ?_, fun first a' last h => ?_, fun first last h => ?_⟩
      · rw [List.append_assoc]
        exact (List.Perm.append_left taken hp.symm).trans h1
      · rcases List.eq_nil_or_concat last with rfl | ⟨front, d, rfl⟩
        · obtain ⟨_, e⟩ := List.append_inj' h rfl
          cases e
          exact (cycleReady_perm hp a).symm.trans hr
        · rw [List.concat_eq_append, ← List.cons_append, ← List.append_assoc] at h
          obtain ⟨e, e'⟩ := List.append_inj' h rfl
          cases e'
          rw [← h2 first a' front e]
          refine cycleReady_perm ?_ a'
          rw [List.concat_eq_append, ← List.cons_append, List.append_assoc]
          exact List.Perm.append_left _ hp.symm
      · rcases List.eq_nil_or_concat last with rfl | ⟨front, d, rfl⟩
        · obtain ⟨m, k1, k2⟩ := h3 taken [] (by simp)
          rw [List.append_nil] at h
          subst h
          refine ⟨cycleAct c a (l, b), ?_, (cycleAct c a (l, b)).2.choices, (cycleAct c a (l, b)).2.choiceCount, rfl⟩
          have := k1.append k2
          rw [List.append_nil] at this
          exact this.append (CycleReaches.act c a (l, b))
        · rw [List.concat_eq_append, ← List.append_assoc] at h
          obtain ⟨e, e'⟩ := List.append_inj' h rfl
          cases e'
          obtain ⟨m, k1, k2⟩ := h3 first front e
          refine ⟨m, k1, ?_⟩
          rw [List.concat_eq_append]
          exact k2.append (CycleReaches.act c a (l, b)))
  obtain ⟨taken, h1, h2, h3⟩ := key
  rw [List.append_nil] at h1
  exact ⟨taken, _, h1, ⟨fun first a last h => by simpa using h2 first a last h, h3⟩, rfl⟩

/-! ## What every act leaves -/

/-- What the acts of an arrival leave of the bridge: the blocks that belong to others, the configurations up to the
learned offset, and the run state of a group that runs no plan and does not unwind. -/
structure CycleKeeps (b c : Bridge) : Prop where
  release : c.release = b.release
  mask : c.mask = b.mask
  store : c.store = b.store
  check : c.check = b.check
  timeBase : c.timeBase = b.timeBase
  records : ∀ g, (c.group g).record = (b.group g).record
  configs : ∀ i, (c.station i).map (fun st => { st.config with offset := 0 }) =
    (b.station i).map fun st => { st.config with offset := 0 }
  inactive : ∀ g, (b.group g).active = false → (c.group g).active = false

namespace CycleKeeps

theorem refl (b : Bridge) : CycleKeeps b b := ⟨rfl, rfl, rfl, rfl, rfl, fun _ => rfl, fun _ => rfl, fun _ h => h⟩

theorem trans {a b c : Bridge} (h : CycleKeeps a b) (k : CycleKeeps b c) : CycleKeeps a c where
  release := k.release.trans h.release
  mask := k.mask.trans h.mask
  store := k.store.trans h.store
  check := k.check.trans h.check
  timeBase := k.timeBase.trans h.timeBase
  records g := (k.records g).trans (h.records g)
  configs i := (k.configs i).trans (h.configs i)
  inactive g a := k.inactive g (h.inactive g a)

theorem setChoices (b : Bridge) (cs : List Nat) (n : Nat) :
    CycleKeeps b { b with choices := cs, choiceCount := n } :=
  ⟨rfl, rfl, rfl, rfl, rfl, fun _ => rfl, fun _ => rfl, fun _ h => h⟩

/-- Membership and leadership are those of the entries as they were. -/
theorem group {b c : Bridge} (h : CycleKeeps b c) (i : StationIx) :
    (c.station i).map (fun st => st.config.group) = (b.station i).map fun st => st.config.group := by
  have e := congrArg (Option.map StationConfig.group) (h.configs i)
  simpa [Option.map_map, Function.comp_def] using e

theorem members {b c : Bridge} (h : CycleKeeps b c) (g : GroupIx) : c.members g = b.members g :=
  Bridge.members_congr g h.group

theorem ofGroupWork {S : GroupIx → Prop} {b c : Bridge} (h : GroupWork S b c)
    (k : ∀ g, (b.group g).active = false → (c.group g).active = false) : CycleKeeps b c where
  release := h.release
  mask := h.mask
  store := h.store
  check := h.check
  timeBase := h.timeBase
  records := h.records
  configs i := by
    have e := congrArg (Option.map Station.config) (h.stations i)
    simpa [Option.map_map, Function.comp_def, Station.core] using e
  inactive := k

end CycleKeeps

/-! ## The records of a frame (R79, R80), the opening of a cycle (R20) and the pending sets (R51) -/

@[simp] theorem Bridge.recordSent_station (b : Bridge) (slots treated : List Slot) (i : StationIx) :
    (b.recordSent slots treated).station i =
      (b.station i).map fun st => { st with run := { st.run with lastSent := lastSentOf treated st } } := by
  simp [Bridge.recordSent, Bridge.station, Bridge.mapStations]

@[simp] theorem Bridge.recordSent_group (b : Bridge) (slots treated : List Slot) (g : GroupIx) :
    (b.recordSent slots treated).group g = b.group g := by
  simp [Bridge.recordSent, Bridge.group, Bridge.mapStations]

@[simp] theorem Bridge.recordSent_probe (b : Bridge) (slots treated : List Slot) (p : ProbeId) :
    (b.recordSent slots treated).probe p = b.probe p := by
  cases p <;> simp [Bridge.recordSent, Bridge.probe, Bridge.mapStations]

@[simp] theorem Bridge.recordSent_treatments (b : Bridge) (slots treated : List Slot) (i : StationIx) :
    (b.recordSent slots treated).treatments[i] =
      match b.station i with
      | some st => some (b.treatmentOf slots i st)
      | none => b.treatments[i] := by
  cases h : b.station i <;> simp [Bridge.recordSent, h]

/-- The records of R79 change the entries and the treatments only. -/
theorem Bridge.recordSent_keeps (b : Bridge) (slots treated : List Slot) :
    let c := b.recordSent slots treated
    c.release = b.release ∧ c.tracker = b.tracker ∧ c.mask = b.mask ∧ c.store = b.store ∧ c.check = b.check ∧
      c.trip = b.trip ∧ c.events = b.events ∧ c.eventsLost = b.eventsLost ∧ c.timeBase = b.timeBase := by
  simp [Bridge.recordSent, Bridge.mapStations]

theorem Bridge.group_recordMasters (b : Bridge) (n : CycleNo) (slots : List Slot) (g : GroupIx) :
    (b.recordMasters n slots).group g =
      match b.masterSpeed slots g with
      | some v => { b.group g with masterRef := some ⟨v, n⟩ }
      | none => b.group g := by
  cases h : b.masterSpeed slots g <;> simp [Bridge.recordMasters, h]

@[simp] theorem Bridge.probe_mapGroups (b : Bridge) (f : GroupIx → DriveGroup → DriveGroup) (p : ProbeId) :
    (b.mapGroups f).probe p = b.probe p := by
  cases p <;> simp [Bridge.probe, Bridge.mapGroups]

@[simp] theorem Bridge.openCycle_station (b : Bridge) (i : StationIx) :
    b.openCycle.station i = (b.station i).map fun st => { st with run := { st.run with fresh := false, mark := .isOpen } } := by
  simp [Bridge.openCycle]

@[simp] theorem Bridge.openCycle_group (b : Bridge) (g : GroupIx) : b.openCycle.group g = b.group g := by
  simp [Bridge.openCycle]

@[simp] theorem Bridge.formPending_station (b : Bridge) (n : CycleNo) (i : StationIx) :
    (b.formPending n).station i = b.station i := by
  simp [Bridge.formPending]

@[simp] theorem Bridge.formPending_group (b : Bridge) (n : CycleNo) (g : GroupIx) :
    (b.formPending n).group g =
      { b.group g with
        pendingSet := if b.members g = [] then none else some ⟨n, b.members g⟩, forming := [] } := by
  simp [Bridge.formPending]

end Sys2Proof.Machine
end

