-- ==== Sys2Proof/Laws/Arrivals.lean ====
section
/-! SUPPORT. What a Cycle Frame arrival leaves of each block, whatever the order of its acts. -/

namespace Sys2Proof.Machine

/-! ## One act -/

/-- A station close leaves the blocks that belong to others, and the tracker. -/
theorem Bridge.stationClose_keeps (b : Bridge) (i : StationIx) (c : CycleNo) (d : Bool) :
    CycleKeeps b (b.stationClose i c d) ∧ (b.stationClose i c d).tracker = b.tracker ∧
      (b.stationClose i c d).treatments = b.treatments ∧
      ∀ g, ((b.stationClose i c d).group g).masterRef = (b.group g).masterRef := by
  cases hs : b.station i with
  | none =>
    unfold Bridge.stationClose
    rw [hs]
    exact ⟨CycleKeeps.refl b, rfl, rfl, fun _ => rfl⟩
  | some st =>
    obtain ⟨m, hm, _, _, _, _, he⟩ := Bridge.stationClose_eq hs c d
    have hst : ∀ j, m.station j = (b.setStation i (some { st with run := st.run.closed st.config d })).station j :=
      fun j => by rw [hm]; rfl
    have hg : ∀ g, m.group g = b.group g := fun g => by rw [hm]; rfl
    have gw := GroupWork.handOn m (closeRecord i c st.run (st.run.closed st.config d)) st.config.group
    rw [he]
    refine ⟨CycleKeeps.trans (b := m) ?_ (CycleKeeps.ofGroupWork gw fun g hi => ?_), ?_, ?_, fun g => ?_⟩
    · refine ⟨by rw [hm]; rfl, by rw [hm]; rfl, by rw [hm]; rfl, by rw [hm]; rfl, by rw [hm]; rfl,
        fun g => by rw [hg], fun j => ?_, fun g hi => by rw [hg]; exact hi⟩
      rw [hst, Bridge.station_setStation]
      split
      · rename_i e
        subst e
        rw [hs]
        rfl
      · rfl
    · rw [DriveGroup.active_congr (Bridge.handOn_inactive m _ _ g hi)]
      exact hi
    · rw [gw.tracker, hm]; rfl
    · rw [gw.treatments, hm]; rfl
    · rw [gw.masters, hg]

/-- Loss of sync (R16). -/
theorem Bridge.loseSync_keeps (b : Bridge) :
    CycleKeeps b b.loseSync ∧ b.loseSync.tracker = { b.tracker with sync := .unsynced, runCount := 0 } ∧
      (∀ g, (b.loseSync.group g).active = false) ∧ b.loseSync.treatments = b.treatments ∧
      ∀ g, (b.loseSync.group g).masterRef = (b.group g).masterRef := by
  unfold Bridge.loseSync Bridge.post
  generalize hq : ({ b with tracker := { b.tracker with sync := .unsynced, runCount := 0 } } : Bridge) = q
  have e1 := q.append_eq ⟨.linkLost, q.tracker.cycle, none, none, none, none, none⟩
  generalize q.append _ = w at e1 ⊢
  have gw := GroupWork.bypassAll w .link
  have off : ∀ g, ((w.bypassAll .link).group g).active = false := by
    intro g
    have key : ∀ (gs : List GroupIx) (c : Bridge), (g ∈ gs ∨ (c.group g).active = false) →
        ((gs.foldl (fun c g => c.bypass .link none g) c).group g).active = false := by
      intro gs
      induction gs with
      | nil => exact fun c h => h.elim (fun m => absurd m (by simp)) id
      | cons k gs ih =>
        intro c h
        refine ih _ ?_
        by_cases hk : k = g
        · subst hk
          refine Or.inr ?_
          have hb := (c.bypass_spec .link none k).1.2.2
          split at hb
          · simp [DriveGroup.active, DriveGroup.inPlan, DriveGroup.isRunning, DriveGroup.isHeld, DriveGroup.unwinds, hb.1]
          · rename_i h0
            rw [DriveGroup.active_congr hb]
            simpa using h0
        · rcases h with h | h
          · exact Or.inl ((List.mem_cons.mp h).resolve_left (Ne.symm hk))
          · refine Or.inr ?_
            rw [DriveGroup.active_congr ((GroupWork.bypass c .link none k).others g (Ne.symm hk)).runState]
            exact h
    exact key _ _ (Or.inl (List.mem_finRange g))
  refine ⟨CycleKeeps.trans (b := w) ?_ (CycleKeeps.ofGroupWork gw fun g _ => off g), ?_, off, ?_, fun g => ?_⟩
  · rw [e1, ← hq]
    exact ⟨rfl, rfl, rfl, rfl, rfl, fun _ => rfl, fun _ => rfl, fun _ h => h⟩
  · rw [gw.tracker, e1, ← hq]
  · rw [gw.treatments, e1, ← hq]
  · rw [gw.masters, e1, ← hq]; rfl

/-- The tracker's step (R11, R12, R13, R16). -/
theorem Bridge.trackerStep_spec (b : Bridge) (p : Option CycleNo) (n : CycleNo) :
    let k := b.tracker
    let c := b.trackerStep p n
    CycleKeeps b c ∧ c.treatments = b.treatments ∧ (∀ g, (c.group g).masterRef = (b.group g).masterRef) ∧
    c.tracker.cycle = some n ∧ c.tracker.timer = .running (k.setting * 1000) ∧ c.tracker.setting = k.setting ∧
    (k.sync = .unsynced → k.good p n = true → c.tracker.runCount = k.runCount + 1 ∧
      c.tracker.sync = if k.runCount + 1 = 8 then .synced else .unsynced) ∧
    (k.sync = .unsynced → k.good p n = false → c.tracker.runCount = 0 ∧ c.tracker.sync = .unsynced) ∧
    (k.sync = .synced → (p.map (· + 1#16) = some n ∨ k.slips p n = true) →
      c.tracker.runCount = k.runCount ∧ c.tracker.sync = .synced) ∧
    (k.sync = .synced → ¬(p.map (· + 1#16) = some n ∨ k.slips p n = true) →
      c.tracker.runCount = 0 ∧ c.tracker.sync = .unsynced ∧ ∀ g, (c.group g).active = false) := by
  have same : ∀ t : Tracker, CycleKeeps b { b with tracker := t } := fun t =>
    ⟨rfl, rfl, rfl, rfl, rfl, fun _ => rfl, fun _ => rfl, fun _ h => h⟩
  unfold Bridge.trackerStep
  simp only
  cases hsync : b.tracker.sync with
  | unsynced =>
    simp only
    by_cases hg : b.tracker.good p n = true
    · rw [if_pos hg]
      by_cases h8 : b.tracker.runCount + 1 = 8
      · rw [if_pos h8]
        unfold Bridge.post
        generalize hq : ({ b with tracker := { sync := .synced, cycle := some n, runCount := b.tracker.runCount + 1, timer := b.tracker.restart.timer, setting := b.tracker.restart.setting } } : Bridge) = q
        have e1 := q.append_eq ⟨.linkSynced, q.tracker.cycle, none, none, none, none, none⟩
        generalize q.append _ = w at e1 ⊢
        have hw : CycleKeeps b w := by
          rw [e1, ← hq]
          exact ⟨rfl, rfl, rfl, rfl, rfl, fun _ => rfl, fun _ => rfl, fun _ h => h⟩
        refine ⟨hw, by rw [e1, ← hq], fun g => by rw [e1, ← hq]; rfl, ?_⟩
        have hk : w.tracker = ⟨.synced, some n, b.tracker.runCount + 1, .running (b.tracker.setting * 1000), b.tracker.setting⟩ := by
          rw [e1, ← hq]
          rfl
        rw [hk]
        simp [h8, hg]
      · rw [if_neg h8, if_neg h8]
        exact ⟨same _, rfl, fun _ => rfl, rfl, rfl, rfl, fun _ _ => ⟨rfl, hsync⟩, fun _ h => absurd (hg.symm.trans h) (by simp),
          fun h => (by cases h), fun h => (by cases h)⟩
    · rw [if_neg hg]
      exact ⟨same _, rfl, fun _ => rfl, rfl, rfl, rfl, fun _ h => absurd h hg, fun _ _ => ⟨rfl, hsync⟩,
        fun h => (by cases h), fun h => (by cases h)⟩
  | synced =>
    simp only
    by_cases hs : p.map (· + 1#16) = some n ∨ b.tracker.slips p n = true
    · rw [if_pos hs]
      exact ⟨same _, rfl, fun _ => rfl, rfl, rfl, rfl, fun h => (by cases h), fun h => (by cases h),
        fun _ _ => ⟨rfl, hsync⟩, fun _ h => absurd hs h⟩
    · rw [if_neg hs]
      generalize hq : ({ b with tracker := { b.tracker.restart with cycle := some n } } : Bridge) = q
      obtain ⟨k1, k2, k3, k4, k5⟩ := q.loseSync_keeps
      have hbq : CycleKeeps b q := by rw [← hq]; exact same _
      have hk : q.loseSync.tracker =
          ⟨.unsynced, some n, 0, .running (b.tracker.setting * 1000), b.tracker.setting⟩ := by
        rw [k2, ← hq]
        rfl
      refine ⟨hbq.trans k1, by rw [k4, ← hq], fun g => by rw [k5, ← hq]; rfl, ?_⟩
      rw [hk]
      exact ⟨rfl, rfl, rfl, fun h => (by cases h), fun h => (by cases h), fun _ h => absurd h hs,
        fun _ _ => ⟨rfl, rfl, k3⟩⟩

/-- What an act leaves of the bridge. -/
theorem cycleAct_keeps (c : CycleContext) (a : CycleAct) (l : Link) (b : Bridge) :
    CycleKeeps b (cycleAct c a (l, b)).2 ∧ (a ≠ .tracker → (cycleAct c a (l, b)).2.tracker = b.tracker) := by
  cases a with
  | tracker => exact ⟨(b.trackerStep_spec c.previous c.number).1, fun h => absurd rfl h⟩
  | boundary i =>
    unfold cycleAct
    cases c.previous with
    | none => exact ⟨CycleKeeps.refl b, fun _ => rfl⟩
    | some p =>
      have := b.stationClose_keeps i p true
      exact ⟨this.1, fun _ => this.2.1⟩
  | record =>
    refine ⟨?_, fun _ => by simp [cycleAct, Bridge.recordMasters]⟩
    unfold cycleAct Bridge.recordMasters
    refine ⟨by simp, by simp, by simp, by simp, by simp, fun g => ?_, fun i => by rw [Bridge.station_mapGroups],
      fun g h => ?_⟩
    · rw [Bridge.group_mapGroups]
      split <;> rfl
    · rw [Bridge.group_mapGroups]
      split <;> exact h
  | treat =>
    obtain ⟨h1, h2, h3, h4, h5, _, _, _, h9⟩ := b.recordSent_keeps c.slots (c.slots.map b.treatSlot)
    refine ⟨⟨h1, h3, h4, h5, h9, fun g => by simp [cycleAct], fun i => ?_, fun g h => by simpa [cycleAct] using h⟩,
      fun _ => h2⟩
    simp [cycleAct, Option.map_map, Function.comp_def]
  | status => exact ⟨CycleKeeps.refl b, fun _ => rfl⟩

end Sys2Proof.Machine
end

