-- ==== Sys2Proof/Laws/HandOn.lean ====
section
/-! SUPPORT. The hand-on of a close taken apart: what the probes do before and after the station's group takes it. -/

namespace Sys2Proof.Machine

/-- What the closes at probes and the free choices leave: everything but the probes, the Event Queue, the tape, and the
groups to which the arbiter has granted a probe (R144). -/
structure ProbeWork (b c : Bridge) : Prop where
  rest : c =
    { b with
      groups := c.groups, probe1 := c.probe1, probe2 := c.probe2, events := c.events, eventsLost := c.eventsLost
      choices := c.choices, choiceCount := c.choiceCount }
  groups : ∀ g, UnchangedOrGranted (b.group g) (c.group g)
  posts : b.events.length ≤ 64 → ∃ es, Posted b c es

namespace ProbeWork

theorem refl (b : Bridge) : ProbeWork b b := ⟨rfl, fun _ => Or.inl rfl, Posted.same rfl rfl⟩

theorem trans {a b c : Bridge} (h : ProbeWork a b) (k : ProbeWork b c) : ProbeWork a c where
  rest := by
    conv_lhs => rw [k.rest, h.rest]
  groups g := (h.groups g).trans (k.groups g)
  posts e := by
    obtain ⟨es, he⟩ := h.posts e
    obtain ⟨fs, hf⟩ := k.posts he.length
    exact ⟨es ++ fs, he.trans hf⟩

theorem choose (b : Bridge) (n : Nat) : ProbeWork b (b.choose n).2 := by
  rw [b.choose_eq n]
  exact ⟨rfl, fun _ => Or.inl rfl, Posted.same rfl rfl⟩

/-- Work on no group that leaves the stations and the trip cause set. -/
theorem ofGroupWork {b c : Bridge} (h : GroupWork (fun _ => False) b c) (hs : c.stations = b.stations)
    (ht : c.trip = b.trip) : ProbeWork b c where
  rest := by
    rw [← h.release, ← h.tracker, ← h.mask, ← h.treatments, ← h.store, ← h.check, ← h.timeBase, ← hs, ← ht]
  groups g := h.others g id
  posts := h.posts

/-- A close at a probe. -/
theorem probeClose (b : Bridge) (p : ProbeId) (r : CloseRecord) : ProbeWork b (b.probeClose p r) := by
  have hfreed : ∀ c : Bridge, (c.probeFreed p).stations = c.stations ∧ (c.probeFreed p).trip = c.trip := fun c =>
    ⟨(ArbiterWork.probeFreed c p).stations, (ArbiterWork.probeFreed c p).trip⟩
  have hput : ∀ (c : Bridge) x, (c.setProbe p x).stations = c.stations ∧ (c.setProbe p x).trip = c.trip := fun c x =>
    ⟨(ArbiterWork.setProbe c p x).stations, (ArbiterWork.setProbe c p x).trip⟩
  have hpost : ∀ (c : Bridge) k g i s t d, (c.post k g i s t d).stations = c.stations ∧ (c.post k g i s t d).trip = c.trip :=
    fun c k g i s t d => by unfold Bridge.post; rw [c.append_eq]; exact ⟨rfl, rfl⟩
  have hend : ∀ (c : Bridge) d, (c.endRun p d).stations = c.stations ∧ (c.endRun p d).trip = c.trip := by
    intro c d
    unfold Bridge.endRun
    simp only
    split
    · rw [(hfreed _).1, (hfreed _).2, (hpost _ _ _ _ _ _ _).1, (hpost _ _ _ _ _ _ _).2]
      exact hput c _
    · exact hput c _
  have key : (b.probeClose p r).stations = b.stations ∧ (b.probeClose p r).trip = b.trip := by
    unfold Bridge.probeClose
    simp only
    split
    · split
      · exact hend b _
      · split
        · unfold Bridge.endSubWindow
          simp only
          split
          · exact hput b _
          · split
            · rw [(hput _ _).1, (hput _ _).2]
              exact hput b _
            · rw [(hend _ _).1, (hend _ _).2]
              exact hput b _
        · exact ⟨rfl, rfl⟩
    · exact ⟨rfl, rfl⟩
  exact ofGroupWork (GroupWork.probeClose b p r) key.1 key.2

end ProbeWork

/-- The recipients of a close are different from each other. -/
theorem Bridge.recipients_nodup (b : Bridge) (r : CloseRecord) (o : Option GroupIx) : (b.recipients r o).Nodup := by
  have hp : ((b.runsHeld r.station).map Recipient.probe).Nodup :=
    (List.Nodup.filter _ (by decide)).map fun i j e => Recipient.probe.inj e
  unfold Bridge.recipients
  cases o with
  | none => simpa using hp
  | some g =>
    simp only [Option.toList_some, List.map_cons, List.map_nil, List.singleton_append, List.nodup_cons]
    exact ⟨by simp, hp⟩

/-- The hand-on of a close to a station's group and to the probes that run on the station: the group takes it once, with
closes at probes before and after. Without such a probe the group's reception is all. -/
theorem Bridge.handOn_group (b : Bridge) (r : CloseRecord) (g : GroupIx) :
    ∃ m, ProbeWork b m ∧ ProbeWork (m.groupReceives g r) (b.handOn r (some g)) ∧
      (b.runsHeld r.station = [] → m = b ∧ b.handOn r (some g) = m.groupReceives g r) := by
  by_cases hn : b.runsHeld r.station = []
  · refine ⟨b, ProbeWork.refl b, ?_, fun _ => ⟨rfl, ?_⟩⟩
    all_goals
      have : b.handOn r (some g) = b.groupReceives g r := by
        unfold Bridge.handOn Bridge.recipients
        rw [hn]
        rfl
      rw [this]
    exact ProbeWork.refl _
  · have key : ∃ m, ProbeWork b m ∧ ProbeWork (m.groupReceives g r) (b.handOn r (some g)) := by
      have hall := inFreeOrder_all (α := Recipient) (σ := Bridge × List ProbeId)
        (fun rest h => (∀ k, Recipient.group k ∈ rest → k = g) ∧ rest.Nodup ∧
          (if Recipient.group g ∈ rest then ProbeWork b h.1
          else ∃ m, ProbeWork b m ∧ ProbeWork (m.groupReceives g r) h.1))
        (fun _ _ => true) (fun n (h : Bridge × List ProbeId) => ((h.1.choose n).1, ((h.1.choose n).2, h.2)))
        (Bridge.receive r) (fun n s h => s.1.choose_lt n h)
        (fun n rest s h => by
          refine ⟨h.1, h.2.1, ?_⟩
          have h3 := h.2.2
          split at h3
          · rename_i hm
            rw [if_pos hm]
            exact h3.trans (ProbeWork.choose _ _)
          · rename_i hm
            rw [if_neg hm]
            obtain ⟨m, h4, h5⟩ := h3
            exact ⟨m, h4, h5.trans (ProbeWork.choose _ _)⟩)
        (fun rest s h hne => by
          obtain ⟨a, l, rfl⟩ := List.exists_cons_of_ne_nil hne
          exact ⟨a, List.mem_cons_self, rfl⟩)
        (fun rest a s hm _ h => by
          refine ⟨fun k hk => h.1 k (List.mem_of_mem_erase hk), h.2.1.erase a, ?_⟩
          have h3 := h.2.2
          cases a with
          | group k =>
            obtain rfl := h.1 k hm
            rw [if_pos hm] at h3
            rw [if_neg (fun e => (h.2.1.mem_erase_iff.mp e).1 rfl)]
            exact ⟨s.1, h3, ProbeWork.refl _⟩
          | probe p =>
            have hp : ProbeWork s.1 (Bridge.receive r (.probe p) s).1 := by
              show ProbeWork s.1 (if p ∈ s.2 then s.1.probeClose p r else s.1)
              split
              · exact ProbeWork.probeClose _ _ _
              · exact ProbeWork.refl _
            have hi : Recipient.group g ∈ rest.erase (.probe p) ↔ Recipient.group g ∈ rest := by
              rw [h.2.1.mem_erase_iff]
              exact ⟨fun e => e.2, fun e => ⟨by simp, e⟩⟩
            split at h3
            · rename_i hg
              rw [if_pos (hi.mpr hg)]
              exact h3.trans hp
            · rename_i hg
              rw [if_neg (fun e => hg (hi.mp e))]
              obtain ⟨m, h4, h5⟩ := h3
              exact ⟨m, h4, h5.trans hp⟩)
        (b.recipients r (some g)).length (b.recipients r (some g)) (b, b.runsHeld r.station) rfl
        ⟨fun k hk => by simpa [Bridge.recipients] using hk, b.recipients_nodup r (some g), by
          rw [if_pos (by simp [Bridge.recipients])]
          exact ProbeWork.refl b⟩
      have h := hall.2.2
      rw [if_neg (by simp)] at h
      exact h
    obtain ⟨m, h1, h2⟩ := key
    exact ⟨m, h1, h2, fun e => absurd e hn⟩

end Sys2Proof.Machine
end

