-- ==== Sys2Proof/Laws/Operands.lean ====
section
/-! SUPPORT. Readers and writers of operands: what a reader that succeeds has read, and that a reader takes back what the
writer of the same field has put. -/

namespace Sys2Proof.Machine

/-! ## Running a reader -/

theorem Reader.bind_some {α β : Type} (m : Reader α) (f : α → Reader β) (bytes : List Byte) (r : β × List Byte) :
    (m >>= f) bytes = some r ↔ ∃ a rest, m bytes = some (a, rest) ∧ f a rest = some r := by
  show (m bytes).bind (fun x => f x.1 x.2) = some r ↔ _
  cases h : m bytes with
  | none => simp
  | some x =>
    obtain ⟨a, rest⟩ := x
    simp only [Option.bind_some, Option.some.injEq, Prod.mk.injEq]
    constructor
    · intro e
      exact ⟨a, rest, ⟨rfl, rfl⟩, e⟩
    · rintro ⟨_, _, ⟨rfl, rfl⟩, e⟩
      exact e

theorem Reader.pure_some {α : Type} (a : α) (bytes : List Byte) (r : α × List Byte) :
    (pure a : Reader α) bytes = some r ↔ r = (a, bytes) := by
  show some (a, bytes) = some r ↔ _
  rw [Option.some.injEq, eq_comm]

theorem Reader.bind_of {α β : Type} {m : Reader α} {bytes rest : List Byte} {a : α} (h : m bytes = some (a, rest))
    (f : α → Reader β) : (m >>= f) bytes = f a rest := by
  show (m bytes).bind (fun x => f x.1 x.2) = _
  rw [h]
  rfl

theorem Reader.pure_of {α : Type} (a : α) (bytes : List Byte) : (pure a : Reader α) bytes = some (a, bytes) := rfl

theorem Reader.failure_some {α : Type} (bytes : List Byte) (r : α × List Byte) :
    (failure : Reader α) bytes = some r ↔ False := by
  show (none : Option (α × List Byte)) = some r ↔ False
  simp

/-- A check that fails the reader where it holds. -/
theorem Reader.guard_some {α : Type} (p : Prop) [Decidable p] (k : Reader α) (bytes : List Byte) (r : α × List Byte) :
    (do if p then failure
        k : Reader α) bytes = some r ↔ ¬p ∧ k bytes = some r := by
  by_cases h : p
  · simp only [h, ite_true, not_true, false_and, iff_false]
    intro e
    obtain ⟨_, _, e, _⟩ := (Reader.bind_some _ _ _ _).mp e
    exact (Reader.failure_some _ _).mp e
  · simp only [h, ite_false, not_false_eq_true, true_and]

theorem decodeOperands_some {α : Type} {read : Reader α} {bytes : List Byte} {v : α} :
    decodeOperands read bytes = some v ↔ read bytes = some (v, []) := by
  unfold decodeOperands
  split
  · rename_i w h
    rw [h, Option.some.injEq, Option.some.injEq, Prod.mk.injEq]
    simp
  · rename_i h
    constructor
    · intro e; cases e
    · intro e
      rw [e] at h
      exact absurd rfl (h v)

/-! ## Ranges -/

theorem readInt_range {lo hi v : Int} {bytes rest : List Byte} (h : readInt lo hi bytes = some (v, rest)) :
    lo ≤ v ∧ v ≤ hi := by
  unfold readInt at h
  simp only at h
  split at h
  · rename_i hc
    rw [Option.some.injEq, Prod.mk.injEq] at h
    rw [← h.1]
    exact ⟨hc.2.1, hc.2.2⟩
  · cases h

theorem readNat_range {lo hi v : Nat} {bytes rest : List Byte} (h : readNat lo hi bytes = some (v, rest)) :
    lo ≤ v ∧ v ≤ hi := by
  unfold readNat at h
  obtain ⟨w, r, h1, h2⟩ := (Reader.bind_some _ _ _ _).mp h
  have := readInt_range h1
  rw [Reader.pure_some, Prod.mk.injEq] at h2
  rw [h2.1]
  omega

theorem readOpt_range {α : Type} {read : Reader α} {P : α → Prop} (hr : ∀ bytes v rest, read bytes = some (v, rest) → P v)
    {o : Option α} {bytes rest : List Byte} (h : readOpt read bytes = some (o, rest)) : ∀ v, o = some v → P v := by
  intro v hv
  subst hv
  unfold readOpt at h
  split at h
  · split at h
    · cases h
    · split at h
      · rw [Option.map_eq_some_iff] at h
        obtain ⟨⟨w, r⟩, h1, h2⟩ := h
        rw [Prod.mk.injEq, Option.some.injEq] at h2
        rw [← h2.1]
        exact hr _ _ _ h1
      · cases h
  · cases h

/-! ## Reading back what was put -/

theorem natOfBytes_be32 (w : BitVec 32) : natOfBytes (be32 w) = w.toNat := by
  have h := w.isLt
  simp only [natOfBytes, be32, List.foldl, BitVec.extractLsb'_toNat, Nat.shiftRight_eq_div_pow]
  omega

theorem natOfBytes_drop1 (w : BitVec 32) : natOfBytes ((be32 w).drop 1) = w.toNat % 2 ^ 24 := by
  have h := w.isLt
  simp only [natOfBytes, be32, List.foldl, List.drop, BitVec.extractLsb'_toNat, Nat.shiftRight_eq_div_pow]
  omega

theorem natOfBytes_drop2 (w : BitVec 32) : natOfBytes ((be32 w).drop 2) = w.toNat % 2 ^ 16 := by
  have h := w.isLt
  simp only [natOfBytes, be32, List.foldl, List.drop, BitVec.extractLsb'_toNat, Nat.shiftRight_eq_div_pow]
  omega

theorem natOfBytes_drop3 (w : BitVec 32) : natOfBytes ((be32 w).drop 3) = w.toNat % 2 ^ 8 := by
  have h := w.isLt
  simp only [natOfBytes, be32, List.foldl, List.drop, BitVec.extractLsb'_toNat, Nat.shiftRight_eq_div_pow]
  omega

/-- A field's bytes are as many as its width, and a value the field can carry is read from them. -/
theorem FieldShape.value_put (f : FieldShape) (hw : f.width = 1 ∨ f.width = 2 ∨ f.width = 3 ∨ f.width = 4) (v : Int)
    (hv : f.holds v = true) :
    ((be32 (BitVec.ofInt 32 v)).drop (4 - f.width)).length = f.width ∧
      f.value ((be32 (BitVec.ofInt 32 v)).drop (4 - f.width)) = v := by
  obtain ⟨w, sg⟩ := f
  have hn : ((BitVec.ofInt 32 v).toNat : Int) = v % 4294967296 := by
    rw [BitVec.toNat_ofInt]
    norm_num
    omega
  have hlt := (BitVec.ofInt 32 v).isLt
  simp only [FieldShape.holds, FieldShape.value] at *
  rcases hw with rfl | rfl | rfl | rfl <;> cases sg <;> refine ⟨rfl, ?_⟩ <;>
    simp only [Nat.reduceSub, List.drop_zero, natOfBytes_be32, natOfBytes_drop1, natOfBytes_drop2, natOfBytes_drop3,
      Bool.false_eq_true, ite_false, ite_true, false_and, true_and, decide_eq_true_eq, Nat.reduceMul, Nat.reducePow,
      Int.reducePow, Int.reduceNeg, Nat.reduceSub] at * <;>
    (try split) <;> omega

theorem fieldShape_width (lo hi : Int) :
    (fieldShape lo hi).width = 1 ∨ (fieldShape lo hi).width = 2 ∨ (fieldShape lo hi).width = 3 ∨
      (fieldShape lo hi).width = 4 := by
  unfold fieldShape
  (repeat' split) <;> simp

/-- A number of a field's range is read back from what was put for a field of the same shape. -/
theorem readInt_put {lo hi lo' hi' v : Int} (hs : fieldShape lo hi = fieldShape lo' hi')
    (hh : (fieldShape lo hi).holds v = true) (h1 : lo ≤ v) (h2 : v ≤ hi) (rest : List Byte) :
    readInt lo hi (putInt lo' hi' v ++ rest) = some (v, rest) := by
  obtain ⟨hl, hv⟩ := (fieldShape lo hi).value_put (fieldShape_width lo hi) v hh
  unfold readInt putInt
  simp only [← hs, hh, ite_true]
  rw [List.take_append_of_le_length (by rw [hl]), List.take_of_length_le (by rw [hl]), hv, if_pos]
  · rw [List.drop_append_of_le_length (by rw [hl]), List.drop_of_length_le (by rw [hl]), List.nil_append]
  · exact ⟨by rw [List.length_append, hl]; omega, h1, h2⟩

theorem readNat_put {lo hi hi' v : Nat} (hs : fieldShape lo hi = fieldShape 0 hi')
    (hh : (fieldShape lo hi).holds v = true) (h1 : lo ≤ v) (h2 : v ≤ hi) (rest : List Byte) :
    readNat lo hi (putNat hi' v ++ rest) = some (v, rest) := by
  unfold readNat putNat
  rw [Reader.bind_of (readInt_put hs hh (by omega) (by omega) rest)]
  rfl

theorem readOpt_put {α : Type} {read : Reader α} {put : α → List Byte} {o : Option α} (rest : List Byte)
    (h : ∀ v, o = some v → read (put v ++ rest) = some (v, rest)) :
    readOpt read (putOpt put o ++ rest) = some (o, rest) := by
  cases o with
  | none => rfl
  | some v =>
    show (read (put v ++ rest)).map _ = _
    rw [h v rfl]
    rfl

/-! ## The fields of the operand lists -/

theorem readNat_putByte {lo hi v : Nat} (h : hi ≤ 255) (h1 : lo ≤ v) (h2 : v ≤ hi) (rest : List Byte) :
    readNat lo hi (putByte v ++ rest) = some (v, rest) := by
  have hs : fieldShape lo hi = ⟨1, false⟩ := by
    unfold fieldShape
    rw [if_pos (by omega)]
  refine readNat_put (hi' := 255) hs ?_ h1 h2 rest
  rw [hs]
  simp [FieldShape.holds]
  omega

theorem readNat_putWord {lo hi hi' v : Nat} (h3 : 255 < hi) (h4 : hi ≤ 65535) (h5 : 255 < hi') (h6 : hi' ≤ 65535)
    (h1 : lo ≤ v) (h2 : v ≤ hi) (rest : List Byte) : readNat lo hi (putNat hi' v ++ rest) = some (v, rest) := by
  have hs : fieldShape lo hi = ⟨2, false⟩ := by
    unfold fieldShape
    rw [if_neg (by omega), if_neg (by omega), if_pos (by omega)]
  have hs' : fieldShape 0 hi' = ⟨2, false⟩ := by
    unfold fieldShape
    rw [if_neg (by omega), if_neg (by omega), if_pos (by omega)]
  refine readNat_put (hs.trans hs'.symm) ?_ h1 h2 rest
  rw [hs]
  simp [FieldShape.holds]
  omega

theorem readStation_put (i : StationIx) (rest : List Byte) : readStation (putByte i.val ++ rest) = some (i, rest) := by
  unfold readStation
  rw [Reader.bind_of (readNat_putByte (by omega) (by omega) (by omega) rest)]
  simp [Reader.pure_of]

theorem readGroup_put (g : GroupIx) (rest : List Byte) : readGroup (putGroup g ++ rest) = some (g, rest) := by
  unfold readGroup putGroup groupNumber
  rw [Reader.bind_of (readNat_putByte (by omega) (by omega) (by omega) rest)]
  simp [Reader.pure_of]

theorem readGroupOrNone_put (g : Option GroupIx) (rest : List Byte) :
    readGroupOrNone (putByte (groupOrNone g) ++ rest) = some (g, rest) := by
  unfold readGroupOrNone groupOrNone
  cases g with
  | none =>
    simp only
    rw [Reader.bind_of (readNat_putByte (by omega) (by omega) (by omega) rest)]
    rfl
  | some g =>
    simp only [groupNumber]
    rw [Reader.bind_of (readNat_putByte (by omega) (by omega) (by omega) rest)]
    simp [Reader.pure_of]

theorem putByte_eq (n : Nat) (h : n ≤ 255) : putByte n = [BitVec.ofNat 8 n] := by
  have k : ∀ n, n < 256 → putByte n = [BitVec.ofNat 8 n] := by decide +kernel
  exact k n (by omega)

theorem readEnum_put {α : Type} {values : List α} {n : Nat} {a : α} (h : values[n]? = some a) (hn : n ≤ 255)
    (rest : List Byte) : readEnum values (putByte n ++ rest) = some (a, rest) := by
  rw [putByte_eq n hn]
  simp only [List.cons_append, List.nil_append, readEnum, BitVec.toNat_ofNat]
  rw [Nat.mod_eq_of_lt (by omega), h]
  rfl

/-- What STW's reader reads is within the ranges of 2.1. -/
theorem readStw_inRange {bytes rest : List Byte} {o : StwOperands} (h : readStw bytes = some (o, rest)) : o.InRange := by
  unfold readStw at h
  obtain ⟨index, b1, _, h⟩ := (Reader.bind_some _ _ _ _).mp h
  obtain ⟨address, b2, h2, h⟩ := (Reader.bind_some _ _ _ _).mp h
  obtain ⟨group, b3, _, h⟩ := (Reader.bind_some _ _ _ _).mp h
  obtain ⟨role, b4, _, h⟩ := (Reader.bind_some _ _ _ _).mp h
  obtain ⟨share, b5, h5, h⟩ := (Reader.bind_some _ _ _ _).mp h
  obtain ⟨sign, b6, _, h⟩ := (Reader.bind_some _ _ _ _).mp h
  obtain ⟨_, h⟩ := (Reader.guard_some _ _ _ _).mp h
  obtain ⟨clamp, b7, h7, h⟩ := (Reader.bind_some _ _ _ _).mp h
  obtain ⟨headroom, b8, h8, h⟩ := (Reader.bind_some _ _ _ _).mp h
  obtain ⟨g8, h⟩ := (Reader.guard_some _ _ _ _).mp h
  obtain ⟨window, b9, h9, h⟩ := (Reader.bind_some _ _ _ _).mp h
  obtain ⟨overspeed, b10, h10, h⟩ := (Reader.bind_some _ _ _ _).mp h
  obtain ⟨limit, b11, h11, h⟩ := (Reader.bind_some _ _ _ _).mp h
  obtain ⟨hold, b12, h12, h⟩ := (Reader.bind_some _ _ _ _).mp h
  obtain ⟨g12, h⟩ := (Reader.guard_some _ _ _ _).mp h
  obtain ⟨offset, b13, h13, h⟩ := (Reader.bind_some _ _ _ _).mp h
  rw [Reader.pure_some, Prod.mk.injEq] at h
  have r2 := readNat_range h2
  have r5 := readNat_range h5
  have r7 := readNat_range h7
  have r8 := readNat_range h8
  have r9 := readNat_range h9
  have r10 := readInt_range h10
  have r11 := readNat_range h11
  have r13 := readOpt_range (P := fun v : Int => -3000 ≤ v ∧ v ≤ 3000) (fun _ _ _ e => readInt_range e) h13
  rw [h.1]
  refine ⟨?_, r5.2, r7, ⟨Nat.le_of_not_lt g8, r8.2⟩, r9.2, ?_, r11, by simp only; omega, rfl, r13⟩
  · simp only [BitVec.toNat_ofNat]
    omega
  · simp only
    omega

/-- What GRW's reader reads is within the ranges of 4.1. -/
theorem readGrw_inRange {bytes rest : List Byte} {o : GrwOperands} (h : readGrw bytes = some (o, rest)) : o.InRange := by
  unfold readGrw at h
  obtain ⟨group, b1, _, h⟩ := (Reader.bind_some _ _ _ _).mp h
  obtain ⟨gain, b2, h2, h⟩ := (Reader.bind_some _ _ _ _).mp h
  obtain ⟨trimLimit, b3, h3, h⟩ := (Reader.bind_some _ _ _ _).mp h
  obtain ⟨shareFloor, b4, h4, h⟩ := (Reader.bind_some _ _ _ _).mp h
  obtain ⟨shareWindow, b5, h5, h⟩ := (Reader.bind_some _ _ _ _).mp h
  obtain ⟨fightThreshold, b6, h6, h⟩ := (Reader.bind_some _ _ _ _).mp h
  obtain ⟨drawReference, b7, _, h⟩ := (Reader.bind_some _ _ _ _).mp h
  obtain ⟨g7, h⟩ := (Reader.guard_some _ _ _ _).mp h
  obtain ⟨drawTarget, b8, h8, h⟩ := (Reader.bind_some _ _ _ _).mp h
  obtain ⟨drawWindow, b9, h9, h⟩ := (Reader.bind_some _ _ _ _).mp h
  obtain ⟨alarmLimit, b10, h10, h⟩ := (Reader.bind_some _ _ _ _).mp h
  obtain ⟨alarmHold, b11, h11, h⟩ := (Reader.bind_some _ _ _ _).mp h
  obtain ⟨g11, h⟩ := (Reader.guard_some _ _ _ _).mp h
  obtain ⟨abortRamp, b12, h12, h⟩ := (Reader.bind_some _ _ _ _).mp h
  obtain ⟨blendWindow, b13, h13, h⟩ := (Reader.bind_some _ _ _ _).mp h
  obtain ⟨planFirst, b14, h14, h⟩ := (Reader.bind_some _ _ _ _).mp h
  obtain ⟨planLength, b15, h15, h⟩ := (Reader.bind_some _ _ _ _).mp h
  rw [Reader.pure_some, Prod.mk.injEq] at h
  have r8 := readOpt_range (P := fun v : Nat => 9000 ≤ v ∧ v ≤ 11000) (fun _ _ _ e => readNat_range e) h8
  have r10 := readNat_range h10
  rw [h.1]
  exact ⟨(readNat_range h2).2, (readNat_range h3).2, (readNat_range h4).2, readNat_range h5, (readNat_range h6).2, g7, r8,
    readNat_range h9, r10, Nat.le_of_not_lt g11, readNat_range h12, (readNat_range h13).2, (readNat_range h14).2,
    readNat_range h15⟩

end Sys2Proof.Machine
end

