-- ==== Sys2Proof/Laws/Steps.lean ====
section
/-! SUPPORT. What a command does to the bridge behind the ports, by the parts it is made of: an invariant of the bridge
that every part keeps is kept by every step. -/

namespace Sys2Proof.Machine

/-- The parts of which the commands are made, each keeping `P`. -/
structure PartsKeep (P : Bridge → Prop) : Prop where
  choices : ∀ b cs n, P b → P { b with choices := cs, choiceCount := n }
  number : ∀ b n, P b → P { b with tracker := { b.tracker with cycle := some n } }
  tracker : ∀ b p n, P b → P (b.trackerStep p n)
  boundary : ∀ b i p, P b → P (b.stationClose i p true)
  masters : ∀ b n slots, P b → P (b.recordMasters n slots)
  sent : ∀ b slots treated, P b → P (b.recordSent slots treated)
  opened : ∀ b, P b → P b.openCycle
  formed : ∀ b n, P b → P (b.formPending n)
  feedback : ∀ b a l, P b → P (b.takeFeedback a l)
  loss : ∀ b, P b → P b.cycleLoss
  deadline : ∀ b, P b → P b.deadlineExpiry
  time : ∀ b t d n, P b → (b.check.deadline.isSome = true ↔ d.isSome = true) →
    P { b with timeBase := n, tracker := { b.tracker with timer := t }, check := { b.check with deadline := d } }
  fall : ∀ b, P b → P ({ b with release := false }.bypassAll .release)
  rise : ∀ b, P b → P { b with release := true }
  reset : ∀ b c, P b → P (b.resetTo c)
  stw : ∀ b o, o.InRange → P b → P (stationWrite o b).2
  stc : ∀ b i, P b → P (stationClear i b).2
  cnr : ∀ b i, P b → P (conditionsRead i b).2
  grw : ∀ b o, o.InRange → P b → P (groupWrite o b).2
  omw : ∀ b m, P b → P (maskWrite m b).2
  sgw : ∀ b o, P b → P (stageWrite o b).2
  pls : ∀ b t g, P b → P (planStart t g b).2
  plh : ∀ b g, P b → P (planHold g b).2
  plr : ∀ b g, P b → P (planResume g b).2
  plc : ∀ b g, P b → P (planConfirm g b).2
  pla : ∀ b g, P b → P (planAbort g b).2
  gst : ∀ b g, P b → P (groupState g b).2
  pbs : ∀ b t o, P b → P (probeStart t o b).2
  pbc : ∀ b p, P b → P (probeCancel p b).2
  pbr : ∀ b p, P b → P (probeRead p b).2
  cks : ∀ b w, P b → P (checkStart w b).2
  cka : ∀ b t a, P b → P (checkAnswer t a b).2
  ckx : ∀ b, P b → P (checkStop b).2
  tpc : ∀ b, P b → P (tripClear b).2
  evr : ∀ b n, P b → P (eventsRead n b).2
  lkw : ∀ b n, P b → P (linkWrite n b).2

/-- A service that keeps `P` for every operand keeps it for the whole command. -/
theorem serve_keeps_bridge {α : Type} {read : Reader α} {f : α → Service} (P : Bridge → Prop)
    (hf : ∀ b a, P b → P (f a b).2) (s : State) (src tag code : Byte) (operands : List Byte) (h : P s.bridge) :
    P (s.serve src tag code (withOperands read operands f)).bridge :=
  State.serve_bridge P h (withOperands_keeps P h fun a _ => hf _ a h)

/-- What the acts of a Cycle Frame arrival keep, the arrival keeps. -/
theorem PartsKeep.cycle {P : Bridge → Prop} (h : PartsKeep P) (c : CycleContext) (x : Link × Bridge) (hx : P x.2) :
    P (beginCycle c x).2 := by
  have key : ∀ n rest (y : Link × Bridge), P y.2 →
      P (inFreeOrder cycleReady (fun n (y : Link × Bridge) => ((y.2.choose n).1, (y.1, (y.2.choose n).2))) (cycleAct c)
        n rest y).2 := by
    intro n rest y hy
    refine inFreeOrder_induction (fun y : Link × Bridge => P y.2) _ _ _ (fun n y hc => ?_) (fun a y hc => ?_) _ _ _ hy
    · show P (y.2.choose n).2
      rw [y.2.choose_eq]
      exact h.choices _ _ _ hc
    · cases a with
      | tracker => exact h.tracker _ _ _ hc
      | boundary i =>
        unfold cycleAct
        cases c.previous with
        | none => exact hc
        | some p => exact h.boundary _ _ _ hc
      | record => exact h.masters _ _ _ hc
      | treat => exact h.sent _ _ _ hc
      | status => exact hc
  exact h.formed _ _ (h.opened _ (key _ _ _ (h.number _ _ hx)))

/-- What every part keeps, every command keeps. -/
theorem PartsKeep.exec {P : Bridge → Prop} (h : PartsKeep P) {c : Instr} {s t : State} (hs : P s.bridge)
    (ht : exec c s = .next t) : P t.bridge := by
  have same : ∀ (s : State) src tag code f, P s.bridge → (∀ b, P b → P (f b).2) → P (s.serve src tag code f).bridge :=
    fun s src tag code f hp hf => State.serve_bridge P hp (hf _ hp)
  cases c with
  | cycleFrameArrival dst src n slots =>
    simp only [Machine.exec, execCycleFrameArrival, Host.Outcome.next.injEq] at ht
    subst ht
    split
    · exact hs
    · split
      · exact hs
      · exact h.cycle _ _ hs
  | feedbackFrameArrival dst src n speed torque status tag =>
    simp only [Machine.exec, execFeedbackFrameArrival, Host.Outcome.next.injEq] at ht
    subst ht
    split
    · exact hs
    · exact h.feedback _ _ _ hs
  | frameForwarded port f =>
    simp only [Machine.exec, execFrameForwarded, Host.Outcome.next.injEq] at ht
    subst ht
    (repeat' split) <;> exact hs
  | frameError port f =>
    simp only [Machine.exec, execFrameError, Host.Outcome.next.injEq] at ht
    subst ht
    split <;> exact hs
  | frameDiscardedResetPending port f => cases ht; exact hs
  | requestDiscarded src body =>
    cases ht
    exact State.offer_induction (fun t : State => P t.bridge) hs (fun _ => hs) hs
  | unknownService src body =>
    simp only [Machine.exec, execUnknownService, Host.Outcome.next.injEq] at ht
    subst ht
    split
    · exact hs
    · exact same _ _ _ _ _ hs fun _ hb => hb
  | drivePortTransmissionEnd => cases ht; exact hs
  | linePortTransmissionEnd =>
    simp only [Machine.exec, execLinePortTransmissionEnd, Host.Outcome.next.injEq] at ht
    subst ht
    split
    · exact h.reset _ _ hs
    · exact hs
  | cycleLossExpiry => cases ht; exact h.loss _ hs
  | checkDeadlineExpiry => cases ht; exact h.deadline _ hs
  | releaseFall =>
    simp only [Machine.exec, execReleaseFall, Host.Outcome.next.injEq] at ht
    subst ht
    split
    · rw [State.withBridge_bridge]
      exact h.fall s.bridge hs
    · exact hs
  | releaseRise => cases ht; exact h.rise _ hs
  | pinResetAssert =>
    simp only [Machine.exec, execPinResetAssert, Host.Outcome.next.injEq] at ht
    subst ht
    split
    · exact hs
    · have hr : s.bridge.resetTo .full = s.bridge.resetFull := rfl
      simp only
      rw [← hr]
      exact h.reset s.bridge .full hs
  | pinResetRelease =>
    simp only [Machine.exec, execPinResetRelease, Host.Outcome.next.injEq] at ht
    subst ht
    split <;> exact hs
  | stw src tag ops =>
    cases ht
    exact State.serve_bridge P hs
      (withOperands_keeps P hs fun o e => h.stw _ o (readStw_inRange (decodeOperands_some.mp e)) hs)
  | str src tag ops => cases ht; exact serve_keeps_bridge P (fun _ _ hb => hb) s src tag _ ops hs
  | stc src tag ops => cases ht; exact serve_keeps_bridge P h.stc s src tag _ ops hs
  | cnr src tag ops => cases ht; exact serve_keeps_bridge P h.cnr s src tag _ ops hs
  | grw src tag ops =>
    cases ht
    exact State.serve_bridge P hs
      (withOperands_keeps P hs fun o e => h.grw _ o (readGrw_inRange (decodeOperands_some.mp e)) hs)
  | grr src tag ops => cases ht; exact serve_keeps_bridge P (fun _ _ hb => hb) s src tag _ ops hs
  | omw src tag ops => cases ht; exact serve_keeps_bridge P h.omw s src tag _ ops hs
  | omr src tag ops => cases ht; exact serve_keeps_bridge P (fun _ _ hb => hb) s src tag _ ops hs
  | sgw src tag ops => cases ht; exact serve_keeps_bridge P h.sgw s src tag _ ops hs
  | sgr src tag ops => cases ht; exact serve_keeps_bridge P (fun _ _ hb => hb) s src tag _ ops hs
  | pls src tag ops => cases ht; exact serve_keeps_bridge P (fun b g => h.pls b tag g) s src tag _ ops hs
  | plh src tag ops => cases ht; exact serve_keeps_bridge P h.plh s src tag _ ops hs
  | plr src tag ops => cases ht; exact serve_keeps_bridge P h.plr s src tag _ ops hs
  | plc src tag ops => cases ht; exact serve_keeps_bridge P h.plc s src tag _ ops hs
  | pla src tag ops => cases ht; exact serve_keeps_bridge P h.pla s src tag _ ops hs
  | gst src tag ops => cases ht; exact serve_keeps_bridge P h.gst s src tag _ ops hs
  | pbs src tag ops => cases ht; exact serve_keeps_bridge P (fun b o => h.pbs b tag o) s src tag _ ops hs
  | pbc src tag ops => cases ht; exact serve_keeps_bridge P h.pbc s src tag _ ops hs
  | pbr src tag ops => cases ht; exact serve_keeps_bridge P h.pbr s src tag _ ops hs
  | cks src tag ops => cases ht; exact serve_keeps_bridge P h.cks s src tag _ ops hs
  | cka src tag ops => cases ht; exact serve_keeps_bridge P (fun b a => h.cka b tag a) s src tag _ ops hs
  | ckx src tag ops => cases ht; exact serve_keeps_bridge P (fun b _ => h.ckx b) s src tag _ ops hs
  | tpc src tag ops => cases ht; exact serve_keeps_bridge P (fun b _ => h.tpc b) s src tag _ ops hs
  | evr src tag ops => cases ht; exact serve_keeps_bridge P h.evr s src tag _ ops hs
  | lkw src tag ops => cases ht; exact serve_keeps_bridge P h.lkw s src tag _ ops hs
  | idr src tag ops => cases ht; exact serve_keeps_bridge P (fun _ _ hb => hb) s src tag _ ops hs
  | brs src tag ops =>
    simp only [Machine.exec, execBrs, Host.Outcome.next.injEq] at ht
    subst ht
    split
    · exact State.offer_induction (fun t : State => P t.bridge) hs (fun _ => hs) hs
    · exact same _ _ _ _ _ hs fun _ hb => hb

/-- What every part keeps, a microsecond keeps. -/
theorem PartsKeep.microsecond {P : Bridge → Prop} (h : PartsKeep P) (b : Bridge) (hb : P b) : P b.microsecond := by
  unfold Bridge.microsecond
  refine inFreeOrder_induction P _ _ _ (fun n c hc => ?_) (fun a c hc => ?_) _ _ _ ?_
  · rw [c.choose_eq]
    exact h.choices _ _ _ hc
  · cases a with
    | loss => exact h.loss _ hc
    | deadline => exact h.deadline _ hc
  · exact h.time _ _ _ _ hb (by simp)

/-- What every part keeps, every step keeps. -/
theorem PartsKeep.step {P : Bridge → Prop} (h : PartsKeep P) {s t : State} (hs : P s.bridge)
    (ht : step s = .next t) : P t.bridge := by
  unfold Machine.step at ht
  split at ht
  · cases ht
    unfold State.tick
    split
    · exact hs
    · exact h.microsecond _ hs
  · rename_i c rest _
    exact h.exec (c := c) (s := { s with pending := rest }) hs ht

end Sys2Proof.Machine
end

