-- ==== Sys2Proof/Laws/Invariants.lean ====
section
/-! SUPPORT. Invariants of the tables: what an invariant has to keep so that every part of every command keeps it. Work of
the Group Controller and changes of what the tables do not hold are done once here for all of them. -/

namespace Sys2Proof.Machine

/-- The part of an entry that the invariants of the tables read. -/
structure EntryPart where
  group : Option GroupIx
  address : Byte
  limit : Nat
  hold : Nat
  validity : Validity
  counter : Nat
  trim : Int
  deriving DecidableEq, Repr

def Station.part (st : Station) : EntryPart :=
  ⟨st.config.group, st.config.address, st.config.limit, st.config.hold, st.run.validity, st.run.counter, st.run.trim⟩

/-- The two bridges hold the same tables, as far as their invariants read them. -/
structure Alike (b c : Bridge) : Prop where
  stations : ∀ i, (c.station i).map Station.part = (b.station i).map Station.part
  records : ∀ g, (c.group g).record = (b.group g).record
  alarms : ∀ g, (c.group g).alarmCounter = (b.group g).alarmCounter
  probes : ∀ p, c.probe p = b.probe p
  state : c.check.state = b.check.state
  window : c.check.window = b.check.window
  reason : c.check.reason = b.check.reason
  deadline : c.check.deadline.isSome = b.check.deadline.isSome
  console : c.trip.console = b.trip.console
  runaway : c.trip.runaway = b.trip.runaway
  events : b.events.length ≤ 64 → c.events.length ≤ 64
  marks : ∀ i y, c.station i = some y → y.run.mark = .isOpen → y.run.fresh = true →
    ∃ x, b.station i = some x ∧ x.run.mark = .isOpen ∧ x.run.fresh = true

namespace Alike

theorem ofSame {b c : Bridge} (stations : c.stations = b.stations) (groups : c.groups = b.groups)
    (probe1 : c.probe1 = b.probe1) (probe2 : c.probe2 = b.probe2) (check : c.check = b.check) (trip : c.trip = b.trip)
    (events : c.events = b.events) : Alike b c where
  stations i := by rw [Bridge.station_congr stations]
  marks i y hy h1 h2 := ⟨y, (Bridge.station_congr stations i).symm.trans hy, h1, h2⟩
  records g := by rw [Bridge.group_congr groups]
  alarms g := by rw [Bridge.group_congr groups]
  probes p := by cases p; exacts [probe1, probe2]
  state := by rw [check]
  window := by rw [check]
  reason := by rw [check]
  deadline := by rw [check]
  console := by rw [trip]
  runaway := by rw [trip]
  events h := by rw [events]; exact h

theorem ofStations {b c : Bridge} (stations : ∀ i, (c.station i).map Station.part = (b.station i).map Station.part)
    (marks : ∀ i y, c.station i = some y → y.run.mark = .isOpen → y.run.fresh = true →
      ∃ x, b.station i = some x ∧ x.run.mark = .isOpen ∧ x.run.fresh = true)
    (groups : c.groups = b.groups) (probe1 : c.probe1 = b.probe1) (probe2 : c.probe2 = b.probe2)
    (check : c.check = b.check) (trip : c.trip = b.trip) (events : c.events = b.events) : Alike b c where
  stations := stations
  marks := marks
  records g := by rw [Bridge.group_congr groups]
  alarms g := by rw [Bridge.group_congr groups]
  probes p := by cases p; exacts [probe1, probe2]
  state := by rw [check]
  window := by rw [check]
  reason := by rw [check]
  deadline := by rw [check]
  console := by rw [trip]
  runaway := by rw [trip]
  events h := by rw [events]; exact h

theorem mapGroups (b : Bridge) (f : GroupIx → DriveGroup → DriveGroup) (hr : ∀ g x, (f g x).record = x.record)
    (ha : ∀ g x, (f g x).alarmCounter = x.alarmCounter) : Alike b (b.mapGroups f) where
  stations i := by rw [Bridge.station_mapGroups]
  marks i y hy h1 h2 := ⟨y, (Bridge.station_mapGroups b f i).symm.trans hy, h1, h2⟩
  records g := by rw [Bridge.group_mapGroups, hr]
  alarms g := by rw [Bridge.group_mapGroups, ha]
  probes p := by rw [Bridge.probe_mapGroups]
  state := by simp
  window := by simp
  reason := by simp
  deadline := by simp
  console := by simp
  runaway := by simp
  events := by simp

theorem setStation (b : Bridge) (i : StationIx) (x y : Station) (h : b.station i = some x) (hp : y.part = x.part)
    (hm : y.run.mark = .isOpen → y.run.fresh = true → x.run.mark = .isOpen ∧ x.run.fresh = true) :
    Alike b (b.setStation i (some y)) := by
  refine ofStations (fun j => ?_) (fun j z hz h1 h2 => ?_) rfl rfl rfl rfl rfl rfl
  rw [Bridge.station_setStation]
  split
  · rename_i e
    subst e
    rw [h]
    simp [hp]
  · rfl
  · rw [Bridge.station_setStation] at hz
    split at hz
    · rename_i e
      subst e
      cases hz
      exact ⟨x, h, hm h1 h2⟩
    · exact ⟨z, hz, h1, h2⟩

theorem mapStations (b : Bridge) (f : StationIx → Station → Station) (hp : ∀ i x, (f i x).part = x.part)
    (hm : ∀ i x, (f i x).run.mark = .isOpen → (f i x).run.fresh = true → x.run.mark = .isOpen ∧ x.run.fresh = true) :
    Alike b (b.mapStations f) := by
  refine ofStations (fun j => ?_) (fun j z hz h1 h2 => ?_) (by simp) (by simp) (by simp) (by simp) (by simp) (by simp)
  · rw [Bridge.station_mapStations, Option.map_map]
    cases b.station j with
    | none => rfl
    | some x => simp [hp]
  · rw [Bridge.station_mapStations] at hz
    cases hb : b.station j with
    | none => rw [hb] at hz; cases hz
    | some x =>
      rw [hb, Option.map_some, Option.some.injEq] at hz
      subst hz
      exact ⟨x, rfl, hm j x h1 h2⟩

end Alike

/-- CHECK_FAILED is posted and CONSOLE sent to the Trip Unit: nothing else changes. -/
theorem Bridge.sendConsole_eq (b : Bridge) (e : Event) :
    (b.append e).sendTrip .console =
        { b with
          trip := { b.trip with console := true }, events := ((b.append e).sendTrip .console).events
          eventsLost := ((b.append e).sendTrip .console).eventsLost } ∧
      (b.events.length ≤ 64 → ((b.append e).sendTrip .console).events.length ≤ 64) := by
  unfold Bridge.sendTrip Bridge.post
  have e1 := b.append_eq e
  have l1 := b.append_bound e
  generalize b.append e = q at e1 l1 ⊢
  split
  · refine ⟨?_, l1⟩
    conv_lhs => rw [e1]
    rw [e1]
    rfl
  · have e2 := q.append_eq ⟨.tripOpened, q.tracker.cycle, none, none, none, none, some .console⟩
    have l2 := q.append_bound ⟨.tripOpened, q.tracker.cycle, none, none, none, none, some .console⟩
    generalize q.append _ = w at e2 l2 ⊢
    refine ⟨?_, fun h => l2 (l1 h)⟩
    conv_lhs => rw [e2, e1]
    rw [e1]
    rfl

/-- The entry a passed STW or STC leaves (R28, R29, R30, R32). -/
inductive Fits (b : Bridge) : StationIx → Option Station → Prop where
  | cleared (i : StationIx) (h : isFatal (b.station i) = false) : Fits b i none
  | written (o : StwOperands) (h : o.InRange) (hc : b.stwConflict o = false)
      (hf : movesStation (b.station o.index) o.config.address = true → isFatal (b.station o.index) = false) :
      Fits b o.index (some (writtenStation (b.station o.index) o.config o.offset))

/-- What an invariant of the tables keeps. -/
structure TablesKeep (P : Bridge → Prop) : Prop where
  work : ∀ b c, GroupWork (fun _ => True) b c → P b → P c
  alike : ∀ b c, Alike b c → P b → P c
  closed : ∀ (b m : Bridge) i st boundary, b.station i = some st →
    m = { b.setStation i (some { st with run := st.run.closed st.config boundary }) with
      events := m.events, eventsLost := m.eventsLost, trip := m.trip } →
    m.trip.console = b.trip.console →
    (m.trip.runaway = true ↔ b.trip.runaway = true ∨
      transitionOf st.run.validity (st.run.closed st.config boundary).validity = some .fatal) →
    (b.events.length ≤ 64 → m.events.length ≤ 64) → P b → P m
  failed : ∀ (b c : Bridge) reason, b.check.state = .running →
    c = { b with
      check := { b.check with state := .failed, deadline := none, reason := some reason }
      trip := { b.trip with console := true }, events := c.events, eventsLost := c.eventsLost } →
    (b.events.length ≤ 64 → c.events.length ≤ 64) → P b → P c
  entry : ∀ b i x, Fits b i x → P b → P (b.setStation i x)
  record : ∀ b (o : GrwOperands), o.InRange → P b →
    P ((b.setGroup o.group { b.group o.group with record := o.record }).clampTrims o.group)
  reset : ∀ b c, P b → P (b.resetTo c)
  cks : ∀ b w, P b → P (checkStart w b).2
  advance : ∀ (b : Bridge) w, b.check.state = .running → P b → P { b with check := b.check.advance.restart w }
  ckx : ∀ b, P b → P (checkStop b).2

namespace TablesKeep

variable {P : Bridge → Prop}

theorem append (h : TablesKeep P) (b : Bridge) (e : Event) (hb : P b) : P (b.append e) :=
  h.work _ _ (GroupWork.append b e) hb

theorem loseSync (h : TablesKeep P) (b : Bridge) (hb : P b) : P b.loseSync := by
  unfold Bridge.loseSync
  refine h.work _ _ (GroupWork.bypassAll _ _) (h.append _ _ (h.alike b _ ?_ hb))
  exact Alike.ofSame rfl rfl rfl rfl rfl rfl rfl

theorem stationClose (h : TablesKeep P) (b : Bridge) (i : StationIx) (c : CycleNo) (d : Bool) (hb : P b) :
    P (b.stationClose i c d) := by
  cases hs : b.station i with
  | none =>
    unfold Bridge.stationClose
    rw [hs]
    exact hb
  | some st =>
    obtain ⟨m, h1, h2, _, h4, h5, h6⟩ := Bridge.stationClose_eq hs c d
    rw [h6]
    exact h.work _ _ ((GroupWork.handOn m _ _).mono fun _ _ => trivial) (h.closed b m i st d hs h1 h2 h4 h5 hb)

theorem failCheck (h : TablesKeep P) (b : Bridge) (r : FailureReason) (t : Option Byte) (hr : b.check.state = .running)
    (hb : P b) : P (b.failCheck r t) := by
  unfold Bridge.failCheck
  simp only
  refine h.work _ _ (GroupWork.bypassAll _ _) (h.failed b _ r hr ?_ ?_ hb)
  · exact (Bridge.sendConsole_eq _ _).1
  · exact fun e => (Bridge.sendConsole_eq
      { b with check := { b.check with state := .failed, deadline := none, reason := some r } } _).2 e

theorem writeEntry (h : TablesKeep P) (b : Bridge) (i : StationIx) (x : Option Station) (r : Bool) (hx : Fits b i x)
    (hb : P b) : P (b.writeEntry i x r) := by
  unfold Bridge.writeEntry Bridge.leaves Bridge.dropReferences
  simp only
  have h1 := h.alike _ _ (Alike.mapGroups (b.setStation i x)
    (fun g y => if (b.setStation i x).leader g ≠ b.leader g ∨ (r = true ∧ b.leader g = some i) then
      { y with masterRef := none } else y)
    (fun g x => by split <;> rfl) fun g x => by split <;> rfl) (h.entry b i x hx hb)
  split
  · exact h.work _ _ ((GroupWork.leaveGroup _ _ i).mono fun _ _ => trivial) h1
  · exact h1

/-- An invariant of the tables is kept by every part of every command. -/
theorem parts (h : TablesKeep P) : PartsKeep P where
  choices b cs n hb := h.alike b _ (Alike.ofSame rfl rfl rfl rfl rfl rfl rfl) hb
  number b n hb := h.alike b _ (Alike.ofSame rfl rfl rfl rfl rfl rfl rfl) hb
  tracker b p n hb := by
    have k : ∀ t, P { b with tracker := t } := fun t => h.alike b _ (Alike.ofSame rfl rfl rfl rfl rfl rfl rfl) hb
    unfold Bridge.trackerStep
    simp only
    split
    · split
      · split
        · exact h.append _ _ (k _)
        · exact k _
      · exact k _
    · split
      · exact k _
      · exact h.loseSync _ (k _)
  boundary b i p hb := h.stationClose b i p true hb
  masters b n slots hb := by
    unfold Bridge.recordMasters
    refine h.alike b _ (Alike.mapGroups b _ (fun g x => ?_) fun g x => ?_) hb <;> split <;> rfl
  sent b slots treated hb := by
    refine h.alike b _ (Alike.ofStations (fun i => ?_) (fun i y hy h1 h2 => ?_) (by simp [Bridge.recordSent]) (by simp [Bridge.recordSent])
      (by simp [Bridge.recordSent]) (by simp [Bridge.recordSent]) (by simp [Bridge.recordSent])
      (by simp [Bridge.recordSent])) hb
    · rw [Bridge.recordSent_station, Option.map_map]
      rfl
    · rw [Bridge.recordSent_station] at hy
      cases hs : b.station i with
      | none => rw [hs] at hy; cases hy
      | some x =>
        rw [hs, Option.map_some, Option.some.injEq] at hy
        subst hy
        exact ⟨x, rfl, h1, h2⟩
  opened b hb := h.alike b _ (Alike.mapStations b _ (fun _ _ => rfl) fun _ _ _ h2 => (by cases h2)) hb
  formed b n hb := h.alike b _ (Alike.mapGroups b _ (fun _ _ => rfl) fun _ _ => rfl) hb
  feedback b a l hb := by
    unfold Bridge.takeFeedback
    split
    · exact hb
    · split
      · exact hb
      · rename_i i _ _ st hs
        simp only
        have k := h.alike b _ (Alike.setStation b i st
          { st with run := st.run.feedback (decide (b.tracker.cycle = some l.cycle)) l } hs (by
            unfold StationRun.feedback
            (repeat' split) <;> rfl) (by
            unfold StationRun.feedback
            (repeat' split) <;> simp_all)) hb
        split
        · exact h.stationClose _ _ _ _ k
        · exact k
  loss b hb := by
    unfold Bridge.cycleLoss
    have k : ∀ t, P { b with tracker := t } := fun t => h.alike b _ (Alike.ofSame rfl rfl rfl rfl rfl rfl rfl) hb
    split
    · simp only
      split
      · exact h.loseSync _ (k _)
      · exact k _
    · exact hb
  deadline b hb := by
    unfold Bridge.deadlineExpiry
    split
    · rename_i hr
      exact h.failCheck b _ _ hr.1 hb
    · exact hb
  time b t d n hb hd := by
    refine h.alike b _ ?_ hb
    exact ⟨fun _ => rfl, fun _ => rfl, fun _ => rfl, fun p => by cases p <;> rfl, rfl, rfl, rfl,
      (Bool.eq_iff_iff.mpr hd).symm, rfl, rfl, id, fun _ y hy h1 h2 => ⟨y, hy, h1, h2⟩⟩
  fall b hb := by
    refine h.work _ _ (GroupWork.bypassAll _ _) ?_
    exact h.alike b { b with release := false } (Alike.ofSame rfl rfl rfl rfl rfl rfl rfl) hb
  rise b hb := h.alike b _ (Alike.ofSame rfl rfl rfl rfl rfl rfl rfl) hb
  reset := h.reset
  stw b o ho hb := by
    unfold stationWrite
    simp only
    (repeat' split)
    · exact hb
    · exact hb
    · exact hb
    · exact hb
    · rename_i hc _ _ hf
      refine h.writeEntry b _ _ _ (.written o ho (by simpa using hc) fun e => ?_) hb
      simpa [e] using hf
  stc b i hb := by
    unfold stationClear
    simp only
    (repeat' split)
    · exact hb
    · exact hb
    · exact hb
    · exact hb
    · rename_i hf
      unfold Bridge.clearEntry
      have k : P { b with treatments := b.treatments.set i none } :=
        h.alike b _ (Alike.ofSame rfl rfl rfl rfl rfl rfl rfl) hb
      exact h.writeEntry _ _ _ _ (.cleared i (Bool.eq_false_iff.mpr hf)) k
  cnr b i hb := by
    unfold conditionsRead
    split
    · exact hb
    · rename_i st hs
      exact h.alike b _ (Alike.setStation b i st _ hs rfl fun h1 h2 => ⟨h1, h2⟩) hb
  grw b o ho hb := by
    unfold groupWrite
    split
    · exact hb
    · exact h.record b o ho hb
  omw b m hb := by
    unfold maskWrite
    refine h.work _ _ (GroupWork.foldGroups _ (fun b g => ?_) _ _)
      (h.alike b { b with mask := m } (Alike.ofSame rfl rfl rfl rfl rfl rfl rfl) hb)
    unfold Bridge.maskFault
    split
    · exact GroupWork.refl b
    · split
      · exact (GroupWork.fault b g _ _ _).mono fun _ _ => trivial
      · exact GroupWork.refl b
  sgw b o hb := by
    unfold stageWrite
    split
    · exact hb
    · exact h.alike b _ (Alike.ofSame rfl rfl rfl rfl rfl rfl rfl) hb
  pls b tag g hb := by
    unfold planStart
    split
    · exact hb
    · exact h.work _ _ (((GroupWork.modifyGroup b g _ rfl rfl rfl).trans (GroupWork.enterStage _ g _)).mono
        fun _ _ => trivial) hb
  plh b g hb := by
    unfold planHold
    split
    · unfold Bridge.holdPlan
      simp only
      have k := h.work _ _ ((GroupWork.modifyGroup b g (fun x => { x with runState := .held }) rfl rfl rfl).mono
        fun _ _ => trivial) hb
      split
      · exact h.work _ _ (((GroupWork.releaseProbe _ g).trans (GroupWork.resettle _ g)).mono fun _ _ => trivial) k
      · exact k
    · exact hb
  plr b g hb := by
    unfold planResume
    (repeat' split)
    · exact hb
    · exact hb
    · exact h.work b (b.modifyGroup g fun x => { x with runState := .running })
        ((GroupWork.modifyGroup b g _ rfl rfl rfl).mono fun _ _ => trivial) hb
    · exact hb
  plc b g hb := by
    unfold planConfirm
    (repeat' split)
    · exact hb
    · exact hb
    · exact h.work _ _ ((GroupWork.endStage b g).mono fun _ _ => trivial) hb
  pla b g hb := by
    unfold planAbort Bridge.planAbort
    have ab : P (b.abortPlan g) := by
      unfold Bridge.abortPlan
      split
      · exact h.work _ _ (((GroupWork.modifyGroup b g _ rfl rfl rfl).trans (GroupWork.releaseProbe _ g)).mono
          fun _ _ => trivial) hb
      · exact h.work _ _ ((((GroupWork.postGroup b _ g _ _ _).trans (GroupWork.modifyGroup _ g _ rfl rfl rfl)).trans
          (GroupWork.releaseProbe _ g)).mono fun _ _ => trivial) hb
    simp only
    split
    · exact ab
    · exact ab
    · exact h.work _ _ ((GroupWork.modifyGroup b g _ rfl rfl rfl).mono fun _ _ => trivial) hb
    · exact h.work _ _ ((GroupWork.modifyGroup b g _ rfl rfl rfl).mono fun _ _ => trivial) hb
    · exact h.work _ _ ((GroupWork.modifyGroup b g _ rfl rfl rfl).mono fun _ _ => trivial) hb
    · exact hb
    · exact hb
  gst b g hb :=
    h.work b (b.modifyGroup g fun x => { x with draw := x.draw.cleared, shareSuspended := x.shareSuspended.cleared })
      ((GroupWork.modifyGroup b g _ rfl rfl rfl).mono fun _ _ => trivial) hb
  pbs b tag o hb := by
    unfold probeStart
    (repeat' split)
    · exact hb
    · exact hb
    · exact h.work _ _ (GroupWork.setProbe b _ _ fun _ => ⟨by simp [startedProbe], fun _ => rfl⟩) hb
  pbc b p hb := by
    unfold probeCancel
    (repeat' split)
    · exact hb
    · exact hb
    · exact h.work _ _ ((GroupWork.cancelRun b p).trans (GroupWork.probeFreed _ p)) hb
  pbr b p hb := by
    unfold probeRead
    simp only
    split
    · exact hb
    · exact h.work _ _ ((GroupWork.idleProbe b p).trans (GroupWork.probeFreed _ p)) hb
    · exact hb
  cks := h.cks
  cka b tag a hb := by
    unfold checkAnswer
    split
    · rename_i hr
      split
      · exact h.advance b _ hr hb
      · have k := h.failCheck b .wrongAnswer (some tag) hr hb
        simp only
        exact k
    · exact hb
    · exact hb
    · exact hb
  ckx := h.ckx
  tpc b hb := by
    unfold tripClear Bridge.clearStageTrip
    simp only
    split
    · split
      · exact h.work b _ (GroupWork.ofSame _ _ rfl rfl rfl rfl rfl rfl rfl rfl rfl (fun _ => rfl) (fun _ => rfl)
          (fun p => by cases p <;> rfl) (Posted.same rfl rfl)) hb
      · refine h.work _ { b.post .tripClosed with trip := { b.trip with stage := false } }
          (GroupWork.trans (GroupWork.append b _) (GroupWork.ofSame _ _ rfl rfl rfl rfl rfl rfl rfl ?_ ?_
            (fun _ => rfl) (fun _ => rfl) (fun p => by cases p <;> rfl) (Posted.same rfl rfl))) hb <;> simp
    · exact hb
  evr b n hb := by
    have k := Alike.ofSame (b := b) (c := { b with eventsLost := (b.drainEvents n).eventsLost }) rfl rfl rfl rfl rfl rfl rfl
    refine h.alike b (b.drainEvents n) { k with events := fun e => ?_ } hb
    simp only [Bridge.drainEvents, List.length_drop]
    omega
  lkw b n hb := h.alike b _ (Alike.ofSame rfl rfl rfl rfl rfl rfl rfl) hb

end TablesKeep

end Sys2Proof.Machine
end

