-- ==== Sys2Proof/Laws/Queues.lean ====
section
/-! SUPPORT. The queues of the link keep their bounds under every operation on the link, and the Event Queue keeps its
bound under every command. -/

namespace Sys2Proof.Machine

/-! ## The link -/

/-- What the bounds read: the queues, the transmitters. -/
theorem Link.Sound.congr {l m : Link} (h : l.Sound) (h1 : m.driveQueue = l.driveQueue) (h2 : m.driveTx = l.driveTx)
    (h3 : m.forwardQueue = l.forwardQueue) (h4 : m.localQueue = l.localQueue) (h5 : m.lineTx = l.lineTx) : m.Sound where
  drive := by rw [h1]; exact h.drive
  driveIdle := by rw [h1, h2]; exact h.driveIdle
  forward := by rw [h3]; exact h.forward
  replies := by unfold Link.waitingReplies; rw [h4]; exact h.replies
  status := by rw [h4]; exact h.status
  lineIdle := by rw [h3, h4, h5]; exact h.lineIdle

theorem Link.Sound.mapFlags {l : Link} (h : l.Sound) (f : PortFlag → PortFlag) : (l.mapFlags f).Sound :=
  h.congr rfl rfl rfl rfl rfl

theorem Link.Sound.latchError {l : Link} (h : l.Sound) (p : Port) : (l.latchError p).Sound := by
  cases p <;> exact h.congr rfl rfl rfl rfl rfl

theorem Link.Sound.sendDown {l : Link} (h : l.Sound) (f : Frame) : (l.sendDown f).Sound := by
  rw [Link.sendDown_eq]
  split
  · exact ⟨h.drive, fun e => (by cases e), h.forward, h.replies, h.status, h.lineIdle⟩
  · rename_i hb
    split
    · rename_i hl
      exact ⟨by simp only [List.length_append, List.length_cons, List.length_nil]; omega, fun e => absurd e hb,
        h.forward, h.replies, h.status, h.lineIdle⟩
    · exact h.congr rfl rfl rfl rfl rfl

theorem Link.Sound.driveEnd {l : Link} (h : l.Sound) : l.driveEnd.Sound := by
  unfold Link.driveEnd
  split
  · exact h
  · rename_i hq
    exact ⟨h.drive, fun _ => hq, h.forward, h.replies, h.status, h.lineIdle⟩
  · rename_i hq
    have := h.drive
    rw [hq, List.length_cons] at this
    exact ⟨by simp only; omega, fun e => (by cases e), h.forward, h.replies, h.status, h.lineIdle⟩

theorem Link.Sound.sendUp {l : Link} (h : l.Sound) (f : Frame) : (l.sendUp f).Sound := by
  rw [Link.sendUp_eq h]
  split
  · exact h.congr rfl rfl rfl rfl rfl
  · split
    · exact ⟨h.drive, h.driveIdle, h.forward, h.replies, h.status, fun e => (by cases e)⟩
    · rename_i h1 h2
      exact ⟨h.drive, h.driveIdle, by simp only [List.length_append, List.length_cons, List.length_nil]; omega,
        h.replies, h.status, fun e => absurd e h2⟩

theorem Link.Sound.sendReply {l : Link} (h : l.Sound) {f : LocalFrame} (hf : f.isStatus = false)
    (hr : l.waitingReplies < 4) : (l.sendReply f).Sound := by
  rw [Link.sendReply_eq h]
  split
  · exact ⟨h.drive, h.driveIdle, h.forward, h.replies, h.status, fun e => (by cases e)⟩
  · rename_i h2
    refine ⟨h.drive, h.driveIdle, h.forward, ?_, ?_, fun e => absurd e h2⟩
    · unfold Link.waitingReplies at hr ⊢
      simp only [List.filter_append, List.length_append]
      have : (List.filter (fun f : LocalFrame => !f.isStatus) [f]).length ≤ 1 := List.length_filter_le _ _
      omega
    · simp only [List.filter_append, List.filter_cons, hf, List.filter_nil]
      simpa using h.status

theorem Link.Sound.sendStatus {l : Link} (h : l.Sound) (f : Frame) : (l.sendStatus f).Sound := by
  rw [Link.sendStatus_eq h]
  split
  · exact ⟨h.drive, h.driveIdle, h.forward, h.replies, h.status, fun e => (by cases e)⟩
  · rename_i h2
    refine ⟨h.drive, h.driveIdle, h.forward, ?_, ?_, fun e => absurd e h2⟩
    · have := h.replies
      unfold Link.waitingReplies at this ⊢
      simpa [List.filter_append, List.filter_filter, LocalFrame.isStatus] using this
    · simp only [List.filter_append, List.filter_filter, List.length_append]
      simp [LocalFrame.isStatus, List.filter_cons]

theorem Link.Sound.chooseLine {l : Link} (h : l.Sound) : l.chooseLine.Sound := by
  have hf := h.forward
  have hr := h.replies
  have hs := h.status
  have own : ∀ f rest, l.localQueue = f :: rest → (l.takeOwn f rest).Sound := by
    intro f rest e
    unfold Link.waitingReplies at hr
    rw [e] at hr hs
    refine ⟨h.drive, h.driveIdle, hf, ?_, ?_, fun e => (by cases e)⟩
    · unfold Link.waitingReplies
      refine le_trans (List.Sublist.length_le ?_) hr
      exact (List.sublist_cons_self f rest).filter _
    · refine le_trans (List.Sublist.length_le ?_) hs
      exact (List.sublist_cons_self f rest).filter _
  have fwd : ∀ f rest, l.forwardQueue = f :: rest → (l.takeForward f rest).Sound := by
    intro f rest e
    rw [e, List.length_cons] at hf
    exact ⟨h.drive, h.driveIdle, by simp only [Link.takeForward]; omega, hr, hs, fun e => (by cases e)⟩
  unfold Link.chooseLine
  split
  · rename_i h1 h2
    exact ⟨h.drive, h.driveIdle, hf, hr, hs, fun _ => ⟨h1, h2⟩⟩
  · rename_i h1 _
    exact fwd _ _ h1
  · rename_i _ h2
    exact own _ _ h2
  · rename_i h1 h2
    split
    · exact own _ _ h2
    · exact fwd _ _ h1

theorem Link.Sound.lineEnd {l : Link} (h : l.Sound) : l.lineEnd.Sound := by
  unfold Link.lineEnd
  split
  · exact h
  · exact (h.mapFlags _).chooseLine
  · exact h.chooseLine

theorem Link.Sound.reset : Link.reset.Sound := by
  constructor <;> simp [Link.reset, Link.waitingReplies]

/-- A Cycle Frame arrival keeps the bounds of the queues. -/
theorem Link.Sound.beginCycle {x : Link × Bridge} (h : x.1.Sound) (c : CycleContext) : (beginCycle c x).1.Sound := by
  unfold Sys2Proof.Machine.beginCycle
  simp only
  refine inFreeOrder_induction (fun y : Link × Bridge => y.1.Sound) _ _ _ (fun _ _ k => k) (fun a y k => ?_) _ _ _ h
  cases a with
  | tracker =>
    unfold cycleAct
    simp only
    split
    · exact k.congr rfl rfl rfl rfl rfl
    · exact k
  | boundary i =>
    unfold cycleAct
    cases c.previous <;> exact k
  | record => exact k
  | treat => exact k.sendDown _
  | status => exact (k.mapFlags _).sendStatus _

/-! ## Requests -/

theorem State.takes_replies {s : State} (h : s.takes = true) : s.link.waitingReplies < 4 := (s.takes_iff.mp h).2

/-- A Request keeps the bounds of the queues: a fifth Reply never waits (R169). -/
theorem Link.Sound.serve {s : State} (h : s.link.Sound) (src tag code : Byte) (f : Service) :
    (s.serve src tag code f).link.Sound :=
  State.offer_induction (fun t : State => t.link.Sound) h
    (fun ht => h.sendReply (f := .reply _) rfl (s.takes_replies ht)) (h.congr rfl rfl rfl rfl rfl)

/-! ## Commands -/

/-- Every command keeps the bounds of the queues of the link. -/
theorem Link.Sound.exec {c : Instr} {s t : State} (h : s.link.Sound) (ht : exec c s = .next t) : t.link.Sound := by
  cases c with
  | cycleFrameArrival dst src n slots =>
    simp only [Machine.exec, execCycleFrameArrival, Host.Outcome.next.injEq] at ht
    subst ht
    split
    · exact h
    · split
      · rw [State.withLink_link]
        exact h.latchError .line
      · have k := Link.Sound.beginCycle (x := (s.link, s.bridge)) h
          ⟨dst, src, n, slots, s.bridge.tracker.cycle, s.address⟩
        simp only
        exact k
  | feedbackFrameArrival dst src n speed torque status tag =>
    simp only [Machine.exec, execFeedbackFrameArrival, Host.Outcome.next.injEq] at ht
    subst ht
    split
    · exact h
    · exact h.sendUp _
  | frameForwarded port f =>
    simp only [Machine.exec, execFrameForwarded, Host.Outcome.next.injEq] at ht
    subst ht
    split
    · exact h
    · split
      · exact h.latchError port
      · split
        · exact h
        · cases port
          · exact h.sendDown f
          · exact h.sendUp f
  | frameError port f =>
    simp only [Machine.exec, execFrameError, Host.Outcome.next.injEq] at ht
    subst ht
    split
    · exact h
    · exact h.latchError port
  | frameDiscardedResetPending port f => cases ht; exact h
  | requestDiscarded src body =>
    cases ht
    exact State.offer_induction (fun t : State => t.link.Sound) h (fun _ => h) (h.congr rfl rfl rfl rfl rfl)
  | unknownService src body =>
    simp only [Machine.exec, execUnknownService, Host.Outcome.next.injEq] at ht
    subst ht
    split
    · exact h
    · exact h.serve _ _ _ _
  | drivePortTransmissionEnd => cases ht; exact h.driveEnd
  | linePortTransmissionEnd =>
    simp only [Machine.exec, execLinePortTransmissionEnd, Host.Outcome.next.injEq] at ht
    subst ht
    split
    · exact Link.Sound.reset
    · exact h.lineEnd
  | releaseFall =>
    simp only [Machine.exec, execReleaseFall, Host.Outcome.next.injEq] at ht
    subst ht
    split
    · rw [State.withBridge_link]; exact h
    · exact h
  | pinResetAssert =>
    simp only [Machine.exec, execPinResetAssert, Host.Outcome.next.injEq] at ht
    subst ht
    split
    · exact h
    · exact Link.Sound.reset
  | pinResetRelease =>
    simp only [Machine.exec, execPinResetRelease, Host.Outcome.next.injEq] at ht
    subst ht
    split <;> exact h
  | brs src tag ops =>
    simp only [Machine.exec, execBrs, Host.Outcome.next.injEq] at ht
    subst ht
    split
    · exact State.offer_induction (fun t : State => t.link.Sound) h
        (fun ht => h.sendReply (f := .brsReply _) rfl (s.takes_replies ht)) (h.congr rfl rfl rfl rfl rfl)
    · exact h.serve _ _ _ _
  | cycleLossExpiry => cases ht; rw [State.withBridge_link]; exact h
  | checkDeadlineExpiry => cases ht; rw [State.withBridge_link]; exact h
  | releaseRise => cases ht; rw [State.withBridge_link]; exact h
  | _ => cases ht; exact h.serve _ _ _ _

/-- The Event Queue holds at most 64 entries after every part of a command (R174). -/
theorem eventsKeep : TablesKeep fun b => b.events.length ≤ 64 where
  work _ _ h e := h.events e
  alike _ _ h e := h.events e
  closed _ _ _ _ _ _ _ _ _ h e := h e
  failed _ _ _ _ _ h e := h e
  entry _ _ _ _ e := e
  record _ _ _ e := by simpa [Bridge.clampTrims, Bridge.mapMembers] using e
  reset b c _ := by cases c <;> exact Nat.zero_le _
  cks b w e := by
    unfold checkStart
    split <;> exact e
  advance _ _ _ e := e
  ckx b e := by
    unfold checkStop
    split <;> exact e

end Sys2Proof.Machine
end

