-- ==== Sys2Proof/Laws/Runs.lean ====
section
/-! SUPPORT. How the operations of the stage machine keep `Bridge.RunsSound`: the return stacks, the phases, the waiting
set and the owners of the probes. -/

namespace Sys2Proof.Machine

/-- Soundness of every group but `g`; no group owns two probes. -/
structure RunsBut (g : GroupIx) (b : Bridge) : Prop where
  stacked : ∀ k, k ≠ g → (b.group k).StackSound
  owner : ∀ p k, k ≠ g → (b.probe p).owner = some (.group k) →
    (b.group k).runState = .running ∧ (b.group k).phase = some .probing
  single : ∀ p q k, (b.probe p).owner = some (.group k) → (b.probe q).owner = some (.group k) → p = q

/-- A group neither owns a probe nor waits for one. -/
structure Unclaimed (g : GroupIx) (b : Bridge) : Prop where
  owner : ∀ p, (b.probe p).owner ≠ some (.group g)
  waiting : (b.group g).waiting = false

theorem Bridge.RunsSound.but {b : Bridge} (h : b.RunsSound) (g : GroupIx) : RunsBut g b :=
  ⟨fun k _ => h.stacked k, fun p k _ => h.owners.owner p k, h.owners.single⟩

theorem RunsBut.sound {g : GroupIx} {b : Bridge} (h : RunsBut g b) (hs : (b.group g).StackSound)
    (ho : ∀ p, (b.probe p).owner = some (.group g) →
      (b.group g).runState = .running ∧ (b.group g).phase = some .probing) : b.RunsSound where
  stacked k := by
    by_cases e : k = g
    · rw [e]; exact hs
    · exact h.stacked k e
  owners :=
    { owner := fun p k hp => by
        by_cases e : k = g
        · subst e; exact ho p hp
        · exact h.owner p k e hp
      single := h.single }

/-- A sound group without a probe. -/
theorem RunsBut.soundFree {g : GroupIx} {b : Bridge} (h : RunsBut g b) (hs : (b.group g).StackSound)
    (hu : ∀ p, (b.probe p).owner ≠ some (.group g)) : b.RunsSound :=
  h.sound hs fun p e => absurd e (hu p)

/-- Soundness reads the groups and the owners of the probes. -/
theorem RunsBut.congr {g : GroupIx} {b c : Bridge} (h : RunsBut g b) (hg : ∀ k, k ≠ g → c.group k = b.group k)
    (hp : ∀ p, (c.probe p).owner = (b.probe p).owner) : RunsBut g c where
  stacked k n := by rw [hg k n]; exact h.stacked k n
  owner p k n e := by rw [hg k n]; exact h.owner p k n (by rw [← hp]; exact e)
  single p q k e f := h.single p q k (by rw [← hp]; exact e) (by rw [← hp]; exact f)

theorem Bridge.RunsSound.congr {b c : Bridge} (h : b.RunsSound) (hg : ∀ k, c.group k = b.group k)
    (hp : ∀ p, (c.probe p).owner = (b.probe p).owner) : c.RunsSound where
  stacked k := by rw [hg k]; exact h.stacked k
  owners := ⟨fun p k e => by rw [hg k]; exact h.owners.owner p k (by rw [← hp]; exact e),
    fun p q k e f => h.owners.single p q k (by rw [← hp]; exact e) (by rw [← hp]; exact f)⟩

theorem Unclaimed.congr {g : GroupIx} {b c : Bridge} (h : Unclaimed g b)
    (hw : (c.group g).waiting = (b.group g).waiting) (hp : ∀ p, (c.probe p).owner = (b.probe p).owner) :
    Unclaimed g c :=
  ⟨fun p => by rw [hp]; exact h.owner p, by rw [hw]; exact h.waiting⟩

/-- A sound group that is not in a plan neither owns a probe nor waits. -/
theorem Bridge.RunsSound.unclaimed {b : Bridge} (h : b.RunsSound) (g : GroupIx)
    (hp : (b.group g).phase ≠ some .probing) (hw : (b.group g).phase ≠ some .waitProbe) : Unclaimed g b :=
  ⟨fun p e => hp (h.owners.owner p g e).2, by
    cases e : (b.group g).waiting with
    | false => rfl
    | true => exact absurd ((h.stacked g).waits e).2 hw⟩

/-! ## Simple updates -/

theorem RunsBut.modifyGroup {g : GroupIx} {b : Bridge} (h : RunsBut g b) (f : DriveGroup → DriveGroup) :
    RunsBut g (b.modifyGroup g f) :=
  h.congr (fun k n => by simp [Ne.symm n]) fun p => by simp

theorem RunsBut.setGroup {g : GroupIx} {b : Bridge} (h : RunsBut g b) (x : DriveGroup) : RunsBut g (b.setGroup g x) :=
  h.congr (fun k n => by simp [Ne.symm n]) fun p => by simp

theorem RunsBut.append {g : GroupIx} {b : Bridge} (h : RunsBut g b) (e : Event) : RunsBut g (b.append e) :=
  h.congr (fun k _ => by simp) fun p => by simp

theorem Unclaimed.modifyGroup {g : GroupIx} {b : Bridge} (h : Unclaimed g b) (f : DriveGroup → DriveGroup)
    (hw : (f (b.group g)).waiting = (b.group g).waiting) : Unclaimed g (b.modifyGroup g f) :=
  h.congr (by simp [hw]) fun p => by simp

theorem Unclaimed.append {g : GroupIx} {b : Bridge} (h : Unclaimed g b) (e : Event) : Unclaimed g (b.append e) :=
  h.congr (by simp) fun p => by simp

/-- A change of a group that keeps its run state, phase, stack, pending slot and place in the waiting set keeps
soundness. -/
theorem DriveGroup.StackSound.congr {x y : DriveGroup} (h : x.StackSound) (h1 : y.runState = x.runState)
    (h2 : y.phase = x.phase) (h3 : y.stack = x.stack) (h4 : y.deferred = x.deferred) (h5 : y.waiting = x.waiting) :
    y.StackSound where
  depth := by rw [h3]; exact h.depth
  slot := by rw [h3, h4]; exact h.slot
  empty e := by
    rw [h3, h4]
    exact h.empty (by simpa [DriveGroup.inPlan, DriveGroup.isRunning, DriveGroup.isHeld, h1] using e)
  phase := by
    rw [h2, h.phase]
    simp [DriveGroup.inPlan, DriveGroup.isRunning, DriveGroup.isHeld, h1]
  waits e := by rw [h1, h2]; exact h.waits (by rw [← h5]; exact e)

theorem Bridge.RunsSound.setGroup {b : Bridge} (h : b.RunsSound) (g : GroupIx) (x : DriveGroup)
    (h1 : x.runState = (b.group g).runState) (h2 : x.phase = (b.group g).phase) (h3 : x.stack = (b.group g).stack)
    (h4 : x.deferred = (b.group g).deferred) (h5 : x.waiting = (b.group g).waiting) : (b.setGroup g x).RunsSound := by
  refine ((h.but g).setGroup x).sound ?_ fun p e => ?_
  · simpa using (h.stacked g).congr h1 h2 h3 h4 h5
  · simpa [h1, h2] using h.owners.owner p g (by simpa using e)

theorem Bridge.RunsSound.modifyGroup {b : Bridge} (h : b.RunsSound) (g : GroupIx) (f : DriveGroup → DriveGroup)
    (h1 : (f (b.group g)).runState = (b.group g).runState) (h2 : (f (b.group g)).phase = (b.group g).phase)
    (h3 : (f (b.group g)).stack = (b.group g).stack) (h4 : (f (b.group g)).deferred = (b.group g).deferred)
    (h5 : (f (b.group g)).waiting = (b.group g).waiting) : (b.modifyGroup g f).RunsSound :=
  h.setGroup g _ h1 h2 h3 h4 h5

/-! ## The arbiter (R144) -/

/-- A grant to a group that waits keeps soundness; `g` is a group that need not be sound and does not wait. -/
theorem RunsBut.grant {g : GroupIx} {b : Bridge} (h : RunsBut g b) (p : ProbeId) (k : GroupIx) (hk : k ≠ g)
    (hw : (b.group k).waiting = true) : RunsBut g (b.grant p k) := by
  have hs := h.stacked k hk
  have hws := hs.waits hw
  have hno : ∀ q, (b.probe q).owner ≠ some (.group k) := fun q e => by
    have := (h.owner q k hk e).2
    rw [hws.2] at this
    cases this
  unfold Bridge.grant
  split
  · rename_i i w _ _
    have hg : ∀ j, ((b.setProbe p (startedProbe (.group k) i .fixed w)).modifyGroup k fun x =>
        { x with phase := some .probing, waiting := false }).group j =
          if k = j then { b.group k with phase := some .probing, waiting := false } else b.group j := by
      intro j; simp
    have ho : ∀ q, (((b.setProbe p (startedProbe (.group k) i .fixed w)).modifyGroup k fun x =>
        { x with phase := some .probing, waiting := false }).probe q).owner =
          if p = q then some (.group k) else (b.probe q).owner := by
      intro q
      simp only [Bridge.probe_modifyGroup, Bridge.probe_setProbe]
      split <;> rfl
    constructor
    · intro j n
      rw [hg j]
      split
      · have hin : (b.group k).inPlan = true := by rw [← hs.phase, hws.2]; rfl
        exact ⟨hs.depth, hs.slot, fun e => absurd (hin.symm.trans e) (by simp), by
          rw [show DriveGroup.inPlan { b.group k with phase := some .probing, waiting := false } = (b.group k).inPlan
            from rfl, hin]; rfl, fun e => by cases e⟩
      · exact h.stacked j n
    · intro q j n e
      rw [ho q] at e
      rw [hg j]
      split at e
      · cases e
        rw [if_pos rfl]
        exact ⟨hws.1, rfl⟩
      · split
        · rename_i ekj
          subst ekj
          exact absurd e (hno q)
        · exact h.owner q j n e
    · intro q r j e f
      rw [ho q] at e
      rw [ho r] at f
      split at e <;> split at f
      · rename_i a a'; exact a.symm.trans a'
      · cases e; exact absurd f (hno r)
      · cases f; exact absurd e (hno q)
      · exact h.single q r j e f
  · exact h

theorem RunsBut.probeFreed {g : GroupIx} {b : Bridge} (h : RunsBut g b) (p : ProbeId) (hw : (b.group g).waiting = false) :
    RunsBut g (b.probeFreed p) := by
  unfold Bridge.probeFreed
  split
  · rename_i k hk
    have hkw := Bridge.lowestWaiting_waits hk
    exact h.grant p k (by rintro rfl; rw [hw] at hkw; cases hkw) hkw
  · exact h

theorem Unclaimed.probeFreed {g : GroupIx} {b : Bridge} (h : Unclaimed g b) (p : ProbeId) :
    Unclaimed g (b.probeFreed p) := by
  obtain ⟨h1, h2⟩ := b.probeFreed_other p g h.waiting
  exact ⟨fun q e => h.owner q (h2 q e), by rw [h1]; exact h.waiting⟩

/-- A probe that loses its owner keeps soundness. -/
theorem RunsBut.dropOwner {g : GroupIx} {b c : Bridge} (h : RunsBut g b) (p : ProbeId) (hg : ∀ k, c.group k = b.group k)
    (hp : ∀ q, (c.probe q).owner = if p = q then none else (b.probe q).owner) : RunsBut g c where
  stacked k n := by rw [hg k]; exact h.stacked k n
  owner q k n e := by
    rw [hp q] at e
    split at e
    · cases e
    · rw [hg k]; exact h.owner q k n e
  single q r k e f := by
    rw [hp q] at e
    rw [hp r] at f
    split at e
    · cases e
    · split at f
      · cases f
      · exact h.single q r k e f

/-- After a group has given its probe up it is unclaimed, and the others are sound. -/
theorem RunsBut.releaseProbe {g : GroupIx} {b : Bridge} (h : RunsBut g b) :
    RunsBut g (b.releaseProbe g) ∧ Unclaimed g (b.releaseProbe g) := by
  obtain ⟨h1, h2⟩ := b.releaseProbe_group g
  refine ⟨?_, ⟨h2 fun p q => h.single p q g, by rw [h1]⟩⟩
  unfold Bridge.releaseProbe
  have hm := h.modifyGroup fun x => { x with waiting := false }
  have hw : ((b.modifyGroup g fun x => { x with waiting := false }).group g).waiting = false := by simp
  simp only
  generalize (b.modifyGroup g fun x => { x with waiting := false }) = m at hm hw
  split
  · exact hm
  · rename_i p _
    split
    · exact (hm.dropOwner p (m.cancelRun_group p) (m.cancelRun_owner p)).probeFreed p
        (by rw [Bridge.cancelRun_group]; exact hw)
    · exact (hm.dropOwner p (m.idleProbe_group p) (m.idleProbe_owner p)).probeFreed p
        (by rw [Bridge.idleProbe_group]; exact hw)

/-! ## Faults and ends -/

theorem DriveGroup.StackSound.outside {x : DriveGroup} (h : x.inPlan = false) (hp : x.phase = none) (hs : x.stack = [])
    (hd : x.deferred = none) (hw : x.waiting = false) : x.StackSound where
  depth := by simp [hs]
  slot e := by rw [hd] at e; cases e
  empty _ := ⟨hs, hd⟩
  phase := by rw [hp, h]; rfl
  waits e := by rw [hw] at e; cases e

theorem RunsBut.enterFault {g : GroupIx} {b : Bridge} (h : RunsBut g b) (cause : Cause) (sub : FaultSub)
    (i : Option StationIx) (st : Option Nat) : (b.enterFault g cause sub i st).RunsSound := by
  obtain ⟨h1, _, h3⟩ := b.enterFault_spec g cause sub i st
  refine RunsBut.soundFree (g := g) ?_ ?_ (h3 fun p q => h.single p q g)
  · unfold Bridge.enterFault
    exact ((h.setGroup _).append _).releaseProbe.1
  · rw [h1]
    exact .outside rfl rfl rfl rfl rfl

theorem RunsBut.fault {g : GroupIx} {b : Bridge} (h : RunsBut g b) (cause : Cause) (sub : FaultSub)
    (i : Option StationIx) : (b.fault g cause sub i).RunsSound := h.enterFault cause sub i _

theorem Bridge.RunsSound.bypass {b : Bridge} (h : b.RunsSound) (cause : Cause) (i : Option StationIx) (g : GroupIx) :
    (b.bypass cause i g).RunsSound := by
  unfold Bridge.bypass
  split
  · exact (h.but g).fault cause _ i
  · exact h

theorem Bridge.RunsSound.bypassAll {b : Bridge} (h : b.RunsSound) (cause : Cause) : (b.bypassAll cause).RunsSound := by
  unfold Bridge.bypassAll
  generalize groupIxs = gs
  induction gs generalizing b with
  | nil => exact h
  | cons g gs ih => exact ih (h.bypass cause none g)

/-- After one event's bypass of every group no group owns a probe. -/
theorem Bridge.RunsSound.bypassAll_owner {b : Bridge} (h : b.RunsSound) (cause : Cause) (he : b.events.length ≤ 64)
    (p : ProbeId) (g : GroupIx) : ((b.bypassAll cause).probe p).owner ≠ some (.group g) := by
  intro e
  have hr := ((h.bypassAll cause).owners.owner p g e).1
  have hb := (b.bypassAll_spec cause he).1 g
  unfold Bypassed at hb
  split at hb
  · rw [hb.2.2.1] at hr; cases hr
  · rename_i ha
    rw [hb.2.2] at hr
    exact ha (by simp [DriveGroup.active, DriveGroup.inPlan, DriveGroup.isRunning, hr])

theorem RunsBut.becomeDone {g : GroupIx} {b : Bridge} (h : RunsBut g b) (hu : Unclaimed g b) :
    (b.becomeDone g).RunsSound := by
  unfold Bridge.becomeDone Bridge.postGroup Bridge.post
  refine RunsBut.soundFree (g := g) ((h.modifyGroup _).append _) ?_ ?_
  · simp only [Bridge.group_append, Bridge.group_modifyGroup, ite_true]
    exact .outside rfl rfl rfl rfl hu.waiting
  · exact ((hu.modifyGroup _ rfl).append _).owner

/-! ## Entries, excursions and returns -/

/-- A RUNNING group with a stack within its bounds that waits for no probe. -/
theorem DriveGroup.StackSound.running {x : DriveGroup} (h : x.runState = .running) (hp : x.phase.isSome = true)
    (hs : x.stack.length ≤ 3) (hd : x.deferred.isSome = true → x.stack.length = 3) (hw : x.waiting = false) :
    x.StackSound where
  depth := hs
  slot := hd
  empty e := by simp [DriveGroup.inPlan, DriveGroup.isRunning, h] at e
  phase := by simp [DriveGroup.inPlan, DriveGroup.isRunning, h, hp]
  waits e := by rw [hw] at e; cases e

/-- The bounds of a group's stack and pending slot. -/
structure StackBounds (x : DriveGroup) : Prop where
  depth : x.stack.length ≤ 3
  slot : x.deferred.isSome = true → x.stack.length = 3

theorem DriveGroup.StackSound.bounds {x : DriveGroup} (h : x.StackSound) : StackBounds x := ⟨h.depth, h.slot⟩

theorem Bridge.beginStage_group (b : Bridge) (g : GroupIx) (i : Nat) (x y : Bool) :
    let z := (b.beginStage g i x y).group g
    z.runState = .running ∧ z.phase.isSome = true ∧ z.stack = (b.group g).stack ∧ z.deferred = (b.group g).deferred ∧
      z.waiting = (b.group g).waiting ∧ z.stage = some i ∧ z.planTag = (b.group g).planTag ∧
      z.planRange = (b.group g).planRange ∧
      ∀ p, ((b.beginStage g i x y).probe p) = b.probe p := by
  unfold Bridge.beginStage Bridge.recordEntry Bridge.seedWhen Bridge.seedTrims Bridge.postGroup Bridge.post
  simp only
  split <;> split <;> simp

theorem RunsBut.beginStage {g : GroupIx} {b : Bridge} (h : RunsBut g b) (hu : Unclaimed g b)
    (hs : StackBounds (b.group g)) (i : Nat) (x y : Bool) : (b.beginStage g i x y).RunsSound := by
  obtain ⟨h1, h2, h3, h4, h5, _, _, _, h6⟩ := b.beginStage_group g i x y
  refine RunsBut.soundFree (g := g) ?_ ?_ ?_
  · refine h.congr (fun k n => ?_) fun p => by rw [h6]
    unfold Bridge.beginStage Bridge.recordEntry Bridge.seedWhen Bridge.seedTrims Bridge.postGroup Bridge.post
    simp only
    split <;> split <;> simp [Ne.symm n]
  · exact .running h1 h2 (by rw [h3]; exact hs.depth) (by rw [h3, h4]; exact hs.slot) (by rw [h5]; exact hu.waiting)
  · intro p; rw [h6]; exact hu.owner p

theorem RunsBut.enterStage {g : GroupIx} {b : Bridge} (h : RunsBut g b) (hu : Unclaimed g b)
    (hs : StackBounds (b.group g)) (i : Nat) : (b.enterStage g i).RunsSound := by
  unfold Bridge.enterStage
  split
  · exact h.enterFault _ _ _ _
  · exact h.beginStage hu hs i _ _

theorem RunsBut.takeExcursion {g : GroupIx} {b : Bridge} (h : RunsBut g b) (hsnd : b.RunsSound)
    (hl : (b.group g).stack.length < 3) (t : Nat) (c : Cause) (i : Option StationIx) :
    (b.takeExcursion g t c i).RunsSound := by
  unfold Bridge.takeExcursion
  split
  · rename_i n ph _ _
    simp only
    have hm := h.modifyGroup fun x => { x with stack := b.frameOf g n ph :: x.stack }
    have hg : ∀ f : DriveGroup → DriveGroup, (b.modifyGroup g f).group g = f (b.group g) := fun f => by simp
    have hgm := hg fun x => { x with stack := b.frameOf g n ph :: x.stack }
    generalize (b.modifyGroup g fun x => { x with stack := b.frameOf g n ph :: x.stack }) = m at hm hgm
    obtain ⟨r1, r2⟩ := hm.releaseProbe
    have hrg := (m.releaseProbe_group g).1
    generalize m.releaseProbe g = r at r1 r2 hrg
    refine (r1.append _).enterStage (r2.append _) ?_ t
    rw [Bridge.group_append, hrg, hgm]
    refine ⟨by simp; omega, fun e => ?_⟩
    have := (hsnd.stacked g).slot e
    omega
  · exact hsnd

theorem RunsBut.resettle {g : GroupIx} {b : Bridge} (h : RunsBut g b) (hu : Unclaimed g b)
    (hs : StackBounds (b.group g)) (hin : (b.group g).inPlan = true) : (b.resettle g).RunsSound := by
  unfold Bridge.resettle
  refine RunsBut.soundFree (g := g) (h.modifyGroup _) ?_ (hu.modifyGroup _ rfl).owner
  simp only [Bridge.group_modifyGroup, ite_true]
  exact ⟨hs.depth, hs.slot, fun e => absurd (hin.symm.trans e) (by simp), hin.symm,
    fun e => absurd (hu.waiting.symm.trans e) (by simp)⟩

theorem Bridge.RunsSound.deferExcursion {b : Bridge} (h : b.RunsSound) (g : GroupIx) (t : Nat) (c : Cause)
    (i : Option StationIx) (hin : (b.group g).inPlan = true) (hl : (b.group g).stack.length = 3)
    (hu : c = .tuneFailed → Unclaimed g b) : (b.deferExcursion g t c i).RunsSound := by
  unfold Bridge.deferExcursion
  split
  · exact (h.but g).fault _ _ i
  · rename_i n _ _
    simp only
    have hs := h.stacked g
    have hm : RunsBut g (b.modifyGroup g fun x => { x with deferred := some ⟨t, n, c, i⟩ }) := (h.but g).modifyGroup _
    have hm' : RunsBut g ((b.modifyGroup g fun x => { x with deferred := some ⟨t, n, c, i⟩ }).postGroup
        .excursionPending g (some t) (some c) i) := hm.append _
    have hgr : ((b.modifyGroup g fun x => { x with deferred := some ⟨t, n, c, i⟩ }).postGroup
        .excursionPending g (some t) (some c) i).group g = { b.group g with deferred := some ⟨t, n, c, i⟩ } := by
      unfold Bridge.postGroup Bridge.post
      simp
    have hpr : ∀ p, ((b.modifyGroup g fun x => { x with deferred := some ⟨t, n, c, i⟩ }).postGroup
        .excursionPending g (some t) (some c) i).probe p = b.probe p := by
      intro p
      unfold Bridge.postGroup Bridge.post
      simp
    generalize ((b.modifyGroup g fun x => { x with deferred := some ⟨t, n, c, i⟩ }).postGroup
        .excursionPending g (some t) (some c) i) = m at hm' hgr hpr
    split
    · rename_i hc
      refine hm'.resettle ((hu hc).congr (by rw [hgr]) fun p => by rw [hpr]) ?_ (by rw [hgr]; exact hin)
      rw [hgr]
      exact ⟨by simp [hl], fun _ => hl⟩
    · refine hm'.sound ?_ fun p e => ?_
      · rw [hgr]
        exact ⟨hs.depth, fun _ => hl, fun e => absurd (hin.symm.trans e) (by simp), hs.phase, hs.waits⟩
      · rw [hgr]
        exact h.owners.owner p g (by rw [← hpr]; exact e)
  · exact h

theorem Bridge.RunsSound.sendTrip {b : Bridge} (h : b.RunsSound) (c : Cause) : (b.sendTrip c).RunsSound := by
  have hp : ∀ (b : Bridge) t p, ({ b with trip := t } : Bridge).probe p = b.probe p := by
    intro b t p; cases p <;> rfl
  unfold Bridge.sendTrip
  split
  · exact h.congr (fun k => rfl) fun p => by rw [hp]
  · exact h.congr (fun k => by show Bridge.group (b.append _) k = _; simp) fun p => by
      rw [hp]; unfold Bridge.post; simp

/-- A fault trigger of a group in a plan; a TUNE stage that has taken its result owns no probe. -/
theorem Bridge.RunsSound.takeFaultAction {b : Bridge} (h : b.RunsSound) (g : GroupIx) (c : Cause) (i : Option StationIx)
    (hin : (b.group g).inPlan = true) (hu : c = .tuneFailed → Unclaimed g b) : (b.takeFaultAction g c i).RunsSound := by
  unfold Bridge.takeFaultAction
  simp only
  split
  · exact h
  · exact (h.but g).fault _ _ i
  · exact ((h.but g).fault _ _ i).sendTrip _
  · split
    · exact (h.but g).fault _ _ i
    · split
      · exact h
      · split
        · rename_i hl
          exact (h.but g).takeExcursion h hl _ c i
        · rename_i hl
          have := (h.stacked g).depth
          exact h.deferExcursion g _ c i hin (by simp only [Config.stackDepth] at hl; omega) hu

/-- A group after the return to a frame. -/
theorem Bridge.resume_group (b : Bridge) (g : GroupIx) (f : StackFrame) (rest : List StackFrame) :
    let z := (b.resume g f rest).group g
    z.runState = .running ∧ z.phase.isSome = true ∧ z.stack = rest ∧ z.deferred = (b.group g).deferred ∧
      z.waiting = (b.group g).waiting ∧ z.stage = some f.stage ∧ z.speed = (b.group g).speed ∧
      z.alarm = (b.group g).alarm ∧
      (∀ p, ((b.resume g f rest).probe p) = b.probe p) ∧ ∀ k, k ≠ g → (b.resume g f rest).group k = b.group k := by
  unfold Bridge.resume Bridge.recordEntry Bridge.seedWhen Bridge.seedTrims Bridge.postGroup Bridge.post
  simp only
  split <;> split <;> simp [DriveGroup.resumed] <;> (intro k n; simp [Ne.symm n])

theorem RunsBut.returnTo {g : GroupIx} {b : Bridge} (h : RunsBut g b) (hu : Unclaimed g b) (f : StackFrame)
    (rest : List StackFrame) (hl : rest.length ≤ 3) (hd : (b.group g).deferred = none) :
    (b.returnTo g f rest).RunsSound := by
  obtain ⟨h1, h2, h3, h4, h5, _, _, _, h6, h7⟩ := b.resume_group g f rest
  have hr : (b.resume g f rest).RunsSound := by
    refine RunsBut.soundFree (g := g) (h.congr h7 fun p => by rw [h6]) ?_ fun p => by rw [h6]; exact hu.owner p
    exact .running h1 h2 (by rw [h3]; exact hl) (fun e => by rw [h4, hd] at e; cases e) (by rw [h5]; exact hu.waiting)
  unfold Bridge.returnTo
  simp only
  split
  · refine hr.takeFaultAction g .alarm none ?_ fun e => by cases e
    simp [DriveGroup.inPlan, DriveGroup.isRunning, h1]
  · exact hr

theorem RunsBut.endWithReturn {g : GroupIx} {b : Bridge} (h : RunsBut g b) (hu : Unclaimed g b)
    (hsnd : b.RunsSound) : (b.endWithReturn g).RunsSound := by
  have hb := (hsnd.stacked g).bounds
  unfold Bridge.endWithReturn
  split
  · rename_i d _ _
    simp only
    refine ((h.modifyGroup _).append _).enterStage ((hu.modifyGroup _ rfl).append _) ?_ _
    simp only [Bridge.group_append, Bridge.group_modifyGroup, ite_true]
    exact ⟨hb.depth, fun e => by cases e⟩
  · rename_i f rest hd hst
    exact h.returnTo hu f rest (by have := hb.depth; rw [hst] at this; simp at this; omega) hd
  · exact hsnd

/-- The end of a stage whose group neither owns a probe nor waits. -/
theorem Bridge.RunsSound.endStage {b : Bridge} (h : b.RunsSound) (g : GroupIx) (hu : Unclaimed g b) :
    (b.endStage g).RunsSound := by
  unfold Bridge.endStage
  split
  · exact h
  · rename_i n _
    simp only
    have hm : (b.postGroup .stageDone g (some n)).RunsSound :=
      h.congr (fun k => by unfold Bridge.postGroup Bridge.post; simp) fun p => by
        unfold Bridge.postGroup Bridge.post; simp
    have hu' : Unclaimed g (b.postGroup .stageDone g (some n)) := hu.append _
    generalize b.postGroup .stageDone g (some n) = m at hm hu'
    split
    · split
      · exact (hm.but g).becomeDone hu'
      · exact (hm.but g).enterStage hu' (hm.stacked g).bounds _
    · exact (hm.but g).becomeDone hu'
    · exact (hm.but g).endWithReturn hu' hm
    · exact hm

/-! ## Progress, the unwind and the group close -/

theorem Unclaimed.setGroup {g : GroupIx} {b : Bridge} (h : Unclaimed g b) (x : DriveGroup)
    (hw : x.waiting = (b.group g).waiting) : Unclaimed g (b.setGroup g x) :=
  h.congr (by simp [hw]) fun p => by simp

/-- A group's commanded speed and counts change. -/
theorem Bridge.RunsSound.rampTo {b : Bridge} (h : b.RunsSound) (g : GroupIx) (t : Int) (r : Nat) :
    (b.rampTo g t r).RunsSound := h.setGroup g _ rfl rfl rfl rfl rfl

theorem Bridge.RunsSound.takeDwell {b : Bridge} (h : b.RunsSound) (g : GroupIx) : (b.takeDwell g).1.RunsSound :=
  h.setGroup g _ rfl rfl rfl rfl rfl

theorem Bridge.RunsSound.takeBlend {b : Bridge} (h : b.RunsSound) (g : GroupIx) : (b.takeBlend g).1.RunsSound :=
  h.setGroup g _ rfl rfl rfl rfl rfl

theorem Bridge.RunsSound.takeSettle {b : Bridge} (h : b.RunsSound) (g : GroupIx) : (b.takeSettle g).1.RunsSound := by
  unfold Bridge.takeSettle
  simp only
  split <;> exact h.setGroup g _ rfl rfl rfl rfl rfl

/-- The counts leave a group's phase and run state. -/
theorem Bridge.takeSettle_group (b : Bridge) (g : GroupIx) :
    ((b.takeSettle g).1.group g).phase = (b.group g).phase ∧
      ((b.takeSettle g).1.group g).runState = (b.group g).runState := by
  unfold Bridge.takeSettle
  simp only
  split <;> simp

theorem Bridge.takeDwell_group (b : Bridge) (g : GroupIx) :
    ((b.takeDwell g).1.group g).phase = (b.group g).phase ∧
      ((b.takeDwell g).1.group g).runState = (b.group g).runState := by
  unfold Bridge.takeDwell
  simp

/-- A phase other than WAIT_PROBE and PROBING of a group that neither owns a probe nor waits. -/
theorem Bridge.RunsSound.setPhase {b : Bridge} (h : b.RunsSound) (g : GroupIx) (hu : Unclaimed g b)
    (hin : (b.group g).inPlan = true) (p : Phase) : (b.setPhase g p).RunsSound := by
  have hb := h.stacked g
  unfold Bridge.setPhase
  refine RunsBut.soundFree (g := g) ((h.but g).modifyGroup _) ?_ (hu.modifyGroup _ rfl).owner
  simp only [Bridge.group_modifyGroup, ite_true]
  exact ⟨hb.depth, hb.slot, fun e => absurd (hin.symm.trans e) (by simp), hin.symm,
    fun e => absurd (hu.waiting.symm.trans e) (by simp)⟩

/-- A claim of a group that neither owns a probe nor waits (R143). -/
theorem Bridge.RunsSound.claim {b : Bridge} (h : b.RunsSound) (g : GroupIx) (hu : Unclaimed g b)
    (hr : (b.group g).runState = .running) : (b.claim g).RunsSound := by
  have hb := h.stacked g
  have hin : (b.group g).inPlan = true := by simp [DriveGroup.inPlan, DriveGroup.isRunning, hr]
  have hgrant : ∀ p, (b.probe p).free = true → (b.grant p g).RunsSound := by
    intro p hfree
    unfold Bridge.grant
    split
    · rename_i i w _ _
      have hg : ∀ j, ((b.setProbe p (startedProbe (.group g) i .fixed w)).modifyGroup g fun x =>
          { x with phase := some .probing, waiting := false }).group j =
            if g = j then { b.group g with phase := some .probing, waiting := false } else b.group j := by
        intro j; simp
      have ho : ∀ q, (((b.setProbe p (startedProbe (.group g) i .fixed w)).modifyGroup g fun x =>
          { x with phase := some .probing, waiting := false }).probe q).owner =
            if p = q then some (.group g) else (b.probe q).owner := by
        intro q
        simp only [Bridge.probe_modifyGroup, Bridge.probe_setProbe]
        split <;> rfl
      refine RunsBut.sound (g := g) ?_ ?_ fun q _ => ?_
      · constructor
        · intro k n; rw [hg k, if_neg (Ne.symm n)]; exact h.stacked k
        · intro q k n e
          rw [ho q] at e
          rw [hg k, if_neg (Ne.symm n)]
          split at e
          · cases e; exact absurd rfl n
          · exact h.owners.owner q k e
        · intro q r k e f
          rw [ho q] at e
          rw [ho r] at f
          split at e <;> split at f
          · rename_i a a'; exact a.symm.trans a'
          · cases e; exact absurd f (hu.owner r)
          · cases f; exact absurd e (hu.owner q)
          · exact h.owners.single q r k e f
      · rw [hg g, if_pos rfl]
        exact .running hr rfl hb.depth hb.slot rfl
      · rw [hg g, if_pos rfl]
        exact ⟨hr, rfl⟩
    · exact h
  unfold Bridge.claim
  split
  · rename_i hf; exact hgrant .p1 hf
  · split
    · rename_i hf; exact hgrant .p2 hf
    · refine RunsBut.soundFree (g := g) ((h.but g).modifyGroup _) ?_ ?_
      · simp only [Bridge.group_modifyGroup, ite_true]
        exact ⟨hb.depth, hb.slot, fun e => absurd (hin.symm.trans e) (by simp), hin.symm, fun _ => ⟨hr, rfl⟩⟩
      · intro p; simpa using hu.owner p

theorem Bridge.RunsSound.mapMembers {b : Bridge} (h : b.RunsSound) (g : GroupIx) (f : StationIx → Station → Station) :
    (b.mapMembers g f).RunsSound := h.congr (fun k => by simp) fun p => by simp

theorem Bridge.RunsSound.post {b : Bridge} (h : b.RunsSound) (e : Event) : (b.append e).RunsSound :=
  h.congr (fun k => by simp) fun p => by simp

/-- The result a TUNE stage has taken, with its probe given back (R113). -/
theorem Bridge.RunsSound.judgeProbe {b : Bridge} (h : b.RunsSound) (g : GroupIx) (hu : Unclaimed g b)
    (hin : (b.group g).inPlan = true) (passes : Bool) : (b.judgeProbe g passes).RunsSound := by
  unfold Bridge.judgeProbe
  split
  · unfold Bridge.learnOffsets
    refine ((h.mapMembers g _).post _).endStage g ?_
    exact (hu.congr (by simp) fun p => by simp : Unclaimed g (b.mapMembers g _)).append _
  · split
    · have hs := h.stacked g
      exact ((h.but g).modifyGroup _).resettle (hu.modifyGroup _ rfl)
        (by rw [Bridge.group_modifyGroup, if_pos rfl]; exact ⟨hs.depth, hs.slot⟩)
        (by rw [Bridge.group_modifyGroup, if_pos rfl]; exact hin)
    · exact h.takeFaultAction g _ _ hin fun _ => hu

theorem Bridge.RunsSound.progress {b : Bridge} (h : b.RunsSound) (g : GroupIx) (hr : (b.group g).runState = .running) :
    (b.progress g).RunsSound := by
  have hin : (b.group g).inPlan = true := by simp [DriveGroup.inPlan, DriveGroup.isRunning, hr]
  have hramp : ∀ t r, ((b.rampTo g t r).group g).phase = (b.group g).phase ∧
      ((b.rampTo g t r).group g).runState = (b.group g).runState := by
    intro t r; unfold Bridge.rampTo; simp
  have hplan : ∀ c : Bridge, (c.group g).runState = .running → (c.group g).inPlan = true := by
    intro c e; simp [DriveGroup.inPlan, DriveGroup.isRunning, e]
  have free : ∀ c : Bridge, c.RunsSound → (c.group g).phase = (b.group g).phase →
      (b.group g).phase ≠ some .probing → (b.group g).phase ≠ some .waitProbe → Unclaimed g c := by
    intro c hc e n1 n2
    exact hc.unclaimed g (by rw [e]; exact n1) (by rw [e]; exact n2)
  have hrampCase : (b.group g).phase ≠ some .probing → (b.group g).phase ≠ some .waitProbe →
      (b.progressRamp g).RunsSound := by
    intro n1 n2
    unfold Bridge.progressRamp
    simp only
    split
    · rename_i t r _ _
      split
      · exact (h.rampTo g t r).setPhase g (free _ (h.rampTo g t r) (hramp t r).1 n1 n2)
          (hplan _ (by rw [(hramp t r).2]; exact hr)) _
      · exact h.rampTo g t r
    · exact h
  unfold Bridge.progress
  split
  · rename_i e; exact hrampCase (by rw [e]; simp) (by rw [e]; simp)
  · rename_i e; exact hrampCase (by rw [e]; simp) (by rw [e]; simp)
  · rename_i e
    have n1 : (b.group g).phase ≠ some .probing := by rw [e]; simp
    have n2 : (b.group g).phase ≠ some .waitProbe := by rw [e]; simp
    have hd := h.takeDwell g
    have hdu := free _ hd (b.takeDwell_group g).1 n1 n2
    have hdr : ((b.takeDwell g).1.group g).runState = .running := by rw [(b.takeDwell_group g).2]; exact hr
    have hs := h.takeSettle g
    have hsu := free _ hs (b.takeSettle_group g).1 n1 n2
    unfold Bridge.progressDwell
    simp only
    split
    · split
      · exact hd.setPhase g hdu (hplan _ hdr) _
      · exact hd
    · split
      · split
        · exact hd.endStage g hdu
        · exact hd
      · split
        · exact hd.setPhase g hdu (hplan _ hdr) _
        · exact hd
      · split
        · exact hs.endStage g hsu
        · exact hs
      · exact h
      · exact h
  · rename_i e
    have n1 : (b.group g).phase ≠ some .probing := by rw [e]; simp
    have n2 : (b.group g).phase ≠ some .waitProbe := by rw [e]; simp
    unfold Bridge.progressFall
    split
    · rename_i t r _ _
      simp only
      split
      · exact (h.rampTo g t r).endStage g (free _ (h.rampTo g t r) (hramp t r).1 n1 n2)
      · exact h.rampTo g t r
    · exact h
  · rename_i e
    have n1 : (b.group g).phase ≠ some .probing := by rw [e]; simp
    have n2 : (b.group g).phase ≠ some .waitProbe := by rw [e]; simp
    unfold Bridge.progressSettling
    simp only
    split
    · split
      · split
        · exact (h.takeSettle g).claim g (free _ (h.takeSettle g) (b.takeSettle_group g).1 n1 n2)
            (by rw [(b.takeSettle_group g).2]; exact hr)
        · exact h.takeSettle g
      · exact h.rampTo g _ _
    · exact h
  · rename_i e
    have hwt : (b.group g).waiting = false := by
      cases w : (b.group g).waiting with
      | false => rfl
      | true => have := ((h.stacked g).waits w).2; rw [e] at this; cases this
    unfold Bridge.progressProbing
    split
    · rename_i hno
      exact (h.but g).resettle ⟨fun p => Bridge.ownedProbe_none hno p, hwt⟩ (h.stacked g).bounds hin
    · rename_i p hp
      split
      · simp only
        have hop := Bridge.ownedProbe_some hp
        have hb := (h.but g).dropOwner p (b.idleProbe_group p) (b.idleProbe_owner p)
        have hu : Unclaimed g (b.idleProbe p) := by
          refine ⟨fun q hq => ?_, by rw [Bridge.idleProbe_group]; exact hwt⟩
          rw [Bridge.idleProbe_owner] at hq
          split at hq
          · cases hq
          · rename_i ne
            exact ne (h.owners.single p q g hop hq)
        have hu' := hu.probeFreed p
        have hg' : ((b.idleProbe p).probeFreed p).group g = b.group g := by
          rw [((b.idleProbe p).probeFreed_other p g hu.waiting).1, Bridge.idleProbe_group]
        have hb' := hb.probeFreed p hu.waiting
        exact (hb'.soundFree (by rw [hg']; exact h.stacked g) hu'.owner).judgeProbe g hu' (by rw [hg']; exact hin) _
      · exact h
  · rename_i e
    have n1 : (b.group g).phase ≠ some .probing := by rw [e]; simp
    have n2 : (b.group g).phase ≠ some .waitProbe := by rw [e]; simp
    unfold Bridge.progressBlend
    split
    · rename_i r _
      simp only
      have hrb := (h.rampTo g (b.group g).reference r).takeBlend g
      split
      · refine hrb.endStage g (free _ hrb ?_ n1 n2)
        unfold Bridge.takeBlend Bridge.rampTo
        simp
      · exact hrb
    · exact h
  · exact h
  · exact h
  · exact h

theorem Bridge.RunsSound.unwindStep {b : Bridge} (h : b.RunsSound) (g : GroupIx) (hin : (b.group g).inPlan = false) :
    (b.unwindStep g).RunsSound := by
  have hs := h.stacked g
  have hu : Unclaimed g b := h.unclaimed g
    (fun e => by have := hs.phase; rw [e, hin] at this; cases this)
    (fun e => by have := hs.phase; rw [e, hin] at this; cases this)
  have hph : (b.group g).phase = none := by
    have := hs.phase
    rw [hin] at this
    simpa using this
  unfold Bridge.unwindStep
  simp only
  generalize hc : ((b.rampTo g (b.group g).reference (b.group g).record.abortRamp).takeBlend g).1 = c
  have hcs : c.RunsSound := by rw [← hc]; exact (h.rampTo g _ _).takeBlend g
  have hcg : (c.group g).stack = (b.group g).stack ∧ (c.group g).deferred = (b.group g).deferred ∧
      (c.group g).phase = (b.group g).phase ∧ (c.group g).waiting = (b.group g).waiting := by
    rw [← hc]; unfold Bridge.takeBlend Bridge.rampTo; simp
  have hcp : ∀ p, c.probe p = b.probe p := by
    intro p; rw [← hc]; unfold Bridge.takeBlend Bridge.rampTo; simp
  have hcu : Unclaimed g c := hu.congr hcg.2.2.2 fun p => by rw [hcp]
  obtain ⟨hst, hdf⟩ := hs.empty hin
  split
  · unfold Bridge.endUnwind
    split
    · refine RunsBut.soundFree (g := g) ((hcs.but g).modifyGroup _) ?_ (hcu.modifyGroup _ rfl).owner
      simp only [Bridge.group_modifyGroup, ite_true]
      exact .outside rfl (hcg.2.2.1.trans hph) (hcg.1.trans hst) (hcg.2.1.trans hdf) hcu.waiting
    · refine RunsBut.soundFree (g := g) (((hcs.but g).append _).modifyGroup _) ?_ ?_
      · simp only [Bridge.group_modifyGroup, ite_true]
        refine .outside rfl rfl rfl rfl ?_
        unfold Bridge.postGroup Bridge.post
        simp only [Bridge.group_append, DriveGroup.toIdle]
        exact hcu.waiting
      · exact ((hcu.append _).modifyGroup _ rfl).owner
  · exact hcs

theorem Bridge.RunsSound.stageProgress {b : Bridge} (h : b.RunsSound) (g : GroupIx) (l : List StationIx) (a : Bool) :
    (b.stageProgress g l a).RunsSound := by
  unfold Bridge.stageProgress
  simp only
  split
  · rename_i hin; exact h.takeFaultAction g _ _ hin fun e => by cases e
  · rename_i hin
    split
    · exact h.takeFaultAction g _ _ hin fun e => by cases e
    · split
      · rename_i hr
        exact h.progress g (by simpa [DriveGroup.isRunning] using hr)
      · exact h
  · have hin : (b.group g).inPlan = false := by assumption
    split
    · exact h.unwindStep g hin
    · exact h

theorem Bridge.RunsSound.groupClose {b : Bridge} (h : b.RunsSound) (g : GroupIx) (c : CycleNo) :
    (b.groupClose g c).RunsSound := by
  unfold Bridge.groupClose
  simp only
  refine Bridge.RunsSound.stageProgress ?_ g _ _
  have hj : (b.judgeGroup g c).1.RunsSound := by
    obtain ⟨h1, h2⟩ := b.judgeGroup_group g c
    have hp := b.judgeGroup_probe g c
    refine RunsBut.sound (g := g) ((h.but g).congr h2 fun p => by rw [hp]) ?_ fun p e => ?_
    · rw [h1]; exact (h.stacked g).congr rfl rfl rfl rfl rfl
    · rw [h1]; exact h.owners.owner p g (by rw [← hp]; exact e)
  exact hj.setGroup g _ rfl rfl rfl rfl rfl

theorem Bridge.RunsSound.groupReceives {b : Bridge} (h : b.RunsSound) (g : GroupIx) (r : CloseRecord) :
    (b.groupReceives g r).RunsSound := by
  have ht : (b.groupTransition g r).RunsSound := by
    unfold Bridge.groupTransition
    split
    · split
      · rename_i hc
        exact h.takeFaultAction g _ _ (by simp only [Bool.and_eq_true] at hc; exact hc.1) fun e => by cases e
      · exact h
    · exact h.bypass _ _ g
    · exact h
    · exact h
  unfold Bridge.groupReceives
  generalize b.groupTransition g r = m at ht
  unfold Bridge.countClose
  split
  · exact ht
  · split
    · simp only
      split
      · exact Bridge.RunsSound.groupClose (ht.modifyGroup g _ rfl rfl rfl rfl rfl) g _
      · exact ht.modifyGroup g _ rfl rfl rfl rfl rfl
    · exact ht

theorem Bridge.RunsSound.leaveGroup {b : Bridge} (h : b.RunsSound) (g : GroupIx) (i : StationIx) :
    (b.leaveGroup g i).RunsSound := by
  unfold Bridge.leaveGroup
  split
  · exact h
  · simp only
    split
    · exact Bridge.RunsSound.groupClose (h.modifyGroup g _ rfl rfl rfl rfl rfl) g _
    · exact h.modifyGroup g _ rfl rfl rfl rfl rfl

/-! ## Probe runs and station closes -/

/-- A probe that comes free keeps soundness. -/
theorem Bridge.RunsSound.probeFreed {b : Bridge} (h : b.RunsSound) (p : ProbeId) : (b.probeFreed p).RunsSound := by
  unfold Bridge.probeFreed
  split
  · rename_i k hk
    have hw := Bridge.lowestWaiting_waits hk
    have hex : ∀ k : GroupIx, ∃ g : GroupIx, k ≠ g := by decide
    obtain ⟨g, hg⟩ := hex k
    have hb := (h.but g).grant p k hg hw
    have hgr : (b.grant p k).group g = b.group g := by
      unfold Bridge.grant
      split <;> simp [hg]
    refine hb.sound (by rw [hgr]; exact h.stacked g) fun q e => ?_
    rw [hgr]
    rcases b.grant_owner p k q with o | ⟨_, o⟩
    · exact h.owners.owner q g (by rw [← o]; exact e)
    · rw [o] at e; cases e; exact absurd rfl hg
  · exact h

theorem Bridge.RunsSound.setProbe {b : Bridge} (h : b.RunsSound) (p : ProbeId) (x : Probe)
    (hx : x.owner = (b.probe p).owner ∨ ∀ g, x.owner ≠ some (.group g)) : (b.setProbe p x).RunsSound := by
  have ho : ∀ q g, ((b.setProbe p x).probe q).owner = some (.group g) → (b.probe q).owner = some (.group g) := by
    intro q g e
    rw [Bridge.probe_setProbe] at e
    split at e
    · rename_i epq
      subst epq
      rcases hx with hx | hx
      · rw [← hx]; exact e
      · exact absurd e (hx g)
    · exact e
  exact ⟨fun k => by rw [Bridge.group_setProbe]; exact h.stacked k,
    ⟨fun q k e => by rw [Bridge.group_setProbe]; exact h.owners.owner q k (ho q k e),
      fun q r k e f => h.owners.single q r k (ho q k e) (ho r k f)⟩⟩

theorem Bridge.RunsSound.setChoices {b : Bridge} (h : b.RunsSound) (cs : List Nat) (n : Nat) :
    ({ b with choices := cs, choiceCount := n } : Bridge).RunsSound :=
  h.congr (fun _ => rfl) fun p => by cases p <;> rfl

theorem Bridge.RunsSound.endRun {b : Bridge} (h : b.RunsSound) (p : ProbeId) (c : Cause) : (b.endRun p c).RunsSound := by
  have hs : (b.setProbe p { b.probe p with state := .done, result := some (b.probeResult p c) }).RunsSound :=
    h.setProbe p _ (Or.inl rfl)
  unfold Bridge.endRun
  simp only
  split
  · exact Bridge.RunsSound.probeFreed ((hs.setChoices _ _).post _) p
  · exact hs.setChoices _ _

theorem Bridge.RunsSound.probeClose {b : Bridge} (h : b.RunsSound) (p : ProbeId) (r : CloseRecord) :
    (b.probeClose p r).RunsSound := by
  unfold Bridge.probeClose
  simp only
  split
  · split
    · exact h.endRun p _
    · split
      · have hs := h.setProbe p { b.probe p with acc := (b.probe p).acc.count ‹Station› r.fresh b.timeBase } (Or.inl rfl)
        unfold Bridge.endSubWindow
        simp only
        split
        · exact hs
        · split
          · exact hs.setProbe p _ (Or.inl rfl)
          · exact hs.endRun p _
      · exact h
  · exact h

theorem Bridge.RunsSound.handOn {b : Bridge} (h : b.RunsSound) (r : CloseRecord) (o : Option GroupIx) :
    (b.handOn r o).RunsSound :=
  Bridge.handOn_induction Bridge.RunsSound r o (fun c n hc => by rw [c.choose_eq]; exact hc.setChoices _ _)
    (fun _ g _ hc => hc.groupReceives g r) (fun _ p hc => hc.probeClose p r) h

theorem Bridge.RunsSound.stationClose {b : Bridge} (h : b.RunsSound) (i : StationIx) (c : CycleNo) (d : Bool) :
    (b.stationClose i c d).RunsSound := by
  cases hs : b.station i with
  | none => unfold Bridge.stationClose; rw [hs]; exact h
  | some st =>
    obtain ⟨m, hm, _, _, _, _, he⟩ := Bridge.stationClose_eq hs c d
    rw [he]
    refine Bridge.RunsSound.handOn (h.congr (fun k => by rw [hm]; rfl) fun p => ?_) _ _
    rw [hm]
    cases p <;> rfl

end Sys2Proof.Machine
end

