-- ==== Sys2Proof/Laws/Stages.lean ====
section
/-! SUPPORT. A group close, a station that leaves its group, a stage entry and a probe given up: what each does, in the
words of the statements. -/

namespace Sys2Proof.Machine

/-! ## The group close (R54) and a station that leaves (R53) -/

theorem Bridge.setGroup_setGroup (b : Bridge) (g : GroupIx) (x y : DriveGroup) :
    (b.setGroup g x).setGroup g y = b.setGroup g y := by
  simp [Bridge.setGroup]

/-- The alarm step (R66, R67). -/
theorem Bridge.alarmStep_eq (b : Bridge) (g : GroupIx) :
    let y := b.group g
    let limit := y.record.alarmLimit
    b.alarmStep g = b.setGroup g
      (if b.alarmCounts g then
        if y.alarmCounter + 3 < limit then { y with alarmCounter := y.alarmCounter + 3 }
        else { y with alarmCounter := limit + y.record.alarmHold, alarm := true }
      else { y with alarmCounter := y.alarmCounter - 1, alarm := y.alarm && decide (limit ≤ y.alarmCounter - 1) }) := by
  unfold Bridge.alarmStep leakyStep
  simp only
  congr 1
  split
  · split <;> rfl
  · rfl

/-- The group close, with the samples `formed` gathered. -/
theorem Bridge.groupClose_closes (b : Bridge) (g : GroupIx) (n : CycleNo) (formed : List RosterEntry)
    (p : Option PendingSet) :
    GroupCloses b g n formed
      ((b.setGroup g { b.group g with forming := formed, pendingSet := p }).groupClose g n) := by
  have h : (b.setGroup g { b.group g with forming := formed, pendingSet := p }).modifyGroup g DriveGroup.takeRoster =
      b.setGroup g { b.group g with
        pendingSet := none, forming := []
        roster := (List.finRange 32).filterMap fun j => formed.find? fun e => decide (e.station = j) } := by
    unfold Bridge.modifyGroup
    rw [Bridge.group_setGroup, if_pos rfl, Bridge.setGroup_setGroup]
    rfl
  delta GroupCloses
  intro setGroup roster b1 b2 b3 b4 y limit z
  have h4 : ((b.setGroup g { b.group g with forming := formed, pendingSet := p }).judgeGroup g n) =
      (b4, b3.failingMembers g) := by
    unfold Bridge.judgeGroup
    rw [h]
    rfl
  unfold Bridge.groupClose
  rw [h4]
  simp only
  rw [Bridge.alarmStep_eq, Bridge.group_setGroup, if_pos rfl]
  rfl

/-- A station leaves a group (R53). -/
theorem Bridge.leaveGroup_leaves (b : Bridge) (g : GroupIx) (i : StationIx) : LeavesGroup b (b.leaveGroup g i) g i := by
  unfold LeavesGroup Bridge.leaveGroup
  refine ⟨fun h => by rw [h], fun p h => ?_⟩
  rw [h]
  refine ⟨fun hr => ?_, fun hr hf => ?_, fun hr hf => ?_⟩
  · simp only [hr, if_false, false_and, Bridge.modifyGroup]
    rfl
  · simp only [hr, hf, if_true, ne_eq, not_true, and_false, if_false, Bridge.modifyGroup]
    rfl
  · simp only [hr, hf, if_true, ne_eq, not_false_iff, and_true, Bridge.modifyGroup]
    exact b.groupClose_closes g p.cycle _ none

/-- A write to an entry takes effect (R30, R32, R53, R80): the entry, some master references, and the group it leaves. -/
theorem Bridge.writeEntry_leaves (b : Bridge) (i : StationIx) (x : Option Station) (rebound : Bool) :
    let leaves := fun g =>
      ∃ st, b.station i = some st ∧ st.config.group = some g ∧ (rebound = true ∨ groupOf x ≠ some g)
    ∃ w : Bridge, w = { b with stations := b.stations.set i x, groups := w.groups } ∧
      (∀ g, ∃ m, w.group g = { b.group g with masterRef := m }) ∧
      (∀ g, leaves g → LeavesGroup w (b.writeEntry i x rebound) g i) ∧
      ((∀ g, ¬leaves g) → b.writeEntry i x rebound = w) := by
  intro leaves
  refine ⟨(b.setStation i x).dropReferences b i rebound, rfl, fun g => ?_, fun g h => ?_, fun h => ?_⟩
  · unfold Bridge.dropReferences
    rw [Bridge.group_mapGroups]
    split
    · exact ⟨none, by simp⟩
    · exact ⟨(b.group g).masterRef, by simp⟩
  · obtain ⟨st, h1, h2, h3⟩ := h
    have : groupOf (b.station i) = some g := by simp [groupOf, h1, h2]
    unfold Bridge.writeEntry
    have hc : (rebound || decide (groupOf (b.station i) ≠ groupOf x)) = true := by
      rw [this]; rcases h3 with h3 | h3
      · simp [h3]
      · simp [Ne.symm h3]
    simp only
    rw [if_pos hc, this]
    exact Bridge.leaveGroup_leaves _ _ _
  · unfold Bridge.writeEntry Bridge.leaves
    simp only
    split
    · rename_i g hg
      exfalso
      split at hg
      · rename_i hc
        cases hs : b.station i with
        | none => simp [groupOf, hs] at hg
        | some st =>
          simp [groupOf, hs] at hg
          refine h g ⟨st, hs, hg, ?_⟩
          simp [groupOf, hs, hg] at hc
          rcases hc with hc | hc
          · exact Or.inl hc
          · right; intro e; exact hc (by simpa [groupOf] using e.symm)
      · cases hg
    · rfl

/-! ## Stage entry (R103) -/

/-- A clamp to plus or minus `l`, as the statements write it. -/
theorem clampAbs_eq (l : Nat) (v : Int) :
    clampAbs l v = let limit : Int := l
      if v < -limit then -limit else if limit < v then limit else v := rfl

/-- What the seeding of trims leaves: every group, and of the stations everything but the trims (R62). -/
theorem Bridge.seedWhen_spec (b : Bridge) (g : GroupIx) (seeds : Bool) :
    (∀ k, (b.seedWhen g seeds).group k = b.group k) ∧ (b.seedWhen g seeds).members g = b.members g ∧
    ∀ j, (b.seedWhen g seeds).station j = (b.station j).map fun st =>
      if st.config.group = some g ∧ seeds = true then
        { st with run := { st.run with trim := clampAbs (b.group g).record.trimLimit st.config.offset } }
      else st := by
  unfold Bridge.seedWhen
  cases seeds
  · simp
  · refine ⟨fun k => by simp [Bridge.seedTrims], ?_, fun j => ?_⟩
    · apply Bridge.members_congr
      intro i
      simp only [if_true, Bridge.seedTrims, Bridge.station_mapMembers, Option.map_map]
      cases b.station i with
      | none => rfl
      | some st => simp only [Option.map_some, Function.comp]; split <;> rfl
    · simp [Bridge.seedTrims]

/-- The seeding of trims changes no entry actual (R109). -/
theorem Bridge.entryActuals_seedWhen (b : Bridge) (g : GroupIx) (seeds : Bool) :
    (b.seedWhen g seeds).entryActuals g = b.entryActuals g := by
  obtain ⟨-, hm, hs⟩ := b.seedWhen_spec g seeds
  unfold Bridge.entryActuals
  rw [hm]
  refine List.map_congr_left fun i _ => ?_
  rw [hs i]
  cases b.station i with
  | none => rfl
  | some st => simp only [Option.map_some, Option.bind_some]; split <;> rfl

/-- A stage entry of a record that passes its check (R103, R104, R109). -/
theorem Bridge.enterStage_enters {b : Bridge} {g : GroupIx} {i : Nat} (h : b.verdict (b.group g).planRange i = none) :
    EntersStage b (b.enterStage g i) g i := by
  unfold Bridge.enterStage
  rw [h]
  unfold Bridge.beginStage Bridge.recordEntry
  simp only
  generalize hm : ((b.modifyGroup g _).postGroup _ g _).modifyGroup g _ = m
  have hg : m.group g = { b.group g with
      stage := some i, runState := .running, dwell := (b.stageAt i).dwell.getD 0
      settle := (b.stageAt i).firstSettle, blend := 0
      retries := if (b.stageAt i).kind = .tune then (b.stageAt i).retries.getD 0 else (b.group g).retries
      speed := if (b.stageAt i).mode = .speed ∧ decide (b.mode g = .speed) = false then (b.group g).reference
        else (b.group g).speed } := by
    rw [← hm]
    simp [Bridge.postGroup, Bridge.post, DriveGroup.reference]
  have hst : m.stations = b.stations := by
    rw [← hm]
    simp [Bridge.postGroup, Bridge.post]
  obtain ⟨s1, s2, s3⟩ := m.seedWhen_spec g ((b.stageAt i).trimsOn && !b.trimsOn g)
  have s4 := m.entryActuals_seedWhen g ((b.stageAt i).trimsOn && !b.trimsOn g)
  have hact : m.entryActuals g = b.entryActuals g := by
    unfold Bridge.entryActuals
    rw [Bridge.members_congr (c := m) (b := b) g fun i => by rw [Bridge.station_congr hst]]
    simp only [Bridge.station_congr hst]
  have hmode : (b.stageAt i).mode = .speed ↔ (b.stageAt i).kind.overridesSpeed = true := by
    unfold StageRecord.mode
    generalize (b.stageAt i).kind = k
    cases k <;> simp [StageKind.overridesSpeed]
    split <;> simp
  generalize m.seedWhen g _ = n at s1 s2 s3 s4
  constructor
  · by_cases hk : (b.stageAt i).kind = .bump
    · simp only [hk, if_true, Bridge.group_modifyGroup, s1, s4, hact, hg]
      simp [StageRecord.firstPhase, StageRecord.firstSettle, hk, StageRecord.mode, StageKind.overridesSpeed,
        Bridge.entryActuals]
    · simp only [hk, if_false, Bridge.group_modifyGroup, if_true, s1, hg, StageRecord.firstPhase,
        StageRecord.firstSettle, hmode]
      cases (b.stageAt i).kind <;> simp
  · intro j
    have : ∀ c : Bridge, c.stations = n.stations → c.station j = n.station j := fun c hc => Bridge.station_congr hc j
    rw [this _ (by split <;> simp), s3 j, Bridge.station_congr hst, hg]
    simp [clampAbs_eq, StageRecord.trimsOn]

/-! ## A probe given up (R144, R151) -/

/-- Work on other parts of the bridge, and on group `g` itself, after it has given its probe up. -/
theorem GivesUpProbe.congr {b c d : Bridge} {g : GroupIx} (h : GivesUpProbe b c g)
    (hp : ∀ p, d.probe p = c.probe p) (hk : ∀ k, k ≠ g → d.group k = c.group k) : GivesUpProbe b d g := by
  obtain ⟨h1, h2, h3⟩ := h
  refine ⟨fun q hq => (hp q).trans (h1 q hq), fun hn k e => (hk k e).trans (h2 hn k e), fun p ho => ?_⟩
  obtain ⟨h4, h5⟩ := h3 p ho
  simp only [hp]
  refine ⟨fun hw => ?_, fun k i w hw hl hi hpw => ?_⟩
  · obtain ⟨h6, h7, h8⟩ := h4 hw
    exact ⟨h6, fun k e => (hk k e).trans (h7 k e), h8⟩
  · obtain ⟨h6, h7, h8⟩ := h5 k i w hw hl hi hpw
    exact ⟨h6, (hk k hw.1).trans h7, fun j e e' => (hk j e).trans (h8 j e e')⟩

theorem Bridge.leader_congr {b c : Bridge} (h : c.stations = b.stations) (g : GroupIx) : c.leader g = b.leader g := by
  have hm : c.members g = b.members g := Bridge.members_congr g fun i => by rw [Bridge.station_congr h]
  have hl : c.isLeaderRole = b.isLeaderRole := by
    funext i
    unfold Bridge.isLeaderRole
    rw [Bridge.station_congr h]
  unfold Bridge.leader
  rw [hm, hl]

/-- The lowest waiting group is the one below which no group waits (R144). -/
theorem Bridge.lowestWaiting_eq {b : Bridge} {k : GroupIx} (h : (b.group k).waiting = true)
    (hl : ∀ j, (b.group j).waiting = true → k ≤ j) : b.lowestWaiting = some k := by
  cases hf : b.lowestWaiting with
  | none =>
    unfold Bridge.lowestWaiting at hf
    rw [List.find?_eq_none] at hf
    exact absurd h (by simpa using hf k (List.mem_finRange k))
  | some j =>
    have hj := Bridge.lowestWaiting_waits hf
    have h1 := hl j hj
    rcases eq_or_lt_of_le h1 with e | e
    · rw [e]
    · exfalso
      have hpair : groupIxs.Pairwise (· < ·) := List.pairwise_lt_finRange 8
      unfold Bridge.lowestWaiting at hf
      obtain ⟨-, as, bs, hs, hn⟩ := List.find?_eq_some_iff_append.mp hf
      have hk : k ∈ as ++ j :: bs := by rw [← hs]; exact List.mem_finRange k
      rw [hs] at hpair
      rcases List.mem_append.mp hk with m | m
      · exact absurd h (by simpa using hn k m)
      · rcases List.mem_cons.mp m with m | m
        · rw [m] at e; exact lt_irrefl _ e
        · have := (List.pairwise_cons.mp (List.pairwise_append.mp hpair).2.1).1 k m
          exact lt_asymm this e

/-- A group gives up its probe after work that leaves the stations, the store, the probes and the other groups. -/
theorem Bridge.releaseProbe_givesUp {b n : Bridge} {g : GroupIx}
    (single : ∀ p q, (b.probe p).owner = some (.group g) → (b.probe q).owner = some (.group g) → p = q)
    (hs : n.stations = b.stations) (hr : n.store = b.store) (ht : n.tracker = b.tracker)
    (hp : ∀ p, n.probe p = b.probe p) (hk : ∀ k, k ≠ g → n.group k = b.group k) :
    GivesUpProbe b (n.releaseProbe g) g := by
  unfold Bridge.releaseProbe
  simp only
  generalize hm : (n.modifyGroup g fun x => { x with waiting := false }) = m
  have mp : ∀ p, m.probe p = b.probe p := fun p => by rw [← hm]; simp [hp]
  have mk : ∀ k, k ≠ g → m.group k = b.group k := fun k e => by rw [← hm]; simp [e, Ne.symm e, hk]
  have mg : (m.group g).waiting = false := by rw [← hm]; simp
  have ms : m.stations = b.stations := by rw [← hm]; exact hs
  have mr : m.store = b.store := by rw [← hm]; exact hr
  have mt : m.tracker = b.tracker := by rw [← hm]; exact ht
  cases ho : m.ownedProbe g with
  | none =>
    refine ⟨fun q _ => mp q, fun _ => mk, fun p h => ?_⟩
    exact absurd (by rw [mp]; exact h) (Bridge.ownedProbe_none ho p)
  | some p =>
    have hop : (b.probe p).owner = some (.group g) := by rw [← mp]; exact Bridge.ownedProbe_some ho
    have key : ∀ (c : Bridge) (y : Probe), (∀ k, c.group k = m.group k) → c.stations = m.stations →
        c.store = m.store → (∀ q, c.probe q = if p = q then y else m.probe q) →
        y = { b.probe p with state := .idle, owner := none, result := y.result } →
        ((b.probe p).state ≠ .running → y.result = (b.probe p).result) →
        ((b.probe p).state = .running →
          ∃ r, y.result = some r ∧ r.outcome = .cancelled ∧ r.probe = p ∧ r.owner = (b.probe p).owner ∧
            r.station = (b.probe p).station ∧ r.mode = (b.probe p).mode ∧ r.window = (b.probe p).window ∧
            r.cycle = b.tracker.cycle ∧ r.chosen = none ∧
            ((b.probe p).mode = .fixed → r.subs = [] ∧ (b.probe p).acc.result =
              ⟨r.closes, r.samples, r.meanTorque, r.ripple, r.crossings, r.elapsed, r.frequency⟩)) →
        GivesUpProbe b (c.probeFreed p) g := by
      intro c y cg cs cr cp hy h1 h2
      have cw : ∀ k, (c.group k).waiting = true ↔ k ≠ g ∧ (b.group k).waiting = true := by
        intro k
        rw [cg]
        by_cases e : k = g
        · subst e; simp [mg]
        · simp [e, mk k e]
      have other : ∀ q, q ≠ p → (c.probeFreed p).probe q = b.probe q := by
        intro q e
        have : c.probe q = b.probe q := by rw [cp, if_neg (Ne.symm e), mp]
        unfold Bridge.probeFreed
        split
        · unfold Bridge.grant
          split
          · simp [Ne.symm e, this]
          · exact this
        · exact this
      refine ⟨fun q hq => other q fun e => hq (e ▸ hop), fun hn => absurd hop (hn p), fun q hq => ?_⟩
      obtain rfl : p = q := single p q hop hq
      refine ⟨fun hw => ?_, fun k i w hw hl hi hpw => ?_⟩
      · have : c.probeFreed p = c := Bridge.probeFreed_none (fun k => by
          cases h : (c.group k).waiting with
          | false => rfl
          | true => exact absurd ((cw k).mp h) (hw k)) p
        rw [this, cp, if_pos rfl]
        exact ⟨hy, fun k e => (cg k).trans (mk k e), h1, h2⟩
      · have hlow : c.lowestWaiting = some k :=
          Bridge.lowestWaiting_eq ((cw k).mpr hw) fun j hj => hl j ((cw j).mp hj)
        have hck : c.group k = b.group k := (cg k).trans (mk k hw.1)
        have hstage : c.currentStage k = b.currentStage k := by
          unfold Bridge.currentStage Bridge.stageAt
          rw [hck, cr, mr]
        have hgrant : c.probeFreed p =
            (c.setProbe p (startedProbe (.group k) i .fixed w)).modifyGroup k fun x =>
              { x with phase := some .probing, waiting := false } := by
          unfold Bridge.probeFreed
          rw [hlow]
          change c.grant p k = _
          unfold Bridge.grant
          rw [Bridge.leader_congr (cs.trans ms), hi, hstage, hpw]
        rw [hgrant]
        refine ⟨by simp [startedProbe, Accumulators.empty], by simp [hck], fun j e e' => ?_⟩
        simp [Ne.symm e', cg, mk j e]
    simp only
    split
    · rename_i hrun
      rw [mp] at hrun
      refine key _ { b.probe p with state := .idle, owner := none, result := some (m.probeResult p .cancelled) }
        (m.cancelRun_group p) (ArbiterWork.cancelRun m p).stations (ArbiterWork.cancelRun m p).store ?_ rfl
        (fun h => absurd hrun h) fun _ => ⟨_, rfl, ?_⟩
      · intro q
        have : ∀ (c : Bridge) k, ({ c with choiceCount := k } : Bridge).probe q = c.probe q := by
          intro c k; cases q <;> rfl
        unfold Bridge.cancelRun
        simp only [this, Bridge.probe_setProbe, mp]
      · unfold Bridge.probeResult
        rw [mp, mt]
        cases hmode : (b.probe p).mode <;>
          simp [Probe.fixedResult, Probe.steppedResult, hmode]
    · rename_i hrun
      rw [mp] at hrun
      refine key _ { b.probe p with state := .idle, owner := none }
        (m.idleProbe_group p) (ArbiterWork.idleProbe m p).stations (ArbiterWork.idleProbe m p).store ?_ rfl
        (fun _ => rfl) fun h => absurd h hrun
      intro q
      unfold Bridge.idleProbe
      simp only [Bridge.probe_setProbe, mp]

/-- Entry into FAULT gives the group's probe up (R126, R151). -/
theorem Bridge.enterFault_givesUp {b : Bridge} {g : GroupIx} (h : b.OwnersSound) (cause : Cause) (sub : FaultSub)
    (i : Option StationIx) (st : Option Nat) : GivesUpProbe b (b.enterFault g cause sub i st) g := by
  unfold Bridge.enterFault Bridge.postGroup Bridge.post
  apply Bridge.releaseProbe_givesUp (fun p q => h.single p q g)
  all_goals first | intro k hk; simp [Ne.symm hk] | simp

/-- A hold in PROBING or WAIT_PROBE gives the group's probe up (R116, R151). -/
theorem Bridge.holdPlan_givesUp {b : Bridge} {g : GroupIx} (h : b.OwnersSound)
    (hp : (b.group g).phase = some .probing ∨ (b.group g).phase = some .waitProbe) :
    GivesUpProbe b (b.holdPlan g) g := by
  unfold Bridge.holdPlan
  simp only [hp, decide_true, if_true]
  refine GivesUpProbe.congr (c := (b.modifyGroup g fun x => { x with runState := .held }).releaseProbe g) ?_
    (fun p => by simp [Bridge.resettle]) fun k hk => by simp [Bridge.resettle, Ne.symm hk]
  apply Bridge.releaseProbe_givesUp (fun p q => h.single p q g)
  all_goals first | intro k hk; simp [Ne.symm hk] | simp

/-- An abort gives the group's probe up (R119, R151). -/
theorem Bridge.abortPlan_givesUp {b : Bridge} {g : GroupIx} (h : b.OwnersSound) :
    GivesUpProbe b (b.abortPlan g) g := by
  unfold Bridge.abortPlan Bridge.postGroup Bridge.post
  split
  all_goals
    apply Bridge.releaseProbe_givesUp (fun p q => h.single p q g)
    all_goals first | intro k hk; simp [Ne.symm hk] | simp

end Sys2Proof.Machine
end

