-- ==== Sys2Proof/Tests/Slice0.lean ====
section
/-! SUPPORT. Tests: ill-formed commands that the check refuses, the reading of frames, one small step for each command,
and for every statement with hypotheses a state and operands that meet them. -/

namespace Sys2Proof.Tests

open Sys2Proof Sys2Proof.Machine

set_option Elab.async false

/-! ## Ill-formed commands -/

theorem fitsBody_replicate (n : Nat) (h : 65535 < n) (b : Byte) : fitsBody (List.replicate n b).length = false := by
  rw [List.length_replicate]
  exact decide_eq_false (Nat.not_le.mpr h)

theorem test_illformed_cycle_without_slots : (Instr.cycleFrameArrival 127#8 0#8 1#16 []).wellFormed = false := by decide

theorem test_illformed_cycle_with_49_slots :
    (Instr.cycleFrameArrival 127#8 0#8 1#16 (List.replicate 49 ⟨1#8, 0#8, 0#24, 0#16, 0#8⟩)).wellFormed = false := by
  decide

theorem test_illformed_cycle_frame_forwarded_from_line :
    (Instr.frameForwarded .line (cycleFrame 127#8 0#8 1#16 [⟨1#8, 0#8, 0#24, 0#16, 0#8⟩])).wellFormed = false := by
  decide

theorem test_illformed_feedback_frame_forwarded_from_drive :
    (Instr.frameForwarded .drive (feedbackFrame 0#8 12#8 1#16 0#24 0#16 0#8 0#8)).wellFormed = false := by decide

theorem test_illformed_forwarded_feedback_of_eight_bytes :
    (Instr.frameForwarded .line ⟨0#8, 12#8, 2#8, List.replicate 8 0#8⟩).wellFormed = false := by decide

theorem test_illformed_forwarded_cycle_of_two_bytes :
    (Instr.frameForwarded .drive ⟨0#8, 12#8, 1#8, [0#8, 0#8]⟩).wellFormed = false := by decide

theorem test_illformed_forwarded_body_too_long :
    (Instr.frameForwarded .line ⟨0#8, 12#8, 9#8, List.replicate 65536 0#8⟩).wellFormed = false := by
  rw [Instr.wellFormed, fitsBody_replicate _ (by decide)]
  rfl

theorem test_illformed_error_that_passes :
    (Instr.frameError .line (requestFrame 121#8 5#8 [1#8, 51#8]).bytes).wellFormed = false := by decide +kernel

theorem test_illformed_discarded_body_too_long :
    (Instr.requestDiscarded 5#8 (List.replicate 65536 0#8)).wellFormed = false := by
  rw [Instr.wellFormed, fitsBody_replicate _ (by decide)]

theorem test_illformed_unknown_service_that_is_known :
    (Instr.unknownService 5#8 [1#8, 51#8]).wellFormed = false := by decide

theorem test_illformed_operands_too_long :
    (Instr.stw 5#8 1#8 (List.replicate 65534 0#8)).wellFormed = false := by
  rw [Instr.wellFormed, List.length_replicate]
  exact decide_eq_false (by decide)

/-! ## Bytes and frames -/

/-- The check value of this CRC-16 over the ASCII digits 1 to 9 (R185). -/
theorem test_crc_of_digits :
    crc16 [49#8, 50#8, 51#8, 52#8, 53#8, 54#8, 55#8, 56#8, 57#8] = 0x29B1#16 := by decide +kernel

theorem test_arrival_of_a_request_is_its_service :
    arrivalCommand 121#8 false 0 .line (requestFrame 121#8 5#8 [7#8, 19#8, 3#8]).bytes = .plc 5#8 7#8 [3#8] := by
  decide +kernel

theorem test_arrival_of_an_unknown_code :
    arrivalCommand 121#8 false 0 .line (requestFrame 121#8 5#8 [7#8, 99#8]).bytes =
      .unknownService 5#8 [7#8, 99#8] := by decide +kernel

theorem test_arrival_with_four_replies_waiting :
    arrivalCommand 121#8 false 4 .line (requestFrame 121#8 5#8 [7#8, 19#8, 3#8]).bytes =
      .requestDiscarded 5#8 [7#8, 19#8, 3#8] := by decide +kernel

theorem test_arrival_of_a_request_for_another_address :
    arrivalCommand 122#8 false 0 .line (requestFrame 121#8 5#8 [7#8, 19#8]).bytes =
      .frameForwarded .line (requestFrame 121#8 5#8 [7#8, 19#8]) := by decide +kernel

theorem test_arrival_of_a_cycle_frame :
    arrivalCommand 121#8 false 0 .line (cycleFrame 127#8 0#8 258#16 [⟨12#8, 3#8, 0xFFFFFE#24, 1000#16, 9#8⟩]).bytes =
      .cycleFrameArrival 127#8 0#8 258#16 [⟨12#8, 3#8, 0xFFFFFE#24, 1000#16, 9#8⟩] := by decide +kernel

theorem test_arrival_of_a_cycle_frame_on_the_drive_port :
    arrivalCommand 121#8 false 0 .drive (cycleFrame 127#8 0#8 258#16 [⟨12#8, 3#8, 5#24, 1000#16, 9#8⟩]).bytes =
      .frameForwarded .drive (cycleFrame 127#8 0#8 258#16 [⟨12#8, 3#8, 5#24, 1000#16, 9#8⟩]) := by decide +kernel

theorem test_arrival_of_a_feedback_frame :
    arrivalCommand 121#8 false 0 .drive (feedbackFrame 0#8 12#8 7#16 0x010203#24 0xFFF6#16 3#8 0#8).bytes =
      .feedbackFrameArrival 0#8 12#8 7#16 0x010203#24 0xFFF6#16 3#8 0#8 := by decide +kernel

theorem test_arrival_with_a_wrong_check :
    arrivalCommand 121#8 false 0 .line [121#8, 5#8, 3#8, 0#8, 0#8, 0#8, 0#8] =
      .frameError .line [121#8, 5#8, 3#8, 0#8, 0#8, 0#8, 0#8] := by decide +kernel

theorem test_arrival_while_held :
    arrivalCommand 121#8 true 0 .line [1#8] = .frameDiscardedResetPending .line [1#8] := by decide

theorem test_no_word_spells_a_command : decodeTableWord 32 0x12345678 = none := rfl

/-! ## A small state

Two stations in G1, one in no group; G1's plan is the records 0 and 1; the check is RUNNING, the tracker SYNCED in cycle
40, RELEASE active. -/

def config (address : Byte) (group : Option GroupIx) (role : Role) : StationConfig :=
  ⟨address, group, role, 500, .plus, 1500, 2000, 300, 100000, 24, 8, 40⟩

def station (address : Byte) (group : Option GroupIx) (role : Role) (mark : CloseMark) : Station :=
  ⟨config address group role, { newRun with mark := mark, trim := 10 }⟩

/-- CREEP to 2000 at 500 a close, then awaiting confirmation. -/
def creep : StageRecord :=
  { StageRecord.empty with
    kind := .creep, target := some 2000, ramp := some 500, exit := some .confirm, trims := some true
    faultAction := some .halt, next := some .next }

/-- PASS with trims off, ending the plan. -/
def pass : StageRecord :=
  { StageRecord.empty with
    kind := .pass, exit := some .confirm, trims := some false, faultAction := some .trip, next := some .fin }

/-- TUNE with W = 16 and a ripple limit of 100. -/
def tune : StageRecord :=
  { StageRecord.empty with
    kind := .tune, target := some 2000, ramp := some 500, dwell := some 3, trims := some true, settleWindow := some 20
    probeWindow := some 16, rippleLimit := some 100, retries := some 1, faultAction := some .excursion
    excTarget := some 5, next := some .next }

/-- BUMP by way of 2500 with a torque cap. -/
def bump : StageRecord :=
  { StageRecord.empty with
    kind := .bump, target := some 2500, ramp := some 100, dwell := some 4, trims := some false, cap := some 800
    faultAction := some .halt, next := some .fin }

/-- HANDBACK by 100 a close. -/
def handback : StageRecord :=
  { StageRecord.empty with
    kind := .handback, ramp := some 100, trims := some false, faultAction := some .halt, next := some .fin }

/-- An excursion's PASS stage, with RETURN. -/
def rescue : StageRecord :=
  { StageRecord.empty with
    kind := .pass, exit := some .confirm, trims := some true, faultAction := some .halt, next := some .ret }

def record : GroupRecord := ⟨64, 200, 100, 50, 100, none, none, 50, 24, 8, 100, 100, 0, 2⟩

def store : Vector StageRecord 128 :=
  ([(0, creep), (1, pass), (2, tune), (3, bump),
      (4, { pass with exit := some .dwell, dwell := some 5, trims := some true, next := some .next }), (5, rescue),
      (6, { pass with exit := some .dwellThenConfirm, dwell := some 5 }), (7, handback),
      (8, { tune with excTarget := some 9 }), (10, { creep with target := none }),
      (11, { tune with excTarget := some 200 }), (12, { rescue with kind := .trim })] : List (Fin 128 × StageRecord)).foldl
    (fun v e => v.set e.1 e.2) (Vector.replicate 128 StageRecord.empty)

def demoBridge : Bridge :=
  { Bridge.reset with
    release := true
    tracker := ⟨.synced, some 40#16, 0, .running 20000, 20⟩
    stations :=
      (((Vector.replicate 32 none).set 0 (some (station 12#8 (some 0) .leader .isOpen))).set 1
        (some (station 17#8 (some 0) .member .isOpen))).set 2 (some (station 30#8 none .leader .exempt))
    mask := 7#32
    groups := (Vector.replicate 8 (DriveGroup.fresh GroupRecord.default)).set 0 (DriveGroup.fresh record)
    store := store
    check := ⟨.running, 4660#16, 0#8, some 100, some 100000, none⟩
    choices := List.replicate 8 0 }

def demo : State := { State.reset with bridge := demoBridge }

/-- The small state with another bridge. -/
def withBridge (b : Bridge) : State := { demo with bridge := b }

/-- The small bridge with another G1. -/
def withGroup (x : DriveGroup) : Bridge := { demoBridge with groups := demoBridge.groups.set 0 x }

/-- G1 in its CREEP stage, in a phase, at a commanded speed. -/
def running (phase : Phase) (speed : Int) : DriveGroup :=
  { DriveGroup.fresh record with
    runState := .running, phase := some phase, planTag := some 9#8, planRange := some ⟨0, 2⟩, stage := some 0
    speed := speed, masterRef := some ⟨2000, 40#16⟩, pendingSet := some ⟨40#16, [0, 1]⟩ }

/-- The state a command leaves. -/
def after (c : Instr) (s : State) : State :=
  match exec c s with
  | .next t => t
  | .fault _ | .refused _ => s

/-- The Reply the line-port transmitter sends. -/
def sent (s : State) : Option (List Byte) :=
  match s.link.lineTx with
  | some (.own (.reply f)) | some (.own (.brsReply f)) => some f.body
  | _ => none

/-! ## One step for each command -/

/-- G1 ramping from 1500 toward 2000 by 500 a close. -/
def ramping : State := withBridge (withGroup (running .ramp 1500))

/-- G1 in its CREEP stage, awaiting confirmation. -/
def awaiting : State := withBridge (withGroup (running .awaitConfirm 2000))

/-- With the tape's choices the boundary closes come first: the ramp reaches 2000, to which the trim of 10 is added. The
slot of the station in no group is PASSED. -/
theorem test_cycleFrameArrival :
    (after (.cycleFrameArrival 127#8 0#8 41#16 [⟨12#8, 3#8, 1900#24, 1000#16, 9#8⟩, ⟨30#8, 4#8, 1900#24, 900#16, 8#8⟩])
        ramping).link.driveTx =
      some (cycleFrame 127#8 0#8 41#16 [⟨12#8, 3#8, 2010#24, 1000#16, 9#8⟩, ⟨30#8, 4#8, 1900#24, 900#16, 8#8⟩]) := by
  decide +kernel

/-- The two boundary closes of that arrival make the group close, and the new cycle awaits both members again. -/
theorem test_cycleFrameArrival_group :
    let t := after (.cycleFrameArrival 127#8 0#8 41#16 [⟨12#8, 3#8, 1900#24, 1000#16, 9#8⟩]) ramping
    (t.bridge.group 0).phase = some .awaitConfirm ∧ (t.bridge.group 0).pendingSet = some ⟨41#16, [0, 1]⟩ ∧
      (t.bridge.station 0).map (fun st => (st.run.mark, st.run.counter, st.run.present.fbMissing)) =
        some (.isOpen, 3, true) := by decide +kernel

theorem test_feedbackFrameArrival :
    let t := after (.feedbackFrameArrival 0#8 12#8 40#16 1900#24 300#16 3#8 0#8) demo
    t.link.lineTx = some (.forwarded (feedbackFrame 0#8 12#8 40#16 1900#24 300#16 3#8 1#8)) ∧
      (t.bridge.station 0).map (fun st => (st.run.mark, st.run.fresh, st.run.latch)) =
        some (.closed, true, some ⟨40#16, 1900, 300, ⟨true, true, false, false⟩⟩) := by decide +kernel

theorem test_feedbackFrameArrival_late :
    ((after (.feedbackFrameArrival 0#8 12#8 39#16 1900#24 300#16 3#8 0#8) demo).bridge.station 0).map
      (fun st => (st.run.mark, st.run.late, st.run.latch)) = some (.isOpen, true, none) := by decide +kernel

theorem test_frameForwarded :
    (after (.frameForwarded .line ⟨90#8, 5#8, 7#8, [1#8]⟩) demo).link.driveTx = some ⟨90#8, 5#8, 7#8, [1#8]⟩ ∧
      (after (.frameForwarded .drive ⟨90#8, 5#8, 7#8, [1#8]⟩) demo).link.lineTx =
        some (.forwarded ⟨90#8, 5#8, 7#8, [1#8]⟩) := by decide +kernel

theorem test_frameError :
    (after (.frameError .drive [1#8, 2#8]) demo).link.frameErrorDrive = ⟨true, false⟩ := by decide +kernel

theorem test_frameDiscardedResetPending :
    after (.frameDiscardedResetPending .line [1#8]) { demo with resetPending := some .full } =
      { demo with resetPending := some .full } := rfl

/-- A state in which four Replies wait. -/
def crowded : State :=
  { demo with
    link :=
      { Link.reset with
        lineTx := some (.forwarded ⟨0#8, 12#8, 9#8, []⟩)
        localQueue := List.replicate 4 (.reply ⟨5#8, 121#8, 4#8, [1#8, 51#8, 1#8, 0#8]⟩) } }

theorem test_requestDiscarded :
    (after (.requestDiscarded 5#8 [1#8, 51#8]) crowded).link.requestDiscarded = ⟨true, false⟩ := by decide +kernel

theorem test_unknownService :
    sent (after (.unknownService 5#8 [7#8, 99#8]) demo) = some [7#8, 99#8, 3#8, 1#8] := by decide +kernel

theorem test_drivePortTransmissionEnd :
    let l : Link := { Link.reset with driveTx := some ⟨1#8, 0#8, 9#8, []⟩, driveQueue := [⟨2#8, 0#8, 9#8, []⟩] }
    (after .drivePortTransmissionEnd { demo with link := l }).link =
      { Link.reset with driveTx := some ⟨2#8, 0#8, 9#8, []⟩ } := by decide +kernel

/-- With LOCAL the last taken, the forward queue is served first (R9). -/
theorem test_linePortTransmissionEnd :
    let l : Link :=
      { crowded.link with forwardQueue := [⟨0#8, 13#8, 9#8, []⟩], lastTaken := .own, slip := ⟨true, true⟩ }
    let t := after .linePortTransmissionEnd { demo with link := l }
    t.link.lineTx = some (.forwarded ⟨0#8, 13#8, 9#8, []⟩) ∧ t.link.lastTaken = .forward ∧
      t.link.slip = ⟨true, true⟩ := by decide +kernel

theorem test_cycleLossExpiry :
    let t := after .cycleLossExpiry ramping
    t.bridge.tracker = ⟨.unsynced, some 40#16, 0, .expired, 20⟩ ∧
      (t.bridge.group 0).runState = .fault .link .settled ∧
      t.bridge.events.map Event.kind = [.linkLost, .groupFault] := by decide +kernel

theorem test_checkDeadlineExpiry :
    let t := after .checkDeadlineExpiry ramping
    t.bridge.check.state = .failed ∧ t.bridge.trip = ⟨true, false, false⟩ ∧
      t.bridge.events.map Event.kind = [.checkFailed, .tripOpened, .groupFault] := by decide +kernel

theorem test_releaseFall :
    let t := after .releaseFall ramping
    t.bridge.release = false ∧ (t.bridge.group 0).runState = .fault .release .settled := by decide +kernel

/-- FAULT UNWINDING that settles keeps nothing of its unwind (R126). -/
theorem test_releaseFall_drops_an_unwind :
    let b := withGroup { running .ramp 1500 with phase := none, runState := .fault .alarm .unwinding, blend := 2 }
    ((after .releaseFall (withBridge b)).bridge.group 0).runState = .fault .release .settled ∧
      ((after .releaseFall (withBridge b)).bridge.group 0).blend = 0 := by decide +kernel

theorem test_releaseRise : (after .releaseRise State.reset).bridge.release = true := by decide +kernel

theorem test_pinResetAssert :
    let t := after .pinResetAssert ramping
    t.resetAsserted = true ∧ t.bridge.station 0 = none ∧ t.bridge.release = true := by decide +kernel

theorem test_pinResetRelease :
    (after .pinResetRelease { demo with resetAsserted := true, strapA := .tiedLow }).address = 122#8 := by
  decide +kernel

/-- A new binding: index 3, drive address 40, group NONE, MEMBER, share 500, +1, 1500, 2000, 300, 100000, 24, 8 and no
offset operand. -/
def stwBytes : List Byte :=
  [3#8, 40#8, 0#8, 1#8, 1#8, 244#8, 1#8, 5#8, 220#8, 7#8, 208#8, 1#8, 44#8, 1#8, 134#8, 160#8, 24#8, 8#8, 0#8]

theorem test_stw :
    (after (.stw 5#8 1#8 stwBytes) demo).bridge.station 3 =
      some ⟨{ config 40#8 none .member with offset := 0 }, newRun⟩ := by decide +kernel

theorem test_stw_address_in_use :
    sent (after (.stw 5#8 1#8 (stwBytes.set 1 17#8)) demo) = some [1#8, 1#8, 3#8, 2#8] := by decide +kernel

/-- A FREE entry: the byte FREE, and every field absent. -/
theorem test_str :
    sent (after (.str 5#8 1#8 [9#8]) demo) = some ([1#8, 2#8, 1#8, 0#8, 0#8] ++ List.replicate 23 0#8) := by
  decide +kernel

theorem test_stc :
    let t := after (.stc 5#8 1#8 [1#8]) demo
    t.bridge.station 1 = none ∧ t.bridge.members 0 = [0] ∧ sent t = some [1#8, 3#8, 1#8, 0#8] := by decide +kernel

theorem test_cnr :
    sent (after (.cnr 5#8 1#8 [0#8]) demo) = some ([1#8, 40#8, 1#8, 0#8, 0#8, 0#8] ++ List.replicate 20 0#8) := by
  decide +kernel

/-- G2's record with a trim limit of 5. -/
def grwBytes : List Byte :=
  [2#8, 64#8, 0#8, 5#8, 0#8, 100#8, 0#8, 50#8, 0#8, 100#8, 0#8, 0#8, 0#8, 50#8, 24#8, 8#8, 0#8, 100#8, 0#8, 100#8, 0#8,
    2#8]

/-- The Reply carries the record as GRR codes it, and nothing else (R69). -/
theorem test_grw :
    sent (after (.grw 5#8 1#8 grwBytes) demo) = some ([1#8, 4#8, 1#8, 0#8] ++ grwBytes.tail) ∧
      ((after (.grw 5#8 1#8 grwBytes) demo).bridge.group 1).record = { record with trimLimit := 5 } := by decide +kernel

/-- The write to G1 brings its members' trims of 10 within the limit of 5. -/
theorem test_grw_clamps_trims :
    ((after (.grw 5#8 1#8 (grwBytes.set 0 1#8)) demo).bridge.station 0).map (fun st => st.run.trim) = some 5 := by
  decide +kernel

theorem test_grr :
    (sent (after (.grr 5#8 1#8 [1#8]) demo)).map (List.take 5) = some [1#8, 5#8, 1#8, 0#8, 64#8] := by decide +kernel

/-- Station 0 is cleared in the mask while its group runs: GROUP_FAULT MEMBER_MASKED, unwinding. -/
theorem test_omw :
    let t := after (.omw 5#8 1#8 [0#8, 0#8, 0#8, 6#8]) ramping
    t.bridge.mask = 6#32 ∧ (t.bridge.group 0).runState = .fault .memberMasked .unwinding ∧
      t.bridge.events = [⟨.groupFault, some 40#16, some 0, some 0, some 0, some 9#8, some .memberMasked⟩] := by
  decide +kernel

theorem test_omr :
    sent (after (.omr 5#8 1#8 []) demo) =
      some ([1#8, 9#8, 1#8, 0#8, 0#8, 0#8, 0#8, 7#8] ++ List.replicate 32 0#8) := by decide +kernel

/-- Record 9 becomes HANDBACK with ramp 300, trims OFF, HALT and NEXT. -/
def sgwBytes : List Byte :=
  [9#8, 7#8, 0#8, 1#8, 1#8, 44#8, 0#8, 0#8, 1#8, 1#8, 0#8, 0#8, 0#8, 0#8, 0#8, 1#8, 0#8, 0#8, 1#8, 0#8]

theorem test_sgw :
    (after (.sgw 5#8 1#8 sgwBytes) demo).bridge.stageAt 9 =
      { StageRecord.empty with
        kind := .handback, ramp := some 300, trims := some false, faultAction := some .halt, next := some .next } := by
  decide +kernel

theorem test_sgw_locked : sent (after (.sgw 5#8 1#8 sgwBytes) ramping) = some [1#8, 6#8, 3#8, 4#8] := by decide +kernel

theorem test_sgr :
    (sent (after (.sgr 5#8 1#8 [0#8, 0#8]) demo)).map (List.take 9) =
      some [1#8, 7#8, 1#8, 0#8, 3#8, 1#8, 0#8, 7#8, 208#8] := by decide +kernel

theorem test_pls :
    let t := after (.pls 5#8 9#8 [1#8]) demo
    sent t = some [9#8, 16#8, 2#8, 0#8] ∧ (t.bridge.group 0).runState = .running ∧
      (t.bridge.group 0).phase = some .ramp ∧ (t.bridge.station 1).map (fun st => st.run.trim) = some 40 := by
  decide +kernel

theorem test_pls_member_disabled :
    sent (after (.pls 5#8 9#8 [1#8]) (withBridge { demoBridge with mask := 5#32 })) =
      some [9#8, 16#8, 3#8, 14#8, 1#8] := by decide +kernel

theorem test_plh : ((after (.plh 5#8 1#8 [1#8]) ramping).bridge.group 0).runState = .held := by decide +kernel

theorem test_plr :
    ((after (.plr 5#8 1#8 [1#8]) (withBridge (withGroup { running .ramp 1500 with runState := .held }))).bridge.group
      0).runState = .running := by decide +kernel

theorem test_plc :
    let t := after (.plc 5#8 1#8 [1#8]) awaiting
    (t.bridge.group 0).stage = some 1 ∧ t.bridge.events.map Event.kind = [.stageDone, .stageEntered] := by
  decide +kernel

theorem test_plc_not_awaiting : sent (after (.plc 5#8 1#8 [1#8]) ramping) = some [1#8, 19#8, 3#8, 16#8] := by
  decide +kernel

theorem test_pla : ((after (.pla 5#8 1#8 [1#8]) ramping).bridge.group 0).runState = .aborting := by decide +kernel

theorem test_gst :
    (sent (after (.gst 5#8 1#8 [1#8]) ramping)).map (List.take 9) =
      some [1#8, 21#8, 1#8, 0#8, 1#8, 1#8, 0#8, 1#8, 0#8] := by decide +kernel

/-- P1, station 2, W = 64, STEPPED. -/
theorem test_pbs :
    let t := after (.pbs 5#8 8#8 [1#8, 2#8, 0#8, 64#8, 1#8]) demo
    sent t = some [8#8, 24#8, 2#8, 0#8] ∧ t.bridge.probe1.state = .running ∧
      t.bridge.probe1.owner = some (.request 8#8) ∧ t.bridge.probe1.window = 64 := by decide +kernel

/-- A request's FIXED run on station 2 with 9 closes counted, 1 of them a sample. -/
def probing : Probe :=
  ⟨.running, some (.request 8#8), some 2, .fixed, 64, 1, ⟨9, 1, -7, some (-3), some (-3), 0, some .neg, some 5#32, some 5#32⟩,
    [], none⟩

theorem test_pbc :
    let t := after (.pbc 5#8 1#8 [1#8]) (withBridge { demoBridge with probe1 := probing })
    t.bridge.probe1.state = .idle ∧ t.bridge.probe1.owner = none ∧
      t.bridge.probe1.result.map (fun r => (r.outcome, r.closes, r.meanTorque, r.ripple, r.elapsed)) =
        some (.cancelled, 9, some (-7), some 0, none) := by decide +kernel

theorem test_pbr :
    sent (after (.pbr 5#8 1#8 [2#8]) demo) = some [1#8, 26#8, 1#8, 0#8, 0#8] := by decide +kernel

theorem test_cks :
    let t := after (.cks 5#8 1#8 [0#8, 50#8]) (withBridge { demoBridge with check := ConsoleCheck.reset })
    sent t = some [1#8, 32#8, 1#8, 0#8, 0x12#8, 0x34#8, 0#8, 0#8, 50#8] ∧
      t.bridge.check = ⟨.running, 4660#16, 0#8, some 50, some 50000, none⟩ := by decide +kernel

/-- 3 × 4660 + 0 = 13980 answers the challenge 4660; the next challenge is 5 × 4660 + 3 = 23303. -/
theorem test_cka :
    let t := after (.cka 5#8 1#8 [0x36#8, 0x9C#8]) demo
    t.bridge.check.challenge = 23303#16 ∧ t.bridge.check.sequence = 1#8 ∧ t.bridge.check.state = .running := by
  decide +kernel

theorem test_cka_wrong :
    let t := after (.cka 5#8 1#8 [0#8, 0#8]) demo
    sent t = some [1#8, 33#8, 3#8, 17#8] ∧ t.bridge.check.state = .failed ∧ t.bridge.trip.console = true := by
  decide +kernel

theorem test_ckx : (after (.ckx 5#8 1#8 []) demo).bridge.check.state = .inactive := by decide +kernel

theorem test_tpc :
    let t := after (.tpc 5#8 1#8 []) (withBridge { demoBridge with trip := ⟨false, false, true⟩ })
    sent t = some [1#8, 49#8, 1#8, 0#8, 0#8, 0#8] ∧ t.bridge.trip = ⟨false, false, false⟩ ∧
      t.bridge.events.map Event.kind = [.tripClosed] := by decide +kernel

theorem test_evr :
    let e : Event := ⟨.linkLost, some 7#16, none, none, none, none, none⟩
    let t := after (.evr 5#8 1#8 [8#8]) (withBridge { demoBridge with events := [e], eventsLost := true })
    sent t = some [1#8, 41#8, 1#8, 0#8, 1#8, 17#8, 1#8, 0#8, 7#8, 0#8, 0#8, 0#8, 0#8, 0#8, 1#8, 0#8] ∧
      t.bridge.events = [] ∧ t.bridge.eventsLost = false := by decide +kernel

theorem test_lkw : (after (.lkw 5#8 1#8 [50#8]) demo).bridge.tracker.setting = 50 := by decide +kernel

theorem test_idr :
    sent (after (.idr 5#8 1#8 []) demo) =
      some [1#8, 51#8, 1#8, 0#8, 2#8, 0x6A#8, 1#8, 121#8, 32#8, 8#8, 128#8, 2#8, 64#8] := by decide +kernel

theorem test_brs :
    let t := after (.brs 5#8 1#8 [1#8]) demo
    sent t = some [1#8, 50#8, 1#8, 0#8, 1#8] ∧ t.resetPending = some .tablesKept := by decide +kernel

/-- The pending reset takes effect at the end of the Reply's transmission; the tables stand. -/
theorem test_brs_takes_effect :
    let t := after .linePortTransmissionEnd (after (.brs 5#8 1#8 [1#8]) ramping)
    t.resetPending = none ∧ t.link.lineTx = none ∧ (t.bridge.group 0).runState = .idle ∧
      (t.bridge.station 0).map Station.config = some (config 12#8 (some 0) .leader) ∧ t.bridge.mask = 7#32 := by
  decide +kernel

/-- The leader of a tuning group turns INVALID at the close that is also the group's last. MEMBER_LOST ends its probe's
run and enters a TUNE stage that settles at once and claims the probe again; the close does not reach the new run
(R149). -/
theorem test_close_does_not_reach_a_run_started_by_it :
    let st := station 12#8 (some 0) .leader .closed
    let b : Bridge :=
      { demoBridge with
        stations := demoBridge.stations.set 0 (some { st with
          run := { st.run with counter := 21, fresh := true, latch := some ⟨40#16, 2000, 300, ⟨true, true, true, false⟩⟩ } })
        store := (store.set 2 { tune with excTarget := some 13 }).set 13 { tune with dwell := some 1 }
        groups := demoBridge.groups.set 0
          { running .probing 2000 with stage := some 2, pendingSet := some ⟨40#16, [0]⟩ }
        probe1 := { probing with owner := some (.group 0), station := some 0, window := 16 } }
    let c := b.stationClose 0 40#16 false
    (c.group 0).stage = some 13 ∧ (c.group 0).phase = some .probing ∧ c.probe1.state = .running ∧
      c.probe1.acc.closes = 0 := by decide +kernel

/-- The arithmetic of a result (the example of chapter 9). -/
theorem test_probe_result :
    (⟨64, 60, 25380, some (-38), some 47, 18, some .pos, some 7210000#32, some 7840000#32⟩ : Accumulators).result =
      ⟨64, 60, some 423, some 85, 18, some 630000, some 1428⟩ := by decide +kernel

/-- Of the amplitudes 85, 71 and 92 the median is 85, the first (the example of chapter 9). -/
theorem test_chosen_sub_window :
    chosenSub ([85, 71, 92].map fun a => ⟨64, 60, none, some a, 0, none, none⟩) = some 1 := by decide +kernel

/-! ## Witnesses: states and operands that meet the hypotheses of the statements

Each is named after its statement. A clause with hypotheses of its own has a line of its own. -/

theorem demo_stations : ∀ i : StationIx,
    demoBridge.station i = none ∨ i = 0 ∧ demoBridge.station i = some (station 12#8 (some 0) .leader .isOpen) ∨
      i = 1 ∧ demoBridge.station i = some (station 17#8 (some 0) .member .isOpen) ∨
      i = 2 ∧ demoBridge.station i = some (station 30#8 none .leader .exempt) := by decide +kernel

/-- A property of the three entries holds of every entry. -/
theorem demo_entry {P : StationIx → Station → Prop} (h0 : P 0 (station 12#8 (some 0) .leader .isOpen))
    (h1 : P 1 (station 17#8 (some 0) .member .isOpen)) (h2 : P 2 (station 30#8 none .leader .exempt))
    (i : StationIx) (st : Station) (h : demoBridge.station i = some st) : P i st := by
  rcases demo_stations i with e | ⟨rfl, e⟩ | ⟨rfl, e⟩ | ⟨rfl, e⟩ <;> rw [e] at h <;> cases h <;> assumption

theorem demo_table : demoBridge.TableSound where
  addresses i j x y hi hj h := by
    rcases demo_stations i with e | ⟨rfl, e⟩ | ⟨rfl, e⟩ | ⟨rfl, e⟩ <;> rw [e] at hi <;> cases hi <;>
      rcases demo_stations j with k | ⟨rfl, k⟩ | ⟨rfl, k⟩ | ⟨rfl, k⟩ <;> rw [k] at hj <;> cases hj <;>
      first | rfl | exact absurd h (by decide)
  members := by decide +kernel

theorem demo_marks : demoBridge.MarksSound :=
  fun i st h => demo_entry (P := fun _ st => st.run.mark = .isOpen → st.run.fresh = false) (by decide) (by decide)
    (by decide) i st h

theorem demo_binds : demoBridge.Binds 12#8 0 (station 12#8 (some 0) .leader .isOpen) := by
  unfold Bridge.Binds
  decide +kernel

/-- A group is without claims on a probe where no probe has an owner. -/
theorem owners_of_none {b : Bridge} (h1 : b.probe1.owner = none) (h2 : b.probe2.owner = none) : b.OwnersSound where
  owner p g h := by cases p <;> simp [Bridge.probe, h1, h2] at h
  single p _ g h := by cases p <;> simp [Bridge.probe, h1, h2] at h

/-- The small link: a full forward queue behind a transmission. -/
theorem full_link :
    ({ Link.reset with
        lineTx := some (.forwarded ⟨0#8, 12#8, 9#8, []⟩)
        forwardQueue := List.replicate 16 ⟨0#8, 12#8, 9#8, []⟩ } : Link).Sound :=
  ⟨by decide, by decide, by decide, by decide, by decide, (fun h => by cases h)⟩

theorem test_witness_EmptyQueueStepIsAMicrosecond :
    (demo.pending = [] ∧ demo.resetAsserted = false ∧ demoBridge.tracker.timer = .running 20000) ∧
      ({ demo with resetAsserted := true } : State).pending = [] ∧
      (withBridge { demoBridge with tracker := ⟨.synced, some 40#16, 0, .running 1, 20⟩ }).pending = [] ∧
      (withBridge { demoBridge with check := ⟨.running, 4660#16, 0#8, some 100, some 1, none⟩ }).pending = [] :=
  ⟨⟨rfl, rfl, rfl⟩, rfl, rfl, rfl⟩

theorem test_witness_ForwardedFrames :
    let f : Frame := ⟨90#8, 5#8, 7#8, [1#8]⟩
    demo.held = false ∧ f.body.length ≤ 65535 ∧ f.kind ≠ 1#8 ∧ ¬(f.kind = 3#8 ∧ f.dst = demo.address) ∧
      (f.kind = 2#8 → f.body.length = 9) ∧ f.kind ≠ 2#8 ∧ (f.kind = 1#8 → f.bodyPasses = true) ∧
      ({ Link.reset with driveTx := some f } : Link).driveQueue = [] ∧
      ({ Link.reset with driveTx := some f, driveQueue := [f] } : Link).driveQueue = f :: [] := by decide +kernel

theorem test_witness_LineTransmitterAndReplies :
    (crowded.link.lineTx = some (.forwarded ⟨0#8, 12#8, 9#8, []⟩) ∧
      ∀ f, (.forwarded ⟨0#8, 12#8, 9#8, []⟩ : Sending) = .own (.brsReply f) → crowded.resetPending = none) ∧
      crowded.link.Sound ∧ crowded.link.forwardQueue = [] ∧ crowded.link.localQueue ≠ [] :=
  ⟨⟨rfl, fun _ h => by cases h⟩, ⟨by decide, by decide, by decide, by decide, by decide, (fun h => by cases h)⟩, rfl,
    by decide⟩

theorem test_witness_DiscardedFrames :
    demo.held = false ∧ Frame.ofBytes [1#8, 2#8] = none ∧ ({ demo with resetPending := some .full } : State).held = true ∧
      arrives (.frameError .line []) = true := by decide +kernel

theorem test_witness_RequestAdmission :
    ((Instr.idr 5#8 1#8 []).wellFormed = true ∧ (Instr.idr 5#8 1#8 []).request = some (5#8, [1#8, 51#8]) ∧
      crowded.held = false ∧ 4 ≤ crowded.link.waitingReplies) ∧
    (demo.takes = true ∧ knownRequest 5#8 [] = none ∧ knownRequest 5#8 [1#8, 52#8] = none) ∧
    decodeOperands readStw (stwBytes.set 0 32#8) = none ∧ decodeOperands readStation [32#8] = none ∧
    decodeOperands readGrw (grwBytes.set 0 9#8) = none ∧ decodeOperands readGroup [9#8] = none ∧
    decodeOperands readSgw (sgwBytes.set 0 128#8) = none ∧ decodeOperands readSgr [128#8, 0#8] = none ∧
    [0#8, 0#8, 0#8].length ≠ 4 ∧ decodeOperands readPbs [1#8, 2#8, 0#8, 15#8, 0#8] = none ∧
    decodeOperands readProbe [3#8] = none ∧ decodeOperands readCheckWindow [0#8, 4#8] = none ∧
    decodeOperands readCount [9#8] = none ∧ decodeOperands readLoss [101#8] = none ∧
    decodeOperands readScope [2#8] = none := by decide +kernel

/-- One slot and 48 slots; the eighth good number, a number that is not good, a successor, a slip and a gap. -/
theorem test_witness_CycleFrameStepsTracker :
    demo.held = false ∧ (1 ≤ [(⟨12#8, 0#8, 0#24, 0#16, 0#8⟩ : Slot)].length) ∧
      (List.replicate 48 (⟨12#8, 0#8, 0#24, 0#16, 0#8⟩ : Slot)).length ≤ 48 ∧
      (let k : Tracker := ⟨.unsynced, some 40#16, 7, .running 1, 20⟩
       k.sync = .unsynced ∧ k.timer = .running 1 ∧ k.cycle = some 40#16 ∧ 41#16 = 40#16 + 1#16 ∧ 42#16 ≠ 40#16 + 1#16) ∧
      demoBridge.tracker.sync = .synced ∧ demoBridge.tracker.cycle = some 40#16 ∧ 42#16 = 40#16 + 2#16 ∧
      43#16 ≠ 40#16 + 1#16 ∧ 43#16 ≠ 40#16 + 2#16 := by decide

theorem test_witness_CycleFrameBoundary :
    demo.held = false ∧ demo.bridge.MarksSound ∧ demoBridge.tracker.cycle ≠ none ∧
      (demoBridge.station 0).map (fun st => st.run.mark) = some .isOpen ∧
      (demoBridge.station 2).map (fun st => st.run.mark) = some .exempt :=
  ⟨rfl, demo_marks, by decide, by decide +kernel, by decide +kernel⟩

/-- The three states of the drive port; a boundary close, and a state in which none closes and sync stands. -/
theorem test_witness_CycleFrameSendsSlotsAndStatus :
    crowded.held = false ∧ crowded.link.Sound ∧ crowded.link.driveTx = none ∧ crowded.link.lineTx ≠ none ∧
      (let l : Link := { Link.reset with driveTx := some ⟨1#8, 0#8, 9#8, []⟩ }
       l.Sound ∧ l.driveTx ≠ none ∧ l.driveQueue.length < 8) ∧
      (let l : Link :=
         { Link.reset with
           driveTx := some ⟨1#8, 0#8, 9#8, []⟩, driveQueue := List.replicate 8 ⟨1#8, 0#8, 9#8, []⟩ }
       l.Sound ∧ 8 ≤ l.driveQueue.length) ∧
      demoBridge.openStations = [0, 1] ∧ State.reset.bridge.tracker.cycle = none ∧
      State.reset.bridge.tracker.sync ≠ .synced :=
  ⟨rfl, ⟨by decide, by decide, by decide, by decide, by decide, (fun h => by cases h)⟩, rfl, by decide,
    ⟨⟨by decide, (fun h => by cases h), by decide, by decide, by decide, fun _ => ⟨rfl, rfl⟩⟩, by decide, by decide⟩,
    ⟨⟨by decide, (fun h => by cases h), by decide, by decide, by decide, fun _ => ⟨rfl, rfl⟩⟩, by decide⟩,
    by decide +kernel, rfl, by decide⟩

/-- G1 in a stage of the store. -/
def inStage (i : Nat) (phase : Phase) (speed : Int) : DriveGroup := { running phase speed with stage := some i }

/-- A group's completed run on station 0, with a ripple amplitude. -/
def finished (ripple : Nat) : Probe :=
  { probing with
    state := .done, owner := some (.group 0), station := some 0, window := 16
    result := some ⟨.p1, some (.group 0), some 0, .fixed, 16, .completed, some 40#16, 16, 16, some 300, some ripple, 3,
      some 150000, some 1000, [], none⟩ }

/-- The record of G1's stage in the store. -/
theorem currentStage_inStage (i : Nat) (phase : Phase) (speed : Int) :
    (withGroup (inStage i phase speed)).currentStage 0 = store[i]?.getD StageRecord.empty := rfl

theorem test_witness_SlotTreatment :
    ((withGroup (inStage 0 .ramp 0)).group 0).inPlan = true ∧
    ((withGroup (inStage 0 .ramp 0)).currentStage 0).kind = .creep ∧
    ((withGroup (inStage 3 .rise 0)).currentStage 0).kind = .bump ∧
    ((withGroup (inStage 2 .settling 0)).currentStage 0).kind = .tune ∧
    ((withGroup (inStage 7 .blend 0)).currentStage 0).kind = .handback ∧
    ((withGroup (inStage 12 .awaitConfirm 0)).currentStage 0).kind = .trim ∧
    (((withGroup (inStage 4 .dwell 0)).currentStage 0).kind = .pass ∧
      ((withGroup (inStage 4 .dwell 0)).currentStage 0).trims = some true) ∧
    ((withGroup (inStage 1 .awaitConfirm 0)).currentStage 0).trims = some false ∧
    demoBridge.tracker.sync = .synced ∧ demoBridge.check.state = .running ∧ demoBridge.release = true ∧
    demoBridge.mask.getLsbD 0 = true ∧ (withGroup (inStage 3 .rise 0)).mode 0 ≠ .none ∧
    ((withGroup (inStage 3 .rise 0)).currentStage 0).cap = some 800 ∧
    ((withGroup (inStage 0 .ramp 0)).currentStage 0).cap = none ∧
    ((withGroup { inStage 0 .ramp 0 with phase := none, runState := .aborting }).group 0).inPlan = false ∧
    demoBridge.mode 0 = .none := by decide +kernel

/-- A slot of no station, of one in no group, and of a member. -/
theorem test_witness_SlotTreatment_slots :
    demoBridge.TableSound ∧ (∀ i st, ¬demoBridge.Binds 90#8 i st) ∧
      (demoBridge.Binds 30#8 2 (station 30#8 none .leader .exempt) ∧
        (station 30#8 none .leader .exempt).config.group = none) ∧
      demoBridge.Binds 12#8 0 (station 12#8 (some 0) .leader .isOpen) := by
  refine ⟨demo_table, fun i st h => ?_, by unfold Bridge.Binds; decide +kernel, demo_binds⟩
  exact demo_entry (P := fun _ st => st.config.address ≠ 90#8) (by decide) (by decide) (by decide) i st h.1 h.2

/-- The bounds of the event count and of a group block's stage index, stack depth and commanded speed. -/
theorem test_witness_StatusFrameLayout :
    demoBridge.events.length ≤ 64 ∧
      ({ demoBridge with
          events := List.replicate 64 ⟨.linkLost, none, none, none, none, none, none⟩ } : Bridge).events.length ≤ 64 ∧
      (demoBridge.group 7).stage = none ∧
      (let x : DriveGroup :=
         { DriveGroup.fresh record with
           stage := some 127, speed := -8388608, stack := List.replicate 3 ⟨2, .settling, 3, 1, .excursion⟩ }
       x.stage = some 127 ∧ x.stack.length ≤ 3 ∧ -8388608 ≤ x.speed ∧ x.speed ≤ 8388607) := by
  decide

theorem test_witness_Feedback :
    demo.held = false ∧ demo.bridge.TableSound ∧ demo.bridge.Binds 12#8 0 (station 12#8 (some 0) .leader .isOpen) ∧
      demo.bridge.tracker.cycle = some 40#16 ∧ (station 12#8 (some 0) .leader .isOpen).run.mark = .isOpen ∧
      demo.bridge.tracker.cycle ≠ some 39#16 ∧
      ({ demo with
          link :=
            { Link.reset with
              lineTx := some (.forwarded ⟨0#8, 12#8, 9#8, []⟩)
              forwardQueue := List.replicate 16 ⟨0#8, 12#8, 9#8, []⟩ } } : State).link.Sound :=
  ⟨rfl, demo_table, demo_binds, rfl, rfl, by decide, full_link⟩

/-- The stations of the last two clauses of FeedbackIsTaggedAndForwarded: CLOSED, and EXEMPT. -/
theorem test_witness_FeedbackIsTaggedAndForwarded :
    ({ demoBridge with
        stations := demoBridge.stations.set 0 (some (station 12#8 (some 0) .leader .closed)) } : Bridge).station 0 =
        some (station 12#8 (some 0) .leader .closed) ∧
      demoBridge.Binds 30#8 2 (station 30#8 none .leader .exempt) := by
  unfold Bridge.Binds
  decide +kernel

theorem test_witness_LastMemberClosesGroup :
    let x : DriveGroup :=
      { DriveGroup.fresh record with
        pendingSet := some ⟨40#16, [0]⟩
        forming := [⟨1, ⟨.valid, true, false, some 1900, some 280⟩⟩], alarmCounter := 23, alarm := true }
    ((withGroup x).group 0).pendingSet = some ⟨40#16, [0]⟩ ∧ ((withGroup x).group 0).active = false ∧
      (withGroup x).station 0 = demoBridge.station 0 := by decide +kernel

/-- The first close of an active group, its last one, one that it does not await, and stations with and without a probe
that runs on them. -/
theorem test_witness_MemberCloseReachesItsGroup :
    let first := withGroup (running .ramp 1500)
    let last := withGroup { running .ramp 1500 with pendingSet := some ⟨40#16, [0]⟩ }
    let joined := withGroup { running .ramp 1500 with pendingSet := some ⟨40#16, [1]⟩ }
    (first.group 0).active = true ∧ (first.group 0).pendingSet = some ⟨40#16, [0, 1]⟩ ∧
      [(0 : StationIx), 1].erase 0 ≠ [] ∧ (last.group 0).pendingSet = some ⟨40#16, [0]⟩ ∧
      [(0 : StationIx)].erase 0 = [] ∧ (joined.group 0).pendingSet = some ⟨40#16, [1]⟩ ∧ (0 : StationIx) ∉ [(1 : StationIx)] ∧
      first.station 0 = some (station 12#8 (some 0) .leader .isOpen) ∧ first.probe1.state = .idle ∧
      first.probe2.state = .idle ∧
      (let b := { first with probe1 := { probing with station := some 0 } }
       (b.probe .p1).state = .running ∧ (b.probe .p1).station = some 0) := by decide +kernel

/-- The stages of a trigger and of none, a group that a bypass reaches and one that it does not; and a close that makes
the station INVALID, and one that makes it FATAL. -/
theorem test_witness_TransitionReachesItsGroup :
    (((withGroup (inStage 0 .ramp 1500)).group 0).inPlan = true ∧
      ((withGroup (inStage 0 .ramp 1500)).currentStage 0).faultAction = some .halt) ∧
    (let b := { withGroup (inStage 0 .ramp 1500) with store := store.set 0 { creep with faultAction := some .trip } }
     (b.currentStage 0).kind = .creep ∧ (b.currentStage 0).faultAction = some .trip) ∧
    (let b := withGroup { inStage 2 .settling 1500 with runState := .held }
     (b.currentStage 0).kind = .tune ∧ (b.currentStage 0).faultAction = some .excursion ∧
       (b.group 0).runState = .held) ∧
    ((withGroup (inStage 1 .awaitConfirm 1500)).currentStage 0).kind = .pass ∧
    ((withGroup (inStage 0 .ramp 1500)).group 0).active = true ∧ (demoBridge.group 0).active = false ∧
    (let st := station 12#8 (some 0) .leader .isOpen
     let close := fun (counter : Nat) (speed : BitVec 24) =>
       let b := { demoBridge with
         stations := demoBridge.stations.set 0 (some { st with run := { st.run with counter := counter } }) }
       let t := after (.feedbackFrameArrival 0#8 12#8 40#16 speed 300#16 7#8 0#8) (withBridge b)
       (t.bridge.station 0).map fun st => st.run.validity
     st.run.validity = .valid ∧ close 21 1900#24 = some .invalid ∧ close 0 100001#24 = some .fatal) := by
  decide +kernel

/-- A leader with a sample, a draw with its reference at the bounds of its age and its speed, a BUMP at its last dwell
close with a member that has not moved, and the members and the others of a delivery. -/
theorem test_witness_GroupConditions :
    let e : RosterEntry := ⟨0, ⟨.valid, true, false, some 2040, some 300⟩⟩
    let r : GroupRecord := { record with drawReference := some 1, drawTarget := some 10000 }
    let drawn := fun (cycle : CycleNo) (speed : Int) =>
      { withGroup { DriveGroup.fresh r with roster := [e] } with
        groups := (withGroup { DriveGroup.fresh r with roster := [e] }).groups.set 1
          { DriveGroup.fresh record with closedLeader := some ⟨speed, cycle⟩ } }
    let bumped := withGroup { inStage 3 .dwell 2500 with
      dwell := 1, bumpEntry := some 2000, bumpActuals := [⟨0, some 2040⟩], roster := [e] }
    (drawn 40#16 500).leader 0 = some 0 ∧ ((drawn 40#16 500).group 0).roster = [e] ∧
      (drawn 40#16 500).drawPresent 0 40#16 = true ∧ (drawn 39#16 500).drawPresent 0 40#16 = true ∧
      (drawn 38#16 500).drawPresent 0 40#16 = false ∧ (drawn 40#16 499).drawPresent 0 40#16 = false ∧
      demoBridge.leader 1 = none ∧ (bumped.currentStage 0).target = some 2500 ∧ bumped.failingMembers 0 = [0] ∧
      demoBridge.station 31 = none ∧
      (demoBridge.station 2).map (fun st => st.config.group) = some none ∧
      (demoBridge.station 1).map (fun st => st.config.group) = some (some 0) := by decide +kernel

/-- Rosters of one member, of two of which one is evaluated, of two whose torques cancel, and of two above the floor. -/
theorem test_witness_ShareEvaluation :
    let e := fun (i : StationIx) (fresh : Bool) (torque : Int) =>
      (⟨i, ⟨.valid, fresh, false, some 1900, some torque⟩⟩ : RosterEntry)
    let out := fun roster => ((withGroup { DriveGroup.fresh record with roster := roster }).shareResult 0 40#16).outcome
    demoBridge.station 0 = some (station 12#8 (some 0) .leader .isOpen) ∧
      (station 12#8 (some 0) .leader .isOpen).config.clamp = 1500 ∧ (e 0 true 1501).sample.torque = some 1501 ∧
      demoBridge.clampedTorque (e 0 true 1501) = 1500 ∧ demoBridge.clampedTorque (e 0 true (-1501)) = -1500 ∧
      out [e 0 true 300] = .single ∧ out [e 0 true 300, e 1 false 280] = .suspended ∧
      out [e 0 true 300, e 1 true (-300)] = .belowFloor ∧ out [e 0 true 60, e 1 true 40] = .evaluated := by decide +kernel

/-- A member that the share result judges, and one that it does not. -/
theorem test_witness_TrimUpdate :
    let r : ShareResult := ⟨40#16, .evaluated, some 580, [⟨0, true, some ⟨300, 517, 17, false, false⟩⟩, ⟨1, false, none⟩]⟩
    let b := withGroup { inStage 0 .ramp 1500 with shareResult := some r }
    b.station 0 = some (station 12#8 (some 0) .leader .isOpen) ∧ b.trimsOn 0 = true ∧ (b.group 0).shareResult = some r ∧
      r.judgement 0 = some ⟨300, 517, 17, false, false⟩ ∧ r.judgement 1 = none ∧ demoBridge.trimsOn 0 = false := by
  decide +kernel

/-- A RUNNING group and a HELD one; RAMP one step short, at and above the target; the dwell counts and their ends; the settle counts; the bump and its
FALL; the claims; PROBING without a probe; BLEND and its fourth close; the phases that wait. -/
theorem test_witness_StageProgressAtClose :
    let creeps := (withGroup (inStage 0 .ramp 1500)).currentStage 0
    ((withGroup (inStage 0 .ramp 1500)).group 0).runState = .running ∧
    ((withGroup { inStage 0 .ramp 1500 with runState := .held }).group 0).runState = .held ∧
    creeps.target = some 2000 ∧ creeps.ramp = some 500 ∧ (2000 - 1500 : Int).natAbs ≤ 500 ∧
    500 < (2000 - 1499 : Int).natAbs ∧ 500 < (2000 - 2501 : Int).natAbs ∧
    ((withGroup (inStage 4 .dwell 0)).currentStage 0).exit = some .dwell ∧
    ((withGroup (inStage 6 .dwell 0)).currentStage 0).exit = some .dwellThenConfirm ∧
    ((withGroup { inStage 6 .dwell 0 with dwell := 1 }).group 0).dwell ≤ 1 ∧
    (let b := { demoBridge with store := store.set 0 { creep with exit := some .settled, settleWindow := some 20 } }
     ({ b with groups := (withGroup (inStage 0 .dwell 2000)).groups } : Bridge).currentStage 0 =
       { creep with exit := some .settled, settleWindow := some 20 }) ∧
    ((withGroup { inStage 3 .dwell 0 with dwell := 2 }).currentStage 0).kind = .bump ∧
    (let b := withGroup { inStage 3 .fall 2100 with bumpEntry := some 2000 }
     (b.currentStage 0).ramp = some 100 ∧ (2000 - 2100 : Int).natAbs ≤ 100 ∧ 100 < (2000 - 2101 : Int).natAbs) ∧
    (let r : ShareResult := ⟨40#16, .single, none, []⟩
     let b := withGroup { inStage 2 .settling 2000 with settle := 1, shareResult := some r }
     (b.currentStage 0).target = some (b.group 0).speed ∧ (b.currentStage 0).probeWindow = some 16 ∧
       b.leader 0 = some 0 ∧ b.probe1.state = .idle ∧ probing.state = .running ∧
       ({ probing with state := .done } : Probe).owner = some (.request 8#8)) ∧
    (let b := withGroup (inStage 2 .probing 2000)
     (b.probe .p1).owner = none ∧ (b.probe .p2).owner = none) ∧
    (let b := { withGroup (inStage 2 .probing 2000) with probe1 := { finished 85 with state := .running } }
     b.ownedProbe 0 = some .p1 ∧ (b.probe .p1).state ≠ .done) ∧
    (let b := withGroup { inStage 7 .blend 1950 with blend := 3 }
     (b.currentStage 0).ramp = some 100 ∧ ((b.group 0).reference - (b.group 0).speed).natAbs ≤ 100 ∧
       (b.group 0).blend + 1 = 4) ∧
    (let b := withGroup { inStage 7 .blend 1500 with blend := 3 }
     100 < ((b.group 0).reference - (b.group 0).speed).natAbs ∧
       (b.group 0).record.blendWindow < ((b.group 0).reference - 1600).natAbs) ∧
    ((withGroup (inStage 0 .awaitConfirm 2000)).group 0).phase = some .awaitConfirm ∧
    ((withGroup (inStage 2 .waitProbe 2000)).group 0).phase = some .waitProbe := by decide +kernel

/-- An unwind with its fourth close still to come, and at its fourth close. -/
theorem test_witness_UnwindAtClose :
    let x := { running .ramp 1950 with phase := none, runState := .aborting, blend := 3 }
    demoBridge.events.length ≤ 64 ∧ (x.reference - x.speed).natAbs ≤ x.record.abortRamp ∧ x.blend + 1 = 4 ∧
      ({ x with blend := 2 } : DriveGroup).blend + 1 ≠ 4 ∧
      ((withGroup { x with runState := .fault .alarm .unwinding }).group 0).runState = .fault .alarm .unwinding := by
  decide +kernel

theorem test_witness_FaultActionsHaltAndTrip :
    (withGroup (inStage 0 .ramp 1500)).events.length ≤ 64 ∧ (withGroup (inStage 0 .ramp 1500)).OwnersSound ∧
      ((withGroup (inStage 0 .ramp 1500)).group 0).inPlan = true ∧
      ((withGroup (inStage 0 .ramp 1500)).currentStage 0).faultAction = some .halt ∧
      ((withGroup (inStage 1 .awaitConfirm 1500)).currentStage 0).faultAction = some .trip ∧
      (let b := withGroup { inStage 2 .settling 1500 with runState := .held }
       (b.currentStage 0).faultAction = some .excursion ∧ (b.group 0).runState = .held) :=
  ⟨by decide, owners_of_none rfl rfl, by decide +kernel, by decide +kernel, by decide +kernel, by decide +kernel⟩

/-- A bridge whose G1 owns P1, and with it one whose G2 waits for a probe with a leader of its own. -/
def owning (x : Probe) : Bridge := { withGroup (inStage 2 .probing 2000) with probe1 := x }

def contended (x : Probe) : Bridge :=
  { owning x with
    stations := demoBridge.stations.set 2 (some (station 30#8 (some 1) .leader .isOpen))
    groups := (withGroup (inStage 2 .probing 2000)).groups.set 1 { inStage 2 .waitProbe 2000 with waiting := true } }

/-- Such a bridge keeps the owners of its probes in line with the run states. -/
theorem owners_of_contended {b : Bridge} (h1 : b.probe1.owner = some (.group 0)) (h2 : b.probe2.owner = none)
    (h3 : (b.group 0).runState = .running ∧ (b.group 0).phase = some .probing) : b.OwnersSound where
  owner p g h := by
    cases p
    · simp only [Bridge.probe, h1, Option.some.injEq, ProbeOwner.group.injEq] at h
      exact h ▸ h3
    · simp [Bridge.probe, h2] at h
  single p q g hp hq := by cases p <;> cases q <;> first | rfl | simp [Bridge.probe, h2] at hp hq

/-- A group that owns none, one that owns a RUNNING probe and one that owns a DONE one, with and without a group that
waits. -/
theorem test_witness_GivesUpProbe :
    let x : Probe := { finished 85 with state := .running, result := none }
    (∀ p, ((withGroup (inStage 2 .settling 2000)).probe p).owner ≠ some (.group 0)) ∧
      (owning x).OwnersSound ∧ (contended x).OwnersSound ∧ ((contended x).probe .p1).owner = some (.group 0) ∧
      x.state = .running ∧ x.mode = .fixed ∧ (finished 85).state = .done ∧
      (∀ k, k ≠ 0 → ((owning x).group k).waiting = false) ∧ ((contended x).group 1).waiting = true ∧
      (∀ k : GroupIx, ((contended x).group k).waiting = true → 1 ≤ k) ∧ (contended x).leader 1 = some 2 ∧
      ((contended x).currentStage 1).probeWindow = some 16 :=
  ⟨fun p => by cases p <;> decide, owners_of_contended rfl rfl (by decide), owners_of_contended rfl rfl (by decide),
    rfl, rfl, rfl, rfl, by decide +kernel, by decide +kernel, by decide +kernel, by decide +kernel, by decide +kernel⟩

/-- R151: a hold cancels the run of the group's probe, and the waiting group takes the probe at once. -/
theorem test_plh_frees_the_probe_for_a_waiting_group :
    let s := withBridge (contended { finished 85 with state := .running, result := none })
    let t := after (.plh 5#8 1#8 [1#8]) s
    (t.bridge.group 0).runState = .held ∧ t.bridge.probe1.owner = some (.group 1) ∧ t.bridge.probe1.station = some 2 ∧
      (t.bridge.group 1).phase = some .probing ∧ (t.bridge.group 1).waiting = false := by decide +kernel

/-- A frame below the three of a full stack. -/
def frame : StackFrame := ⟨2, .settling, 3, 1, .excursion⟩

/-- Taken, to a record that fails its check, deferred, and overflowing. -/
theorem test_witness_FaultActionExcursion :
    let b := withGroup { inStage 2 .settling 1500 with stack := [frame, frame] }
    let c := withGroup (inStage 8 .settling 1500)
    b.events.length ≤ 64 ∧ (b.group 0).runState = .running ∧ (b.group 0).stage = some 2 ∧
      (b.group 0).phase = some .settling ∧ (b.currentStage 0).faultAction = some .excursion ∧
      (b.currentStage 0).excTarget = some 5 ∧ (b.group 0).stack.length < 3 ∧ b.verdict (b.group 0).planRange 5 = none ∧
      (c.currentStage 0).excTarget = some 9 ∧ c.verdict (c.group 0).planRange 9 ≠ none ∧
      3 ≤ ((withGroup { inStage 2 .settling 1500 with stack := [frame, frame, frame] }).group 0).stack.length ∧
      ((withGroup { inStage 2 .settling 1500 with
        stack := [frame, frame, frame], deferred := some ⟨5, 2, .alarm, none⟩ }).group 0).deferred ≠ none := by
  decide +kernel

theorem test_witness_TuneTakesItsResult :
    let b := fun ripple => { withGroup { inStage 2 .probing 2000 with retries := 1 } with probe1 := finished ripple }
    ((b 100).group 0).runState = .running ∧ ((b 100).group 0).phase = some .probing ∧
      ((b 100).group 0).waiting = false ∧ ((b 100).group 0).stage = some 2 ∧
      (b 100).ownedProbe 0 = some .p1 ∧ ((b 100).probe .p1).state = .done ∧
      ((b 100).currentStage 0).rippleLimit = some 100 ∧ (∀ k, ((b 100).group k).waiting = false) ∧
      ((b 100).probe .p1).result.map (fun r => (r.outcome, r.ripple)) = some (.completed, some 100) ∧
      ((b 101).probe .p1).result.map (fun r => (r.outcome, r.ripple)) = some (.completed, some 101) ∧
      0 < ((b 101).group 0).retries ∧ ((owning (finished 101)).group 0).retries = 0 ∧
      ((contended (finished 101)).group 1).waiting = true := by decide +kernel

theorem test_witness_TimersExpire :
    (ramping.bridge.tracker.timer = .running 20000 ∧ ramping.bridge.events.length ≤ 64 ∧
      ramping.bridge.tracker.sync = .synced ∧
      ({ demoBridge with tracker := ⟨.unsynced, none, 0, .running 0, 20⟩ } : Bridge).tracker.timer = .running 0) ∧
    (ramping.bridge.check.state = .running ∧ ramping.bridge.check.deadline = some 100000) := by
  decide +kernel

theorem test_witness_ReleaseEdges : ramping.bridge.release = true ∧ ramping.bridge.events.length ≤ 64 := by decide +kernel

/-- What the clauses of the last three statements assume of the groups and probes beside. -/
theorem test_witness_RunsSound : demoBridge.RunsSound where
  stacked g := by
    have h : ∀ g, (demoBridge.group g).stack.length ≤ 3 ∧ ((demoBridge.group g).deferred.isSome = false) ∧
        (demoBridge.group g).stack = [] ∧ (demoBridge.group g).deferred = none ∧
        (demoBridge.group g).phase.isSome = (demoBridge.group g).inPlan ∧ (demoBridge.group g).waiting = false := by
      decide +kernel
    obtain ⟨h1, h2, h3, h4, h5, h6⟩ := h g
    exact ⟨h1, fun k => by simp [h2] at k, fun _ => ⟨h3, h4⟩, h5, fun k => by simp [h6] at k⟩
  owners := owners_of_none rfl rfl

theorem test_witness_Resets :
    demo.resetAsserted = false ∧ ({ demo with resetAsserted := true } : State).resetAsserted = true ∧
      demo.takes = true ∧ crowded.link.Sound ∧
      (let t := after (.brs 5#8 1#8 [0#8]) demo
       t.resetPending = some .full ∧
         t.link.lineTx = some (.own (.brsReply ⟨5#8, 121#8, 4#8, [1#8, 50#8, 1#8, 0#8, 0#8]⟩))) :=
  ⟨rfl, rfl, by decide, ⟨by decide, by decide, by decide, by decide, by decide, (fun h => by cases h)⟩, by decide +kernel⟩

/-- A new binding of entry 3. -/
theorem test_witness_StationWriteTakesEffect :
    demo.takes = true ∧ decodeOperands readStw stwBytes = some ⟨3, { config 40#8 none .member with offset := 0 }, none⟩ ∧
      (∀ j st, demo.bridge.Binds 40#8 j st → j = 3) ∧ demo.bridge.station 3 = none := by
  refine ⟨by decide, by decide +kernel, fun i st h => ?_, by decide +kernel⟩
  exact absurd h.2 (demo_entry (P := fun _ st => st.config.address ≠ 40#8) (by decide) (by decide) (by decide) i st h.1)

/-- A move of entry 0 to a group with room, from an unlocked group, without a probe on the entry. -/
theorem test_witness_StationWriteTakesEffect_move :
    decodeOperands readStw ((stwBytes.set 0 0#8).set 2 1#8) =
        some ⟨0, { config 40#8 (some 0) .member with offset := 0 }, none⟩ ∧
      ((demo.bridge.members 0).filter (· ≠ 0)).length < 6 ∧ (demo.bridge.group 0).runState = .idle ∧
      demo.bridge.probe1.state = .idle ∧ demo.bridge.probe2.state = .idle ∧
      (demo.bridge.station 0).map (fun st => (st.config.address, st.run.validity)) = some (12#8, .valid) := by
  decide +kernel

/-- Entry 0 leaves G1: with no pending set, while others are awaited, as the last one awaited, and with the sample of
another that closes the group. -/
theorem test_witness_LeavesGroup :
    let b := fun (pending : List StationIx) (formed : List RosterEntry) =>
      withGroup { DriveGroup.fresh record with pendingSet := some ⟨40#16, pending⟩, forming := formed }
    let e : RosterEntry := ⟨1, ⟨.valid, true, false, some 1900, some 280⟩⟩
    (demoBridge.group 0).pendingSet = none ∧ ((b [0, 1] []).group 0).pendingSet = some ⟨40#16, [0, 1]⟩ ∧
      [(0 : StationIx), 1].erase 0 ≠ [] ∧ [(0 : StationIx)].erase 0 = [] ∧
      ((b [0] []).group 0).forming.filter (fun e => decide (e.station ≠ 0)) = [] ∧
      ((b [0] [e]).group 0).forming.filter (fun e => decide (e.station ≠ 0)) ≠ [] := by decide +kernel

/-- R53: clearing the entry a group awaits last closes the group with the samples of the others. -/
theorem test_stc_closes_the_group :
    let x : DriveGroup :=
      { DriveGroup.fresh record with
        pendingSet := some ⟨40#16, [0]⟩, forming := [⟨1, ⟨.valid, true, false, some 1900, some 280⟩⟩] }
    let y := (after (.stc 5#8 1#8 [0#8]) (withBridge (withGroup x))).bridge.group 0
    y.pendingSet = none ∧ y.forming = [] ∧ y.roster.map RosterEntry.station = [1] ∧
      y.shareResult.map ShareResult.outcome = some .single := by decide +kernel

/-- An address in use, a locked group, a probed entry and a FATAL one. -/
theorem test_witness_StationWriteRefused :
    (demo.takes = true ∧ demo.bridge.TableSound ∧
      decodeOperands readStw (stwBytes.set 1 17#8) =
        some ⟨3, { config 17#8 none .member with offset := 0 }, none⟩ ∧
      demo.bridge.Binds 17#8 1 (station 17#8 (some 0) .member .isOpen)) ∧
    ((ramping.bridge.group 0).runState = .running ∧
      (ramping.bridge.station 0).map (fun st => st.config.group) = some (some 0)) ∧
    (let b := { demoBridge with probe1 := probing }
     (b.probe .p1).state = .running ∧ (b.probe .p1).station = some 2) ∧
    (let st := station 30#8 none .leader .exempt
     let b := { demoBridge with
       stations := demoBridge.stations.set 2 (some { st with run := { st.run with validity := .fatal, counter := 255 } }) }
     (b.station 2).map (fun st => st.run.validity) = some .fatal) := by
  refine ⟨⟨by decide, demo_table, by decide +kernel, by unfold Bridge.Binds; decide +kernel⟩, by decide +kernel,
    by decide +kernel, by decide +kernel⟩

/-- A FREE entry, an unlocked one; the locked, probed and FATAL ones are those of StationWriteRefused. -/
theorem test_witness_StationClear :
    demo.takes = true ∧ (31#8 : Byte).toNat < 32 ∧ demo.bridge.station 31 = none ∧ demo.bridge.station 2 ≠ none ∧
      (demo.bridge.station 2).map (fun st => st.config.group) = some none := by decide +kernel

theorem test_witness_ReadServices :
    demo.takes = true ∧ decodeOperands readStation [31#8] = some 31 ∧ decodeOperands readGroup [8#8] = some 7 ∧
      decodeOperands readSgr [127#8, 1#8, 8#8] = some ⟨127, some 7⟩ := by decide +kernel

theorem test_witness_ConditionsRead :
    demo.takes = true ∧ (0#8 : Byte).toNat < 32 ∧ demo.bridge.station 31 = none ∧
      demo.bridge.station 0 = some (station 12#8 (some 0) .leader .isOpen) ∧
      (station 12#8 (some 0) .leader .isOpen).run.counter ≤ 255 := by decide +kernel

theorem test_witness_GroupAndStageWrite :
    demo.takes = true ∧ decodeOperands readGrw (grwBytes.set 0 1#8) = some ⟨0, { record with trimLimit := 5 }⟩ ∧
      (demo.bridge.group 0).runState = .idle ∧ (ramping.bridge.group 0).runState = .running ∧
      (decodeOperands readSgw sgwBytes).isSome = true ∧
      (∀ g, (demo.bridge.group g).runState ≠ .running ∧ (demo.bridge.group g).runState ≠ .held) := by decide +kernel

theorem test_witness_MaskWrite :
    ramping.takes = true ∧ ramping.bridge.events.length ≤ 64 ∧ (ramping.bridge.group 0).inPlan = true ∧
      ramping.bridge.mask.getLsbD 0 = true ∧ (demo.bridge.group 1).inPlan = false := by decide +kernel

theorem demo_counters : demoBridge.CountersSound :=
  ⟨fun i st h => demo_entry (P := fun _ st => st.Counted) ⟨by decide, by decide, (fun h => by cases h), fun _ => by decide⟩
      ⟨by decide, by decide, (fun h => by cases h), fun _ => by decide⟩
      ⟨by decide, by decide, (fun h => by cases h), fun _ => by decide⟩ i st h,
    fun g => by
      have h : ∀ g, 3 ≤ (demoBridge.group g).record.alarmLimit ∧
          (demoBridge.group g).record.alarmLimit + (demoBridge.group g).record.alarmHold ≤ 250 ∧
          (demoBridge.group g).alarmCounter ≤ 250 ∧ 1 ≤ (demoBridge.group g).record.planLength := by decide +kernel
      exact ⟨(h g).1, (h g).2.1, (h g).2.2.1, (h g).2.2.2⟩⟩

theorem test_witness_PlanStarts :
    demo.takes = true ∧ decodeOperands readGroup [1#8] = some 0 ∧ demo.bridge.CountersSound ∧
      demo.bridge.events.length ≤ 64 ∧ demo.bridge.tracker.sync = .synced ∧ demo.bridge.release = true ∧
      demo.bridge.check.state = .running ∧ (demo.bridge.group 0).runState = .idle ∧
      demo.bridge.planDefect (demo.bridge.group 0).record.range = none ∧ (demo.bridge.leader 0).isSome = true ∧
      demo.bridge.shareSum 0 = 1000 ∧ (∀ i ∈ demo.bridge.members 0, demo.bridge.mask.getLsbD i.val = true) ∧
      ∀ i st, demo.bridge.station i = some st → st.config.group = some 0 → st.run.validity = .valid :=
  ⟨by decide, by decide +kernel, demo_counters, by decide, rfl, rfl, rfl, rfl, by decide +kernel, by decide +kernel,
    by decide +kernel, by decide +kernel, fun i st h =>
      demo_entry (P := fun _ st => st.config.group = some 0 → st.run.validity = .valid) (by decide) (by decide) (by decide)
        i st h⟩

/-- A plan that begins with BUMP. -/
theorem test_witness_PlanStarts_bump :
    let b := withGroup { DriveGroup.fresh record with record := { record with planFirst := 3, planLength := 1 } }
    b.planDefect (b.group 0).record.range = none ∧ (b.stageAt 3).kind = .bump ∧ b.members 0 = [0, 1] := by decide +kernel

/-- Each check of R101 that can fail, in its order. -/
theorem test_witness_PlanStartRefused :
    let b := demoBridge
    b.planDefect (b.group 0).record.range = none ∧ b.shareSum 0 = 1000 ∧
    ({ b with tracker := { b.tracker with sync := .unsynced } } : Bridge).tracker.sync ≠ .synced ∧
    ({ b with release := false } : Bridge).release = false ∧
    ({ b with check := { b.check with state := .inactive } } : Bridge).check.state ≠ .running ∧
    (ramping.bridge.group 0).runState ≠ .idle ∧
    (let c := withGroup { DriveGroup.fresh record with record := { record with planLength := 10 } }
     c.planDefect (c.group 0).record.range = some (5, .returnInPlan)) ∧
    b.leader 1 = none ∧
    (let c := { b with mask := 5#32 }
     (1 : StationIx) ∈ c.members 0 ∧ c.mask.getLsbD 1 = false) ∧
    (let st := station 17#8 (some 0) .member .isOpen
     let c := { b with
       stations := b.stations.set 1 (some { st with run := { st.run with validity := .invalid, counter := 32 } }) }
     (1 : StationIx) ∈ c.members 0 ∧ (c.station 1).map (fun st => st.run.validity) = some .invalid) := by decide +kernel

/-- Each clause of the check, and ranges that end at and beyond the end of the store. -/
theorem test_witness_PlanValidation :
    let b := demoBridge
    (b.stageAt 127).kind = .empty ∧ (b.stageAt 10).kind = .creep ∧ (b.stageAt 10).missingField = some 1 ∧
    (b.stageAt 11).missingField = none ∧ (b.stageAt 11).excTarget = some 200 ∧
    (b.stageAt 5).missingField = none ∧ (b.stageAt 5).next = some .ret ∧
    (let p : PlanRange := ⟨126, 2⟩
     0 < p.length ∧ p.first + p.length - 1 < 128) ∧
    (let p : PlanRange := ⟨127, 2⟩
     128 ≤ p.first + p.length - 1) := by decide +kernel

theorem test_witness_PlanHoldResumeAbort :
    (ramping.takes = true ∧ decodeOperands readGroup [1#8] = some 0 ∧ (demo.bridge.group 0).runState ≠ .running ∧
      (ramping.bridge.group 0).runState = .running ∧ (ramping.bridge.group 0).phase = some .ramp ∧
      ((withGroup (inStage 2 .waitProbe 0)).group 0).phase = some .waitProbe ∧
      ((withGroup { running .ramp 0 with runState := .held }).group 0).runState = .held ∧
      ramping.bridge.release = true ∧ ramping.bridge.check.state = .running ∧ State.reset.bridge.release = false ∧
      State.reset.bridge.check.state ≠ .running) ∧
    (ramping.bridge.events.length ≤ 64 ∧
      ramping.bridge.mode 0 = .speed ∧ (withGroup (inStage 1 .awaitConfirm 0)).mode 0 ≠ .speed ∧
      (demo.bridge.group 0).runState = .idle ∧
      ((withGroup { running .ramp 0 with runState := .fault .alarm .unwinding }).group 0).runState =
        .fault .alarm .unwinding ∧
      ((withGroup { running .ramp 0 with runState := .fault .alarm .settled }).group 0).runState =
        .fault .alarm .settled) := by decide +kernel

/-- END and the last stage; NEXT to a complete and to an incomplete record; RETURN to a frame and to a deferred
excursion. -/
theorem test_witness_PlanConfirm :
    awaiting.takes = true ∧ decodeOperands readGroup [1#8] = some 0 ∧ awaiting.bridge.events.length ≤ 64 ∧
    (awaiting.bridge.group 0).phase = some .awaitConfirm ∧ (awaiting.bridge.group 0).stage = some 0 ∧
    (awaiting.bridge.currentStage 0).next = some .next ∧
    awaiting.bridge.verdict (awaiting.bridge.group 0).planRange 1 = none ∧
    ((withGroup (inStage 1 .awaitConfirm 0)).currentStage 0).next = some .fin ∧
    (let b := withGroup { inStage 0 .awaitConfirm 0 with planRange := some ⟨0, 1⟩ }
     (b.currentStage 0).next = some .next ∧ (b.group 0).planRange.map (fun p => p.first + p.length - 1) = some 0) ∧
    (let b := { awaiting.bridge with store := store.set 1 StageRecord.empty }
     b.verdict (b.group 0).planRange 1 ≠ none) ∧
    (let b := withGroup { inStage 5 .awaitConfirm 0 with stack := [frame] }
     (b.currentStage 0).next = some .ret ∧ (b.group 0).deferred = none ∧ (b.group 0).stack = frame :: [] ∧
       (b.group 0).alarm = false) ∧
    (let b := withGroup { inStage 5 .awaitConfirm 0 with
       stack := [frame, frame, frame], deferred := some ⟨5, 2, .alarm, none⟩ }
     b.verdict (b.group 0).planRange 5 = none) := by decide +kernel

/-- A deferred target that fails its check; a return without ALARM; and with ALARM under HALT, TRIP and EXCURSION, to a
complete and to an incomplete target. -/
theorem test_witness_ReturnAtStageEnd :
    let ending := fun (top : Nat) (alarm : Bool) =>
      withGroup { inStage 5 .awaitConfirm 0 with stack := [{ frame with stage := top }], alarm := alarm }
    let b := withGroup { inStage 5 .awaitConfirm 0 with stack := [frame, frame, frame], deferred := some ⟨9, 2, .alarm, none⟩ }
    ((b.group 0).runState = .running ∧ (b.group 0).stage = some 5 ∧ (b.stageAt 5).next = some .ret ∧
      b.events.length ≤ 64 ∧ b.verdict (b.group 0).planRange 9 ≠ none) ∧
    (((ending 0 false).group 0).stack = [{ frame with stage := 0 }] ∧ ((ending 0 false).group 0).deferred = none ∧
      ((ending 0 false).group 0).alarm = false ∧ ((ending 0 true).group 0).alarm = true) ∧
    ((ending 0 true).stageAt 0).faultAction = some .halt ∧ ((ending 1 true).stageAt 1).faultAction = some .trip ∧
    (((ending 2 true).stageAt 2).faultAction = some .excursion ∧ ((ending 2 true).stageAt 2).excTarget = some 5 ∧
      (ending 2 true).verdict (some ⟨0, 2⟩) 5 = none) ∧
    (((ending 8 true).stageAt 8).faultAction = some .excursion ∧ ((ending 8 true).stageAt 8).excTarget = some 9 ∧
      (ending 8 true).verdict (some ⟨0, 2⟩) 9 ≠ none) := by decide +kernel

theorem test_witness_ProbeStart :
    demo.takes = true ∧ decodeOperands readPbs [1#8, 2#8, 0#8, 16#8, 0#8] = some ⟨.p1, 2, 16, .fixed⟩ ∧
      demo.bridge.station 31 = none ∧ demo.bridge.station 2 ≠ none ∧ (demo.bridge.probe .p1).state ≠ .running ∧
      (({ demoBridge with probe1 := probing } : Bridge).probe .p1).state = .running := by decide +kernel

theorem test_witness_ProbeCancelAndRead :
    demo.takes = true ∧ (finished 85).owner = some (.group 0) ∧ probing.owner = some (.request 8#8) ∧
      probing.state = .running ∧ probing.mode = .fixed ∧ demo.bridge.probe1.state = .idle ∧ (finished 85).state = .done ∧
      (finished 85).result ≠ none ∧
      (let b := withGroup { inStage 2 .waitProbe 0 with waiting := true }
       (b.group 0).waiting = true ∧ b.leader 0 = some 0 ∧ (b.currentStage 0).probeWindow = some 16) := by decide +kernel

/-- A close short of the length, one that ends a sub-window, and one that ends the run; a request's and a group's. -/
theorem test_witness_ProbeSamplesClose :
    let b := { demoBridge with probe1 := probing }
    b.events.length ≤ 64 ∧ (b.probe .p1).state = .running ∧ (b.probe .p1).station = some 2 ∧
      b.station 2 = some (station 30#8 none .leader .exempt) ∧ probing.acc.closes + 1 ≠ probing.window ∧
      ({ probing with window := 16, acc := { probing.acc with closes := 15 } } : Probe).acc.closes + 1 = 16 ∧
      ({ probing with mode := .stepped, sub := 2 } : Probe).sub < 3 := by decide +kernel

theorem test_witness_SubWindowResults :
    let a : Accumulators := ⟨64, 60, 25380, some (-38), some 47, 18, some .pos, some 7210000#32, some 7840000#32⟩
    a.samples ≠ 0 ∧ 2 ≤ a.samples ∧ a.firstTime = some 7210000#32 ∧ a.lastTime = some 7840000#32 ∧
      Accumulators.empty.samples = 0 ∧ ({ a with samples := 1 } : Accumulators).samples = 1 := by decide

theorem test_witness_CheckStart :
    demo.takes = true ∧ 5 ≤ 256 * (0#8 : Byte).toNat + (5#8 : Byte).toNat ∧
      256 * (1#8 : Byte).toNat + (244#8 : Byte).toNat ≤ 500 ∧ State.reset.bridge.check.state = .inactive ∧
      demo.bridge.check.state = .running ∧
      ({ demoBridge with check := { demoBridge.check with state := .failed } } : Bridge).check.state = .failed := by
  decide

theorem test_witness_CheckAnswer :
    demo.takes = true ∧ demo.bridge.events.length ≤ 64 ∧ demo.bridge.check.state = .running ∧
      demo.bridge.check.window = some 100 ∧
      (0x36#8 ++ 0x9C#8 : BitVec 16) =
        BitVec.ofNat 16 (3 * demo.bridge.check.challenge.toNat + demo.bridge.check.sequence.toNat) ∧
      State.reset.bridge.check.state = .inactive ∧
      (after .checkDeadlineExpiry demo).bridge.check.reason = some .expiry ∧
      (after (.cka 5#8 1#8 [0#8, 0#8]) demo).bridge.check.reason = some .wrongAnswer := by decide +kernel

theorem test_witness_CheckStop :
    demo.takes = true ∧ demo.bridge.check.state = .running ∧
      (∀ g, (demo.bridge.group g).runState ≠ .running ∧ (demo.bridge.group g).runState ≠ .held ∧
        (demo.bridge.group g).runState ≠ .aborting) ∧
      State.reset.bridge.check.state ≠ .running ∧ (ramping.bridge.group 0).runState = .running := by decide +kernel

theorem test_witness_TripClear_EventsRead_LinkSettingsWrite :
    demo.takes = true ∧ demo.bridge.events.length ≤ 64 ∧ 1 ≤ (1#8 : Byte).toNat ∧ (8#8 : Byte).toNat ≤ 8 ∧
      3 ≤ (3#8 : Byte).toNat ∧ (100#8 : Byte).toNat ≤ 100 := by decide

theorem test_witness_OperandsDecodeAsEncoded :
    (⟨3, { config 40#8 none .member with offset := 0 }, some 40⟩ : StwOperands).InRange ∧
      (⟨0, record⟩ : GrwOperands).InRange ∧ (⟨0, creep⟩ : SgwOperands).InRange := by
  refine ⟨⟨?_, ?_, ?_, ?_, ?_, ?_, ?_, ?_, rfl, ?_⟩, ⟨?_, ?_, ?_, ?_, ?_, ?_, ?_, ?_, ?_, ?_, ?_, ?_, ?_, ?_⟩,
    ⟨?_, ?_, ?_, ?_, ?_, ?_, ?_, ?_, ?_, by decide, by decide⟩⟩ <;> decide

theorem test_witness_ArrivalsDecodeAsEncoded :
    ((⟨90#8, 5#8, 7#8, [1#8]⟩ : Frame).body.length ≤ 65535 ∧ (⟨90#8, 5#8, 7#8, [1#8]⟩ : Frame).bodyPasses = true) ∧
      (Instr.plc 5#8 7#8 [3#8]).wellFormed = true ∧
      (Instr.plc 5#8 7#8 [3#8]).arrival 121#8 = some (.line, requestFrame 121#8 5#8 [7#8, 19#8, 3#8]) ∧
      ¬((⟨90#8, 5#8, 7#8, [1#8]⟩ : Frame).kind = 3#8 ∧ (⟨90#8, 5#8, 7#8, [1#8]⟩ : Frame).dst = 121#8) := by decide

/-- The invariants hold together in the small state, from which a step goes on. -/
theorem test_witness_StepKeeps :
    (crowded.link.Sound ∧ crowded.bridge.events.length ≤ 64) ∧ demo.bridge.CountersSound ∧ demo.bridge.TripSound ∧
      demo.bridge.TableSound ∧ demo.bridge.TrimsSound ∧ demo.bridge.ProbesSound ∧ demo.bridge.MarksSound ∧
      demo.bridge.RunsSound ∧ step { demo with pending := [.releaseFall] } = exec .releaseFall demo := by
  refine ⟨⟨⟨by decide, by decide, by decide, by decide, by decide, (fun h => by cases h)⟩, by decide⟩, demo_counters,
    ⟨fun _ => by decide, fun h => absurd rfl h, by decide, by decide, ?_⟩, demo_table, ?_, fun p => ?_, demo_marks,
    test_witness_RunsSound, rfl⟩
  · exact fun i st h k => absurd k
      (demo_entry (P := fun _ st => st.run.validity ≠ .fatal) (by decide) (by decide) (by decide) i st h)
  · have h : ∀ g : GroupIx, g = 0 → (10 : Int).natAbs ≤ (demoBridge.group g).record.trimLimit := by decide +kernel
    exact fun i st g hi hg =>
      demo_entry (P := fun _ st => ∀ g, st.config.group = some g → st.run.trim.natAbs ≤ (demoBridge.group g).record.trimLimit)
        (fun g hg => h g (by cases hg; rfl)) (fun g hg => h g (by cases hg; rfl)) (fun g hg => by cases hg) i st hi g hg
  · cases p <;> exact ⟨⟨fun _ => rfl, fun _ => rfl⟩, fun k => absurd rfl k⟩

end Sys2Proof.Tests
end

section
/-! PROOFS. The console check's start and stop, CKS and CKX (R156, R157, R161). Two facts carry them: a two-byte operand
is the number its bytes spell, read and put back, and each service is one equation per state of the check. -/

namespace Sys2Proof.Machine

/-! ## Fields of two unsigned bytes (R186) -/

theorem fieldShape_word {lo hi : Nat} (h1 : 255 < hi) (h2 : hi ≤ 65535) : fieldShape lo hi = ⟨2, false⟩ := by
  unfold fieldShape
  rw [if_neg (by omega), if_neg (by omega), if_pos (by omega)]

theorem natOfBytes_pair (h l : Byte) : natOfBytes [h, l] = 256 * h.toNat + l.toNat := by
  simp [natOfBytes]

/-- A two-byte field is read as the number its bytes spell where that is in range, and is refused elsewhere. -/
theorem readInt_word {lo hi : Nat} (h1 : 255 < hi) (h2 : hi ≤ 65535) (h l : Byte) :
    readInt lo hi [h, l] =
      if lo ≤ natOfBytes [h, l] ∧ natOfBytes [h, l] ≤ hi then some ((natOfBytes [h, l] : Int), []) else none := by
  simp [readInt, fieldShape_word h1 h2, FieldShape.value]

theorem decodeOperands_readNat_word {lo hi : Nat} (h1 : 255 < hi) (h2 : hi ≤ 65535) (h l : Byte) :
    decodeOperands (readNat lo hi) [h, l] =
      if lo ≤ natOfBytes [h, l] ∧ natOfBytes [h, l] ≤ hi then some (natOfBytes [h, l]) else none := by
  have hread := readInt_word h1 h2 (lo := lo) h l
  split at hread <;> rename_i hrange
  · rw [if_pos hrange, decodeOperands_some, readNat, Reader.bind_of hread, Reader.pure_of, Int.toNat_natCast]
  · have hnone : readNat lo hi [h, l] = none := congrArg (Option.bind · _) hread
    rw [if_neg hrange, decodeOperands, hnone]

theorem putNat_word {hi : Nat} (h1 : 255 < hi) (h2 : hi ≤ 65535) (h l : Byte) :
    putNat hi (256 * h.toNat + l.toNat) = [h, l] := by
  have hh := h.isLt
  have hl := l.isLt
  have hholds : FieldShape.holds ⟨2, false⟩ ((256 * h.toNat + l.toNat : Nat) : Int) = true := by
    simp [FieldShape.holds]
    omega
  have hshape : fieldShape 0 hi = ⟨2, false⟩ := fieldShape_word (lo := 0) h1 h2
  simp only [putNat, putInt, hshape, hholds, if_true, be32, List.drop, BitVec.ofInt_natCast, List.cons.injEq, and_true]
  constructor <;> apply BitVec.eq_of_toNat_eq <;>
    simp only [BitVec.extractLsb'_toNat, BitVec.toNat_ofNat, Nat.shiftRight_eq_div_pow] <;> omega

/-! ## CKS (R156, R157) -/

theorem exec_cks_of_takes {s : State} (ht : s.takes = true) (src tag : Byte) (ops : List Byte) :
    exec (.cks src tag ops) s =
      .next (s.replied src tag 32#8 (withOperands readCheckWindow ops checkStart s.bridge).1
        (withOperands readCheckWindow ops checkStart s.bridge).2) :=
  congrArg Host.Outcome.next (State.serve_of_takes ht src tag 32#8 _)

/-- The bridge after a CKS that is taken: the check RUNNING with this challenge, sequence and window (R157). -/
def Bridge.checkStarted (b : Bridge) (c : BitVec 16) (q : BitVec 8) (window : Nat) : Bridge :=
  { b with
    check :=
      { b.check with
        state := .running, challenge := c, sequence := q, window := some window, deadline := some (window * 1000) } }

theorem checkStart_failed {b : Bridge} (h : b.check.state = .failed) (window : Nat) :
    checkStart window b = (.refused .checkFailedBefore [], b) := by
  simp [checkStart, h, refuse]

theorem checkStart_inactive {b : Bridge} (h : b.check.state = .inactive) (window : Nat) :
    checkStart window b =
      (.done (be16 b.check.challenge ++ [b.check.sequence] ++ putNat 500 window),
        b.checkStarted b.check.challenge b.check.sequence window) := by
  simp [checkStart, h, ConsoleCheck.restart, Bridge.checkStarted]

theorem checkStart_running {b : Bridge} (h : b.check.state = .running) (window : Nat) :
    checkStart window b =
      (.done (be16 (5#16 * b.check.challenge + 3#16) ++ [b.check.sequence + 1#8] ++ putNat 500 window),
        b.checkStarted (5#16 * b.check.challenge + 3#16) (b.check.sequence + 1#8) window) := by
  simp [checkStart, h, ConsoleCheck.advance, ConsoleCheck.restart, Bridge.checkStarted]

/-! ## CKX (R161) -/

theorem exec_ckx_of_takes {s : State} (ht : s.takes = true) (src tag : Byte) :
    exec (.ckx src tag []) s = .next (s.replied src tag 34#8 (checkStop s.bridge).1 (checkStop s.bridge).2) :=
  congrArg Host.Outcome.next (State.serve_of_takes ht src tag 34#8 _)

theorem DriveGroup.preventsStop_iff (x : DriveGroup) :
    x.preventsStop = true ↔ x.runState = .running ∨ x.runState = .held ∨ x.runState = .aborting := by
  simp [DriveGroup.preventsStop, DriveGroup.inPlan, DriveGroup.isRunning, DriveGroup.isHeld, or_assoc]

theorem Bridge.any_preventsStop_iff (b : Bridge) :
    (groupIxs.any fun g => (b.group g).preventsStop) = true ↔
      ∃ g, (b.group g).runState = .running ∨ (b.group g).runState = .held ∨ (b.group g).runState = .aborting := by
  simp [groupIxs, DriveGroup.preventsStop_iff]

theorem checkStop_taken {b : Bridge} (h : b.check.state = .running)
    (hfree : (groupIxs.any fun g => (b.group g).preventsStop) = false) :
    checkStop b = (.done [], { b with check := { b.check with state := .inactive, deadline := none } }) :=
  if_pos ⟨h, hfree⟩

theorem checkStop_refused {b : Bridge}
    (h : b.check.state ≠ .running ∨ (groupIxs.any fun g => (b.group g).preventsStop) = true) :
    checkStop b = (.refused .wrongState [], b) :=
  if_neg fun ⟨hrunning, hfree⟩ => h.elim (· hrunning) fun hbusy => by simp [hbusy] at hfree

end Sys2Proof.Machine

namespace Sys2Proof.Proofs

open Sys2Proof.Machine

/-- Settles O47: the two operand bytes decide first, then the state of the check. -/
theorem checkStart : Obligations.CheckStart := by
  intro src tag hi lo s ht
  have hdecode := decodeOperands_readNat_word (lo := 5) (hi := 500) (by omega) (by omega) hi lo
  rw [natOfBytes_pair] at hdecode
  refine ⟨fun hout => ?_, fun h5 h500 => ?_⟩
  · rw [if_neg (by omega)] at hdecode
    rw [exec_cks_of_takes ht, withOperands_none (read := readCheckWindow) hdecode]
    rfl
  · rw [if_pos ⟨h5, h500⟩] at hdecode
    simp only [exec_cks_of_takes ht, withOperands_some (read := readCheckWindow) hdecode]
    refine ⟨fun hfailed => ?_, fun hinactive => ?_, fun hrunning => ?_⟩
    · rw [checkStart_failed hfailed]
    · rw [checkStart_inactive hinactive, putNat_word (by omega) (by omega)]
      simp [Bridge.checkStarted]
    · rw [checkStart_running hrunning, putNat_word (by omega) (by omega)]
      simp [Bridge.checkStarted]

/-- Settles O49: the service's test of the eight groups is the statement's `busy`. -/
theorem checkStop : Obligations.CheckStop := by
  intro src tag s ht
  simp only [← Bridge.any_preventsStop_iff, exec_ckx_of_takes ht]
  refine ⟨fun hrunning hfree => ?_, fun hrefused => ?_⟩
  · rw [checkStop_taken hrunning (Bool.eq_false_of_not_eq_true hfree)]
  · rw [checkStop_refused hrefused]

end Sys2Proof.Proofs
end

section
/-! PROOFS. The Responder's own services EVR, LKW and IDR (R172, R173, R177). A one-byte operand is its byte's number;
each service is one equation in the bridge it finds. What LKW sets shows at the next Cycle Frame arrival: whatever the
order of that arrival's acts, the tracker's step is among them and alone writes the timer (R13, R14). -/

namespace Sys2Proof.Machine

/-! ## Fields of one unsigned byte (R186) -/

theorem putByte_toNat (x : Byte) : putByte x.toNat = [x] := by
  rw [putByte_eq _ (by omega), BitVec.ofNat_toNat, BitVec.setWidth_eq]

/-- A one-byte field is read as the number of its byte where that is in range, and is refused elsewhere. -/
theorem decodeOperands_readNat_byte {lo hi : Nat} (h : hi ≤ 255) (x : Byte) :
    decodeOperands (readNat lo hi) [x] = if lo ≤ x.toNat ∧ x.toNat ≤ hi then some x.toNat else none := by
  split <;> rename_i hrange
  · rw [decodeOperands_some, ← putByte_toNat x]
    exact readNat_putByte h hrange.1 hrange.2 []
  · have hshape : fieldShape lo hi = ⟨1, false⟩ := if_pos (by omega)
    have hread : readInt lo hi [x] = none := by
      simpa [readInt, hshape, FieldShape.value, natOfBytes] using hrange
    have hnone : readNat lo hi [x] = none := congrArg (Option.bind · _) hread
    rw [decodeOperands, hnone]

/-! ## EVR (R177) -/

theorem exec_evr_of_takes {s : State} (ht : s.takes = true) (src tag : Byte) (ops : List Byte) :
    exec (.evr src tag ops) s =
      .next (s.replied src tag 41#8 (withOperands readCount ops eventsRead s.bridge).1
        (withOperands readCount ops eventsRead s.bridge).2) :=
  congrArg Host.Outcome.next (State.serve_of_takes ht src tag 41#8 _)

theorem putList_of_length {α : Type} (put : α → List Byte) {items : List α} (h : items.length ≤ 255) :
    putList put items = BitVec.ofNat 8 items.length :: items.flatMap put := by
  rw [putList, putByte_eq _ h, List.singleton_append]

theorem Bridge.drainEvents_eq (b : Bridge) (count : Nat) :
    b.drainEvents count =
      { b with
        events := b.events.drop count
        eventsLost := decide (b.events.drop count ≠ []) && b.eventsLost } := by
  by_cases hempty : b.events.drop count = [] <;> simp [Bridge.drainEvents, hempty]

/-- The count byte and the length byte carry their numbers: at most 8 entries are taken of a queue of at most 64. -/
theorem eventsRead_eq {b : Bridge} (hlen : b.events.length ≤ 64) {count : Nat} (hcount : count ≤ 8) :
    eventsRead count b =
      (.done (BitVec.ofNat 8 (b.events.take count).length :: (b.events.take count).flatMap eventFields ++
        [if b.eventsLost then 1#8 else 0#8] ++ [BitVec.ofNat 8 (b.events.drop count).length]),
        b.drainEvents count) := by
  have htaken : (b.events.take count).length ≤ 255 := by
    rw [List.length_take]
    omega
  have hrest : (b.drainEvents count).events.length ≤ 255 := by
    rw [Bridge.drainEvents_eq, List.length_drop]
    omega
  rw [eventsRead, putList_of_length eventFields htaken, putByte_eq _ hrest, putFlag, Bridge.drainEvents_eq]

/-! ## LKW (R14, R172) -/

theorem exec_lkw_of_takes {s : State} (ht : s.takes = true) (src tag : Byte) (ops : List Byte) :
    exec (.lkw src tag ops) s =
      .next (s.replied src tag 48#8 (withOperands readLoss ops linkWrite s.bridge).1
        (withOperands readLoss ops linkWrite s.bridge).2) :=
  congrArg Host.Outcome.next (State.serve_of_takes ht src tag 48#8 _)

theorem State.held_replied (s : State) (src tag code : Byte) (a : Answer) (b : Bridge) :
    (s.replied src tag code a b).held = s.held := rfl

theorem exec_cycleFrameArrival_of_taken {s : State} (hheld : s.held = false) (dst src : Byte) (n : CycleNo)
    {slots : List Slot} (h1 : 1 ≤ slots.length) (h48 : slots.length ≤ 48) :
    let y := beginCycle ⟨dst, src, n, slots, s.bridge.tracker.cycle, s.address⟩ (s.link, s.bridge)
    exec (.cycleFrameArrival dst src n slots) s = .next { s with link := y.1, bridge := y.2 } := by
  have hslots : ¬(slots.length < 1 ∨ 48 < slots.length) := by omega
  show execCycleFrameArrival dst src n slots s = _
  simp only [execCycleFrameArrival, hheld, Bool.false_eq_true, if_false, if_neg hslots]

@[simp] theorem Bridge.openCycle_tracker (b : Bridge) : b.openCycle.tracker = b.tracker := by
  simp [Bridge.openCycle]

@[simp] theorem Bridge.formPending_tracker (b : Bridge) (n : CycleNo) : (b.formPending n).tracker = b.tracker := by
  simp [Bridge.formPending]

/-- What the acts of an arrival keep of the tracker while `rest` is still to be taken: the setting stands, and the timer
has restarted for it once the tracker's step is taken. -/
def TimerRestarts (setting : Nat) (rest : List CycleAct) (t : Tracker) : Prop :=
  t.setting = setting ∧ (CycleAct.tracker ∈ rest ∨ t.timer = .running (setting * 1000))

/-- An act other than the tracker's step keeps the tracker, and the step restarts the timer. -/
theorem TimerRestarts.erase_cycleAct {setting : Nat} {rest : List CycleAct} {b : Bridge}
    (h : TimerRestarts setting rest b.tracker) (c : CycleContext) (a : CycleAct) (l : Link) :
    TimerRestarts setting (rest.erase a) (cycleAct c a (l, b)).2.tracker := by
  obtain ⟨hsetting, htimer⟩ := h
  by_cases ha : a = .tracker
  · subst ha
    obtain ⟨-, -, -, -, hrestarted, hkept, -⟩ := b.trackerStep_spec c.previous c.number
    exact ⟨hkept.trans hsetting, .inr (by rw [← hsetting]; exact hrestarted)⟩
  · rw [TimerRestarts, (cycleAct_keeps c a l b).2 ha]
    exact ⟨hsetting, htimer.imp_left (List.mem_erase_of_ne (Ne.symm ha)).mpr⟩

/-- A Cycle Frame arrival restarts the timer with the setting it finds, in whatever order its acts come (R13, R14). -/
theorem beginCycle_timer (c : CycleContext) (x : Link × Bridge) :
    (beginCycle c x).2.tracker.timer = .running (x.2.tracker.setting * 1000) := by
  have hend := cycleActs_all c (fun rest y => TimerRestarts x.2.tracker.setting rest y.2.tracker) (cycleActs c x.2)
    (x.1, { x.2 with tracker := { x.2.tracker with cycle := some c.number } })
    ⟨rfl, .inl (by simp [cycleActs])⟩ (fun _ _ _ _ _ h => h) (fun _ a l _ _ _ h => h.erase_cycleAct c a l)
  obtain ⟨-, htimer⟩ := hend
  simpa [beginCycle] using htimer

/-! ## IDR (R173) -/

theorem exec_idr_of_takes {s : State} (ht : s.takes = true) (src tag : Byte) :
    exec (.idr src tag []) s = .next (s.replied src tag 51#8 (.done (identificationFields s.address)) s.bridge) :=
  congrArg Host.Outcome.next (State.serve_of_takes ht src tag 51#8 _)

/-- The part code is the two bytes of 618, and every other number fits its byte. -/
theorem identificationFields_eq (address : Byte) :
    identificationFields address = [0x02#8, 0x6A#8, 1#8, address, 32#8, 8#8, 128#8, 2#8, 64#8] := by
  have hpart : putNat 65535 Config.partCode = [0x02#8, 0x6A#8] := putNat_word (by omega) (by omega) 0x02#8 0x6A#8
  simp [identificationFields, hpart, putByte_eq, Config.revision, Config.stations, Config.groups, Config.stages,
    Config.probes, Config.eventCapacity]

end Sys2Proof.Machine

namespace Sys2Proof.Proofs

open Sys2Proof.Machine

/-- Settles O51: the count byte decides, and a count that is taken leaves few enough entries for every length byte. -/
theorem eventsRead : Obligations.EventsRead := by
  intro src tag count s ht
  have hdecode := decodeOperands_readNat_byte (lo := 1) (hi := 8) (by omega) count
  refine ⟨fun hout => ?_, fun h1 h8 hlen => ?_⟩
  · rw [if_neg (by omega)] at hdecode
    rw [exec_evr_of_takes ht, withOperands_none (read := readCount) hdecode]
    rfl
  · rw [if_pos ⟨h1, h8⟩] at hdecode
    rw [exec_evr_of_takes ht, withOperands_some (read := readCount) hdecode, eventsRead_eq hlen h8,
      Bridge.drainEvents_eq]
    rfl

/-- Settles O52: the setting is all that LKW changes, and the next arrival's tracker step restarts the timer for it. -/
theorem linkSettingsWrite : Obligations.LinkSettingsWrite := by
  intro src tag time s ht
  have hdecode := decodeOperands_readNat_byte (lo := 3) (hi := 100) (by omega) time
  refine ⟨fun hout => ?_, fun h3 h100 => ⟨_, ?_, rfl, fun dst from_ n slots h1 h48 => ?_⟩⟩
  · rw [if_neg (by omega)] at hdecode
    rw [exec_lkw_of_takes ht, withOperands_none (read := readLoss) hdecode]
    rfl
  · rw [if_pos ⟨h3, h100⟩] at hdecode
    rw [exec_lkw_of_takes ht, withOperands_some (read := readLoss) hdecode, linkWrite, putByte_toNat]
  · have hheld : s.held = false := (s.takes_iff.mp ht).1
    exact ⟨_, exec_cycleFrameArrival_of_taken ((s.held_replied ..).trans hheld) dst from_ n h1 h48,
      beginCycle_timer _ _⟩

/-- Settles O53: the Reply spells the constants of the part and the link address, and the bridge stays as it was. -/
theorem identificationRead : Obligations.IdentificationRead := by
  intro src tag s ht
  rw [exec_idr_of_takes ht, identificationFields_eq]

end Sys2Proof.Proofs
end

section
/-! PROOFS. The invariants of the queues, the counters, the trip causes and the tables (O56 to O59). Each is a case
of `TablesKeep`: what is left for it is the station close, the failed check, the written entry, the written record and the
resets. -/

namespace Sys2Proof.Machine

/-! ## The link (R6 to R9) -/

theorem Link.Sound.step {s t : State} (h : s.link.Sound) (ht : step s = .next t) : t.link.Sound := by
  unfold Machine.step at ht
  split at ht
  · cases ht
    unfold State.tick
    split <;> exact h
  · rename_i c rest _
    exact Link.Sound.exec (c := c) (s := { s with pending := rest }) h ht

/-! ## Entries that the invariants compare -/

theorem Station.part_eq {x y : Station} (h : y.part = x.part) :
    y.config.group = x.config.group ∧ y.config.address = x.config.address ∧ y.config.limit = x.config.limit ∧
      y.config.hold = x.config.hold ∧ y.run.validity = x.run.validity ∧ y.run.counter = x.run.counter ∧
      y.run.trim = x.run.trim := by
  simpa [Station.part] using h

/-- An entry of the later bridge has an entry of the earlier one beside it, with the same part. -/
theorem Alike.before {b c : Bridge} (h : Alike b c) {i : StationIx} {y : Station} (hy : c.station i = some y) :
    ∃ x, b.station i = some x ∧ y.part = x.part := by
  have hi := h.stations i
  rw [hy, Option.map_some] at hi
  obtain ⟨x, hx, hp⟩ := Option.map_eq_some_iff.mp hi.symm
  exact ⟨x, hx, hp.symm⟩

theorem Station.core_config {x y : Station} (h : y.core = x.core) :
    y.config.address = x.config.address ∧ y.config.limit = x.config.limit ∧ y.config.hold = x.config.hold := by
  have hconfig : { y.config with offset := 0 } = { x.config with offset := 0 } := congrArg Station.config h
  injection hconfig with haddress _ _ _ _ _ _ _ _ hlimit hhold
  exact ⟨haddress, hlimit, hhold⟩

/-- A bridge whose tables are those after a station close, or after the failure of the check, is read as them. -/
theorem Bridge.setStation_some {b : Bridge} {i j : StationIx} {x : Option Station} {y : Station}
    (h : (b.setStation i x).station j = some y) : i = j ∧ x = some y ∨ i ≠ j ∧ b.station j = some y := by
  rw [Bridge.station_setStation] at h
  split at h
  · exact .inl ⟨‹_›, h⟩
  · exact .inr ⟨‹_›, h⟩

/-- Which entry a write leaves: the one that was there, rewritten, or a new binding; its configuration is the written one
but for the learned offset (R30). -/
theorem writtenStation_cases (before : Option Station) (config : StationConfig) (offset : Option Int) :
    (∃ v, (writtenStation before config offset).config = { config with offset := v }) ∧
      ((writtenStation before config offset).run = StationRun.newBinding ∨
        ∃ st, before = some st ∧ st.config.address = config.address ∧
          (writtenStation before config offset).run = st.run.rewritten st.config config) := by
  unfold writtenStation
  split
  · rename_i st
    split
    · exact ⟨⟨_, rfl⟩, .inr ⟨st, rfl, ‹_›, rfl⟩⟩
    · exact ⟨⟨_, rfl⟩, .inl rfl⟩
  · exact ⟨⟨_, rfl⟩, .inl rfl⟩

theorem StationRun.rewritten_keeps (r : StationRun) (c d : StationConfig) :
    (r.rewritten c d).counter = r.counter ∧ (r.rewritten c d).validity = r.validity ∧
      (r.rewritten c d).mark = r.mark ∧ (r.rewritten c d).fresh = r.fresh ∧
      (r.rewritten c d).trim = if c.group = d.group then r.trim else 0 := by
  unfold StationRun.rewritten
  split <;> split <;> simp_all

/-- The entries after a station's close (R42): its mark, its latch and its trim are left. -/
theorem StationRun.closed_keeps (c : StationConfig) (r : StationRun) (boundary : Bool) :
    (r.closed c boundary).mark = r.mark ∧ (r.closed c boundary).fresh = r.fresh ∧
      (r.closed c boundary).trim = r.trim := ⟨rfl, rfl, rfl⟩

theorem Bridge.clampTrims_station (b : Bridge) (g : GroupIx) (i : StationIx) :
    (b.clampTrims g).station i = (b.station i).map fun st =>
      if st.config.group = some g then
        { st with run := { st.run with trim := clampAbs (b.group g).record.trimLimit st.run.trim } }
      else st := by
  simp [Bridge.clampTrims]

@[simp] theorem Bridge.clampTrims_group (b : Bridge) (g k : GroupIx) : (b.clampTrims g).group k = b.group k := by
  simp [Bridge.clampTrims]

@[simp] theorem Bridge.clampTrims_probe (b : Bridge) (g : GroupIx) (p : ProbeId) :
    (b.clampTrims g).probe p = b.probe p := by
  simp [Bridge.clampTrims]

@[simp] theorem Bridge.clampTrims_check (b : Bridge) (g : GroupIx) : (b.clampTrims g).check = b.check := by
  simp [Bridge.clampTrims]

@[simp] theorem Bridge.clampTrims_trip (b : Bridge) (g : GroupIx) : (b.clampTrims g).trip = b.trip := by
  simp [Bridge.clampTrims]

/-! ## The tables after a reset (R33, R34, R71, R72) -/

theorem Bridge.resetFull_station (b : Bridge) (i : StationIx) : b.resetFull.station i = none := by
  simp [Bridge.resetFull, Bridge.reset, Bridge.station]

theorem Bridge.resetFull_group (b : Bridge) (g : GroupIx) :
    b.resetFull.group g = DriveGroup.fresh GroupRecord.default := by
  simp [Bridge.resetFull, Bridge.reset, Bridge.group]

theorem Bridge.resetKept_station (b : Bridge) (i : StationIx) :
    b.resetKept.station i = (b.station i).map fun st => ⟨st.config, StationRun.newBinding⟩ := by
  simp [Bridge.resetKept, Bridge.station]

theorem Bridge.resetKept_group (b : Bridge) (g : GroupIx) :
    b.resetKept.group g = DriveGroup.fresh (b.group g).record := by
  simp [Bridge.resetKept, Bridge.group]

theorem Bridge.resetTo_probe (b : Bridge) (c : Scope) (p : ProbeId) : (b.resetTo c).probe p = Probe.reset := by
  cases c <;> cases p <;> rfl

theorem Bridge.resetTo_check (b : Bridge) (c : Scope) : (b.resetTo c).check = ConsoleCheck.reset := by
  cases c <;> rfl

/-- An entry after a reset is BOUND as before, with the runtime of a new binding. -/
theorem Bridge.resetTo_station {b : Bridge} {c : Scope} {i : StationIx} {y : Station}
    (h : (b.resetTo c).station i = some y) :
    ∃ x, b.station i = some x ∧ y = ⟨x.config, StationRun.newBinding⟩ := by
  cases c with
  | full =>
    rw [Bridge.resetTo, Bridge.resetFull_station] at h
    cases h
  | tablesKept =>
    rw [Bridge.resetTo, Bridge.resetKept_station] at h
    obtain ⟨x, hx, hy⟩ := Option.map_eq_some_iff.mp h
    exact ⟨x, hx, hy.symm⟩

/-- A group after a reset is fresh, with its own record or the default one. -/
theorem Bridge.resetTo_group (b : Bridge) (c : Scope) (g : GroupIx) :
    ∃ r, (b.resetTo c).group g = DriveGroup.fresh r ∧ (r = GroupRecord.default ∨ r = (b.group g).record) := by
  cases c with
  | full => exact ⟨_, b.resetFull_group g, .inl rfl⟩
  | tablesKept => exact ⟨_, b.resetKept_group g, .inr rfl⟩

/-! ## Counters (R38, R40, R66, R68) -/

theorem Station.Counted.congr {x y : Station} (h : x.Counted) (h1 : y.config.limit = x.config.limit)
    (h2 : y.config.hold = x.config.hold) (h3 : y.run.validity = x.run.validity) (h4 : y.run.counter = x.run.counter) :
    y.Counted where
  limit := by rw [h1]; exact h.limit
  total := by rw [h1, h2]; exact h.total
  fatal := by rw [h3, h4]; exact h.fatal
  other := by rw [h3, h4]; exact h.other

/-- A close keeps the counter's range: it is 255 exactly where the close leaves FATAL (R38, R40). -/
theorem Station.Counted.closed {st : Station} (h : st.Counted) (boundary : Bool) :
    Station.Counted { st with run := st.run.closed st.config boundary } := by
  have hstep := st.run.closed_stepped st.config boundary
  have htotal := h.total
  refine ⟨h.limit, h.total, ?_, ?_⟩ <;> simp only <;> intro hv
  all_goals
    unfold ValidityStepped at hstep
    split at hstep
    · rename_i hf
      have := h.fatal hf
      simp_all
    · rename_i hf
      have := h.other hf
      (repeat' split at hstep) <;> simp_all <;> omega

theorem DriveGroup.Counted.congr {x y : DriveGroup} (h : x.Counted) (h1 : y.record = x.record)
    (h2 : y.alarmCounter = x.alarmCounter) : y.Counted where
  limit := by rw [h1]; exact h.limit
  total := by rw [h1]; exact h.total
  counter := by rw [h2]; exact h.counter
  plan := by rw [h1]; exact h.plan

theorem StationRun.newBinding_counted {c : StationConfig} (h : 3 ≤ c.limit) (k : c.limit + c.hold ≤ 250) :
    Station.Counted ⟨c, StationRun.newBinding⟩ := ⟨h, k, nofun, fun _ => Nat.zero_le _⟩

theorem Fits.counted {b : Bridge} {i : StationIx} {y : Station} (h : Fits b i (some y))
    (hb : ∀ st, b.station i = some st → st.Counted) : y.Counted := by
  obtain - | ⟨o, ho, -, -⟩ := h
  obtain ⟨⟨v, hconfig⟩, hrun⟩ := writtenStation_cases (b.station o.index) o.config o.offset
  have hlimit := congrArg StationConfig.limit hconfig
  have hhold := congrArg StationConfig.hold hconfig
  simp only at hlimit hhold
  have h3 := ho.limit.1
  have h250 := ho.total
  obtain hnew | ⟨st, hst, -, hrun⟩ := hrun
  · refine ⟨by omega, by omega, ?_, ?_⟩ <;> rw [hnew] <;> simp [StationRun.newBinding]
  · obtain ⟨hcounter, hvalidity, -⟩ := st.run.rewritten_keeps st.config o.config
    have hold := hb st hst
    refine ⟨by omega, by omega, ?_, ?_⟩ <;> rw [hrun, hcounter, hvalidity]
    · exact hold.fatal
    · exact hold.other

theorem countersKeep : TablesKeep Bridge.CountersSound where
  work b c h hb := by
    obtain ⟨hstations, hgroups⟩ := hb
    refine ⟨fun i y hy => ?_, h.counted hgroups⟩
    obtain ⟨x, hx, hcore, -⟩ := h.before hy
    obtain ⟨-, hlimit, hhold⟩ := Station.core_config hcore
    obtain ⟨-, -, -, -, -, -, hcounter, hvalidity⟩ := Station.core_run hcore
    exact (hstations i x hx).congr hlimit hhold hvalidity hcounter
  alike b c h hb := by
    obtain ⟨hstations, hgroups⟩ := hb
    refine ⟨fun i y hy => ?_, fun g => (hgroups g).congr (h.records g) (h.alarms g)⟩
    obtain ⟨x, hx, hpart⟩ := h.before hy
    obtain ⟨-, -, hlimit, hhold, hvalidity, hcounter, -⟩ := Station.part_eq hpart
    exact (hstations i x hx).congr hlimit hhold hvalidity hcounter
  closed b m i st boundary hst hm _ _ _ hb := by
    obtain ⟨hstations, hgroups⟩ := hb
    rw [hm]
    refine ⟨fun j y hy => ?_, hgroups⟩
    obtain ⟨rfl, e⟩ | ⟨-, hy⟩ := Bridge.setStation_some (b := b) hy
    · cases e
      exact (hstations i st hst).closed boundary
    · exact hstations j y hy
  failed b c _ _ hc _ hb := by
    rw [hc]
    exact hb
  entry b i x hx hb := by
    obtain ⟨hstations, hgroups⟩ := hb
    refine ⟨fun j y hy => ?_, hgroups⟩
    obtain ⟨rfl, rfl⟩ | ⟨-, hy⟩ := Bridge.setStation_some hy
    · exact hx.counted (hstations i)
    · exact hstations j y hy
  record b o ho hb := by
    obtain ⟨hstations, hgroups⟩ := hb
    refine ⟨fun j y hy => ?_, fun g => ?_⟩
    · rw [Bridge.clampTrims_station] at hy
      obtain ⟨x, hx, rfl⟩ := Option.map_eq_some_iff.mp hy
      split <;> exact (hstations j x hx).congr rfl rfl rfl rfl
    · rw [Bridge.clampTrims_group, Bridge.group_setGroup]
      split
      · exact ⟨ho.alarmLimit.1, ho.total, (hgroups o.group).counter, ho.planLength.1⟩
      · exact hgroups g
  reset b c hb := by
    obtain ⟨hstations, hgroups⟩ := hb
    refine ⟨fun i y hy => ?_, fun g => ?_⟩
    · obtain ⟨x, hx, rfl⟩ := Bridge.resetTo_station hy
      exact StationRun.newBinding_counted (hstations i x hx).limit (hstations i x hx).total
    · obtain ⟨r, hr, rfl | rfl⟩ := b.resetTo_group c g <;> rw [hr]
      · exact ⟨by decide, by decide, by decide, by decide⟩
      · exact ⟨(hgroups g).limit, (hgroups g).total, Nat.zero_le _, (hgroups g).plan⟩
  cks b w hb := by
    unfold checkStart
    split <;> exact hb
  advance _ _ _ hb := hb
  ckx b hb := by
    unfold checkStop
    split <;> exact hb

/-! ## Console check and trip causes (R40, R155, R160, R164) -/

theorem Bridge.TripSound.congr {b c : Bridge} (h : b.TripSound) (state : c.check.state = b.check.state)
    (window : c.check.window = b.check.window) (reason : c.check.reason = b.check.reason)
    (deadline : c.check.deadline.isSome = b.check.deadline.isSome) (console : c.trip.console = b.trip.console)
    (runaway : ∀ i st, c.station i = some st → st.run.validity = .fatal → c.trip.runaway = true) : c.TripSound where
  running hs := by
    rw [window, deadline]
    exact h.running (state ▸ hs)
  stopped hs := by
    have hnone := h.stopped (state ▸ hs)
    rw [hnone] at deadline
    exact Option.isNone_iff_eq_none.mp (by simpa using deadline)
  reason := by rw [reason, state]; exact h.reason
  console := by rw [console, state]; exact h.console
  runaway := runaway

theorem tripKeeps : TablesKeep Bridge.TripSound where
  work b c h hb := by
    refine hb.congr (by rw [h.check]) (by rw [h.check]) (by rw [h.check]) (by rw [h.check]) h.console
      fun i y hy hfatal => ?_
    obtain ⟨x, hx, hcore, -⟩ := h.before hy
    obtain ⟨-, -, -, -, -, -, -, hvalidity⟩ := Station.core_run hcore
    rw [h.runaway]
    exact hb.runaway i x hx (hvalidity ▸ hfatal)
  alike b c h hb := by
    refine hb.congr h.state h.window h.reason h.deadline h.console fun i y hy hfatal => ?_
    obtain ⟨x, hx, hpart⟩ := h.before hy
    obtain ⟨-, -, -, -, hvalidity, -⟩ := Station.part_eq hpart
    rw [h.runaway]
    exact hb.runaway i x hx (hvalidity ▸ hfatal)
  closed b m i st boundary hst hm hconsole hrunaway _ hb := by
    have hcheck : m.check = b.check := by rw [hm]; rfl
    refine hb.congr (by rw [hcheck]) (by rw [hcheck]) (by rw [hcheck]) (by rw [hcheck]) hconsole
      fun j y hy hfatal => hrunaway.mpr ?_
    rw [hm] at hy
    obtain ⟨rfl, e⟩ | ⟨-, hy⟩ := Bridge.setStation_some (b := b) hy
    · cases e
      by_cases hv : st.run.validity = .fatal
      · exact .inl (hb.runaway i st hst hv)
      · exact .inr ((transitionOf_fatal _ _).mpr ⟨hv, hfatal⟩)
    · exact .inl (hb.runaway j y hy hfatal)
  failed b c reason _ hc _ hb := by
    rw [hc]
    exact ⟨nofun, fun _ => rfl, by simp, by simp, hb.runaway⟩
  entry b i x hx hb := by
    refine hb.congr rfl rfl rfl rfl rfl fun j y hy hfatal => ?_
    obtain ⟨rfl, rfl⟩ | ⟨-, hy⟩ := Bridge.setStation_some hy
    · obtain - | ⟨o, -, -, -⟩ := hx
      obtain ⟨-, hnew | ⟨st, hst, -, hrun⟩⟩ := writtenStation_cases (b.station o.index) o.config o.offset
      · rw [hnew] at hfatal
        cases hfatal
      · rw [hrun, (st.run.rewritten_keeps st.config o.config).2.1] at hfatal
        exact hb.runaway _ st hst hfatal
    · exact hb.runaway j y hy hfatal
  record b o _ hb := by
    refine hb.congr (by simp) (by simp) (by simp) (by simp) (by simp) fun j y hy hfatal => ?_
    rw [Bridge.clampTrims_station] at hy
    obtain ⟨x, hx, rfl⟩ := Option.map_eq_some_iff.mp hy
    rw [Bridge.clampTrims_trip]
    exact hb.runaway j x hx (by split at hfatal <;> exact hfatal)
  reset b c _ := by
    have hcheck := b.resetTo_check c
    have htrip : (b.resetTo c).trip = ⟨false, false, false⟩ := by cases c <;> rfl
    refine ⟨?_, ?_, ?_, ?_, fun i y hy hfatal => ?_⟩
    iterate 4 simp [hcheck, htrip, ConsoleCheck.reset]
    obtain ⟨x, -, rfl⟩ := Bridge.resetTo_station hy
    cases hfatal
  cks b w hb := by
    cases hs : b.check.state with
    | failed => rw [checkStart_failed hs]; exact hb
    | inactive =>
      rw [checkStart_inactive hs]
      refine ⟨fun _ => ⟨rfl, rfl⟩, (absurd rfl ·), ?_, ?_, hb.runaway⟩
      · simpa [Bridge.checkStarted, hs] using hb.reason
      · simpa [Bridge.checkStarted, hs] using hb.console
    | running =>
      rw [checkStart_running hs]
      refine ⟨fun _ => ⟨rfl, rfl⟩, (absurd rfl ·), ?_, ?_, hb.runaway⟩
      · simpa [Bridge.checkStarted, hs] using hb.reason
      · simpa [Bridge.checkStarted, hs] using hb.console
  advance b w hr hb := hb.congr rfl rfl rfl (hb.running hr).2.symm rfl hb.runaway
  ckx b hb := by
    by_cases hr : b.check.state = .running ∧ (groupIxs.any fun g => (b.group g).preventsStop) = false
    · rw [checkStop_taken hr.1 hr.2]
      refine ⟨nofun, fun _ => rfl, ?_, ?_, hb.runaway⟩
      · simpa [hr.1] using hb.reason
      · simpa [hr.1] using hb.console
    · rw [checkStop, if_neg hr]
      exact hb

/-! ## The Station Table, the trims, the probes and the close marks (R20, R22, R28, R61, R141) -/

/-- The four invariants of O59 together. -/
structure Bridge.AllSound (b : Bridge) : Prop where
  table : b.TableSound
  trims : b.TrimsSound
  probes : b.ProbesSound
  marks : b.MarksSound

/-- The addresses and the members read no more of an entry than its group and its address. -/
theorem Bridge.TableSound.congr {b c : Bridge} (h : b.TableSound)
    (hs : ∀ i, (c.station i).map (fun st => (st.config.group, st.config.address)) =
      (b.station i).map fun st => (st.config.group, st.config.address)) : c.TableSound where
  addresses i j x y hx hy e := by
    have hi := hs i
    have hj := hs j
    rw [hx, Option.map_some] at hi
    rw [hy, Option.map_some] at hj
    obtain ⟨x', hx', ex⟩ := Option.map_eq_some_iff.mp hi.symm
    obtain ⟨y', hy', ey⟩ := Option.map_eq_some_iff.mp hj.symm
    obtain ⟨-, ax⟩ := Prod.mk.inj ex
    obtain ⟨-, ay⟩ := Prod.mk.inj ey
    exact h.addresses i j x' y' hx' hy' (by rw [ax, ay, e])
  members g := by
    rw [Bridge.members_congr g fun i => ?_]
    · exact h.members g
    · have hi := congrArg (Option.map Prod.fst) (hs i)
      rwa [Option.map_map, Option.map_map] at hi

theorem Bridge.TrimsSound.congr {b c : Bridge} (h : b.TrimsSound)
    (hs : ∀ i, (c.station i).map (fun st => (st.config.group, st.run.trim)) =
      (b.station i).map fun st => (st.config.group, st.run.trim))
    (hr : ∀ g, (c.group g).record = (b.group g).record) : c.TrimsSound := by
  intro i y g hy hg
  have hi := hs i
  rw [hy, Option.map_some] at hi
  obtain ⟨x, hx, ex⟩ := Option.map_eq_some_iff.mp hi.symm
  obtain ⟨egroup, etrim⟩ := Prod.mk.inj ex
  rw [hr, ← etrim]
  exact h i x g hx (egroup.trans hg)

theorem Bridge.mem_members {b : Bridge} {g : GroupIx} {i : StationIx} :
    i ∈ b.members g ↔ ∃ st, b.station i = some st ∧ st.config.group = some g := by
  cases hst : b.station i <;> simp [Bridge.members, Bridge.isMember, stationIxs, hst]

theorem Bridge.members_nodup (b : Bridge) (g : GroupIx) : (b.members g).Nodup :=
  (List.nodup_finRange 32).filter _

/-- An entry that becomes FREE leaves the table sound (R32). -/
theorem Bridge.TableSound.clear {b : Bridge} (h : b.TableSound) (i : StationIx) :
    (b.setStation i none).TableSound where
  addresses j k x y hx hy e := by
    obtain ⟨-, hx⟩ | ⟨-, hx⟩ := Bridge.setStation_some hx
    · cases hx
    obtain ⟨-, hy⟩ | ⟨-, hy⟩ := Bridge.setStation_some hy
    · cases hy
    exact h.addresses j k x y hx hy e
  members g := by
    have hsub : (b.setStation i none).members g ⊆ b.members g := fun j hj => by
      obtain ⟨st, hst, hg⟩ := Bridge.mem_members.mp hj
      obtain ⟨-, hst⟩ | ⟨-, hst⟩ := Bridge.setStation_some hst
      · cases hst
      · exact Bridge.mem_members.mpr ⟨st, hst, hg⟩
    exact ((Bridge.members_nodup _ g).subperm hsub).length_le.trans (h.members g)

/-- The entry that a passed STW leaves keeps the table sound: its address is no other's, and its group had at most five
other members (R28). -/
theorem Bridge.TableSound.write {b : Bridge} (h : b.TableSound) {o : StwOperands} (hc : b.stwConflict o = false)
    {y : Station} (ha : y.config.address = o.config.address) (hg : y.config.group = o.config.group) :
    (b.setStation o.index (some y)).TableSound := by
  unfold Bridge.stwConflict at hc
  rw [Bool.or_eq_false_iff] at hc
  obtain ⟨haddress, hgroup⟩ := hc
  have hown : ∀ j x, b.station j = some x → x.config.address = y.config.address → o.index = j := by
    intro j x hx e
    rw [Bridge.boundTo_eq h ⟨hx, e.trans ha⟩] at haddress
    simp only [decide_eq_false_iff_not, not_not] at haddress
    exact haddress.symm
  refine ⟨fun j k u v hu hv e => ?_, fun g => ?_⟩
  · obtain ⟨rfl, eu⟩ | ⟨-, hu⟩ := Bridge.setStation_some hu <;>
      obtain ⟨rfl, ev⟩ | ⟨-, hv⟩ := Bridge.setStation_some hv
    · rfl
    · cases eu
      exact hown k v hv e.symm
    · cases ev
      exact (hown j u hu e).symm
    · exact h.addresses j k u v hu hv e
  · have hothers : ∀ j ∈ (b.setStation o.index (some y)).members g, j ≠ o.index → j ∈ b.members g := by
      intro j hj hne
      obtain ⟨st, hst, hstg⟩ := Bridge.mem_members.mp hj
      obtain ⟨rfl, -⟩ | ⟨-, hst⟩ := Bridge.setStation_some hst
      · exact absurd rfl hne
      · exact Bridge.mem_members.mpr ⟨st, hst, hstg⟩
    by_cases hmem : o.config.group = some g
    · rw [hmem] at hgroup
      have hsub : (b.setStation o.index (some y)).members g ⊆
          o.index :: (b.members g).filter fun i => decide (i ≠ o.index) := fun j hj => by
        by_cases hne : j = o.index
        · simp [hne]
        · simp [hne, hothers j hj hne]
      have hlen := ((Bridge.members_nodup _ g).subperm hsub).length_le
      simp only [List.length_cons, decide_eq_false_iff_not] at hlen hgroup
      omega
    · have hsub : (b.setStation o.index (some y)).members g ⊆ b.members g := fun j hj => by
        refine hothers j hj fun e => hmem ?_
        obtain ⟨st, hst, hstg⟩ := Bridge.mem_members.mp hj
        rw [e, Bridge.station_setStation, if_pos rfl] at hst
        cases hst
        exact hg.symm.trans hstg
      exact ((Bridge.members_nodup _ g).subperm hsub).length_le.trans (h.members g)

/-- What an entry's write leaves of trims and marks (R30, R49). -/
theorem Bridge.AllSound.write {b : Bridge} (h : b.AllSound) {o : StwOperands} (hc : b.stwConflict o = false) :
    (b.setStation o.index (some (writtenStation (b.station o.index) o.config o.offset))).AllSound := by
  obtain ⟨⟨v, hconfig⟩, hrun⟩ := writtenStation_cases (b.station o.index) o.config o.offset
  generalize writtenStation (b.station o.index) o.config o.offset = y at hconfig hrun
  have haddress := congrArg StationConfig.address hconfig
  have hgroup := congrArg StationConfig.group hconfig
  simp only at haddress hgroup
  refine ⟨h.table.write hc haddress hgroup, fun j z g hz hg => ?_, fun p => by simpa using h.probes p,
    fun j z hz hopen => ?_⟩ <;> obtain ⟨rfl, e⟩ | ⟨-, hz⟩ := Bridge.setStation_some hz
  · cases e
    rw [Bridge.group_setStation]
    obtain hnew | ⟨st, hst, -, hrun⟩ := hrun
    · rw [hnew]
      exact Nat.zero_le _
    · obtain ⟨-, -, -, -, htrim⟩ := st.run.rewritten_keeps st.config o.config
      rw [hrun, htrim]
      split
      · exact h.trims _ st g hst (by simp_all)
      · exact Nat.zero_le _
  · exact h.trims j z g hz hg
  · cases e
    obtain hnew | ⟨st, hst, -, hrun⟩ := hrun
    · rw [hnew]
      rfl
    · obtain ⟨-, -, hmark, hfresh, -⟩ := st.run.rewritten_keeps st.config o.config
      rw [hrun, hmark] at hopen
      rw [hrun, hfresh]
      exact h.marks _ st hst hopen
  · exact h.marks j z hz hopen

theorem tablesKeep : TablesKeep Bridge.AllSound where
  work b c h hb := by
    refine ⟨hb.table.congr fun i => ?_, h.trims hb.trims, h.probes hb.probes, fun i y hy hopen => ?_⟩
    · have hi := congrArg (Option.map fun st : Station => (st.config.group, st.config.address)) (h.stations i)
      rwa [Option.map_map, Option.map_map] at hi
    · obtain ⟨x, hx, hcore, -⟩ := h.before hy
      obtain ⟨hmark, -, hfresh, -⟩ := Station.core_run hcore
      rw [hfresh]
      exact hb.marks i x hx (hmark ▸ hopen)
  alike b c h hb := by
    refine ⟨hb.table.congr fun i => ?_, hb.trims.congr (fun i => ?_) h.records, fun p => ?_, fun i y hy hopen => ?_⟩
    · have hi := congrArg (Option.map fun e : EntryPart => (e.group, e.address)) (h.stations i)
      rwa [Option.map_map, Option.map_map] at hi
    · have hi := congrArg (Option.map fun e : EntryPart => (e.group, e.trim)) (h.stations i)
      rwa [Option.map_map, Option.map_map] at hi
    · rw [h.probes]
      exact hb.probes p
    · by_contra hfresh
      obtain ⟨x, hx, hmark, hx'⟩ := h.marks i y hy hopen (Bool.eq_true_of_not_eq_false hfresh)
      rw [hb.marks i x hx hmark] at hx'
      cases hx'
  closed b m i st boundary hst hm _ _ _ hb := by
    have hstations : ∀ j, m.station j = (b.setStation i (some { st with run := st.run.closed st.config boundary })).station j :=
      fun j => by rw [hm]; rfl
    have hgroups : ∀ g, m.group g = b.group g := fun g => by rw [hm]; rfl
    refine ⟨hb.table.congr fun j => ?_, hb.trims.congr (fun j => ?_) fun g => by rw [hgroups], fun p => ?_,
      fun j y hy hopen => ?_⟩
    · rw [hstations, Bridge.station_setStation]
      split
      · rename_i e
        subst e
        rw [hst]
        rfl
      · rfl
    · rw [hstations, Bridge.station_setStation]
      split
      · rename_i e
        subst e
        rw [hst]
        rfl
      · rfl
    · rw [hm]
      cases p
      · exact hb.probes .p1
      · exact hb.probes .p2
    · rw [hstations] at hy
      obtain ⟨rfl, e⟩ | ⟨-, hy⟩ := Bridge.setStation_some hy
      · cases e
        exact hb.marks i st hst hopen
      · exact hb.marks j y hy hopen
  failed b c _ _ hc _ hb := by
    rw [hc]
    refine ⟨hb.table.congr fun _ => rfl, hb.trims, fun p => ?_, hb.marks⟩
    cases p
    · exact hb.probes .p1
    · exact hb.probes .p2
  entry b i x hx hb := by
    obtain - | ⟨o, -, hc, -⟩ := hx
    · refine ⟨hb.table.clear i, fun j z g hz hg => ?_, fun p => by simpa using hb.probes p, fun j z hz hopen => ?_⟩ <;>
        obtain ⟨rfl, e⟩ | ⟨-, hz⟩ := Bridge.setStation_some hz
      · cases e
      · exact hb.trims j z g hz hg
      · cases e
      · exact hb.marks j z hz hopen
    · exact hb.write hc
  record b o _ hb := by
    refine ⟨hb.table.congr fun i => ?_, fun i y g hy hg => ?_, fun p => by simpa using hb.probes p,
      fun i y hy hopen => ?_⟩
    · rw [Bridge.clampTrims_station, Option.map_map, Bridge.station_setGroup]
      congr 1
      funext st
      simp only [Function.comp_apply]
      split <;> rfl
    · rw [Bridge.clampTrims_station] at hy
      obtain ⟨x, hx, rfl⟩ := Option.map_eq_some_iff.mp hy
      rw [Bridge.clampTrims_group]
      split at hg
      · rename_i hin
        rw [if_pos hin]
        obtain rfl : o.group = g := Option.some.inj (hin.symm.trans hg)
        exact clampAbs_bound _ _
      · rename_i hout
        rw [if_neg hout, Bridge.group_setGroup, if_neg fun e : o.group = g => hout (e ▸ hg)]
        exact hb.trims i x g hx hg
    · rw [Bridge.clampTrims_station] at hy
      obtain ⟨x, hx, rfl⟩ := Option.map_eq_some_iff.mp hy
      split at hopen <;> split <;> exact hb.marks i x hx hopen
  reset b c hb := by
    refine ⟨⟨fun i j x y hx hy e => ?_, fun g => ?_⟩, fun i y g hy hg => ?_, fun p => ?_, fun i y hy hopen => ?_⟩
    · obtain ⟨x', hx', rfl⟩ := Bridge.resetTo_station hx
      obtain ⟨y', hy', rfl⟩ := Bridge.resetTo_station hy
      exact hb.table.addresses i j x' y' hx' hy' e
    · have hsub : (b.resetTo c).members g ⊆ b.members g := fun j hj => by
        obtain ⟨st, hst, hg⟩ := Bridge.mem_members.mp hj
        obtain ⟨st', hst', rfl⟩ := Bridge.resetTo_station hst
        exact Bridge.mem_members.mpr ⟨st', hst', hg⟩
      exact ((Bridge.members_nodup _ g).subperm hsub).length_le.trans (hb.table.members g)
    · obtain ⟨x, -, rfl⟩ := Bridge.resetTo_station hy
      exact Nat.zero_le _
    · rw [Bridge.resetTo_probe]
      exact ⟨⟨fun _ => rfl, fun _ => rfl⟩, (absurd rfl ·)⟩
    · obtain ⟨x, -, rfl⟩ := Bridge.resetTo_station hy
      rfl
  cks b w hb := by
    unfold checkStart
    split <;> exact ⟨hb.table.congr fun _ => rfl, hb.trims, fun p => by cases p; exacts [hb.probes .p1, hb.probes .p2],
      hb.marks⟩
  advance b _ _ hb :=
    ⟨hb.table.congr fun _ => rfl, hb.trims, fun p => by cases p; exacts [hb.probes .p1, hb.probes .p2], hb.marks⟩
  ckx b hb := by
    unfold checkStop
    split <;> exact ⟨hb.table.congr fun _ => rfl, hb.trims, fun p => by cases p; exacts [hb.probes .p1, hb.probes .p2],
      hb.marks⟩

end Sys2Proof.Machine

namespace Sys2Proof.Proofs

open Sys2Proof.Machine

/-- Settles O56: the link's part by its own step lemma, the Event Queue's as an invariant of the tables. -/
theorem stepKeepsQueues : Obligations.StepKeepsQueues :=
  fun _ _ ⟨hlink, hevents⟩ ht => ⟨hlink.step ht, eventsKeep.parts.step hevents ht⟩

/-- Settles O57. -/
theorem stepKeepsCounters : Obligations.StepKeepsCounters :=
  fun _ _ hs ht => countersKeep.parts.step hs ht

/-- Settles O58. -/
theorem stepKeepsTripCauses : Obligations.StepKeepsTripCauses :=
  fun _ _ hs ht => tripKeeps.parts.step hs ht

/-- Settles O59: the four invariants are kept together, since a write to an entry is judged by the table it finds. -/
theorem stepKeepsTables : Obligations.StepKeepsTables := by
  intro s t htable htrims hprobes hmarks ht
  obtain ⟨h1, h2, h3, h4⟩ := tablesKeep.parts.step ⟨htable, htrims, hprobes, hmarks⟩ ht
  exact ⟨h1, h2, h3, h4⟩

end Sys2Proof.Proofs
end

section
/-! PROOFS. The run states and what follows them (O60): each part of each command keeps `Bridge.RunsSound`. The commands
that move a group between run states come last; every other part leaves the fields it reads, or is done in the laws of the
stage machine. -/

namespace Sys2Proof.Machine

/-! ## Updates that soundness does not read -/

theorem Bridge.RunsSound.ofSame {b c : Bridge} (h : b.RunsSound) (groups : c.groups = b.groups)
    (probe1 : c.probe1 = b.probe1) (probe2 : c.probe2 = b.probe2) : c.RunsSound :=
  h.congr (Bridge.group_congr groups) fun p => by
    cases p
    exacts [congrArg Probe.owner probe1, congrArg Probe.owner probe2]

theorem Bridge.RunsSound.mapGroups {b : Bridge} (h : b.RunsSound) (f : GroupIx → DriveGroup → DriveGroup)
    (h1 : ∀ g x, (f g x).runState = x.runState) (h2 : ∀ g x, (f g x).phase = x.phase)
    (h3 : ∀ g x, (f g x).stack = x.stack) (h4 : ∀ g x, (f g x).deferred = x.deferred)
    (h5 : ∀ g x, (f g x).waiting = x.waiting) : (b.mapGroups f).RunsSound where
  stacked g := by
    rw [Bridge.group_mapGroups]
    exact (h.stacked g).congr (h1 ..) (h2 ..) (h3 ..) (h4 ..) (h5 ..)
  owners :=
    { owner := fun p g e => by
        rw [Bridge.group_mapGroups, h1, h2]
        exact h.owners.owner p g (by simpa using e)
      single := fun p q g e e' => h.owners.single p q g (by simpa using e) (by simpa using e') }

theorem DriveGroup.fresh_stackSound (r : GroupRecord) : (DriveGroup.fresh r).StackSound :=
  .outside rfl rfl rfl rfl rfl

theorem Bridge.RunsSound.resetTo (b : Bridge) (c : Scope) : (b.resetTo c).RunsSound where
  stacked g := by
    obtain ⟨r, hr, -⟩ := b.resetTo_group c g
    rw [hr]
    exact DriveGroup.fresh_stackSound r
  owners :=
    { owner := fun p g e => by rw [Bridge.resetTo_probe] at e; cases e
      single := fun p q g e => by rw [Bridge.resetTo_probe] at e; cases e }

/-! ## The tracker, the check and the mask -/

theorem Bridge.RunsSound.loseSync {b : Bridge} (h : b.RunsSound) : b.loseSync.RunsSound := by
  have hlost : ({ b with tracker := { b.tracker with sync := .unsynced, runCount := 0 } } : Bridge).RunsSound :=
    h.ofSame rfl rfl rfl
  exact (hlost.post _).bypassAll _

theorem Bridge.RunsSound.trackerStep {b : Bridge} (h : b.RunsSound) (p : Option CycleNo) (n : CycleNo) :
    (b.trackerStep p n).RunsSound := by
  have hstep : ∀ t, ({ b with tracker := t } : Bridge).RunsSound := fun t => h.ofSame rfl rfl rfl
  unfold Bridge.trackerStep
  simp only
  split
  · split
    · split
      · exact (hstep _).post _
      · exact hstep _
    · exact hstep _
  · split
    · exact hstep _
    · exact (hstep _).loseSync

theorem Bridge.RunsSound.cycleLoss {b : Bridge} (h : b.RunsSound) : b.cycleLoss.RunsSound := by
  have hstep : ∀ t, ({ b with tracker := t } : Bridge).RunsSound := fun t => h.ofSame rfl rfl rfl
  unfold Bridge.cycleLoss
  split
  · simp only
    split
    · exact (hstep _).loseSync
    · exact hstep _
  · exact h

theorem Bridge.RunsSound.failCheck {b : Bridge} (h : b.RunsSound) (r : FailureReason) (t : Option Byte) :
    (b.failCheck r t).RunsSound := by
  unfold Bridge.failCheck
  have hfailed : ({ b with check := { b.check with state := .failed, deadline := none, reason := some r } } :
    Bridge).RunsSound := h.ofSame rfl rfl rfl
  exact ((hfailed.post _).sendTrip _).bypassAll _

theorem Bridge.RunsSound.clearStageTrip {b : Bridge} (h : b.RunsSound) : b.clearStageTrip.RunsSound := by
  have hposted : (b.post .tripClosed).RunsSound := h.post _
  unfold Bridge.clearStageTrip
  split
  · simp only
    split
    · exact h.ofSame rfl rfl rfl
    · exact hposted.ofSame rfl rfl rfl
  · exact h

theorem Bridge.RunsSound.maskFault {b : Bridge} (h : b.RunsSound) (i : Option StationIx) (g : GroupIx) :
    (b.maskFault i g).RunsSound := by
  unfold Bridge.maskFault
  split
  · exact h
  · split
    · exact (h.but g).fault _ _ _
    · exact h

theorem Bridge.RunsSound.foldl {b : Bridge} (h : b.RunsSound) (f : Bridge → GroupIx → Bridge)
    (hf : ∀ b g, b.RunsSound → (f b g).RunsSound) (gs : List GroupIx) : (gs.foldl f b).RunsSound := by
  induction gs generalizing b with
  | nil => exact h
  | cons g gs ih => exact ih (hf b g h)

/-! ## Intake and the entries -/

theorem Bridge.RunsSound.takeFeedback {b : Bridge} (h : b.RunsSound) (a : Byte) (l : Latch) :
    (b.takeFeedback a l).RunsSound := by
  unfold Bridge.takeFeedback
  split
  · exact h
  · split
    · exact h
    · rename_i i _ _ st _
      have hset : (b.setStation i (some { st with run := st.run.feedback (decide (b.tracker.cycle = some l.cycle)) l
        })).RunsSound := h.ofSame rfl rfl rfl
      simp only
      split
      · exact hset.stationClose _ _ _
      · exact hset

theorem Bridge.RunsSound.writeEntry {b : Bridge} (h : b.RunsSound) (i : StationIx) (x : Option Station) (r : Bool) :
    (b.writeEntry i x r).RunsSound := by
  have hset : (b.setStation i x).RunsSound := h.ofSame rfl rfl rfl
  have hdropped : ((b.setStation i x).dropReferences b i r).RunsSound := by
    refine hset.mapGroups _ ?_ ?_ ?_ ?_ ?_ <;> intro g y <;> split <;> rfl
  unfold Bridge.writeEntry Bridge.leaves
  simp only
  split
  · exact hdropped.leaveGroup _ i
  · exact hdropped

/-! ## Probe services -/

theorem Bridge.RunsSound.cancelRun {b : Bridge} (h : b.RunsSound) (p : ProbeId) : (b.cancelRun p).RunsSound := by
  have hset := h.setProbe p { b.probe p with state := .idle, owner := none, result := some (b.probeResult p .cancelled) }
    (.inr nofun)
  exact hset.ofSame rfl rfl rfl

theorem Bridge.RunsSound.idleProbe {b : Bridge} (h : b.RunsSound) (p : ProbeId) : (b.idleProbe p).RunsSound :=
  h.setProbe p _ (.inr nofun)

/-! ## Plan services (R102, R116 to R119) -/

theorem DriveGroup.inPlan_iff (x : DriveGroup) : x.inPlan = true ↔ x.runState = .running ∨ x.runState = .held := by
  simp [DriveGroup.inPlan, DriveGroup.isRunning, DriveGroup.isHeld]

/-- Outside RUNNING and HELD a group has no phase, and so neither a probe nor a place in the waiting set. -/
theorem Bridge.RunsSound.unclaimed_outside {b : Bridge} (h : b.RunsSound) {g : GroupIx}
    (hout : (b.group g).inPlan = false) : Unclaimed g b := by
  have hphase := (h.stacked g).phase
  rw [hout, Option.isSome_eq_false_iff, Option.isNone_iff_eq_none] at hphase
  exact h.unclaimed g (by simp [hphase]) (by simp [hphase])

/-- A HELD group neither owns a probe nor waits for one. -/
theorem Bridge.RunsSound.unclaimed_held {b : Bridge} (h : b.RunsSound) {g : GroupIx}
    (hheld : (b.group g).runState = .held) : Unclaimed g b := by
  refine ⟨fun p e => ?_, Bool.eq_false_iff.mpr fun e => ?_⟩
  · have hrun := (h.owners.owner p g e).1
    rw [hheld] at hrun
    cases hrun
  · have hrun := ((h.stacked g).waits e).1
    rw [hheld] at hrun
    cases hrun

theorem Bridge.RunsSound.startPlan {b : Bridge} (h : b.RunsSound) {g : GroupIx} (hout : (b.group g).inPlan = false)
    (tag : Byte) : (b.startPlan g tag).RunsSound := by
  refine RunsBut.enterStage ((h.but g).modifyGroup _) ((h.unclaimed_outside hout).modifyGroup _ rfl) ?_ _
  rw [Bridge.group_modifyGroup, if_pos rfl]
  exact ⟨Nat.zero_le _, nofun⟩

theorem Bridge.RunsSound.holdPlan {b : Bridge} (h : b.RunsSound) {g : GroupIx}
    (hrun : (b.group g).runState = .running) : (b.holdPlan g).RunsSound := by
  have hstack := h.stacked g
  have hbut := (h.but g).modifyGroup fun x => { x with runState := .held }
  unfold Bridge.holdPlan
  simp only
  split
  · obtain ⟨hfreed, hunclaimed⟩ := hbut.releaseProbe
    have hgroup := ((b.modifyGroup g fun x => { x with runState := .held }).releaseProbe_group g).1
    rw [Bridge.group_modifyGroup, if_pos rfl] at hgroup
    refine hfreed.resettle hunclaimed ?_ ?_ <;> rw [hgroup]
    · exact ⟨hstack.depth, hstack.slot⟩
    · rfl
  · rename_i hphase
    simp only [decide_eq_true_eq, not_or] at hphase
    have hunclaimed := h.unclaimed g hphase.1 hphase.2
    refine hbut.soundFree ?_ fun p => by simpa using hunclaimed.owner p
    rw [Bridge.group_modifyGroup, if_pos rfl]
    refine ⟨hstack.depth, hstack.slot, nofun, ?_, fun hw => ?_⟩
    · rw [hstack.phase]
      simp [DriveGroup.inPlan, DriveGroup.isRunning, DriveGroup.isHeld, hrun]
    · rw [hunclaimed.waiting] at hw
      cases hw

theorem Bridge.RunsSound.resumePlan {b : Bridge} (h : b.RunsSound) {g : GroupIx}
    (hheld : (b.group g).runState = .held) : (b.modifyGroup g fun x => { x with runState := .running }).RunsSound := by
  have hstack := h.stacked g
  have hunclaimed := h.unclaimed_held hheld
  refine ((h.but g).modifyGroup _).soundFree ?_ fun p => by simpa using hunclaimed.owner p
  rw [Bridge.group_modifyGroup, if_pos rfl]
  refine .running rfl ?_ hstack.depth hstack.slot hunclaimed.waiting
  rw [hstack.phase]
  simp [DriveGroup.inPlan, DriveGroup.isRunning, DriveGroup.isHeld, hheld]

theorem Bridge.RunsSound.confirmPlan {b : Bridge} (h : b.RunsSound) {g : GroupIx}
    (hphase : (b.group g).phase = some .awaitConfirm) : (b.endStage g).RunsSound :=
  h.endStage g (h.unclaimed g (by simp [hphase]) (by simp [hphase]))

theorem Bridge.RunsSound.abortPlan {b : Bridge} (h : b.RunsSound) (g : GroupIx) : (b.abortPlan g).RunsSound := by
  -- Both branches leave a group without phase and frames, which then gives up its probe or its place.
  have hleft : ∀ c : Bridge, RunsBut g c → (c.group g).inPlan = false → (c.group g).phase = none →
      (c.group g).stack = [] → (c.group g).deferred = none → (c.releaseProbe g).RunsSound := by
    intro c hc hout hphase hstack hdeferred
    obtain ⟨hfreed, hunclaimed⟩ := hc.releaseProbe
    refine hfreed.soundFree ?_ hunclaimed.owner
    rw [(c.releaseProbe_group g).1]
    exact .outside hout hphase hstack hdeferred rfl
  unfold Bridge.abortPlan
  split
  · refine hleft _ ((h.but g).modifyGroup _) ?_ ?_ ?_ ?_ <;>
      simp [DriveGroup.inPlan, DriveGroup.isRunning, DriveGroup.isHeld]
  · refine hleft _ (((h.but g).append _).modifyGroup _) ?_ ?_ ?_ ?_ <;>
      simp [DriveGroup.toIdle, DriveGroup.inPlan, DriveGroup.isRunning, DriveGroup.isHeld]

theorem Bridge.RunsSound.planAbort {b : Bridge} (h : b.RunsSound) (g : GroupIx) : (b.planAbort g).RunsSound := by
  have hmoves : ∀ f : DriveGroup → DriveGroup, (b.group g).inPlan = false → (f (b.group g)).inPlan = false →
      (f (b.group g)).phase = (b.group g).phase ∨ (f (b.group g)).phase = none →
      (f (b.group g)).stack = [] → (f (b.group g)).deferred = none → (f (b.group g)).waiting = (b.group g).waiting →
      (b.modifyGroup g f).RunsSound := by
    intro f hout hout' hphase hstack hdeferred hwaiting
    have hunclaimed := h.unclaimed_outside hout
    have hnone := (h.stacked g).phase
    rw [hout, Option.isSome_eq_false_iff, Option.isNone_iff_eq_none] at hnone
    refine ((h.but g).modifyGroup f).soundFree ?_ fun p => by simpa using hunclaimed.owner p
    rw [Bridge.group_modifyGroup, if_pos rfl]
    exact .outside hout' (hphase.elim (·.trans hnone) id) hstack hdeferred (hwaiting.trans hunclaimed.waiting)
  unfold Bridge.planAbort
  split
  · exact h.abortPlan g
  · exact h.abortPlan g
  · rename_i hrun
    have hout : (b.group g).inPlan = false := by simp [DriveGroup.inPlan, DriveGroup.isRunning, DriveGroup.isHeld, hrun]
    have hempty := (h.stacked g).empty hout
    exact hmoves _ hout rfl (.inl rfl) hempty.1 hempty.2 rfl
  · rename_i hrun
    have hout : (b.group g).inPlan = false := by simp [DriveGroup.inPlan, DriveGroup.isRunning, DriveGroup.isHeld, hrun]
    exact hmoves _ hout rfl (.inr rfl) rfl rfl rfl
  · rename_i hrun
    have hout : (b.group g).inPlan = false := by simp [DriveGroup.inPlan, DriveGroup.isRunning, DriveGroup.isHeld, hrun]
    exact hmoves _ hout rfl (.inr rfl) rfl rfl rfl
  · exact h
  · exact h

theorem Bridge.startRefusal_unlocked {b : Bridge} {g : GroupIx} (h : b.startRefusal g = none) :
    (b.group g).unlocked = true := by
  by_contra hlocked
  rw [Bool.not_eq_true] at hlocked
  simp only [Bridge.startRefusal, hlocked, if_true] at h
  (repeat' split at h) <;> cases h

theorem DriveGroup.inPlan_of_unlocked {x : DriveGroup} (h : x.unlocked = true) : x.inPlan = false := by
  unfold DriveGroup.unlocked at h
  unfold DriveGroup.inPlan DriveGroup.isRunning DriveGroup.isHeld
  cases hr : x.runState <;> simp_all

/-! ## The answer to a challenge (R158) -/

theorem checkAnswer_inactive {b : Bridge} (h : b.check.state = .inactive) (tag : Byte) (a : BitVec 16) :
    checkAnswer tag a b = (.refused .wrongState [], b) := by
  simp [checkAnswer, h, refuse]

theorem checkAnswer_failed {b : Bridge} (h : b.check.state = .failed) (tag : Byte) (a : BitVec 16) :
    checkAnswer tag a b = (.refused (if b.check.reason = some .expiry then .late else .wrongState) [], b) := by
  cases hr : b.check.reason with
  | none => simp [checkAnswer, h, hr, refuse]
  | some r => cases r <;> simp [checkAnswer, h, hr, refuse]

theorem checkAnswer_right {b : Bridge} (h : b.check.state = .running) {a : BitVec 16}
    (ha : a = expectedAnswer b.check.challenge b.check.sequence) (tag : Byte) :
    checkAnswer tag a b =
      (.done (be16 b.check.advance.challenge ++ [b.check.advance.sequence]),
        { b with check := b.check.advance.restart (b.check.window.getD 0) }) := by
  simp [checkAnswer, h, ha, ConsoleCheck.restart]

theorem checkAnswer_wrong {b : Bridge} (h : b.check.state = .running) {a : BitVec 16}
    (ha : a ≠ expectedAnswer b.check.challenge b.check.sequence) (tag : Byte) :
    checkAnswer tag a b = (.refused .wrongAnswer [], b.failCheck .wrongAnswer (some tag)) := by
  simp [checkAnswer, h, ha]

theorem Bridge.RunsSound.checkAnswer {b : Bridge} (h : b.RunsSound) (tag : Byte) (a : BitVec 16) :
    (checkAnswer tag a b).2.RunsSound := by
  cases hs : b.check.state with
  | inactive => rw [checkAnswer_inactive hs]; exact h
  | failed => rw [checkAnswer_failed hs]; exact h
  | running =>
    by_cases ha : a = expectedAnswer b.check.challenge b.check.sequence
    · rw [checkAnswer_right hs ha]
      exact h.ofSame rfl rfl rfl
    · rw [checkAnswer_wrong hs ha]
      simp only
      exact h.failCheck .wrongAnswer (some tag)

/-! ## Every part -/

theorem runsKeep : PartsKeep Bridge.RunsSound where
  choices _ _ _ h := h.ofSame rfl rfl rfl
  number _ _ h := h.ofSame rfl rfl rfl
  tracker _ p n h := h.trackerStep p n
  boundary _ i p h := h.stationClose i p true
  masters b n slots h := by
    refine h.mapGroups _ ?_ ?_ ?_ ?_ ?_ <;> intro g x <;> split <;> rfl
  sent _ _ _ h := h.congr (fun g => by simp) fun p => by simp
  opened _ h := h.congr (fun g => by simp) fun p => by simp [Bridge.openCycle]
  formed _ _ h := h.mapGroups _ (fun _ _ => rfl) (fun _ _ => rfl) (fun _ _ => rfl) (fun _ _ => rfl) fun _ _ => rfl
  feedback _ a l h := h.takeFeedback a l
  loss _ h := h.cycleLoss
  deadline b h := by
    unfold Bridge.deadlineExpiry
    split
    · exact h.failCheck _ _
    · exact h
  time _ _ _ _ h _ := h.ofSame rfl rfl rfl
  fall b h := Bridge.RunsSound.bypassAll (b := { b with release := false }) (h.ofSame rfl rfl rfl) _
  rise _ h := h.ofSame rfl rfl rfl
  reset b c _ := .resetTo b c
  stw b o _ h := by
    unfold stationWrite
    simp only
    repeat' split
    iterate 4 exact h
    exact h.writeEntry _ _ _
  stc b i h := by
    unfold stationClear
    simp only
    repeat' split
    iterate 4 exact h
    have htreated : ({ b with treatments := b.treatments.set i none } : Bridge).RunsSound := h.ofSame rfl rfl rfl
    exact htreated.writeEntry i none true
  cnr b i h := by
    unfold conditionsRead
    split
    · exact h
    · exact h.ofSame rfl rfl rfl
  grw b o _ h := by
    unfold groupWrite
    split
    · exact h
    · have hrecord := h.setGroup o.group { b.group o.group with record := o.record } rfl rfl rfl rfl rfl
      exact hrecord.mapMembers _ _
  omw b m h := by
    have hmasked : ({ b with mask := m } : Bridge).RunsSound := h.ofSame rfl rfl rfl
    exact hmasked.foldl _ (fun _ g hc => hc.maskFault _ g) _
  sgw b o h := by
    unfold stageWrite
    split
    · exact h
    · exact h.ofSame rfl rfl rfl
  pls b t g h := by
    unfold planStart
    split
    · exact h
    · exact h.startPlan (DriveGroup.inPlan_of_unlocked (Bridge.startRefusal_unlocked ‹_›)) t
  plh b g h := by
    unfold planHold
    split
    · exact h.holdPlan (of_decide_eq_true ‹_›)
    · exact h
  plr b g h := by
    unfold planResume
    split
    · exact h
    · split
      · exact h
      · split
        · exact h.resumePlan (of_decide_eq_true ‹_›)
        · exact h
  plc b g h := by
    unfold planConfirm
    split
    · exact h
    · split
      · exact h
      · exact h.confirmPlan (not_not.mp ‹_›)
  pla _ g h := h.planAbort g
  gst _ g h :=
    h.modifyGroup g (fun x => { x with draw := x.draw.cleared, shareSuspended := x.shareSuspended.cleared })
      rfl rfl rfl rfl rfl
  pbs b t o h := by
    unfold probeStart
    split
    · exact h
    · split
      · exact h
      · exact h.setProbe _ _ (.inr nofun)
  pbc b p h := by
    unfold probeCancel
    split
    · exact h
    · split
      · exact h
      · exact (h.cancelRun p).probeFreed p
  pbr b p h := by
    unfold probeRead
    simp only
    split
    · exact h
    · exact (h.idleProbe p).probeFreed p
    · exact h
  cks b w h := by
    unfold checkStart
    split
    · exact h
    · exact h.ofSame rfl rfl rfl
  cka _ t a h := h.checkAnswer t a
  ckx b h := by
    unfold checkStop
    split
    · exact h.ofSame rfl rfl rfl
    · exact h
  tpc _ h := h.clearStageTrip
  evr _ _ h := h.ofSame rfl rfl rfl
  lkw _ _ h := h.ofSame rfl rfl rfl

end Sys2Proof.Machine

namespace Sys2Proof.Proofs

open Sys2Proof.Machine

/-- Settles O60. -/
theorem stepKeepsRuns : Obligations.StepKeepsRuns :=
  fun _ _ hs ht => runsKeep.step hs ht

end Sys2Proof.Proofs
end

section
/-! PROOFS. The step, the queues of the link and the Responder's admission (O1 to O8, O14). Every service is offered to
the Responder in one form; the empty queue's microsecond is the expiry of the timers that are due. -/

namespace Sys2Proof.Machine

/-! ## Commands that are Requests (R169, R170) -/

/-- What a Request leaves of the state whatever it asks for. -/
structure KeepsPins (s t : State) : Prop where
  pending : t.pending = s.pending
  strapA : t.strapA = s.strapA
  strapB : t.strapB = s.strapB

theorem KeepsPins.refl (s : State) : KeepsPins s s := ⟨rfl, rfl, rfl⟩

theorem KeepsPins.offer {s : State} {take : State → State} (h : KeepsPins s (take s)) :
    KeepsPins s (s.offer take) := by
  refine State.offer_induction (KeepsPins s) (.refl s) (fun _ => h) ?_
  exact ⟨rfl, rfl, rfl⟩

/-- Every well-formed Request is offered to the Responder, and what it does when taken leaves the queue and the pins. -/
theorem exec_request {c : Instr} {r : Byte × List Byte} (hc : c.request = some r) (hw : c.wellFormed = true)
    (s : State) : ∃ take, exec c s = .next (s.offer take) ∧ KeepsPins s (take s) := by
  cases c with
  | unknownService src body =>
    have hnone : (knownRequest src body).isSome = false := by
      simp only [Instr.wellFormed, Bool.and_eq_true, Option.isNone_iff_eq_none] at hw
      simp [hw.2]
    exact ⟨fun s => s.answer src (body.headD 0#8) (body.tail.headD 0#8) (refuse .unknownService),
      by simp [exec, execUnknownService, hnone, State.serve], ⟨rfl, rfl, rfl⟩⟩
  | brs src tag ops =>
    cases hd : decodeOperands readScope ops with
    | some scope => exact ⟨fun s => s.takeReset src tag scope, by simp [exec, execBrs, hd], ⟨rfl, rfl, rfl⟩⟩
    | none =>
      exact ⟨fun s => s.answer src tag 50#8 (refuse .badOperand), by simp [exec, execBrs, hd, State.serve],
        ⟨rfl, rfl, rfl⟩⟩
  | _ => cases hc <;> exact ⟨_, rfl, ⟨rfl, rfl, rfl⟩⟩

/-- A Request whose operands do not decode, once taken, is refused BAD_OPERAND and changes nothing (R170). -/
theorem State.serve_badOperand {α : Type} {s : State} (ht : s.takes = true) {read : Reader α} {ops : List Byte}
    (hd : decodeOperands read ops = none) (src tag code : Byte) (f : α → Service) :
    s.serve src tag code (withOperands read ops f) = s.replied src tag code (.refused .badOperand []) s.bridge := by
  rw [State.serve_of_takes ht, withOperands_none hd]
  rfl

/-- A Request whose operands decode, once taken, is answered by its service (R170, R171). -/
theorem State.serve_decoded {α : Type} {s : State} (ht : s.takes = true) {read : Reader α} {ops : List Byte} {a : α}
    (hd : decodeOperands read ops = some a) (src tag code : Byte) (f : α → Service) :
    s.serve src tag code (withOperands read ops f) = s.replied src tag code (f a s.bridge).1 (f a s.bridge).2 := by
  rw [State.serve_of_takes ht, withOperands_some hd]

/-- A number in a field takes exactly the field's bytes. -/
theorem decodeOperands_readNat_length {α : Type} {lo hi : Nat} {f : Nat → α} {ops : List Byte}
    (h : ops.length ≠ (fieldShape lo hi).width) :
    decodeOperands (do let v ← readNat lo hi; return f v) ops = none := by
  rw [Option.eq_none_iff_forall_ne_some]
  intro a ha
  rw [decodeOperands_some, Reader.bind_some] at ha
  obtain ⟨v, rest, hread, hpure⟩ := ha
  rw [Reader.pure_some] at hpure
  obtain ⟨-, rfl⟩ := Prod.mk.inj hpure
  unfold readNat at hread
  rw [Reader.bind_some] at hread
  obtain ⟨w, rest', hint, hpure⟩ := hread
  rw [Reader.pure_some] at hpure
  obtain ⟨-, rfl⟩ := Prod.mk.inj hpure
  unfold readInt at hint
  simp only [Option.ite_none_right_eq_some, Option.some.injEq, Prod.mk.injEq] at hint
  obtain ⟨⟨hlen, -⟩, -, hdrop⟩ := hint
  have hle := List.drop_eq_nil_iff.mp hdrop
  omega

theorem decodeOperands_readMask_length {ops : List Byte} (h : ops.length ≠ 4) : decodeOperands readMask ops = none :=
  decodeOperands_readNat_length h

theorem decodeOperands_readAnswer_length {ops : List Byte} (h : ops.length ≠ 2) :
    decodeOperands readAnswer ops = none :=
  decodeOperands_readNat_length h

theorem decodeOperands_readNothing_surplus {ops : List Byte} (h : ops ≠ []) : decodeOperands readNothing ops = none := by
  cases ops with
  | nil => exact absurd rfl h
  | cons => rfl

/-! ## Frames that are held, forwarded or in error (R1 to R4, R180) -/

theorem exec_arrives_held {c : Instr} {s : State} (hs : s.held = true) (hc : arrives c = true) : exec c s = .next s := by
  have hoffer := fun take => congrArg (Host.Outcome.next (φ := Fault) (ρ := Refusal)) (State.offer_of_held hs take)
  cases c with
  | cycleFrameArrival | feedbackFrameArrival | frameForwarded =>
    simp [exec, execCycleFrameArrival, execFeedbackFrameArrival, execFrameForwarded, hs]
  | frameError => simp [exec, execFrameError, hs]
  | frameDiscardedResetPending => rfl
  | unknownService src body =>
    simp only [exec, execUnknownService, State.serve, State.offer_of_held hs, ite_self]
  | brs src tag ops =>
    simp only [exec, execBrs]
    split <;> exact hoffer _
  | drivePortTransmissionEnd | linePortTransmissionEnd | cycleLossExpiry | checkDeadlineExpiry | releaseFall
  | releaseRise | pinResetAssert | pinResetRelease => cases hc
  | _ => exact hoffer _

theorem Frame.bodyPasses_other {f : Frame} (h1 : f.kind ≠ 1#8) (h2 : f.kind = 2#8 → f.body.length = 9) :
    f.bodyPasses = true := by
  unfold Frame.bodyPasses
  rw [if_neg h1]
  split
  · exact decide_eq_true (h2 ‹_›)
  · rfl

theorem exec_frameForwarded {port : Port} {f : Frame} {s : State} (hs : s.held = false) (hp : framePasses f = true)
    (ha : actedOn f s.address port = false) :
    exec (.frameForwarded port f) s = .next { s with link := s.link.forward f port } := by
  simp [exec, execFrameForwarded, hs, hp, ha, State.withLink]

/-! ## The line-port transmitter (R9, R10) -/

theorem Link.chooseLine_none {l : Link} (hf : l.forwardQueue = []) (ho : l.localQueue = []) :
    l.chooseLine = { l with lineTx := none } := by
  simp [Link.chooseLine, hf, ho]

theorem Link.chooseLine_forward {l : Link} {f : Frame} {rest : List Frame} (hf : l.forwardQueue = f :: rest)
    (ho : l.localQueue = [] ∨ l.lastTaken = .own) : l.chooseLine = l.takeForward f rest := by
  cases hq : l.localQueue with
  | nil => simp [Link.chooseLine, hf, hq]
  | cons o orest =>
    have hlast : l.lastTaken = .own := ho.resolve_left (by simp [hq])
    simp [Link.chooseLine, hf, hq, hlast]

theorem Link.chooseLine_own {l : Link} {o : LocalFrame} {rest : List LocalFrame} (ho : l.localQueue = o :: rest)
    (hf : l.forwardQueue = [] ∨ l.lastTaken = .forward) : l.chooseLine = l.takeOwn o rest := by
  cases hq : l.forwardQueue with
  | nil => simp [Link.chooseLine, ho, hq]
  | cons f frest =>
    have hlast : l.lastTaken = .forward := hf.resolve_left (by simp [hq])
    simp [Link.chooseLine, ho, hq, hlast]

/-- The choice leaves the drive port and the flags. -/
theorem Link.chooseLine_keeps (l : Link) :
    l.chooseLine = { l with
      forwardQueue := l.chooseLine.forwardQueue, localQueue := l.chooseLine.localQueue
      lineTx := l.chooseLine.lineTx, lastTaken := l.chooseLine.lastTaken } := by
  unfold Link.chooseLine
  split
  · rfl
  · rfl
  · rfl
  · split <;> rfl

/-- What the end of a transmission makes of a flag (R10). -/
def flagAfter (x : Sending) (f : PortFlag) : PortFlag :=
  match x with
  | .own (.status _) => if f.marked = true then ⟨false, false⟩ else f
  | _ => f

theorem Link.lineEnd_eq {l : Link} {x : Sending} (h : l.lineTx = some x) :
    l.lineEnd = (l.mapFlags (flagAfter x)).chooseLine := by
  unfold Link.lineEnd
  rw [h]
  cases x with
  | forwarded f => rfl
  | own f => cases f <;> rfl

theorem exec_linePortTransmissionEnd {s : State} {x : Sending} (h : s.link.lineTx = some x)
    (hreset : ∀ f, x = .own (.brsReply f) → s.resetPending = none) :
    exec .linePortTransmissionEnd s = .next { s with link := (s.link.mapFlags (flagAfter x)).chooseLine } := by
  rw [← Link.lineEnd_eq h]
  simp only [exec, execLinePortTransmissionEnd, h]
  split
  · rename_i f scope hx hpending
    rw [hreset f (Option.some.inj hx)] at hpending
    cases hpending
  · rfl

/-! ## The microsecond (assumption log 4) -/

theorem Bridge.loseSync_timeBase (b : Bridge) : b.loseSync.timeBase = b.timeBase := by
  unfold Bridge.loseSync
  rw [(FaultWork.bypassAll _ _).timeBase, Bridge.post, Bridge.append_timeBase]

theorem Bridge.cycleLoss_timeBase (b : Bridge) : b.cycleLoss.timeBase = b.timeBase := by
  unfold Bridge.cycleLoss
  split
  · simp only
    split
    · rw [Bridge.loseSync_timeBase]
    · rfl
  · rfl

theorem Bridge.failCheck_timeBase (b : Bridge) (r : FailureReason) (t : Option Byte) :
    (b.failCheck r t).timeBase = b.timeBase := by
  unfold Bridge.failCheck
  simp only
  rw [(FaultWork.bypassAll _ _).timeBase, Bridge.post, (Bridge.sendConsole_eq _ _).1]

theorem Bridge.expire_timeBase (a : TimerAct) (b : Bridge) : (b.expire a).timeBase = b.timeBase := by
  cases a with
  | loss => exact b.cycleLoss_timeBase
  | deadline =>
    show b.deadlineExpiry.timeBase = _
    unfold Bridge.deadlineExpiry
    split
    · exact b.failCheck_timeBase _ _
    · rfl

/-- The bridge one microsecond on, before the timers that are due expire. -/
def Bridge.ticked (b : Bridge) : Bridge :=
  { b with
    timeBase := b.timeBase + 1#32
    tracker := { b.tracker with timer := b.tracker.timer.tick }
    check := { b.check with deadline := b.check.deadline.map (· - 1) } }

theorem Bridge.microsecond_timeBase (b : Bridge) : b.microsecond.timeBase = b.timeBase + 1#32 := by
  refine inFreeOrder_induction (fun c : Bridge => c.timeBase = b.timeBase + 1#32) _ _ _ (fun n c hc => ?_)
    (fun a c hc => (c.expire_timeBase a).trans hc) _ _ _ rfl
  rw [c.choose_eq]
  exact hc

theorem Bridge.microsecond_none {b : Bridge} (h : b.ticked.dueTimers = []) : b.microsecond = b.ticked := by
  show inFreeOrder _ _ _ b.ticked.dueTimers.length b.ticked.dueTimers b.ticked = _
  rw [h]
  rfl

theorem Bridge.microsecond_one {b : Bridge} {a : TimerAct} (h : b.ticked.dueTimers = [a]) :
    b.microsecond = b.ticked.expire a := by
  show inFreeOrder _ _ _ b.ticked.dueTimers.length b.ticked.dueTimers b.ticked = _
  rw [h]
  simp [inFreeOrder, Bridge.choose]

theorem step_of_empty {s : State} (h : s.pending = []) : step s = .next s.tick := by
  simp [step, h]

/-! ## The state after reset (R17, R33, R71, R86, R99, R128, R154, R167, R184) -/

theorem Link.reset_atReset : Link.reset.AtReset := ⟨rfl, rfl, rfl, rfl, rfl, rfl, rfl, rfl, rfl, rfl, rfl, rfl⟩

theorem DriveGroup.fresh_atReset (r : GroupRecord) : (DriveGroup.fresh r).RuntimeAtReset := by
  constructor <;> rfl

theorem Probe.reset_atReset : Probe.reset.AtReset := ⟨rfl, rfl, rfl, rfl, rfl, rfl⟩

theorem Bridge.resetTo_atReset (b : Bridge) (c : Scope) : (b.resetTo c).RuntimeAtReset where
  tracker := by cases c <;> rfl
  treatments i := by cases c <;> simp [Bridge.resetTo, Bridge.resetKept, Bridge.resetFull, Bridge.reset]
  groups g := by
    obtain ⟨r, hr, -⟩ := b.resetTo_group c g
    rw [hr]
    exact DriveGroup.fresh_atReset r
  probes p := by
    rw [Bridge.resetTo_probe]
    exact Probe.reset_atReset
  check := b.resetTo_check c
  trip := by cases c <;> rfl
  events := by cases c <;> rfl
  eventsLost := by cases c <;> rfl
  timeBase := by cases c <;> rfl

theorem Bridge.resetFull_atFullReset (b : Bridge) : b.resetFull.AtFullReset where
  toRuntimeAtReset := b.resetTo_atReset .full
  stations := b.resetFull_station
  mask := rfl
  records g := by
    rw [Bridge.resetFull_group]
    rfl
  store i := by simp [Bridge.resetFull, Bridge.reset, StageRecord.empty]

theorem Bridge.resetKept_atKeptReset (b : Bridge) : b.AtKeptReset b.resetKept where
  toRuntimeAtReset := b.resetTo_atReset .tablesKept
  stations := b.resetKept_station
  mask := rfl
  records g := by
    rw [Bridge.resetKept_group]
    rfl
  store := rfl

theorem Bridge.reset_eq : Bridge.reset = Bridge.reset.resetFull := rfl

theorem Bridge.reset_station (i : StationIx) : Bridge.reset.station i = none := Bridge.reset.resetFull_station i

theorem Bridge.reset_members (g : GroupIx) : Bridge.reset.members g = [] := by
  rw [Bridge.members, List.filter_eq_nil_iff]
  intro i _
  simp [Bridge.isMember, Bridge.reset_station]

theorem Bridge.reset_counters : Bridge.reset.CountersSound := by
  refine ⟨fun i st h => ?_, fun g => ?_⟩
  · rw [Bridge.reset_station] at h
    cases h
  · rw [Bridge.reset_eq, Bridge.resetFull_group]
    exact ⟨by decide, by decide, by decide, by decide⟩

theorem Bridge.reset_trip : Bridge.reset.TripSound := by
  refine ⟨nofun, fun _ => rfl, by simp [Bridge.reset, ConsoleCheck.reset], by simp [Bridge.reset, ConsoleCheck.reset],
    fun i st h => ?_⟩
  rw [Bridge.reset_station] at h
  cases h

theorem Bridge.reset_tables : Bridge.reset.AllSound := by
  refine ⟨⟨fun i j x y h => ?_, fun g => ?_⟩, fun i st g h => ?_, fun p => ?_, fun i st h => ?_⟩
  · rw [Bridge.reset_station] at h
    cases h
  · rw [Bridge.reset_members]
    exact Nat.zero_le _
  · rw [Bridge.reset_station] at h
    cases h
  · rw [Bridge.reset_eq]
    show ((Bridge.reset.resetTo .full).probe p).Sound
    rw [Bridge.resetTo_probe]
    exact ⟨⟨fun _ => rfl, fun _ => rfl⟩, (absurd rfl ·)⟩
  · rw [Bridge.reset_station] at h
    cases h

theorem Bridge.reset_runs : Bridge.reset.RunsSound := .resetTo Bridge.reset .full

/-! ## Feedback Frames (R21 to R25) -/

theorem Bridge.feedbackTag_of_binds {b : Bridge} (h : b.TableSound) {src : Byte} {i : StationIx} {st : Station}
    (hb : b.Binds src i st) : b.feedbackTag src = st.run.validity.tag := by
  rw [Bridge.feedbackTag, Bridge.boundTo_eq h hb, Option.bind_some, hb.1]

theorem Bridge.feedbackTag_unbound {b : Bridge} {src : Byte} (h : ∀ i st, ¬b.Binds src i st) :
    b.feedbackTag src = 4#8 := by
  rw [Bridge.feedbackTag, Bridge.boundTo_none h]
  rfl

theorem Bridge.takeFeedback_unbound {b : Bridge} {src : Byte} (h : ∀ i st, ¬b.Binds src i st) (l : Latch) :
    b.takeFeedback src l = b := by
  rw [Bridge.takeFeedback, Bridge.boundTo_none h]

theorem exec_feedbackFrameArrival {s : State} (hs : s.held = false) (dst src : Byte) (n : CycleNo) (speed : BitVec 24)
    (torque : BitVec 16) (status tag : Byte) :
    exec (.feedbackFrameArrival dst src n speed torque status tag) s =
      .next { s with
        link := s.link.sendUp (feedbackFrame dst src n speed torque status (s.bridge.feedbackTag src))
        bridge := s.bridge.takeFeedback src (feedbackLatch n speed torque status) } := by
  simp [exec, execFeedbackFrameArrival, hs]

end Sys2Proof.Machine

namespace Sys2Proof.Proofs

open Sys2Proof.Machine

/-- Settles O1. -/
theorem stepRunsFrontCommand : Obligations.StepRunsFrontCommand := fun _ _ => rfl

/-- Settles O2: the timers that are due decide what the microsecond does. -/
theorem emptyQueueStepIsAMicrosecond : Obligations.EmptyQueueStepIsAMicrosecond := by
  intro s hempty
  rw [step_of_empty hempty]
  refine ⟨fun hreset => by simp [State.tick, hreset], fun hrun => ?_⟩
  have htick : s.tick = s.withBridge s.bridge.microsecond := by simp [State.tick, hrun]
  rw [htick]
  intro b loss due
  have hb : b = s.bridge.ticked := by
    show Bridge.mk .. = Bridge.mk ..
    unfold CycleTimer.tick
    rfl
  clear_value b
  subst hb
  refine ⟨⟨_, rfl, s.bridge.microsecond_timeBase⟩, fun hloss hdue => ?_, fun hloss hdue => ?_, fun hloss hdue => ?_⟩
  · rw [Bridge.microsecond_none (by rw [Bridge.dueTimers, if_neg hloss, if_neg hdue]; rfl)]
    rfl
  · rw [Bridge.microsecond_one (a := .loss) (by rw [Bridge.dueTimers, if_pos hloss, if_neg hdue]; rfl)]
    rfl
  · rw [Bridge.microsecond_one (a := .deadline) (by rw [Bridge.dueTimers, if_neg hloss, if_pos hdue]; rfl)]
    rfl

/-- Settles O3: a Request keeps the queue and the pins whether it is taken or not, and no other command touches them. -/
theorem everyCommandCompletes : Obligations.EveryCommandCompletes := by
  intro c s
  suffices h : ∃ t, exec c s = .next t ∧ KeepsPins s t by
    obtain ⟨t, ht, hpending, hA, hB⟩ := h
    exact ⟨t, ht, hpending, hA, hB⟩
  cases c with
  | cycleFrameArrival dst src n slots =>
    refine ⟨_, rfl, ?_⟩
    split
    · exact .refl s
    · split <;> exact ⟨rfl, rfl, rfl⟩
  | feedbackFrameArrival dst src n speed torque status tag =>
    refine ⟨_, rfl, ?_⟩
    split
    · exact .refl s
    · exact ⟨rfl, rfl, rfl⟩
  | frameForwarded port f =>
    refine ⟨_, rfl, ?_⟩
    (repeat' split) <;> exact ⟨rfl, rfl, rfl⟩
  | frameError port received =>
    refine ⟨_, rfl, ?_⟩
    split <;> exact ⟨rfl, rfl, rfl⟩
  | linePortTransmissionEnd =>
    refine ⟨_, rfl, ?_⟩
    split <;> exact ⟨rfl, rfl, rfl⟩
  | releaseFall =>
    refine ⟨_, rfl, ?_⟩
    split
    · constructor <;> simp only [State.withBridge_pending, State.withBridge_strapA, State.withBridge_strapB]
    · exact .refl s
  | pinResetAssert =>
    refine ⟨_, rfl, ?_⟩
    split <;> exact ⟨rfl, rfl, rfl⟩
  | pinResetRelease =>
    refine ⟨_, rfl, ?_⟩
    split <;> exact ⟨rfl, rfl, rfl⟩
  | unknownService =>
    simp only [exec, execUnknownService, Host.Outcome.next.injEq, exists_eq_left']
    split
    · exact .refl s
    · exact .offer ⟨rfl, rfl, rfl⟩
  | brs =>
    simp only [exec, execBrs, Host.Outcome.next.injEq, exists_eq_left']
    split <;> exact .offer ⟨rfl, rfl, rfl⟩
  | frameDiscardedResetPending => exact ⟨s, rfl, .refl s⟩
  | drivePortTransmissionEnd | cycleLossExpiry | checkDeadlineExpiry | releaseRise => exact ⟨_, rfl, ⟨rfl, rfl, rfl⟩⟩
  | _ => exact ⟨_, rfl, .offer ⟨rfl, rfl, rfl⟩⟩

/-- Settles O4: the reset state is its own FULL reset; it binds no station, so that the invariants of entries are empty. -/
theorem resetStateHasTheResetValues : Obligations.ResetStateHasTheResetValues := by
  obtain ⟨htable, htrims, hprobes, hmarks⟩ := Bridge.reset_tables
  exact ⟨⟨rfl, rfl, rfl, rfl, Link.reset_atReset, Bridge.reset.resetFull_atFullReset⟩,
    ⟨Link.Sound.reset, Nat.zero_le _⟩, Bridge.reset_counters, Bridge.reset_trip, htable, htrims, hprobes, hmarks,
    Bridge.reset_runs⟩

/-- Settles O5. -/
theorem forwardedFrames : Obligations.ForwardedFrames := by
  refine ⟨fun f s hheld hlen hkind hrequest hfeedback => ?_, fun f s htx hq => ?_, fun f g rest s htx hq => ?_,
    fun f s hheld hsound hlen hkind hcycle => ?_⟩
  · have hpass : framePasses f = true := by
      simp [framePasses, hlen, Frame.bodyPasses_other hkind hfeedback]
    have hother : actedOn f s.address .line = false := by
      simpa only [actedOn, decide_eq_false_iff_not, not_or] using ⟨hkind, hrequest⟩
    rw [exec_frameForwarded hheld hpass hother, Link.forward, Link.sendDown_eq]
  · simp [exec, execDrivePortTransmissionEnd, Link.driveEnd, htx, hq, State.withLink]
  · simp [exec, execDrivePortTransmissionEnd, Link.driveEnd, htx, hq, State.withLink]
  · have hpass : framePasses f = true := by
      by_cases h1 : f.kind = 1#8
      · simp [framePasses, hlen, hcycle h1]
      · simp [framePasses, hlen, Frame.bodyPasses_other h1 fun h2 => absurd h2 hkind]
    have hother : actedOn f s.address .drive = false := decide_eq_false hkind
    rw [exec_frameForwarded hheld hpass hother, Link.forward, Link.sendUp_eq hsound]

/-- Settles O6: the end of a transmission is its flags' change and the choice between the queues (R9, R10). -/
theorem lineTransmitterAndReplies : Obligations.LineTransmitterAndReplies := by
  refine ⟨fun x s htx hreset => ⟨_, exec_linePortTransmissionEnd htx hreset, rfl, ?_⟩,
    fun src tag code a b s hsound => ?_⟩
  · have hkeeps := (s.link.mapFlags (flagAfter x)).chooseLine_keeps
    refine ⟨by rw [hkeeps]; rfl, by rw [hkeeps]; rfl, ?_, fun hf ho => ?_, fun f rest hf ho => ?_, fun o rest ho hf => ?_⟩
    · simp only
      rw [hkeeps]
      exact ⟨rfl, rfl, rfl, rfl, rfl, rfl⟩
    · rw [Link.chooseLine_none (l := s.link.mapFlags _) hf ho]
      exact ⟨rfl, rfl, hf, ho⟩
    · rw [Link.chooseLine_forward (l := s.link.mapFlags _) hf ho]
      exact ⟨rfl, rfl, rfl, rfl⟩
    · rw [Link.chooseLine_own (l := s.link.mapFlags _) ho hf]
      exact ⟨rfl, rfl, rfl, rfl⟩
  · intro fields f
    have hframe : replyFrame s.address src tag code a = f := by
      rw [replyFrame, Answer.bytes_eq]
      rfl
    rw [State.replied, hframe, Link.sendReply_eq hsound]

/-- Settles O7. -/
theorem discardedFrames : Obligations.DiscardedFrames := by
  refine ⟨fun received s hheld hnone => ?_, fun c s hheld harrives => exec_arrives_held hheld harrives,
    fun port received s => rfl⟩
  simp [exec, execFrameError, hheld, hnone, Link.latchError, PortFlag.latch, State.withLink]

/-- Settles O8: four waiting Replies turn every Request away; a taken one without its operands is refused BAD_OPERAND. -/
theorem requestAdmission : Obligations.RequestAdmission := by
  refine ⟨fun c src body s hw hc hheld hfull => ?_, fun src body s ht hnone => ?_, fun src tag ops s ht => ?_⟩
  · obtain hc | rfl := hc
    · obtain ⟨take, hexec, -⟩ := exec_request hc hw s
      rw [hexec, State.offer_of_full hheld hfull]
    · exact congrArg Host.Outcome.next (State.offer_of_full hheld hfull _)
  · simp only [exec, execUnknownService, hnone, Option.isSome_none, Bool.false_eq_true, if_false,
      State.serve_of_takes ht]
    rfl
  · have hbad : ∀ {α : Type} {read : Reader α} (f : α → Service) (code : Byte), decodeOperands read ops = none →
        (Host.Outcome.next (s.serve src tag code (withOperands read ops f)) : Host.Outcome State Fault Refusal) =
          .next (s.replied src tag code (.refused .badOperand []) s.bridge) :=
      fun f code hd => congrArg Host.Outcome.next (State.serve_badOperand ht hd src tag code f)
    refine ⟨hbad _ _, fun hd => ⟨hbad _ _ hd, hbad _ _ hd, hbad _ _ hd⟩, hbad _ _,
      fun hd => ⟨hbad _ _ hd, hbad _ _ hd, hbad _ _ hd, hbad _ _ hd, hbad _ _ hd, hbad _ _ hd, hbad _ _ hd⟩, hbad _ _,
      hbad _ _, fun hlen => hbad _ _ (decodeOperands_readMask_length hlen), hbad _ _,
      fun hd => ⟨hbad _ _ hd, hbad _ _ hd⟩, hbad _ _, fun hlen => hbad _ _ (decodeOperands_readAnswer_length hlen),
      fun hne => ?_, hbad _ _, hbad _ _, fun hd => ?_⟩
    · have hd := decodeOperands_readNothing_surplus hne
      exact ⟨hbad _ _ hd, hbad _ _ hd, hbad _ _ hd, hbad _ _ hd⟩
    · simp only [exec, execBrs, hd, State.serve_of_takes ht]
      rfl

/-- Settles O14: the tag is the state before the arrival, and a frame that does not close its station leaves the rest. -/
theorem feedbackIsTaggedAndForwarded : Obligations.FeedbackIsTaggedAndForwarded := by
  intro dst src n speed torque status tag s hheld htable
  refine ⟨_, s.bridge.feedbackTag src, exec_feedbackFrameArrival hheld .., rfl, fun i st hb => ?_, fun hunbound => ?_,
    fun hsound => ?_, fun i st hb => ?_⟩
  · rw [Bridge.feedbackTag_of_binds htable hb]
    rfl
  · exact ⟨Bridge.feedbackTag_unbound hunbound, Bridge.takeFeedback_unbound hunbound _⟩
  · rw [Link.sendUp_eq hsound]
  · simp only
    rw [Bridge.takeFeedback_eq htable hb]
    refine ⟨fun hlate => ?_, fun hcurrent hmark => ?_, fun hcurrent hmark => ?_⟩
    · simp [feedbackLatch, StationRun.feedback, hlate, Bridge.setStation]
    · simp [feedbackLatch, StationRun.feedback, driveStatus, hcurrent, hmark, Bridge.setStation]
    · simp [feedbackLatch, StationRun.feedback, driveStatus, hcurrent, hmark, Bridge.setStation]

end Sys2Proof.Proofs
end

section
/-! PROOFS. The timers, the RELEASE input, the check's answer and the trip clear (O27, O28, O48, O50). A bypass cause
follows the events of its own unit; the check's failure is one lemma for its two reasons. -/

namespace Sys2Proof.Machine

/-! ## Outcomes by their bridge

Stated for any bridge, so that comparing two states never looks into the bridge. -/

theorem State.withBridge_eta (s : State) (b : Bridge) :
    s.withBridge b = { s with bridge := (s.withBridge b).bridge } := rfl

theorem State.replied_eta (s : State) (src tag code : Byte) (a : Answer) (b : Bridge) :
    s.replied src tag code a b = s.replied src tag code a (s.replied src tag code a b).bridge := rfl

theorem exec_cycleLossExpiry (s : State) : exec .cycleLossExpiry s = .next (s.withBridge s.bridge.cycleLoss) := rfl

theorem exec_checkDeadlineExpiry (s : State) :
    exec .checkDeadlineExpiry s = .next (s.withBridge s.bridge.deadlineExpiry) := rfl

/-! ## Trip causes (R165, R166) -/

theorem TripSet.isOpen_iff (t : TripSet) : t.isOpen = false ↔ t = ⟨false, false, false⟩ := by
  obtain ⟨console, runaway, stage⟩ := t
  simp [TripSet.isOpen, and_assoc]

/-- A cause that enters an empty set posts TRIP_OPENED (R165). -/
theorem Bridge.sendTrip_posted (b : Bridge) (c : Cause) (h : b.events.length ≤ 64) :
    Posted b (b.sendTrip c)
      (if b.trip = ⟨false, false, false⟩ then
        [⟨.tripOpened, b.tracker.cycle, none, none, none, none, some c⟩] else []) := by
  unfold Bridge.sendTrip
  cases hopen : b.trip.isOpen with
  | true =>
    have hne : b.trip ≠ ⟨false, false, false⟩ := fun e => by
      rw [(TripSet.isOpen_iff _).mpr e] at hopen
      cases hopen
    rw [if_neg hne]
    exact (Posted.refl b h).congr rfl rfl rfl rfl
  | false =>
    rw [if_pos ((TripSet.isOpen_iff _).mp hopen)]
    exact (Posted.append b _ h).congr rfl rfl rfl rfl

theorem Bridge.clearStageTrip_spec (b : Bridge) (h : b.events.length ≤ 64) :
    b.clearStageTrip =
        { b with
          trip := { b.trip with stage := false }
          events := b.clearStageTrip.events, eventsLost := b.clearStageTrip.eventsLost } ∧
      Posted b b.clearStageTrip
        (if b.trip = ⟨false, false, true⟩ then
          [⟨.tripClosed, b.tracker.cycle, none, none, none, none, none⟩] else []) := by
  obtain ⟨console, runaway, stage, ht⟩ : ∃ c r g, b.trip = ⟨c, r, g⟩ := ⟨_, _, _, rfl⟩
  rw [ht]
  have hrefl := Posted.refl b h
  unfold Bridge.clearStageTrip
  cases stage with
  | false =>
    refine ⟨?_, ?_⟩
    · rw [if_neg (by simp [ht]), ← ht]
    · rw [if_neg (by simp [ht]), if_neg (by simp)]
      exact hrefl
  | true =>
    rw [if_pos (by simp [ht])]
    cases hopen : TripSet.isOpen ⟨console, runaway, false⟩ with
    | true =>
      have hne : ¬(⟨console, runaway, true⟩ : TripSet) = ⟨false, false, true⟩ := fun e => by
        injection e with e1 e2
        simp [TripSet.isOpen, e1, e2] at hopen
      simp only [hopen, if_true, ht, if_neg hne]
      exact ⟨trivial, hrefl.congr rfl rfl rfl rfl⟩
    | false =>
      have heq : (⟨console, runaway, true⟩ : TripSet) = ⟨false, false, true⟩ := by
        have hempty := (TripSet.isOpen_iff _).mp hopen
        injection hempty with e1 e2
        rw [e1, e2]
      simp only [hopen, Bool.false_eq_true, if_false, ht, if_pos heq]
      refine ⟨?_, (Posted.append b _ h).congr rfl rfl rfl rfl⟩
      conv_lhs => rw [Bridge.post, Bridge.append_eq]
      rfl

/-! ## A bypass cause after other events (R125) -/

/-- What a bypass cause does to a bridge that has posted `es` and changed no group. -/
theorem Bridge.bypassAll_after {b c : Bridge} {es : List Event} (hp : Posted b c es)
    (hg : ∀ g, c.group g = b.group g) (ht : c.tracker.cycle = b.tracker.cycle) (cause : Cause) :
    (∀ g, Bypassed cause (b.group g) ((c.bypassAll cause).group g)) ∧
      Posted b (c.bypassAll cause)
        (es ++ ((List.finRange 8).filter fun g => (b.group g).active).map fun g =>
          ⟨.groupFault, b.tracker.cycle, some g, none, (b.group g).stage, (b.group g).planTag, some cause⟩) := by
  obtain ⟨hbypassed, hposted⟩ := c.bypassAll_spec cause hp.length
  simp only [hg, ht] at hbypassed hposted
  exact ⟨hbypassed, hp.trans hposted⟩

/-! ## Loss of sync and the check's failure (R16, R160) -/

/-- The bridge of `loseSync` before its bypass. -/
def Bridge.unsynced (b : Bridge) : Bridge :=
  { b with tracker := { b.tracker with sync := .unsynced, runCount := 0 } }.post .linkLost

theorem Bridge.loseSync_eq (b : Bridge) : b.loseSync = b.unsynced.bypassAll .link := rfl

theorem Bridge.unsynced_posted {b : Bridge} (h : b.events.length ≤ 64) :
    Posted b b.unsynced [⟨.linkLost, b.tracker.cycle, none, none, none, none, none⟩] :=
  Posted.congr (Posted.append { b with tracker := { b.tracker with sync := .unsynced, runCount := 0 } } _ h)
    rfl rfl rfl rfl

theorem Bridge.RunsSound.unsynced {b : Bridge} (h : b.RunsSound) : b.unsynced.RunsSound := by
  have hlost : ({ b with tracker := { b.tracker with sync := .unsynced, runCount := 0 } } : Bridge).RunsSound :=
    h.ofSame rfl rfl rfl
  exact hlost.post _

/-- The cause that CHECK_FAILED carries (R159, R160). -/
def FailureReason.cause : FailureReason → Cause
  | .expiry => .expiry
  | .wrongAnswer => .wrongAnswer

/-- The bridge of `failCheck` before its bypass. -/
def Bridge.checkFailed (b : Bridge) (r : FailureReason) (tag : Option Byte) : Bridge :=
  (({ b with check := { b.check with state := .failed, deadline := none, reason := some r } }).post .checkFailed
    (tag := tag) (cause := some r.cause)).sendTrip .console

theorem Bridge.failCheck_eq (b : Bridge) (r : FailureReason) (tag : Option Byte) :
    b.failCheck r tag = (b.checkFailed r tag).bypassAll .console := by
  cases r <;> rfl

theorem Bridge.checkFailed_eq (b : Bridge) (r : FailureReason) (tag : Option Byte) :
    b.checkFailed r tag =
      { b with
        check := { b.check with state := .failed, deadline := none, reason := some r }
        trip := { b.trip with console := true }
        events := (b.checkFailed r tag).events, eventsLost := (b.checkFailed r tag).eventsLost } :=
  (Bridge.sendConsole_eq { b with check := { b.check with state := .failed, deadline := none, reason := some r } }
    ⟨.checkFailed, b.tracker.cycle, none, none, none, tag, some r.cause⟩).1

theorem Bridge.checkFailed_posted {b : Bridge} (h : b.events.length ≤ 64) (r : FailureReason) (tag : Option Byte) :
    Posted b (b.checkFailed r tag)
      (⟨.checkFailed, b.tracker.cycle, none, none, none, tag, some r.cause⟩ ::
        (if b.trip = ⟨false, false, false⟩ then
          [⟨.tripOpened, b.tracker.cycle, none, none, none, none, some .console⟩] else [])) := by
  have hfailed := Posted.append { b with check := { b.check with state := .failed, deadline := none, reason := some r } }
    ⟨.checkFailed, b.tracker.cycle, none, none, none, tag, some r.cause⟩ h
  have htrip := Bridge.sendTrip_posted _ .console hfailed.length
  rw [Bridge.append_trip, Bridge.append_tracker] at htrip
  exact (hfailed.trans htrip).congr rfl rfl rfl rfl

theorem Bridge.RunsSound.checkFailed {b : Bridge} (h : b.RunsSound) (r : FailureReason) (tag : Option Byte) :
    (b.checkFailed r tag).RunsSound := by
  rw [Bridge.checkFailed_eq]
  exact h.ofSame rfl rfl rfl

/-- What the failure of the check does (R160): the check, CONSOLE, its events, and the bypass of every group. -/
theorem Bridge.failCheck_spec {b : Bridge} (h : b.events.length ≤ 64) (r : FailureReason) (tag : Option Byte) :
    let c := b.failCheck r tag
    c.check = { b.check with state := .failed, deadline := none, reason := some r } ∧
      c.trip = { b.trip with console := true } ∧
      (∀ g, Bypassed .console (b.group g) (c.group g)) ∧
      (b.RunsSound → ∀ p g, (c.probe p).owner ≠ some (.group g)) ∧
      Posted b c
        (⟨.checkFailed, b.tracker.cycle, none, none, none, tag, some r.cause⟩ ::
          (if b.trip = ⟨false, false, false⟩ then
            [⟨.tripOpened, b.tracker.cycle, none, none, none, none, some .console⟩] else []) ++
          ((List.finRange 8).filter fun g => (b.group g).active).map fun g =>
            ⟨.groupFault, b.tracker.cycle, some g, none, (b.group g).stage, (b.group g).planTag, some .console⟩) ∧
      c.stations = b.stations ∧ c.mask = b.mask ∧ c.store = b.store ∧ c.tracker = b.tracker ∧
      c.release = b.release := by
  simp only [Bridge.failCheck_eq]
  have hfailed := b.checkFailed_eq r tag
  have hposted := Bridge.checkFailed_posted h r tag
  have hwork := FaultWork.bypassAll (b.checkFailed r tag) .console
  obtain ⟨hbypassed, hevents⟩ := Bridge.bypassAll_after hposted (fun g => by rw [hfailed]; rfl) (by rw [hfailed]) .console
  refine ⟨?_, ?_, hbypassed, fun hruns => (hruns.checkFailed r tag).bypassAll_owner .console hposted.length, hevents,
    ?_, ?_, ?_, ?_, ?_⟩
  · rw [hwork.check, hfailed]
  · rw [hwork.trip, hfailed]
  · rw [hwork.stations, hfailed]
  · rw [hwork.mask, hfailed]
  · rw [hwork.store, hfailed]
  · rw [hwork.tracker, hfailed]
  · rw [hwork.release, hfailed]

/-! ## The check's answer (R156, R158) -/

theorem decodeOperands_readAnswer (hi lo : Byte) : decodeOperands readAnswer [hi, lo] = some (hi ++ lo) := by
  have hword := decodeOperands_readNat_word (lo := 0) (hi := 65535) (by omega) (by omega) hi lo
  rw [natOfBytes_pair, if_pos (by omega), decodeOperands_some] at hword
  rw [decodeOperands_some, readAnswer, Reader.bind_of hword, Reader.pure_of]
  congr 2
  apply BitVec.eq_of_toNat_eq
  rw [BitVec.toNat_append, BitVec.toNat_ofNat, Nat.shiftLeft_eq, ← Nat.shiftLeft_eq,
    ← Nat.shiftLeft_add_eq_or_of_lt lo.isLt, Nat.shiftLeft_eq]
  omega

theorem expectedAnswer_eq (c : BitVec 16) (q : BitVec 8) :
    expectedAnswer c q = BitVec.ofNat 16 (3 * c.toNat + q.toNat) := by
  apply BitVec.eq_of_toNat_eq
  simp [expectedAnswer, BitVec.toNat_add, BitVec.toNat_mul]

theorem ConsoleCheck.advance_eq (k : ConsoleCheck) :
    k.advance = { k with
      challenge := BitVec.ofNat 16 (5 * k.challenge.toNat + 3)
      sequence := BitVec.ofNat 8 (k.sequence.toNat + 1) } := by
  have hc : 5#16 * k.challenge + 3#16 = BitVec.ofNat 16 (5 * k.challenge.toNat + 3) := by
    apply BitVec.eq_of_toNat_eq
    simp [BitVec.toNat_add, BitVec.toNat_mul]
  have hq : k.sequence + 1#8 = BitVec.ofNat 8 (k.sequence.toNat + 1) := by
    apply BitVec.eq_of_toNat_eq
    simp [BitVec.toNat_add]
  rw [ConsoleCheck.advance, hc, hq]

theorem exec_cka_of_takes {s : State} (ht : s.takes = true) (src tag hi lo : Byte) :
    exec (.cka src tag [hi, lo]) s =
      .next (s.replied src tag 33#8 (checkAnswer tag (hi ++ lo) s.bridge).1 (checkAnswer tag (hi ++ lo) s.bridge).2) :=
  congrArg Host.Outcome.next (State.serve_decoded ht (decodeOperands_readAnswer hi lo) src tag 33#8 _)

end Sys2Proof.Machine

namespace Sys2Proof.Proofs

open Sys2Proof.Machine

/-- Settles O27: a timer that runs expires; the loss of sync and the check's failure bypass the groups after their own
events. -/
theorem timersExpire : Obligations.TimersExpire := by
  refine ⟨fun left s hleft hevents => ?_, fun left s hrunning hdeadline hevents => ?_⟩
  · have htimer : s.bridge.tracker.timer.isRunning = true := by rw [hleft]; rfl
    intro expired
    let b : Bridge := { s.bridge with tracker := expired }
    refine ⟨fun hsync => ?_, fun hsync => ?_⟩
    · simp [exec, execCycleLossExpiry, Bridge.cycleLoss, htimer, hsync, State.withBridge, expired]
    · have hloss : s.bridge.cycleLoss = b.unsynced.bypassAll .link := by
        simp [Bridge.cycleLoss, htimer, hsync, Bridge.loseSync_eq, b, expired]
      have hposted : Posted s.bridge b.unsynced [⟨.linkLost, s.bridge.tracker.cycle, none, none, none, none, none⟩] :=
        (Bridge.unsynced_posted (b := b) hevents).congr rfl rfl rfl rfl
      have hwork := FaultWork.bypassAll b.unsynced .link
      obtain ⟨hbypassed, hall⟩ := Bridge.bypassAll_after hposted
        (fun g => by simp [Bridge.unsynced, Bridge.post, b, Bridge.group]) (by simp [Bridge.unsynced, Bridge.post, b, expired])
        .link
      refine ⟨s.withBridge (b.unsynced.bypassAll .link), by rw [← hloss, exec_cycleLossExpiry], s.withBridge_eta _, ?_⟩
      rw [State.withBridge_bridge]
      refine ⟨?_, hbypassed, fun hruns => ?_, hall, hwork.stations.trans ?_, hwork.mask.trans ?_, hwork.store.trans ?_, hwork.check.trans ?_, hwork.trip.trans ?_,
        hwork.release.trans ?_⟩
      · exact hwork.tracker.trans (by simp [Bridge.unsynced, Bridge.post, b, expired])
      · have hb : b.RunsSound := hruns.ofSame rfl rfl rfl
        exact hb.unsynced.bypassAll_owner .link hposted.length
      all_goals simp [Bridge.unsynced, Bridge.post, b]
  · have hexpires : s.bridge.deadlineExpiry = s.bridge.failCheck .expiry none := by
      simp [Bridge.deadlineExpiry, hrunning, hdeadline]
    obtain ⟨hcheck, htrip, hbypassed, howners, hposted, hrest⟩ := Bridge.failCheck_spec hevents .expiry none
    refine ⟨s.withBridge (s.bridge.failCheck .expiry none), by rw [← hexpires, exec_checkDeadlineExpiry],
      s.withBridge_eta _, ?_⟩
    rw [State.withBridge_bridge]
    exact ⟨hcheck, htrip, hbypassed, howners, hposted, hrest⟩

/-- Settles O28. -/
theorem releaseEdges : Obligations.ReleaseEdges := by
  refine ⟨fun s hrelease hevents => ?_, fun s => rfl⟩
  let b : Bridge := { s.bridge with release := false }
  have hexec : exec .releaseFall s = .next (s.withBridge (b.bypassAll .release)) := by
    simp only [exec, execReleaseFall, hrelease, if_true, b]
  have hposted : Posted s.bridge b [] := (Posted.refl s.bridge hevents).congr rfl rfl rfl rfl
  have hwork := FaultWork.bypassAll b .release
  obtain ⟨hbypassed, hall⟩ := Bridge.bypassAll_after hposted (fun _ => rfl) rfl .release
  refine ⟨_, hexec, s.withBridge_eta _, ?_⟩
  rw [State.withBridge_bridge]
  refine ⟨hwork.release, hbypassed, fun hruns => ?_, hall, hwork.trip, hwork.stations, hwork.mask,
    hwork.store, hwork.check, hwork.tracker⟩
  have hb : b.RunsSound := hruns.ofSame rfl rfl rfl
  exact hb.bypassAll_owner .release hevents

/-- Settles O48: one equation per state of the check, and the failure's own lemma for a wrong answer. -/
theorem checkAnswer : Obligations.CheckAnswer := by
  intro src tag hi lo s ht hevents k answer expected refusedAs
  have hexpected : expectedAnswer k.challenge k.sequence = expected := expectedAnswer_eq _ _
  simp only [refusedAs, exec_cka_of_takes ht]
  refine ⟨fun hs => ?_, fun hs hr => ?_, fun hs hr => ?_, fun window hs hw ha => ?_, fun hs ha => ?_⟩
  · rw [checkAnswer_inactive hs]
  · rw [checkAnswer_failed hs, if_pos hr]
  · rw [checkAnswer_failed hs, if_neg (by simp only [k] at hr; simp [hr])]
  · rw [checkAnswer_right hs (ha.trans hexpected.symm), ConsoleCheck.advance_eq]
    simp only [k] at hw
    simp [ConsoleCheck.restart, hw, k]
  · rw [checkAnswer_wrong hs fun e => ha (e.trans hexpected)]
    obtain ⟨hcheck, htrip, hbypassed, -, hposted, hstations, -⟩ := Bridge.failCheck_spec hevents .wrongAnswer (some tag)
    refine ⟨s.replied src tag 33#8 (.refused .wrongAnswer []) (s.bridge.failCheck .wrongAnswer (some tag)), by
      rw [State.replied_bridge], s.replied_eta .., ?_⟩
    rw [State.replied_bridge]
    exact ⟨hcheck, htrip, hbypassed, hposted, hstations⟩

/-- Settles O50. -/
theorem tripClear : Obligations.TripClear := by
  intro src tag s ht hevents t
  obtain ⟨hclear, hposted⟩ := s.bridge.clearStageTrip_spec hevents
  have hbytes : tripFields s.bridge.clearStageTrip.trip =
      be16 ((if t.console then 64#16 else 0#16) + if t.runaway then 8192#16 else 0#16) := by
    rw [hclear]
    cases hc : t.console <;> cases hr : t.runaway <;> simp [tripFields, t] at hc hr ⊢ <;> simp [hc, hr, Cause.code]
  refine ⟨s.replied src tag 49#8 (.done (tripFields s.bridge.clearStageTrip.trip)) s.bridge.clearStageTrip, ?_, hclear,
    hposted⟩
  rw [← hbytes]
  exact congrArg Host.Outcome.next (State.serve_of_takes ht src tag 49#8 _)

end Sys2Proof.Proofs
end

section
/-! PROOFS. The services of the tables, of plans and of probes that answer in one step (O31, O33, O34, O35, O40, O43). -/

namespace Sys2Proof.Machine

/-! ## Locks and conflicts (R28, R29) -/

theorem DriveGroup.unlocked_iff (x : DriveGroup) : x.unlocked = true ↔ x.runState = .idle ∨ x.runState = .done := by
  unfold DriveGroup.unlocked
  cases x.runState <;> simp

theorem DriveGroup.locked_iff (x : DriveGroup) : x.unlocked = false ↔ x.runState ≠ .idle ∧ x.runState ≠ .done := by
  rw [← Bool.not_eq_true, DriveGroup.unlocked_iff, not_or]

theorem Bridge.locked_iff (b : Bridge) (o : Option GroupIx) :
    b.locked o = true ↔ ∃ g, o = some g ∧ (b.group g).runState ≠ .idle ∧ (b.group g).runState ≠ .done := by
  cases o with
  | none => simp [Bridge.locked]
  | some g => simp [Bridge.locked, DriveGroup.locked_iff]

theorem groupOf_eq_some {x : Option Station} {g : GroupIx} :
    groupOf x = some g ↔ ∃ st, x = some st ∧ st.config.group = some g := by
  cases x <;> simp [groupOf]

theorem movesStation_iff (x : Option Station) (a : Byte) :
    movesStation x a = true ↔ ∃ st, x = some st ∧ st.config.address ≠ a := by
  cases x <;> simp [movesStation]

theorem isFatal_iff (x : Option Station) : isFatal x = true ↔ ∃ st, x = some st ∧ st.run.validity = .fatal := by
  cases x <;> simp [isFatal]

theorem Bridge.probed_iff (b : Bridge) (i : StationIx) :
    b.probed i = true ↔ ∃ p, (b.probe p).state = .running ∧ (b.probe p).station = some i := by
  simp only [Bridge.probed, List.any_cons, List.any_nil, Bool.or_false, Bool.or_eq_true, decide_eq_true_eq]
  refine ⟨fun h => h.elim (⟨.p1, ·⟩) (⟨.p2, ·⟩), fun ⟨p, h⟩ => ?_⟩
  cases p
  exacts [.inl h, .inr h]

theorem Bridge.stwConflict_iff {b : Bridge} (h : b.TableSound) (o : StwOperands) :
    b.stwConflict o = true ↔ (∃ j st, b.Binds o.config.address j st ∧ j ≠ o.index) ∨
      ∃ g, o.config.group = some g ∧ 6 ≤ ((b.members g).filter (· ≠ o.index)).length := by
  unfold Bridge.stwConflict
  rw [Bool.or_eq_true]
  refine or_congr ⟨fun hc => ?_, fun ⟨j, st, hb, hne⟩ => ?_⟩ ?_
  · cases hj : b.boundTo o.config.address with
    | none => simp [hj] at hc
    | some j =>
      obtain ⟨st, hb⟩ := Bridge.binds_of_boundTo hj
      exact ⟨j, st, hb, by simpa [hj] using hc⟩
  · simpa [Bridge.boundTo_eq h hb] using hne
  · cases o.config.group <;> simp

/-- The refusals of STW, in their order (R28, R29). -/
theorem stationWrite_conflict {b : Bridge} {o : StwOperands} (h : b.stwConflict o = true) :
    stationWrite o b = (.refused .badOperand [], b) := if_pos h

theorem stationWrite_locked {b : Bridge} {o : StwOperands} (h : b.stwConflict o = false)
    (hl : b.locked (groupOf (b.station o.index)) = true ∨ b.locked o.config.group = true) :
    stationWrite o b = (.refused .locked [], b) := by
  simp only [stationWrite, h, Bool.false_eq_true, if_false, if_pos (Bool.or_eq_true_iff.mpr hl)]
  rfl

theorem stationWrite_busy {b : Bridge} {o : StwOperands} (h : b.stwConflict o = false)
    (hl : b.locked (groupOf (b.station o.index)) = false ∧ b.locked o.config.group = false)
    (hm : movesStation (b.station o.index) o.config.address = true) (hp : b.probed o.index = true) :
    stationWrite o b = (.refused .busy [], b) := by
  simp [stationWrite, h, hl.1, hl.2, hm, hp, refuse]

theorem stationWrite_fatal {b : Bridge} {o : StwOperands} (h : b.stwConflict o = false)
    (hl : b.locked (groupOf (b.station o.index)) = false ∧ b.locked o.config.group = false)
    (hm : movesStation (b.station o.index) o.config.address = true) (hp : b.probed o.index = false)
    (hf : isFatal (b.station o.index) = true) : stationWrite o b = (.refused .wrongState [], b) := by
  simp [stationWrite, h, hl.1, hl.2, hm, hp, hf, refuse]

theorem stationWrite_taken {b : Bridge} {o : StwOperands} (h : b.stwConflict o = false)
    (hl : b.locked (groupOf (b.station o.index)) = false ∧ b.locked o.config.group = false)
    (hp : movesStation (b.station o.index) o.config.address = true → b.probed o.index = false)
    (hf : movesStation (b.station o.index) o.config.address = true → isFatal (b.station o.index) = false) :
    stationWrite o b =
      let c := b.writeEntry o.index (some (writtenStation (b.station o.index) o.config o.offset))
        (movesStation (b.station o.index) o.config.address)
      (.done (stationFields (c.station o.index)), c) := by
  cases hm : movesStation (b.station o.index) o.config.address with
  | false => simp [stationWrite, h, hl.1, hl.2, hm]
  | true => simp [stationWrite, h, hl.1, hl.2, hm, hp hm, hf hm]

/-! ## Operands of one byte -/

theorem decodeOperands_readStation {index : Byte} (h : index.toNat < 32) :
    decodeOperands readStation [index] = some ⟨index.toNat, h⟩ := by
  have hput := readStation_put ⟨index.toNat, h⟩ []
  rwa [putByte_toNat, ← decodeOperands_some] at hput

theorem decodeOperands_readStation_out {index : Byte} (h : 32 ≤ index.toNat) :
    decodeOperands readStation [index] = none := by
  have hbyte := decodeOperands_readNat_byte (lo := 0) (hi := 31) (by omega) index
  rw [if_neg (by omega)] at hbyte
  rw [Option.eq_none_iff_forall_ne_some]
  intro i hi
  rw [decodeOperands_some, readStation, Reader.bind_some] at hi
  obtain ⟨v, rest, hread, hpure⟩ := hi
  rw [Reader.pure_some] at hpure
  obtain ⟨-, rfl⟩ := Prod.mk.inj hpure
  rw [decodeOperands, hread] at hbyte
  cases hbyte

theorem decodeOperands_readNothing : decodeOperands readNothing [] = some () := rfl

/-! ## The group record and the stage record (R69, R97) -/

theorem groupWrite_locked {b : Bridge} {o : GrwOperands} (h : (b.group o.group).unlocked = false) :
    groupWrite o b = (.refused .locked [], b) := by
  simp [groupWrite, Bridge.locked, h, refuse]

/-- The bridge a taken GRW leaves (R69). -/
def Bridge.rewriteGroup (b : Bridge) (o : GrwOperands) : Bridge :=
  (b.setGroup o.group { b.group o.group with record := o.record }).clampTrims o.group

theorem groupWrite_unlocked {b : Bridge} {o : GrwOperands} (h : (b.group o.group).unlocked = true) :
    groupWrite o b = (.done (recordFields o.record), b.rewriteGroup o) := by
  simp [groupWrite, Bridge.locked, h, Bridge.rewriteGroup]

theorem Bridge.rewriteGroup_eq (b : Bridge) (o : GrwOperands) :
    b.rewriteGroup o =
      { b with
        stations := (b.rewriteGroup o).stations
        groups := b.groups.set o.group { b.group o.group with record := o.record } } := rfl

theorem Bridge.rewriteGroup_station (b : Bridge) (o : GrwOperands) (i : StationIx) :
    (b.rewriteGroup o).station i = (b.station i).map fun st =>
      if st.config.group = some o.group then
        let limit : Int := o.record.trimLimit
        { st with
          run :=
            { st.run with
              trim :=
                if st.run.trim < -limit then -limit else if limit < st.run.trim then limit else st.run.trim } }
      else st := by
  simp [Bridge.rewriteGroup, Bridge.clampTrims_station, clampAbs_eq]

theorem Bridge.any_inPlan_iff (b : Bridge) :
    (groupIxs.any fun g => (b.group g).inPlan) = true ↔
      ∃ g, (b.group g).runState = .running ∨ (b.group g).runState = .held := by
  simp [groupIxs, DriveGroup.inPlan_iff]

theorem stageWrite_locked {b : Bridge} {o : SgwOperands} (h : (groupIxs.any fun g => (b.group g).inPlan) = true) :
    stageWrite o b = (.refused .locked [], b) := if_pos h

theorem stageWrite_taken {b : Bridge} {o : SgwOperands} (h : ¬(groupIxs.any fun g => (b.group g).inPlan) = true) :
    stageWrite o b = (.done o.record.stored.bytes, { b with store := b.store.set o.index o.record.stored }) := if_neg h

/-! ## Plan services (R116, R117, R119) -/

theorem planHold_of_running {b : Bridge} {g : GroupIx} (h : (b.group g).runState = .running) :
    planHold g b = (.done [], b.holdPlan g) := if_pos (decide_eq_true h)

theorem planHold_refused {b : Bridge} {g : GroupIx} (h : (b.group g).runState ≠ .running) :
    planHold g b = (.refused .wrongState [], b) := by
  simp [planHold, DriveGroup.isRunning, h, refuse]

theorem Bridge.holdPlan_plain {b : Bridge} {g : GroupIx} (h1 : (b.group g).phase ≠ some .probing)
    (h2 : (b.group g).phase ≠ some .waitProbe) :
    b.holdPlan g = b.modifyGroup g fun x => { x with runState := .held } := by
  simp [Bridge.holdPlan, h1, h2]

/-- The bridge of a hold before the stage is sent back to SETTLING (R116). -/
def Bridge.heldFreed (b : Bridge) (g : GroupIx) : Bridge :=
  (b.modifyGroup g fun x => { x with runState := .held }).releaseProbe g

theorem Bridge.holdPlan_probing {b : Bridge} {g : GroupIx}
    (h : (b.group g).phase = some .probing ∨ (b.group g).phase = some .waitProbe) :
    b.holdPlan g = (b.heldFreed g).resettle g := by
  simp [Bridge.holdPlan, h, Bridge.heldFreed]

theorem Bridge.currentStage_congr {b c : Bridge} {g : GroupIx} (hs : c.store = b.store)
    (hg : (c.group g).stage = (b.group g).stage) : c.currentStage g = b.currentStage g := by
  simp only [Bridge.currentStage, hg, Bridge.stageAt, hs]

theorem Bridge.heldFreed_group (b : Bridge) (g : GroupIx) :
    (b.heldFreed g).group g = { b.group g with runState := .held, waiting := false } := by
  rw [Bridge.heldFreed, (Bridge.releaseProbe_group _ g).1, Bridge.group_modifyGroup, if_pos rfl]

theorem Bridge.heldFreed_work (b : Bridge) (g : GroupIx) : ArbiterWork b (b.heldFreed g) :=
  (ArbiterWork.modifyGroup b g _).trans (ArbiterWork.releaseProbe _ g)

theorem Bridge.resettle_group (b : Bridge) (g : GroupIx) :
    (b.resettle g).group g =
      { b.group g with phase := some .settling, settle := (b.currentStage g).dwell.getD 0 } := by
  rw [Bridge.resettle, Bridge.group_modifyGroup, if_pos rfl]

theorem Bridge.resettle_work (b : Bridge) (g : GroupIx) : ArbiterWork b (b.resettle g) :=
  ArbiterWork.modifyGroup b g fun x =>
    { x with phase := some .settling, settle := (b.currentStage g).dwell.getD 0 }

theorem planResume_unreleased {b : Bridge} (h : b.release = false) (g : GroupIx) :
    planResume g b = (.refused .notReleased [], b) := if_pos h

theorem planResume_unchecked {b : Bridge} (h : b.release = true) (hc : b.check.state ≠ .running) (g : GroupIx) :
    planResume g b = (.refused .checkNotRunning [], b) := by
  simp [planResume, h, hc, refuse]

theorem planResume_refused {b : Bridge} {g : GroupIx} (h : b.release = true) (hc : b.check.state = .running)
    (hg : (b.group g).runState ≠ .held) : planResume g b = (.refused .wrongState [], b) := by
  simp [planResume, h, hc, DriveGroup.isHeld, hg, refuse]

theorem planResume_taken {b : Bridge} {g : GroupIx} (h : b.release = true) (hc : b.check.state = .running)
    (hg : (b.group g).runState = .held) :
    planResume g b = (.done [], b.modifyGroup g fun x => { x with runState := .running }) := by
  simp [planResume, h, hc, DriveGroup.isHeld, hg]

/-- The bridge of an abort in mode SPEED before it gives up its probe (R119). -/
def Bridge.aborting (b : Bridge) (g : GroupIx) : Bridge :=
  b.modifyGroup g fun x => { x with runState := .aborting, phase := none, blend := 0, stack := [], deferred := none }

/-- The bridge of an abort outside mode SPEED before it gives up its probe (R119). -/
def Bridge.aborted (b : Bridge) (g : GroupIx) : Bridge :=
  (b.postGroup .planAborted g).modifyGroup g DriveGroup.toIdle

theorem Bridge.planAbort_inPlan {b : Bridge} {g : GroupIx}
    (h : (b.group g).runState = .running ∨ (b.group g).runState = .held) : b.planAbort g = b.abortPlan g := by
  unfold Bridge.planAbort
  obtain h | h := h <;> rw [h]

theorem Bridge.abortPlan_speed {b : Bridge} {g : GroupIx} (h : b.mode g = .speed) :
    b.abortPlan g = (b.aborting g).releaseProbe g := if_pos h

theorem Bridge.abortPlan_other {b : Bridge} {g : GroupIx} (h : b.mode g ≠ .speed) :
    b.abortPlan g = (b.aborted g).releaseProbe g := if_neg h

theorem Bridge.planAbort_idle {b : Bridge} {g : GroupIx}
    (h : (b.group g).runState = .aborting ∨ (b.group g).runState = .idle) : b.planAbort g = b := by
  unfold Bridge.planAbort
  obtain h | h := h <;> rw [h]

theorem Bridge.planAbort_unwinding {b : Bridge} {g : GroupIx} {cause : Cause}
    (h : (b.group g).runState = .fault cause .unwinding) :
    b.planAbort g = b.modifyGroup g fun x => { x with runState := .aborting } := by
  unfold Bridge.planAbort
  rw [h]

theorem Bridge.planAbort_settled {b : Bridge} {g : GroupIx}
    (h : (∃ cause, (b.group g).runState = .fault cause .settled) ∨ (b.group g).runState = .done) :
    b.planAbort g = b.modifyGroup g DriveGroup.toIdle := by
  unfold Bridge.planAbort
  obtain ⟨cause, h⟩ | h := h <;> rw [h]

/-- A group that gives up its probe owns none afterwards. -/
theorem Bridge.releaseProbe_unowned {b : Bridge} {g : GroupIx}
    (single : ∀ p q, (b.probe p).owner = some (.group g) → (b.probe q).owner = some (.group g) → p = q) (p : ProbeId) :
    ((b.releaseProbe g).probe p).owner ≠ some (.group g) := (b.releaseProbe_group g).2 single p

/-! ## Probe services (R142) -/

theorem probeStart_unbound {b : Bridge} {o : PbsOperands} (h : b.station o.station = none) (tag : Byte) :
    probeStart tag o b = (.refused .noSuchEntry [], b) := if_pos h

theorem probeStart_busy {b : Bridge} {o : PbsOperands} (h : b.station o.station ≠ none)
    (hr : (b.probe o.probe).state = .running) (tag : Byte) : probeStart tag o b = (.refused .busy [], b) := by
  simp [probeStart, h, hr, refuse]

theorem probeStart_taken {b : Bridge} {o : PbsOperands} (h : b.station o.station ≠ none)
    (hr : (b.probe o.probe).state ≠ .running) (tag : Byte) :
    probeStart tag o b =
      (.accepted [], b.setProbe o.probe (startedProbe (.request tag) o.station o.mode o.window)) := by
  simp [probeStart, h, hr]

/-! ## Conditions read (R44) -/

theorem conditionsRead_free {b : Bridge} {i : StationIx} (h : b.station i = none) :
    conditionsRead i b = (.refused .noSuchEntry [], b) := by
  simp [conditionsRead, h, refuse]

theorem conditionsRead_bound {b : Bridge} {i : StationIx} {st : Station} (h : b.station i = some st) :
    conditionsRead i b = (.done (conditionFields st.run), b.setStation i (some { st with run := st.run.cleared })) := by
  simp [conditionsRead, h]

theorem putConditions_eq (c : Conditions) : putConditions c = c.flags.map fun f => if f then 1#8 else 0#8 := by
  simp [putConditions, putFlag, List.flatMap, Conditions.flags]

theorem conditionFields_eq {r : StationRun} (h : r.counter ≤ 255) :
    conditionFields r =
      [BitVec.ofNat 8 r.counter,
        match r.validity with | .valid => 0#8 | .invalid => 1#8 | .fatal => 2#8] ++
        (r.present.flags.map fun f => if f then 1#8 else 0#8) ++
        (r.latched.flags.map fun f => if f then 1#8 else 0#8) := by
  have hvalidity : putByte r.validity.code =
      [match r.validity with | .valid => 0#8 | .invalid => 1#8 | .fatal => 2#8] := by
    cases r.validity <;> exact putByte_eq _ (by decide)
  rw [conditionFields, putByte_eq _ h, hvalidity, putConditions_eq, putConditions_eq]
  simp

end Sys2Proof.Machine

namespace Sys2Proof.Proofs

open Sys2Proof.Machine

/-- Settles O31: the model's checks in their order are the statement's. -/
theorem stationWriteRefused : Obligations.StationWriteRefused := by
  intro src tag ops o s ht hd htable conflict locked moves probed fatal answers
  have hconflict : s.bridge.stwConflict o = true ↔ conflict := Bridge.stwConflict_iff htable o
  have hlocked : (s.bridge.locked (groupOf (s.bridge.station o.index)) = true ∨
      s.bridge.locked o.config.group = true) ↔ locked := by
    simp only [Bridge.locked_iff, groupOf_eq_some, locked, or_and_right, exists_or]
    exact or_comm
  have hunlocked (h : ¬locked) : s.bridge.locked (groupOf (s.bridge.station o.index)) = false ∧
      s.bridge.locked o.config.group = false := by
    simpa only [not_or, Bool.not_eq_true] using mt hlocked.mp h
  have hfree (h : ¬conflict) : s.bridge.stwConflict o = false := Bool.eq_false_iff.mpr (mt hconflict.mp h)
  have hmoves : movesStation (s.bridge.station o.index) o.config.address = true ↔ moves := movesStation_iff _ _
  have hexec : ∀ {code : RefusalCode}, stationWrite o s.bridge = (.refused code [], s.bridge) → answers code :=
    fun {code} h => by
      simp only [answers, exec, execStw, State.serve_decoded ht hd, h]
  refine ⟨fun hc => hexec (stationWrite_conflict (hconflict.mpr hc)),
    fun hc hl => hexec (stationWrite_locked (hfree hc) (hlocked.mpr hl)),
    fun hc hl hm hp => hexec (stationWrite_busy (hfree hc) (hunlocked hl) (hmoves.mpr hm) ((Bridge.probed_iff ..).mpr hp)),
    fun hc hl hm hp hf => hexec (stationWrite_fatal (hfree hc) (hunlocked hl) (hmoves.mpr hm)
      (Bool.eq_false_iff.mpr (mt (Bridge.probed_iff ..).mp hp)) ((isFatal_iff _).mpr hf))⟩

/-- Settles O33. -/
theorem readServices : Obligations.ReadServices := by
  refine ⟨fun src tag ops s ht => ⟨fun i hd => ?_, fun g hd => ?_, fun hnil => ?_, fun o hd => ?_⟩,
    fun src tag ops g s ht hd => ?_⟩
  · exact congrArg Host.Outcome.next (State.serve_decoded ht hd src tag 2#8 _)
  · exact congrArg Host.Outcome.next (State.serve_decoded ht hd src tag 5#8 _)
  · subst hnil
    refine (congrArg Host.Outcome.next (State.serve_of_takes ht src tag 9#8 _)).trans ?_
    have hput : ∀ t : Option Treatment, putOpt (fun t : Treatment => putByte t.code) t =
        t.elim [0#8] fun t => [1#8, BitVec.ofNat 8 t.code] := fun t => by
      cases t with
      | none => rfl
      | some t => cases t <;> exact congrArg (1#8 :: ·) (putByte_eq _ (by decide))
    simp only [withOperands, decodeOperands_readNothing, maskRead, Bridge.maskFields, hput, stationIxs]
    congr 5
    funext i
    cases s.bridge.treatments[i] with
    | none => rfl
    | some t => cases t <;> rfl
  · exact congrArg Host.Outcome.next (State.serve_decoded ht hd src tag 7#8 _)
  · exact congrArg Host.Outcome.next (State.serve_decoded ht hd src tag 21#8 _)

/-- Settles O34. -/
theorem conditionsRead : Obligations.ConditionsRead := by
  intro src tag index s ht
  refine ⟨fun hout => ?_, fun hin => ⟨fun hfree => ?_, fun st hst hcounter => ?_⟩⟩
  · exact congrArg Host.Outcome.next
      (State.serve_badOperand ht (decodeOperands_readStation_out hout) src tag 40#8 _)
  · simp only [exec, execCnr, State.serve_decoded ht (decodeOperands_readStation hin), conditionsRead_free hfree]
  · simp only [exec, execCnr, State.serve_decoded ht (decodeOperands_readStation hin), conditionsRead_bound hst,
      conditionFields_eq hcounter]
    rfl

/-- Settles O35. -/
theorem groupAndStageWrite : Obligations.GroupAndStageWrite := by
  refine ⟨fun src tag ops o s ht hd => ⟨fun h1 h2 => ?_, fun h => ?_⟩, fun src tag ops o s ht hd => ?_⟩
  · simp only [exec, execGrw, State.serve_decoded ht hd, groupWrite_locked ((DriveGroup.locked_iff _).mpr ⟨h1, h2⟩)]
  · refine ⟨s.replied src tag 4#8 (.done (recordFields o.record)) (s.bridge.rewriteGroup o), ?_, s.replied_eta .., ?_⟩
    · simp only [exec, execGrw, State.serve_decoded ht hd, groupWrite_unlocked ((DriveGroup.unlocked_iff _).mpr h),
        State.replied_bridge]
    · rw [State.replied_bridge]
      exact ⟨s.bridge.rewriteGroup_eq o, s.bridge.rewriteGroup_station o⟩
  · have hruns := s.bridge.any_inPlan_iff
    refine ⟨fun h => ?_, fun h => ?_⟩
    · simp only [exec, execSgw, State.serve_decoded ht hd, stageWrite_locked (hruns.mpr h)]
    · simp only [exec, execSgw, State.serve_decoded ht hd, stageWrite_taken (mt hruns.mp h)]
      rfl

/-- Settles O40: the table of R119 row by row; a group that is held or aborted gives up its probe by one lemma. -/
theorem planHoldResumeAbort : Obligations.PlanHoldResumeAbort := by
  refine ⟨fun src tag ops g s ht hd => ?_, fun src tag ops g s ht hd hevents => ?_⟩
  · intro b x
    have hplh : exec (.plh src tag ops) s = .next (s.replied src tag 17#8 (planHold g b).1 (planHold g b).2) :=
      congrArg Host.Outcome.next (State.serve_decoded ht hd src tag 17#8 _)
    have hplr : exec (.plr src tag ops) s = .next (s.replied src tag 18#8 (planResume g b).1 (planResume g b).2) :=
      congrArg Host.Outcome.next (State.serve_decoded ht hd src tag 18#8 _)
    refine ⟨fun h => ?_, fun hr h1 h2 => ?_, fun hr hp hsound => ?_, fun h => ?_, fun h hc => ?_, fun h hc hg => ?_,
      fun h hc hg => ?_⟩
    · rw [hplh, planHold_refused h]
    · rw [hplh, planHold_of_running hr, Bridge.holdPlan_plain h1 h2]
      rfl
    · refine ⟨s.replied src tag 17#8 (.done []) (b.holdPlan g), ?_, s.replied_eta .., ?_⟩
      · rw [hplh, planHold_of_running hr, State.replied_bridge]
      · have hgives := Bridge.holdPlan_givesUp hsound hp
        rw [State.replied_bridge]
        have hwork := (b.heldFreed_work g).trans (Bridge.resettle_work _ g)
        rw [← Bridge.holdPlan_probing hp] at hwork
        refine ⟨?_, fun p => ?_, hgives, hwork.stations, hwork.events, hwork.trip, hwork.check⟩
        · rw [Bridge.holdPlan_probing hp, Bridge.resettle_group, Bridge.heldFreed_group,
            Bridge.currentStage_congr (b.heldFreed_work g).store (by rw [Bridge.heldFreed_group])]
        · rw [Bridge.holdPlan_probing hp, Bridge.resettle, Bridge.probe_modifyGroup]
          exact Bridge.releaseProbe_unowned (fun p q => by simpa using hsound.single p q g) p
    · rw [hplr, planResume_unreleased h]
    · rw [hplr, planResume_unchecked h hc]
    · rw [hplr, planResume_refused h hc hg]
    · rw [hplr, planResume_taken h hc hg]
      rfl
  · intro b x inPlan toIdle leaves
    have hpla : exec (.pla src tag ops) s = .next (s.replied src tag 20#8 (.done []) (b.planAbort g)) := by
      simp only [exec, execPla, State.serve_decoded ht hd, planAbort, b]
    have hleaves : ∀ p : Bridge → Prop, p (b.planAbort g) → leaves p := fun p hp =>
      ⟨s.replied src tag 20#8 (.done []) (b.planAbort g), by rw [hpla, State.replied_bridge], s.replied_eta .., by
        rw [State.replied_bridge]; exact hp⟩
    have hsingle : ∀ c : Bridge, (∀ p, c.probe p = b.probe p) → b.OwnersSound →
        ∀ p, ((c.releaseProbe g).probe p).owner ≠ some (.group g) := fun c hc hsound p =>
      Bridge.releaseProbe_unowned (fun p q => by rw [hc, hc]; exact hsound.single p q g) p
    refine ⟨fun hin hmode => ?_, fun hin hmode => ?_, fun h => hleaves (fun c => c = b) ?_,
      fun cause h => hleaves (fun c => c = { b with groups := b.groups.set g { x with runState := .aborting } }) ?_,
      fun h => hleaves (fun c => c = { b with groups := b.groups.set g toIdle }) ?_⟩
    · refine ⟨s.replied src tag 20#8 (.done []) (b.planAbort g), by rw [hpla, State.replied_bridge], s.replied_eta .., ?_⟩
      rw [State.replied_bridge]
      have hgives : b.OwnersSound → GivesUpProbe b (b.abortPlan g) g := Bridge.abortPlan_givesUp
      rw [Bridge.planAbort_inPlan hin]
      rw [Bridge.abortPlan_speed hmode] at hgives ⊢
      have hwork := (ArbiterWork.modifyGroup b g _).trans (ArbiterWork.releaseProbe (b.aborting g) g)
      refine ⟨?_, hwork.events, hwork.eventsLost, hwork.stations,
        fun hsound => ⟨hsingle _ (fun p => by rw [Bridge.aborting, Bridge.probe_modifyGroup]) hsound, hgives hsound⟩⟩
      rw [(Bridge.releaseProbe_group _ g).1, Bridge.aborting, Bridge.group_modifyGroup, if_pos rfl]
    · refine ⟨s.replied src tag 20#8 (.done []) (b.planAbort g), by rw [hpla, State.replied_bridge], s.replied_eta .., ?_⟩
      rw [State.replied_bridge]
      have hgives : b.OwnersSound → GivesUpProbe b (b.abortPlan g) g := Bridge.abortPlan_givesUp
      rw [Bridge.planAbort_inPlan hin]
      rw [Bridge.abortPlan_other hmode] at hgives ⊢
      have hwork := ArbiterWork.releaseProbe (b.aborted g) g
      refine ⟨?_, hwork.stations.trans (by simp [Bridge.aborted, Bridge.postGroup, Bridge.post]), ?_,
        fun hsound => ⟨hsingle _ (fun p => by simp [Bridge.aborted, Bridge.postGroup, Bridge.post]) hsound, hgives hsound⟩⟩
      · rw [(Bridge.releaseProbe_group _ g).1, Bridge.aborted, Bridge.group_modifyGroup, if_pos rfl, Bridge.postGroup,
          Bridge.post, Bridge.group_append]
        rfl
      · exact (Posted.append b _ hevents).congr rfl rfl hwork.events hwork.eventsLost
    · exact Bridge.planAbort_idle h
    · exact Bridge.planAbort_unwinding h
    · exact Bridge.planAbort_settled h

/-- Settles O43. -/
theorem probeStart : Obligations.ProbeStart := by
  intro src tag ops o s ht hd b x
  have hpbs : exec (.pbs src tag ops) s =
      .next (s.replied src tag 24#8 (Machine.probeStart tag o b).1 (Machine.probeStart tag o b).2) :=
    congrArg Host.Outcome.next (State.serve_decoded ht hd src tag 24#8 _)
  refine ⟨fun h => ?_, fun h hr => ?_, fun h hr => ?_⟩
  · rw [hpbs, probeStart_unbound h]
  · rw [hpbs, probeStart_busy h hr]
  · rw [hpbs, probeStart_taken h hr]
    cases o.probe <;> rfl

end Sys2Proof.Proofs
end

section
/-! PROOFS. The resets, and the write of the operator mask with the MEMBER_MASKED faults it brings. -/

namespace Sys2Proof.Machine

/-! ## Numbers that fill the operands -/

theorem decodeOperands_readNat_iff {lo hi width : Nat} (hshape : fieldShape lo hi = ⟨width, false⟩) (ops : List Byte) (n : Nat) :
    decodeOperands (readNat lo hi) ops = some n ↔ ops.length = width ∧ natOfBytes ops = n ∧ lo ≤ n ∧ n ≤ hi := by
  have hread : readInt lo hi ops =
      if width ≤ ops.length ∧ lo ≤ natOfBytes (ops.take width) ∧ natOfBytes (ops.take width) ≤ hi then
        some ((natOfBytes (ops.take width) : Int), ops.drop width) else none := by
    simp [readInt, hshape, FieldShape.value]
  rw [decodeOperands_some]
  split at hread <;> rename_i hrange
  · rw [readNat, Reader.bind_of hread, Reader.pure_of, Int.toNat_natCast, Option.some.injEq, Prod.mk.injEq,
      List.drop_eq_nil_iff]
    constructor
    · rintro ⟨rfl, hlen⟩
      have heq : ops.length = width := by omega
      refine ⟨heq, ?_, hrange.2⟩
      rw [List.take_of_length_le hlen]
    · rintro ⟨hlen, rfl, -⟩
      rw [List.take_of_length_le hlen.le]
      exact ⟨rfl, hlen.le⟩
  · have hnone : readNat lo hi ops = none := congrArg (Option.bind · _) hread
    rw [hnone]
    refine ⟨fun h => by simp at h, ?_⟩
    rintro ⟨hlen, rfl, hrange'⟩
    rw [List.take_of_length_le hlen.le] at hrange
    exact absurd ⟨hlen.ge, hrange'⟩ hrange

theorem be32_append (b3 b2 b1 b0 : Byte) : be32 (b3 ++ b2 ++ b1 ++ b0) = [b3, b2, b1, b0] := by
  simp only [be32, List.cons.injEq, and_true]
  refine ⟨?_, ?_, ?_, ?_⟩ <;> ext i hi <;> simp [BitVec.getElem_extractLsb'] <;> grind

theorem decodeOperands_readMask (m : BitVec 32) : decodeOperands readMask (be32 m) = some m := by
  have hnumber := (decodeOperands_readNat_iff (lo := 0) (hi := 4294967295) (width := 4) rfl (be32 m) m.toNat).mpr
    ⟨rfl, natOfBytes_be32 m, by omega, by omega⟩
  rw [decodeOperands_some] at hnumber ⊢
  rw [readMask, Reader.bind_of hnumber, Reader.pure_of, BitVec.ofNat_toNat, BitVec.setWidth_eq]

/-! ## MEMBER_MASKED (R84, R125) -/

theorem DriveGroup.inPlan_congr {x y : DriveGroup} (h : y.runState = x.runState) : y.inPlan = x.inPlan := by
  simp only [DriveGroup.inPlan, DriveGroup.isRunning, DriveGroup.isHeld, h]

theorem DriveGroup.unwinds_congr {x y : DriveGroup} (h : y.runState = x.runState) : y.unwinds = x.unwinds := by
  unfold DriveGroup.unwinds
  rw [h]

theorem Bridge.mode_congr {b c : Bridge} {g : GroupIx} (hs : c.store = b.store)
    (hstage : (c.group g).stage = (b.group g).stage) (hrun : (c.group g).runState = (b.group g).runState) :
    c.mode g = b.mode g := by
  rw [Bridge.mode, Bridge.mode, Bridge.currentStage_congr hs hstage, DriveGroup.inPlan_congr hrun,
    DriveGroup.unwinds_congr hrun]

/-- A masked member faults the group. -/
def DriveGroup.masks (x : DriveGroup) : Bool := x.inPlan || decide (x.runState = .aborting)

/-- What MEMBER_MASKED leaves of a group `x` that unwinds from the speed `speed`, where it reaches the group. -/
def MaskFaulted (x y : DriveGroup) (speed : Int) : Prop :=
  y.runState = .fault .memberMasked .unwinding ∧ y.phase = none ∧ y.stack = [] ∧ y.deferred = none ∧
    y.waiting = false ∧ y.stage = x.stage ∧ y.planTag = x.planTag ∧ y.speed = speed ∧
    y.blend = (if x.runState = .aborting then x.blend else 0)

theorem DriveGroup.masks_congr {x y : DriveGroup} (h : y.runState = x.runState) : y.masks = x.masks := by
  simp only [DriveGroup.masks, DriveGroup.inPlan_congr h, h]

/-- A group that a masked member faults unwinds already exactly in ABORTING. -/
theorem DriveGroup.unwinds_of_masks {x : DriveGroup} (h : x.masks = true) :
    x.unwinds = decide (x.runState = .aborting) := by
  have hall : ∀ r, DriveGroup.masks { x with runState := r } = true →
      DriveGroup.unwinds { x with runState := r } = decide (r = .aborting) := by
    intro r hr
    cases r with
    | fault cause sub => simp [DriveGroup.masks, DriveGroup.inPlan, DriveGroup.isRunning, DriveGroup.isHeld] at hr
    | aborting => rfl
    | _ => simp [DriveGroup.unwinds]
  exact hall x.runState h

theorem MaskFaulted.then {x y z : DriveGroup} {speed : Int} (h : MaskFaulted x y speed)
    (k : UnchangedOrGranted y z) : MaskFaulted x z speed := by
  rcases k with rfl | ⟨hwaiting, -⟩
  · exact h
  · obtain ⟨-, -, -, -, hidle, -⟩ := h
    rw [hidle] at hwaiting
    cases hwaiting

theorem MaskFaulted.after {x y z : DriveGroup} {speed : Int} (k : UnchangedOrGranted x y)
    (h : MaskFaulted y z speed) : MaskFaulted x z speed := by
  rcases k with rfl | ⟨-, rfl⟩ <;> exact h

theorem FaultWork.maskFault (b : Bridge) (i : Option StationIx) (g : GroupIx) : FaultWork b (b.maskFault i g) := by
  unfold Bridge.maskFault
  split
  · exact refl b
  · split
    · exact enterFault b g _ _ _ _
    · exact refl b

theorem GroupWork.maskFault (b : Bridge) (i : Option StationIx) (g : GroupIx) :
    GroupWork (· = g) b (b.maskFault i g) := by
  unfold Bridge.maskFault
  split
  · exact refl b
  · split
    · exact fault b g _ _ _
    · exact refl b

/-- MEMBER_MASKED at a group: the group it reaches, the group it does not reach, and the event. -/
theorem Bridge.maskFault_spec (b : Bridge) (i : Option StationIx) (g : GroupIx) :
    (((b.group g).masks && i.isSome) = true →
      MaskFaulted (b.group g) ((b.maskFault i g).group g)
        (if b.mode g = .speed then (b.group g).speed else (b.group g).reference)) ∧
    (((b.group g).masks && i.isSome) = false → b.maskFault i g = b) ∧
    (b.events.length ≤ 64 →
      Posted b (b.maskFault i g)
        (if (b.group g).masks && i.isSome then
          [⟨.groupFault, b.tracker.cycle, some g, i, (b.group g).stage, (b.group g).planTag, some .memberMasked⟩]
        else [])) := by
  cases i with
  | none => simpa [Bridge.maskFault] using Posted.refl b
  | some i =>
    rw [Option.isSome_some, Bool.and_true]
    cases hmasks : (b.group g).masks with
    | false =>
      have hsame : b.maskFault (some i) g = b := if_neg (by rw [← DriveGroup.masks, hmasks]; exact Bool.false_ne_true)
      exact ⟨fun h => (Bool.false_ne_true h).elim, fun _ => hsame, fun h => by rw [hsame]; exact Posted.refl b h⟩
    | true =>
      have hfault : b.maskFault (some i) g = b.enterFault g .memberMasked .unwinding (some i) (b.group g).stage :=
        if_pos hmasks
      obtain ⟨hgroup, hposted, -⟩ := b.enterFault_spec g .memberMasked .unwinding (some i) (b.group g).stage
      rw [hfault]
      refine ⟨fun _ => ?_, fun h => (Bool.false_ne_true h.symm).elim, hposted⟩
      rw [hgroup]
      refine ⟨rfl, rfl, rfl, rfl, rfl, rfl, rfl, rfl, ?_⟩
      simp only [DriveGroup.faultBlend, DriveGroup.unwinds_of_masks hmasks, decide_eq_true_eq]

/-- One mask write's MEMBER_MASKED at every group, in ascending group number. `masked` names the station that loses its
mask bit, where the group has one. -/
theorem Bridge.maskFaults_spec (b : Bridge) (masked : GroupIx → Option StationIx) (he : b.events.length ≤ 64) :
    let reached := fun g => (b.group g).masks && (masked g).isSome
    let c := groupIxs.foldl (fun a g => a.maskFault (masked g) g) b
    (∀ g, reached g = false → (c.group g).runState = (b.group g).runState) ∧
    (∀ g, reached g = true → MaskFaulted (b.group g) (c.group g)
      (if b.mode g = .speed then (b.group g).speed else (b.group g).reference)) ∧
    Posted b c ((groupIxs.filter reached).map fun g =>
      ⟨.groupFault, b.tracker.cycle, some g, masked g, (b.group g).stage, (b.group g).planTag, some .memberMasked⟩) := by
  intro reached
  have key : ∀ (gs : List GroupIx) (c : Bridge), gs.Nodup → c.events.length ≤ 64 → FaultWork b c →
      (∀ g ∈ gs, UnchangedOrGranted (b.group g) (c.group g)) →
      let d := gs.foldl (fun a g => a.maskFault (masked g) g) c
      (∀ g ∈ gs, reached g = false → (d.group g).runState = (b.group g).runState) ∧
      (∀ g ∈ gs, reached g = true → MaskFaulted (b.group g) (d.group g)
        (if b.mode g = .speed then (b.group g).speed else (b.group g).reference)) ∧
      (∀ g, g ∉ gs → UnchangedOrGranted (c.group g) (d.group g)) ∧
      Posted c d ((gs.filter reached).map fun g =>
        ⟨.groupFault, b.tracker.cycle, some g, masked g, (b.group g).stage, (b.group g).planTag, some .memberMasked⟩) := by
    intro gs
    induction gs with
    | nil =>
      intro c _ hc _ _
      exact ⟨fun g hg => absurd hg List.not_mem_nil, fun g hg => absurd hg List.not_mem_nil, fun g _ => Or.inl rfl,
        Posted.refl c hc⟩
    | cons g gs ih =>
      intro c hnodup hc hwork hgranted
      obtain ⟨hnot, hnodup'⟩ := List.nodup_cons.mp hnodup
      obtain ⟨hfaulted, hkept, hposted⟩ := c.maskFault_spec (masked g) g
      have hgroups := GroupWork.maskFault c (masked g) g
      obtain ⟨ihKept, ihFaulted, ihOthers, ihPosted⟩ := ih (c.maskFault (masked g) g) hnodup' (hposted hc).length
        (hwork.trans (FaultWork.maskFault c (masked g) g)) fun k hk =>
          (hgranted k (List.mem_cons_of_mem g hk)).trans (hgroups.others k (by rintro rfl; exact hnot hk))
      have hg := hgranted g List.mem_cons_self
      have hsame : (c.group g).stage = (b.group g).stage ∧ (c.group g).planTag = (b.group g).planTag ∧
          (c.group g).speed = (b.group g).speed ∧ (c.group g).reference = (b.group g).reference := by
        rcases hg with e | ⟨-, e⟩ <;> rw [e] <;> exact ⟨rfl, rfl, rfl, rfl⟩
      obtain ⟨hstage, htag, hspeed, href⟩ := hsame
      rw [DriveGroup.masks_congr hg.runState] at hfaulted hkept hposted
      rw [Bridge.mode_congr hwork.store hstage hg.runState, hspeed, href] at hfaulted
      rw [hstage, htag, hwork.tracker] at hposted
      rw [List.foldl_cons]
      refine ⟨?_, ?_, ?_, ?_⟩
      · intro k hk hreached
        rcases List.mem_cons.mp hk with rfl | hk
        · rw [(ihOthers k hnot).runState, hkept hreached, hg.runState]
        · exact ihKept k hk hreached
      · intro k hk hreached
        rcases List.mem_cons.mp hk with rfl | hk
        · exact ((hfaulted hreached).then (ihOthers k hnot)).after hg
        · exact ihFaulted k hk hreached
      · intro k hk
        obtain ⟨hne, hk⟩ := not_or.mp (mt List.mem_cons.mpr hk)
        exact (hgroups.others k hne).trans (ihOthers k hk)
      · have hall := (hposted hc).trans ihPosted
        rw [List.filter_cons]
        change Posted c _ ((if reached g = true then _ else _) ++ _) at hall
        split at hall <;> rename_i hreached
        · rw [if_pos hreached]
          exact hall
        · rw [if_neg hreached]
          exact hall
  obtain ⟨hkept, hfaulted, -, hposted⟩ := key groupIxs b (List.nodup_finRange 8) he (FaultWork.refl b) fun g _ => Or.inl rfl
  exact ⟨fun g => hkept g (List.mem_finRange g), fun g => hfaulted g (List.mem_finRange g), hposted⟩

end Sys2Proof.Machine

namespace Sys2Proof.Proofs

open Sys2Proof.Machine

/-- Settles O29. -/
theorem resets : Obligations.Resets := by
  refine ⟨fun s h => ?_, fun s h => ?_, fun src tag s ht hl code scope hcode => ?_, fun f scope s hf hp => ?_⟩
  · refine ⟨_, congrArg Host.Outcome.next (if_neg (by rw [h]; exact Bool.false_ne_true)), rfl, rfl, Link.reset_atReset,
      s.bridge.resetFull_atFullReset, rfl, rfl⟩
  · exact congrArg Host.Outcome.next (if_pos h)
  · intro f
    have hdecode : decodeOperands readScope [code] = some scope := by
      rcases hcode with ⟨rfl, rfl⟩ | ⟨rfl, rfl⟩ <;> rfl
    have hframe : replyFrame s.address src tag 50#8 (.done (putByte scope.code)) = f := by
      rcases hcode with ⟨rfl, rfl⟩ | ⟨rfl, rfl⟩ <;> rfl
    simp only [exec, execBrs, hdecode, State.offer_of_takes ht, State.takeReset, hframe, Link.sendReply_eq hl]
  · refine ⟨s.bridgeReset scope, ?_, rfl, Link.reset_atReset, rfl, ?_, rfl, ?_, ?_⟩
    · simp only [exec, execLinePortTransmissionEnd, hf, hp]
    · cases scope <;> rfl
    · rintro rfl
      exact s.bridge.resetFull_atFullReset
    · rintro rfl
      exact s.bridge.resetKept_atKeptReset

/-- Settles O36: the group that loses a member's mask bit in RUNNING, HELD or ABORTING unwinds in FAULT. -/
theorem maskWrite : Obligations.MaskWrite := by
  intro src tag b3 b2 b1 b0 s ht he mask cleared reached
  have hbytes : be32 mask = [b3, b2, b1, b0] := be32_append b3 b2 b1 b0
  let masked : Bridge := { s.bridge with mask := mask }
  have hfaults := masked.maskFaults_spec cleared he
  have hwork := FaultWork.foldGroups (fun a g => a.maskFault (cleared g) g) (fun a g => FaultWork.maskFault a _ g)
    groupIxs masked
  have hd : decodeOperands readMask [b3, b2, b1, b0] = some mask := hbytes ▸ decodeOperands_readMask mask
  have hexec : exec (.omw src tag [b3, b2, b1, b0]) s =
      .next (s.replied src tag 8#8 (Machine.maskWrite mask s.bridge).1 (Machine.maskWrite mask s.bridge).2) :=
    congrArg Host.Outcome.next (State.serve_decoded ht hd src tag 8#8 _)
  have hafter : Machine.maskWrite mask s.bridge = (.done (be32 (groupIxs.foldl (fun a g => a.maskFault (cleared g) g)
    masked).mask), groupIxs.foldl (fun a g => a.maskFault (cleared g) g) masked) := rfl
  rw [hwork.mask, hbytes] at hafter
  rw [hafter] at hexec
  generalize groupIxs.foldl (fun a g => a.maskFault (cleared g) g) masked = c at hfaults hwork hexec
  obtain ⟨hkept, hfaulted, hposted⟩ := hfaults
  refine ⟨_, hexec, s.replied_eta .., ?_⟩
  rw [State.replied_bridge]
  exact ⟨hwork.mask, hkept, hfaulted, hposted, hwork.stations, hwork.treatments, hwork.store, hwork.check, hwork.trip,
    hwork.tracker, hwork.release⟩

end Sys2Proof.Proofs
end

section
/-! PROOFS. The group close's parts: share evaluation, trims, the leader's closed speed and DRAW, the direction check, the
delivery of the group conditions, the alarm condition and the summary (R45, R54 to R67, R110). -/

namespace Sys2Proof.Machine

/-! ## Share results (R55 to R59) -/

/-- What a share result holds of a roster member (R57, R58). -/
def Bridge.memberShare (b : Bridge) (g : GroupIx) (n : CycleNo) (e : RosterEntry) : MemberShare :=
  { station := e.station
    evaluated := e.evaluated
    judgement :=
      if (b.shareResult g n).outcome = .evaluated ∧ e.evaluated = true then
        some (judgeShare (b.group g).record (b.clampedTorque e) (b.torqueTotal (b.group g).roster)
          (b.nominalShare e.station))
      else none }

theorem Bridge.shareResult_members (b : Bridge) (g : GroupIx) (n : CycleNo) :
    (b.shareResult g n).members = (b.group g).roster.map fun e => b.memberShare g n e := rfl

section
variable {b : Bridge} {r : GroupRecord} {roster : List RosterEntry}

theorem Bridge.shareOutcome_single (h : roster.length < 2) : b.shareOutcome r roster = .single := if_pos h

theorem Bridge.shareOutcome_suspended (h : 2 ≤ roster.length)
    (he : (roster.filter RosterEntry.evaluated).length < 2) : b.shareOutcome r roster = .suspended := by
  rw [Bridge.shareOutcome, if_neg h.not_gt, if_pos he]

theorem Bridge.shareOutcome_belowFloor (h : 2 ≤ roster.length)
    (he : 2 ≤ (roster.filter RosterEntry.evaluated).length)
    (hfloor : (b.torqueTotal roster).natAbs < r.shareFloor ∨ b.torqueTotal roster = 0) :
    b.shareOutcome r roster = .belowFloor := by
  rw [Bridge.shareOutcome, if_neg h.not_gt, if_neg he.not_gt, if_pos hfloor]

theorem Bridge.shareOutcome_evaluated (h : 2 ≤ roster.length)
    (he : 2 ≤ (roster.filter RosterEntry.evaluated).length) (hfloor : r.shareFloor ≤ (b.torqueTotal roster).natAbs)
    (hzero : b.torqueTotal roster ≠ 0) : b.shareOutcome r roster = .evaluated := by
  rw [Bridge.shareOutcome, if_neg h.not_gt, if_neg he.not_gt, if_neg (not_or.mpr ⟨hfloor.not_gt, hzero⟩)]

end

/-- A share result judges only stations of its roster. -/
theorem Bridge.shareResult_judgement_none {b : Bridge} {g : GroupIx} {n : CycleNo} {i : StationIx}
    (h : ∀ e ∈ (b.group g).roster, e.station ≠ i) : (b.shareResult g n).judgement i = none := by
  have hnone : (b.shareResult g n).members.find? (fun m => decide (m.station = i)) = none := by
    rw [List.find?_eq_none, Bridge.shareResult_members]
    intro m hm
    obtain ⟨e, he, rfl⟩ := List.mem_map.mp hm
    exact fun hstation => h e he (of_decide_eq_true hstation)
  rw [ShareResult.judgement, hnone, Option.bind_none]

/-! ## Trims (R60, R61) -/

theorem Bridge.updateTrims_off {b : Bridge} {g : GroupIx} (h : b.trimsOn g = false) : b.updateTrims g = b := by
  unfold Bridge.updateTrims
  simp only [h]

/-- What the trim update makes of a member. -/
def ShareResult.trimmed (r : ShareResult) (limits : GroupRecord) (i : StationIx) (st : Station) : Station :=
  match r.judgement i with
  | some j => { st with run := { st.run with trim := updatedTrim limits st.run.trim j.error } }
  | none => st

theorem ShareResult.trimmed_none {r : ShareResult} {i : StationIx} (h : r.judgement i = none) (limits : GroupRecord)
    (st : Station) : r.trimmed limits i st = st := by
  unfold ShareResult.trimmed
  rw [h]

theorem ShareResult.trimmed_some {r : ShareResult} {i : StationIx} {j : ShareJudgement} (h : r.judgement i = some j)
    (limits : GroupRecord) (st : Station) :
    r.trimmed limits i st = { st with run := { st.run with trim := updatedTrim limits st.run.trim j.error } } := by
  unfold ShareResult.trimmed
  rw [h]

theorem Bridge.updateTrims_on {b : Bridge} {g : GroupIx} {r : ShareResult} (h : b.trimsOn g = true)
    (hr : (b.group g).shareResult = some r) :
    b.updateTrims g = b.mapMembers g (r.trimmed (b.group g).record) := by
  unfold Bridge.updateTrims
  simp only [h, hr]
  rfl

theorem Bridge.updateTrims_without {b : Bridge} {g : GroupIx} (hr : (b.group g).shareResult = none) :
    b.updateTrims g = b := by
  unfold Bridge.updateTrims
  cases hon : b.trimsOn g <;> simp only [hr]

/-- A station that is no member keeps its trim. -/
theorem Bridge.updateTrims_outside {b : Bridge} {g : GroupIx} {i : StationIx} {st : Station} (hst : b.station i = some st)
    (h : st.config.group ≠ some g) : (b.updateTrims g).station i = some st := by
  cases hon : b.trimsOn g with
  | false => rw [Bridge.updateTrims_off hon, hst]
  | true =>
    cases hr : (b.group g).shareResult with
    | none => rw [Bridge.updateTrims_without hr, hst]
    | some r => rw [Bridge.updateTrims_on hon hr, Bridge.station_mapMembers, hst, Option.map_some, if_neg h]

/-! ## The leader's closed speed and DRAW (R63, R64) -/

theorem Bridge.leaderSample_eq_some {b : Bridge} {g : GroupIx} {v : Int} :
    b.leaderSample g = some v ↔ ∃ i e, b.leader g = some i ∧
      (b.group g).roster.find? (fun e => decide (e.station = i)) = some e ∧ e.sample.validity = .valid ∧
      e.sample.fresh = true ∧ e.sample.speed = some v := by
  simp only [Bridge.leaderSample, Option.bind_eq_some_iff, Option.ite_none_right_eq_some]
  refine exists_congr fun i => ⟨fun ⟨hi, e, he, hs, hv⟩ => ⟨e, hi, he, hs.1, hs.2, hv⟩,
    fun ⟨e, hi, he, hvalid, hfresh, hv⟩ => ⟨hi, e, he, ⟨hvalid, hfresh⟩, hv⟩⟩

theorem Bridge.recordLeader_some {b : Bridge} {g : GroupIx} {v : Int} (n : CycleNo) (h : b.leaderSample g = some v) :
    b.recordLeader g n = b.setGroup g { b.group g with closedLeader := some ⟨v, n⟩ } := by
  unfold Bridge.recordLeader
  rw [h]

theorem Bridge.recordLeader_none {b : Bridge} {g : GroupIx} (n : CycleNo) (h : b.leaderSample g = none) :
    b.recordLeader g n = b := by
  unfold Bridge.recordLeader
  rw [h]

theorem Bridge.drawBase_eq_some {b : Bridge} {ref : GroupIx} {n : CycleNo} {base : Int} :
    b.drawBase ref n = some base ↔ ∃ cycle, (b.group ref).closedLeader = some ⟨base, cycle⟩ ∧
      (cycle = n ∨ cycle + 1#16 = n) ∧ 500 ≤ base := by
  unfold Bridge.drawBase
  cases h : (b.group ref).closedLeader with
  | none => simp
  | some c =>
    simp only [Option.ite_none_right_eq_some, Option.some.injEq]
    constructor
    · rintro ⟨hc, rfl⟩
      exact ⟨c.cycle, rfl, hc⟩
    · rintro ⟨cycle, rfl, hc⟩
      exact ⟨hc, rfl⟩

theorem Bridge.drawPresent_iff {b : Bridge} {g : GroupIx} {n : CycleNo} :
    b.drawPresent g n = true ↔ ∃ ref target v base, (b.group g).record.drawReference = some ref ∧
      (b.group g).record.drawTarget = some target ∧ b.leaderSample g = some v ∧ b.drawBase ref n = some base ∧
      (b.group g).record.drawWindow < ((v * 10000).tdiv base - target).natAbs := by
  unfold Bridge.drawPresent
  cases href : (b.group g).record.drawReference with
  | none => simp [href]
  | some ref =>
    cases htarget : (b.group g).record.drawTarget with
    | none => simp [href, htarget]
    | some target =>
      cases hsample : b.leaderSample g with
      | none => simp [href, htarget]
      | some v => cases hbase : b.drawBase ref n <;> simp [href, htarget, hbase]

/-! ## The direction check (R110) -/

theorem Bridge.atDirectionCheck_iff {b : Bridge} {g : GroupIx} :
    b.atDirectionCheck g = true ↔ (b.group g).runState = .running ∧ (b.currentStage g).kind = .bump ∧
      (b.group g).phase = some .dwell ∧ (b.group g).dwell ≤ 1 := by
  simp [Bridge.atDirectionCheck, DriveGroup.isRunning]

theorem DriveGroup.failsDirection_iff {x : DriveGroup} {bump : Int} {e : RosterEntry} :
    x.failsDirection bump e = true ↔ ∃ v v0, bump ≠ 0 ∧ e.sample.validity = .valid ∧ e.sample.fresh = true ∧
      e.sample.speed = some v ∧ x.bumpActuals.find? (fun a => decide (a.station = e.station)) = some ⟨e.station, some v0⟩ ∧
      ¬(0 < bump ∧ 0 < v - v0 ∨ bump < 0 ∧ v - v0 < 0) := by
  unfold DriveGroup.failsDirection
  cases hv : e.sample.speed with
  | none => simp
  | some v =>
    cases ha : x.bumpActuals.find? fun a => decide (a.station = e.station) with
    | none => simp
    | some a =>
      obtain ⟨station, speed⟩ := a
      have hstation : station = e.station := by simpa using List.find?_some ha
      subst hstation
      cases speed with
      | none => simp
      | some v0 => simp [hasSense, imp_iff_not_or]; tauto

theorem Bridge.failingMembers_sublist (b : Bridge) (g : GroupIx) : (b.failingMembers g).Sublist (b.members g) := by
  unfold Bridge.failingMembers
  simp only
  split
  · exact List.filter_sublist
  · exact List.nil_sublist _

theorem Bridge.mem_failingMembers {b : Bridge} {g : GroupIx} {i : StationIx} :
    i ∈ b.failingMembers g ↔ b.atDirectionCheck g = true ∧ i ∈ b.members g ∧ ∃ target entry e,
      (b.currentStage g).target = some target ∧ (b.group g).bumpEntry = some entry ∧ e ∈ (b.group g).roster ∧
      e.station = i ∧ (b.group g).failsDirection (target - entry) e = true := by
  unfold Bridge.failingMembers
  cases b.atDirectionCheck g with
  | false => simp
  | true =>
    cases (b.currentStage g).target with
    | none => simp
    | some target => cases hentry : (b.group g).bumpEntry <;> simp [hentry, List.mem_filter]

theorem Bridge.members_pairwise (b : Bridge) (g : GroupIx) : (b.members g).Pairwise (· < ·) :=
  (List.pairwise_lt_finRange 32).filter _

/-! ## Delivery (R36) -/

/-- A flag that the group's share result gives a station; clear where it judged none for it. -/
def DriveGroup.judged (x : DriveGroup) (i : StationIx) (flag : ShareJudgement → Bool) : Bool :=
  ((x.shareResult.bind fun r => r.judgement i).map flag).getD false

theorem DriveGroup.judged_iff {x : DriveGroup} {i : StationIx} {flag : ShareJudgement → Bool} :
    x.judged i flag = true ↔ ∃ v j, x.shareResult = some v ∧ v.judgement i = some j ∧ flag j = true := by
  unfold DriveGroup.judged
  cases x.shareResult with
  | none => simp
  | some v => cases h : v.judgement i <;> simp [h]

theorem Bridge.deliver_station (b : Bridge) (g : GroupIx) (draw : Bool) (failing : List StationIx) (i : StationIx) :
    (b.deliver g draw failing).station i = (b.station i).map fun st =>
      if st.config.group = some g then
        ⟨st.config, st.run.delivered ((b.group g).judged i ShareJudgement.shareDev)
          ((b.group g).judged i ShareJudgement.fight) (decide (i ∈ failing))⟩
      else st := by
  rw [Bridge.deliver, Bridge.station_mapMembers, Bridge.station_setGroup]
  rfl

/-! ## The alarm condition and the summary (R45, R66) -/

theorem Bridge.memberPresent_process {b : Bridge} {i : StationIx} :
    (b.memberPresent i).process = true ↔ ∃ st, b.station i = some st ∧
      (st.run.present.speedDev = true ∨ st.run.present.shareDev = true ∨ st.run.present.fight = true ∨
        st.run.present.direction = true) := by
  unfold Bridge.memberPresent
  cases b.station i with
  | none => simp [Conditions.process, Conditions.none]
  | some st => simp [Conditions.process, or_assoc]

theorem Bridge.alarmCounts_iff {b : Bridge} {g : GroupIx} :
    b.alarmCounts g = true ↔ (b.group g).draw.present = true ∨
      ∃ i st, b.station i = some st ∧ st.config.group = some g ∧
        (st.run.present.speedDev = true ∨ st.run.present.shareDev = true ∨ st.run.present.fight = true ∨
          st.run.present.direction = true) := by
  rw [Bridge.alarmCounts, Bool.or_eq_true, or_comm, List.any_eq_true]
  refine or_congr Iff.rfl (exists_congr fun i => ?_)
  rw [Bridge.mem_members, Bridge.memberPresent_process]
  constructor
  · rintro ⟨⟨st, hst, hg⟩, st', hst', hp⟩
    rw [hst] at hst'
    cases hst'
    exact ⟨st, hst, hg, hp⟩
  · rintro ⟨st, hst, hg, hp⟩
    exact ⟨⟨st, hst, hg⟩, st, hst, hp⟩

theorem Conditions.flags_union (c d : Conditions) : (c.union d).flags = List.zipWith (· || ·) c.flags d.flags := rfl

theorem Conditions.flag_union {c d : Conditions} {k : Nat} (hk : k < 10) :
    (c.union d).flags[k]? = some true ↔ c.flags[k]? = some true ∨ d.flags[k]? = some true := by
  have hc : k < c.flags.length := hk
  have hd : k < d.flags.length := hk
  rw [Conditions.flags_union, List.getElem?_zipWith, List.getElem?_eq_getElem hc, List.getElem?_eq_getElem hd]
  simp

/-- A flag of a union of condition sets is set exactly where one of the sets has it. -/
theorem Conditions.flag_foldl_union {k : Nat} (hk : k < 10) (f : StationIx → Conditions) (l : List StationIx)
    (c : Conditions) :
    (l.foldl (fun c i => c.union (f i)) c).flags[k]? = some true ↔
      c.flags[k]? = some true ∨ ∃ i ∈ l, (f i).flags[k]? = some true := by
  induction l generalizing c with
  | nil => simp
  | cons i l ih => rw [List.foldl_cons, ih, Conditions.flag_union hk, or_assoc, List.exists_mem_cons_iff]

theorem Bridge.memberLatched_flag {b : Bridge} {i : StationIx} {k : Nat} (hk : k < 10) :
    (b.memberLatched i).flags[k]? = some true ↔ ∃ st, b.station i = some st ∧ st.run.latched.flags[k]? = some true := by
  unfold Bridge.memberLatched
  cases b.station i with
  | some st => simp
  | none =>
    simp only [reduceCtorEq, false_and, exists_false, iff_false]
    interval_cases k <;> decide

end Sys2Proof.Machine

namespace Sys2Proof.Proofs

open Sys2Proof.Machine

/-- Settles O20. -/
theorem trimUpdate : Obligations.TrimUpdate := by
  intro b g i st hst x kept
  refine ⟨Bridge.updateTrims_off, Bridge.updateTrims_outside hst, fun r hon hg hr => ⟨fun hj => ?_, fun j hj => ?_⟩⟩
  · change (b.updateTrims g).station i = some st
    rw [Bridge.updateTrims_on hon hr, Bridge.station_mapMembers, hst, Option.map_some, if_pos hg, ShareResult.trimmed_none hj]
  · intro moved limit
    rw [Bridge.updateTrims_on hon hr, Bridge.station_mapMembers, hst, Option.map_some, if_pos hg, ShareResult.trimmed_some hj]
    rfl

/-- Settles O21. -/
theorem groupConditions : Obligations.GroupConditions := by
  refine ⟨fun b g n => ?_, fun b g => ?_, fun b g draw failing => ?_, fun b g => ?_⟩
  · intro x leads
    have hleads : ∀ v, leads v ↔ b.leaderSample g = some v := fun v => Bridge.leaderSample_eq_some.symm
    refine ⟨fun v hv => Bridge.recordLeader_some n ((hleads v).mp hv), fun hnone => Bridge.recordLeader_none n ?_, ?_⟩
    · exact Option.eq_none_iff_forall_ne_some.mpr fun v hv => hnone v ((hleads v).mpr hv)
    · rw [Bridge.drawPresent_iff]
      simp only [hleads, Bridge.drawBase_eq_some]
      constructor
      · rintro ⟨ref, target, v, base, href, htarget, hv, ⟨cycle, hcycle, hrecent, hbase⟩, hwindow⟩
        exact ⟨ref, target, v, base, cycle, href, htarget, hv, hcycle, hrecent, hbase, hwindow⟩
      · rintro ⟨ref, target, v, base, cycle, href, htarget, hv, hcycle, hrecent, hbase, hwindow⟩
        exact ⟨ref, target, v, base, href, htarget, hv, ⟨cycle, hcycle, hrecent, hbase⟩, hwindow⟩
  · refine ⟨(b.members_pairwise g).sublist (b.failingMembers_sublist g), fun i => ?_⟩
    rw [Bridge.mem_failingMembers, Bridge.atDirectionCheck_iff]
    simp only [DriveGroup.failsDirection_iff]
    constructor
    · rintro ⟨⟨hrun, hkind, hphase, hdwell⟩, hmember, target, entry, e, htarget, hentry, he, rfl, v, v0, hbump, hvalid,
        hfresh, hv, hv0, hsense⟩
      exact ⟨hrun, hkind, hphase, hdwell, hmember, target, entry, e, v, v0, htarget, hentry, sub_ne_zero.mp hbump, he, rfl,
        hvalid, hfresh, hv, hv0, hsense⟩
    · rintro ⟨hrun, hkind, hphase, hdwell, hmember, target, entry, e, v, v0, htarget, hentry, hbump, he, rfl, hvalid,
        hfresh, hv, hv0, hsense⟩
      exact ⟨⟨hrun, hkind, hphase, hdwell⟩, hmember, target, entry, e, htarget, hentry, he, rfl, v, v0,
        sub_ne_zero.mpr hbump, hvalid, hfresh, hv, hv0, hsense⟩
  · intro x c suspended
    refine ⟨rfl, fun i => ⟨fun hst => ?_, fun st hst => ⟨fun hg => ?_, fun hg => ⟨Conditions.mk _ _ _ _ _ _ _
      (x.judged i ShareJudgement.shareDev) (x.judged i ShareJudgement.fight) (decide (i ∈ failing)), ?_, rfl,
      DriveGroup.judged_iff, DriveGroup.judged_iff, decide_eq_true_iff⟩⟩⟩⟩
    · rw [Bridge.deliver_station, hst, Option.map_none]
    · rw [Bridge.deliver_station, hst, Option.map_some, if_neg hg]
    · rw [Bridge.deliver_station, hst, Option.map_some, if_pos hg]
      rfl
  · refine ⟨Bridge.alarmCounts_iff, rfl, fun k hk => ?_, rfl, rfl⟩
    have hprefix : (b.summary g)[k]? =
        ((b.members g).foldl (fun c i => c.union (b.memberLatched i)) Conditions.none).flags[k]? :=
      List.getElem?_append_left hk
    have hnone : Conditions.none.flags[k]? ≠ some true := by interval_cases k <;> decide
    rw [hprefix, Conditions.flag_foldl_union hk, or_iff_right hnone]
    refine exists_congr fun i => ?_
    rw [Bridge.mem_members, Bridge.memberLatched_flag hk]
    constructor
    · rintro ⟨⟨st, hst, hg⟩, st', hst', hflag⟩
      rw [hst] at hst'
      cases hst'
      exact ⟨st, hst, hg, hflag⟩
    · rintro ⟨st, hst, hg, hflag⟩
      exact ⟨⟨st, hst, hg⟩, st, hst, hflag⟩

/-- Settles O19. -/
theorem shareEvaluation : Obligations.ShareEvaluation := by
  intro b g n x ev sum r
  have houtcome : r.outcome = b.shareOutcome x.record x.roster := rfl
  have htotal : r.total = if r.outcome = .single ∨ r.outcome = .suspended then none else some sum := rfl
  have hmembers : r.members = x.roster.map fun e => b.memberShare g n e := Bridge.shareResult_members b g n
  have hev : ∀ e ∈ x.roster, (e.evaluated = true ↔ e ∈ ev) := fun e he => by simp [ev, he, RosterEntry.evaluated]
  refine ⟨fun i st hst => ?_, fun e st v hst hv => ?_, rfl, fun h => ?_, fun h2 he => ?_, fun h2 he hfloor => ?_,
    fun h2 he hfloor hzero => ?_, ?_, fun e he => ?_⟩
  · rw [Bridge.nominalShare, hst]
  · intro limit
    rw [Bridge.clampedTorque, hst, hv]
    rfl
  · rw [htotal, houtcome, Bridge.shareOutcome_single h]
    exact ⟨rfl, rfl⟩
  · rw [htotal, houtcome, Bridge.shareOutcome_suspended h2 he]
    exact ⟨rfl, rfl⟩
  · rw [htotal, houtcome, Bridge.shareOutcome_belowFloor h2 he hfloor]
    exact ⟨rfl, rfl⟩
  · rw [htotal, houtcome, Bridge.shareOutcome_evaluated h2 he hfloor hzero]
    exact ⟨rfl, rfl⟩
  · rw [hmembers, List.map_map]
    rfl
  · refine ⟨b.memberShare g n e, hmembers ▸ List.mem_map_of_mem he, rfl, hev e he, fun h => if_neg ?_,
      fun hr he' => ⟨_, if_pos ⟨hr, (hev e he).mpr he'⟩, rfl, rfl, rfl, decide_eq_true_iff, ?_⟩⟩
    · rw [hev e he, not_and_or]
      exact h
    · exact decide_eq_true_iff

end Sys2Proof.Proofs
end

section
/-! PROOFS. What STW and STC leave: the entry, the master references and the group that the entry leaves (R30, R32, R53,
R80). -/

namespace Sys2Proof.Machine

/-! ## The close of a group that runs no plan -/

theorem DriveGroup.inactive_of_unlocked {x : DriveGroup} (h : x.runState = .idle ∨ x.runState = .done) :
    x.active = false := by
  have hplan : x.inPlan = false := by
    rcases h with h | h <;> simp [DriveGroup.inPlan, DriveGroup.isRunning, DriveGroup.isHeld, h]
  have hunwinds : x.unwinds = false := by
    unfold DriveGroup.unwinds
    rcases h with h | h <;> rw [h]
  exact x.inactive_iff.mpr ⟨hplan, hunwinds⟩

theorem DriveGroup.takeRoster_roster_station {x : DriveGroup} {e : RosterEntry} (h : e ∈ x.takeRoster.roster) :
    e ∈ x.forming := by
  obtain ⟨i, -, hi⟩ := List.mem_filterMap.mp h
  exact List.mem_of_find?_eq_some hi

@[simp] theorem Bridge.evaluateShares_station (b : Bridge) (g : GroupIx) (n : CycleNo) (i : StationIx) :
    (b.evaluateShares g n).station i = b.station i := rfl

@[simp] theorem Bridge.recordLeader_station (b : Bridge) (g : GroupIx) (n : CycleNo) (i : StationIx) :
    (b.recordLeader g n).station i = b.station i := by
  unfold Bridge.recordLeader
  split <;> rfl

theorem Bridge.recordLeader_share (b : Bridge) (g : GroupIx) (n : CycleNo) :
    ((b.recordLeader g n).group g).shareResult = (b.group g).shareResult ∧
      ((b.recordLeader g n).group g).roster = (b.group g).roster := by
  unfold Bridge.recordLeader
  split
  · rw [Bridge.group_setGroup, if_pos rfl]
    exact ⟨rfl, rfl⟩
  · exact ⟨rfl, rfl⟩

theorem Bridge.updateTrims_trip (b : Bridge) (g : GroupIx) : (b.updateTrims g).trip = b.trip := by
  unfold Bridge.updateTrims
  simp only
  split
  · simp only [Bridge.mapMembers_trip]
  · rfl

theorem Bridge.recordLeader_trip (b : Bridge) (g : GroupIx) (n : CycleNo) : (b.recordLeader g n).trip = b.trip := by
  unfold Bridge.recordLeader
  split <;> rfl

theorem Bridge.judgeGroup_trip (b : Bridge) (g : GroupIx) (n : CycleNo) : (b.judgeGroup g n).1.trip = b.trip := by
  simp only [Bridge.judgeGroup, Bridge.deliver, Bridge.mapMembers_trip, Bridge.setGroup_trip, Bridge.recordLeader_trip,
    Bridge.updateTrims_trip, Bridge.evaluateShares, Bridge.modifyGroup_trip]

theorem Bridge.updateTrims_group (b : Bridge) (g k : GroupIx) : (b.updateTrims g).group k = b.group k := by
  unfold Bridge.updateTrims
  simp only
  split
  · rw [Bridge.group_mapMembers]
  · rfl

/-- A run to which a group delivers no condition, because it has none of the group's conditions present. -/
def StationRun.Undelivered (r : StationRun) : Prop := r.delivered false false false = r

theorem StationRun.newBinding_undelivered : newRun.Undelivered := rfl

/-- The judging of a group's close leaves a station as it is that has no close sample in it: no trim moves outside a
plan, and what is delivered is that no condition is present. -/
theorem Bridge.judgeGroup_station_unsampled {b : Bridge} {g : GroupIx} {n : CycleNo} {i : StationIx} {st : Station}
    (hplan : (b.group g).inPlan = false) (hforming : ∀ e ∈ (b.group g).forming, e.station ≠ i)
    (hst : b.station i = some st) (hrun : st.config.group = some g → st.run.Undelivered) :
    (b.judgeGroup g n).1.station i = some st := by
  unfold Bridge.judgeGroup
  simp only
  generalize hc : (b.modifyGroup g DriveGroup.takeRoster).evaluateShares g n = c
  have hgroup : c.group g = { (b.group g).takeRoster with
      shareResult := some ((b.modifyGroup g DriveGroup.takeRoster).shareResult g n) } := by
    rw [← hc]
    simp [Bridge.evaluateShares]
  have hroster : ∀ e ∈ (c.group g).roster, e.station ≠ i := fun e he => by
    rw [hgroup] at he
    exact hforming e (DriveGroup.takeRoster_roster_station he)
  have hjudged : ∀ flag, (c.group g).judged i flag = false := fun flag => by
    have hnone : ((b.modifyGroup g DriveGroup.takeRoster).shareResult g n).judgement i = none := by
      apply Bridge.shareResult_judgement_none
      intro e he
      rw [Bridge.group_modifyGroup, if_pos rfl] at he
      exact hforming e (DriveGroup.takeRoster_roster_station he)
    rw [hgroup, DriveGroup.judged, Option.bind_some, hnone]
    rfl
  have htrims : c.updateTrims g = c := by
    apply Bridge.updateTrims_off
    rw [Bridge.trimsOn, hgroup]
    exact Bool.and_eq_false_imp.mpr fun h => (Bool.false_ne_true (hplan.symm.trans h)).elim
  have hcst : c.station i = some st := by rw [← hc]; exact hst
  rw [htrims, Bridge.deliver_station, Bridge.recordLeader_station, hcst, Option.map_some]
  obtain ⟨hshare, hkeptRoster⟩ := c.recordLeader_share g n
  have hfailing : i ∉ (c.recordLeader g n).failingMembers g := fun hi => by
    obtain ⟨-, -, -, -, e, -, -, he, hei, -⟩ := Bridge.mem_failingMembers.mp hi
    rw [hkeptRoster] at he
    exact hroster e he hei
  have hflag : ∀ flag, ((c.recordLeader g n).group g).judged i flag = false := fun flag => by
    rw [DriveGroup.judged, hshare]
    exact hjudged flag
  split
  · rename_i hg
    rw [hflag, hflag, decide_eq_false hfailing, hrun hg]
  · rfl

/-- What the leaving of a group that runs no plan keeps. -/
theorem Bridge.leaveGroup_inactive {b : Bridge} {g : GroupIx} (i : StationIx) (h : (b.group g).active = false) :
    (b.leaveGroup g i).trip = b.trip ∧ (∀ k, ((b.leaveGroup g i).group k).runState = (b.group k).runState) ∧
      (b.station i = none → (b.leaveGroup g i).station i = none) ∧
      ∀ st, b.station i = some st → (st.config.group = some g → st.run.Undelivered) →
        (b.leaveGroup g i).station i = some st := by
  unfold Bridge.leaveGroup
  cases hpending : (b.group g).pendingSet with
  | none => exact ⟨rfl, fun _ => rfl, id, fun st hst _ => hst⟩
  | some p =>
    simp only
    generalize hm : b.modifyGroup g _ = m
    have hmg : (m.group g).runState = (b.group g).runState ∧
        (m.group g).forming = (b.group g).forming.filter fun e => decide (e.station ≠ i) := by
      rw [← hm, Bridge.group_modifyGroup, if_pos rfl]
      exact ⟨rfl, rfl⟩
    obtain ⟨hrun, hforming⟩ := hmg
    have hmk : ∀ k, (m.group k).runState = (b.group k).runState := fun k => by
      rw [← hm, Bridge.group_modifyGroup]
      split
      · rename_i e
        rw [e]
      · rfl
    have htrip : m.trip = b.trip := by rw [← hm]; rfl
    have hstation : m.station i = b.station i := by rw [← hm]; rfl
    have hinactive : (m.group g).active = false := (DriveGroup.active_congr hrun).trans h
    split
    · rw [Bridge.groupClose_inactive m g p.cycle hinactive]
      have hwork := (GroupWork.judgeGroup m g p.cycle).trans (GroupWork.alarmStep _ g)
      obtain ⟨hjudged, hothers⟩ := m.judgeGroup_group g p.cycle
      refine ⟨?_, fun k => ?_, fun hnone => ?_, fun st hst hdelivered => ?_⟩
      · exact (m.judgeGroup_trip g p.cycle).trans htrip
      · rw [← hmk k, Bridge.alarmStep, Bridge.group_setGroup]
        split
        · rename_i e
          rw [← e, hjudged]
        · rw [hothers k (Ne.symm ‹_›)]
      · have hcore := hwork.stations i
        rw [hstation, hnone] at hcore
        exact Option.map_eq_none_iff.mp hcore
      · rw [Bridge.alarmStep, Bridge.station_setGroup]
        refine Bridge.judgeGroup_station_unsampled ((m.group g).inactive_iff.mp hinactive).1 (fun e he => ?_)
          (hstation.trans hst) hdelivered
        rw [hforming] at he
        exact of_decide_eq_true (List.mem_filter.mp he).2
    · exact ⟨htrip, hmk, hstation.trans, fun st hst _ => hstation.trans hst⟩

/-! ## The leader (R50) -/

theorem Bridge.leader_of_cores {b c : Bridge}
    (h : ∀ i, (c.station i).map Station.core = (b.station i).map Station.core) (g : GroupIx) : c.leader g = b.leader g := by
  have hpart : ∀ {α : Type} (f : Station → α), (∀ st, f st.core = f st) → ∀ i, (c.station i).map f = (b.station i).map f := by
    intro α f hf i
    have hcomp : f ∘ Station.core = f := funext hf
    rw [← hcomp, ← Option.map_map, ← Option.map_map, h i]
  have hmembers : c.members g = b.members g := Bridge.members_congr g (hpart (fun st => st.config.group) fun _ => rfl)
  have hroles : c.isLeaderRole = b.isLeaderRole := by
    funext i
    have hrole := hpart (fun st => decide (st.config.role = .leader)) (fun _ => rfl) i
    unfold Bridge.isLeaderRole
    cases hc : c.station i <;> cases hb : b.station i <;> simp_all
  rw [Bridge.leader, Bridge.leader, hmembers, hroles]

/-! ## The write of an entry (R30, R32, R53, R80) -/

/-- The entry is written and the master references that it makes absent are; no group has lost it yet. -/
def Bridge.rewritten (b : Bridge) (i : StationIx) (x : Option Station) (rebound : Bool) : Bridge :=
  (b.setStation i x).dropReferences b i rebound

/-- The group from which the write of an entry takes the entry's close sample. -/
def Bridge.leftGroup (b : Bridge) (i : StationIx) (x : Option Station) (rebound : Bool) : Option GroupIx :=
  if rebound || decide (groupOf (b.station i) ≠ groupOf x) then groupOf (b.station i) else none

theorem Bridge.writeEntry_eq (b : Bridge) (i : StationIx) (x : Option Station) (rebound : Bool) :
    b.writeEntry i x rebound = (b.rewritten i x rebound).leaves i (b.leftGroup i x rebound) := rfl

theorem Bridge.leftGroup_eq_some {b : Bridge} {i : StationIx} {x : Option Station} {rebound : Bool} {g : GroupIx} :
    b.leftGroup i x rebound = some g ↔
      ∃ st, b.station i = some st ∧ st.config.group = some g ∧ (rebound = true ∨ groupOf x ≠ some g) := by
  rw [Bridge.leftGroup, Option.ite_none_right_eq_some, groupOf_eq_some, Bool.or_eq_true, decide_eq_true_eq]
  constructor
  · rintro ⟨hleft, st, hst, hg⟩
    refine ⟨st, hst, hg, hleft.imp_right fun hne e => hne ?_⟩
    rw [e]
    exact groupOf_eq_some.mpr ⟨st, hst, hg⟩
  · rintro ⟨st, hst, hg, hleft⟩
    refine ⟨hleft.imp_right fun hne e => hne ?_, st, hst, hg⟩
    rw [← e]
    exact groupOf_eq_some.mpr ⟨st, hst, hg⟩

theorem Bridge.rewritten_station (b : Bridge) (i j : StationIx) (x : Option Station) (rebound : Bool) :
    (b.rewritten i x rebound).station j = if i = j then x else b.station j := by
  rw [← Bridge.station_setStation]
  rfl

theorem Bridge.rewritten_group (b : Bridge) (i : StationIx) (x : Option Station) (rebound : Bool) (g : GroupIx) :
    (b.rewritten i x rebound).group g = { b.group g with
      masterRef := if (b.setStation i x).leader g ≠ b.leader g ∨ rebound = true ∧ b.leader g = some i then none
        else (b.group g).masterRef } := by
  rw [Bridge.rewritten, Bridge.dropReferences, Bridge.group_mapGroups]
  split <;> rfl

/-- What the write of an entry leaves, where the group that the entry leaves runs no plan and does not unwind. -/
structure WroteEntry (b : Bridge) (i : StationIx) (x : Option Station) (rebound : Bool) (c : Bridge) : Prop where
  entry : c.station i = x
  others : ∀ j, j ≠ i → (c.station j).map Station.core = (b.station j).map Station.core
  release : c.release = b.release
  tracker : c.tracker = b.tracker
  mask : c.mask = b.mask
  treatments : c.treatments = b.treatments
  store : c.store = b.store
  check : c.check = b.check
  trip : c.trip = b.trip
  groups : ∀ g, (c.group g).record = (b.group g).record ∧ (c.group g).runState = (b.group g).runState ∧
    (c.group g).masterRef =
      if c.leader g ≠ b.leader g ∨ rebound = true ∧ b.leader g = some i then none else (b.group g).masterRef
  leaves : ∃ w : Bridge, w = { b with stations := b.stations.set i x, groups := w.groups } ∧
    (∀ g, w.group g = { b.group g with masterRef := (c.group g).masterRef }) ∧
    (∀ g, b.leftGroup i x rebound = some g → LeavesGroup w c g i) ∧ (b.leftGroup i x rebound = none → c = w)

theorem Bridge.writeEntry_wrote {b : Bridge} {i : StationIx} {x : Option Station} {rebound : Bool}
    (hinactive : ∀ g, b.leftGroup i x rebound = some g → (b.group g).active = false)
    (hx : ∀ st, x = some st → ∀ g, b.leftGroup i x rebound = some g → st.config.group = some g →
      st.run.Undelivered) :
    WroteEntry b i x rebound (b.writeEntry i x rebound) := by
  rw [Bridge.writeEntry_eq]
  have hentry : (b.rewritten i x rebound).station i = x := by rw [Bridge.rewritten_station, if_pos rfl]
  have hother : ∀ j, j ≠ i → (b.rewritten i x rebound).station j = b.station j := fun j hj => by
    rw [Bridge.rewritten_station, if_neg (Ne.symm hj)]
  have hrecord : ∀ g, ((b.rewritten i x rebound).group g).record = (b.group g).record ∧
      ((b.rewritten i x rebound).group g).runState = (b.group g).runState := fun g => by
    rw [Bridge.rewritten_group]
    exact ⟨rfl, rfl⟩
  have hmaster := fun g => congrArg DriveGroup.masterRef (b.rewritten_group i x rebound g)
  have hleader : ∀ g, (b.rewritten i x rebound).leader g = (b.setStation i x).leader g := fun g =>
    Bridge.leader_congr rfl g
  have hgroup := b.rewritten_group i x rebound
  have heq : b.rewritten i x rebound =
      { b with stations := b.stations.set i x, groups := (b.rewritten i x rebound).groups } := rfl
  generalize b.rewritten i x rebound = w at hentry hother hrecord hmaster hleader hgroup heq ⊢
  have hw : w.release = b.release ∧ w.tracker = b.tracker ∧ w.mask = b.mask ∧ w.treatments = b.treatments ∧
      w.store = b.store ∧ w.check = b.check ∧ w.trip = b.trip := by
    rw [heq]
    exact ⟨rfl, rfl, rfl, rfl, rfl, rfl, rfl⟩
  obtain ⟨hrelease, htracker, hmask, htreatments, hstore, hcheck, htrip⟩ := hw
  cases hleft : b.leftGroup i x rebound with
  | none =>
    change WroteEntry b i x rebound w
    exact
      { entry := hentry, others := fun j hj => congrArg _ (hother j hj), release := hrelease, tracker := htracker
        mask := hmask, treatments := htreatments, store := hstore, check := hcheck, trip := htrip
        groups := fun g => ⟨(hrecord g).1, (hrecord g).2, (hmaster g).trans (by rw [hleader])⟩
        leaves := ⟨w, heq, fun g => by rw [hmaster]; exact hgroup g, fun g h => (Option.some_ne_none g (h.symm.trans hleft)).elim, fun _ => rfl⟩ }
  | some k =>
    have hactive : (w.group k).active = false := (DriveGroup.active_congr (hrecord k).2).trans (hinactive k hleft)
    have hwork := GroupWork.leaveGroup w k i
    have hleaves := Bridge.leaveGroup_leaves w k i
    obtain ⟨hkeptTrip, hrun, hnone, hsome⟩ := Bridge.leaveGroup_inactive i hactive
    change WroteEntry b i x rebound (w.leaveGroup k i)
    generalize w.leaveGroup k i = c at hwork hleaves hkeptTrip hrun hnone hsome
    have hsame : ∀ g, c.leader g = (b.setStation i x).leader g := fun g =>
      (Bridge.leader_of_cores hwork.stations g).trans (hleader g)
    exact
      { entry := by
          cases hx' : x with
          | none => exact hnone (hentry.trans hx')
          | some st => exact hsome st (hentry.trans hx') (hx st hx' k hleft)
        others := fun j hj => (hwork.stations j).trans (congrArg _ (hother j hj))
        release := hwork.release.trans hrelease, tracker := hwork.tracker.trans htracker
        mask := hwork.mask.trans hmask, treatments := hwork.treatments.trans htreatments
        store := hwork.store.trans hstore, check := hwork.check.trans hcheck, trip := hkeptTrip.trans htrip
        groups := fun g => ⟨(hwork.records g).trans (hrecord g).1, (hrun g).trans (hrecord g).2,
          (hwork.masters g).trans ((hmaster g).trans (by rw [hsame]))⟩
        leaves := ⟨w, heq, fun g => by rw [hwork.masters, hmaster]; exact hgroup g, fun g h => by
            rw [hleft] at h
            cases h
            exact hleaves, fun h => (Option.some_ne_none k (hleft.symm.trans h)).elim⟩ }

theorem writtenStation_moved {st : Station} {config : StationConfig} (h : st.config.address ≠ config.address)
    (offset : Option Int) :
    writtenStation (some st) config offset = ⟨{ config with offset := offset.getD 0 }, newRun⟩ := if_neg h

theorem writtenStation_kept {st : Station} {config : StationConfig} (h : st.config.address = config.address)
    (offset : Option Int) :
    writtenStation (some st) config offset = ⟨{ config with offset := offset.getD st.config.offset },
      st.run.rewritten st.config { config with offset := offset.getD st.config.offset }⟩ := if_pos h

theorem groupOf_writtenStation (before : Option Station) (config : StationConfig) (offset : Option Int) :
    groupOf (some (writtenStation before config offset)) = config.group := by
  obtain ⟨⟨v, hconfig⟩, -⟩ := writtenStation_cases before config offset
  rw [groupOf, Option.bind_some, hconfig]

/-- A written entry that a group's close reaches is a new binding, or no member of that group. -/
theorem writtenStation_undelivered {b : Bridge} {i : StationIx} {config : StationConfig} {offset : Option Int}
    {g : GroupIx}
    (hleft : b.leftGroup i (some (writtenStation (b.station i) config offset)) (movesStation (b.station i) config.address) =
      some g)
    (hg : (writtenStation (b.station i) config offset).config.group = some g) :
    (writtenStation (b.station i) config offset).run.Undelivered := by
  obtain ⟨st, hst, -, hmoves | hother⟩ := Bridge.leftGroup_eq_some.mp hleft
  · obtain ⟨st', hst', hne⟩ := (movesStation_iff _ _).mp hmoves
    rw [hst] at hst'
    cases hst'
    rw [hst, writtenStation_moved hne]
    exact StationRun.newBinding_undelivered
  · exact absurd hg hother

end Sys2Proof.Machine

namespace Sys2Proof.Proofs

open Sys2Proof.Machine

/-- Settles O30: no lock, no conflict and no running probe stands in the way, and the write takes effect as
`WroteEntry` says. -/
theorem stationWriteTakesEffect : Obligations.StationWriteTakesEffect := by
  intro src tag ops o s ht hd hfree hroom hunlocked moves hidle hfatal
  have hmoves : movesStation (s.bridge.station o.index) o.config.address = true ↔ moves := movesStation_iff _ _
  have hunlockedAt : ∀ k : Option GroupIx, (∀ g, k = some g → o.config.group = some g ∨
      ∃ st, s.bridge.station o.index = some st ∧ st.config.group = some g) → s.bridge.locked k = false := fun k hk => by
    refine Bool.eq_false_iff.mpr fun hlocked => ?_
    obtain ⟨g, hg, hnotIdle, hnotDone⟩ := (s.bridge.locked_iff k).mp hlocked
    exact (hunlocked g (hk g hg)).elim hnotIdle hnotDone
  have hconflict : s.bridge.stwConflict o = false := by
    rw [Bridge.stwConflict, Bool.or_eq_false_iff]
    constructor
    · cases hbound : s.bridge.boundTo o.config.address with
      | none => rfl
      | some j =>
        obtain ⟨st, hbinds⟩ := Bridge.binds_of_boundTo hbound
        exact decide_eq_false (not_not.mpr (hfree j st hbinds))
    · cases hgroup : o.config.group with
      | none => rfl
      | some g => exact decide_eq_false (hroom g hgroup).not_ge
  have htaken := stationWrite_taken hconflict
    ⟨hunlockedAt _ fun g hg => .inr (groupOf_eq_some.mp hg), hunlockedAt _ fun g hg => .inl hg⟩
    (fun hm => Bool.eq_false_iff.mpr fun hp => by
      obtain ⟨p, hrun⟩ := (s.bridge.probed_iff o.index).mp hp
      exact hidle (hmoves.mp hm) p hrun)
    (fun hm => Bool.eq_false_iff.mpr fun hf => by
      obtain ⟨st, hst, hfatal'⟩ := (isFatal_iff _).mp hf
      exact hfatal (hmoves.mp hm) st hst hfatal')
  have hwrote : WroteEntry s.bridge o.index (some (writtenStation (s.bridge.station o.index) o.config o.offset))
      (movesStation (s.bridge.station o.index) o.config.address) _ := Bridge.writeEntry_wrote
    (fun g hleft => by
      obtain ⟨st, hst, hg, -⟩ := Bridge.leftGroup_eq_some.mp hleft
      exact DriveGroup.inactive_of_unlocked (hunlocked g (.inr ⟨st, hst, hg⟩)))
    (fun y hy g hleft hg => by
      cases hy
      exact writtenStation_undelivered hleft hg)
  have hleaves_iff : ∀ g, s.bridge.leftGroup o.index
      (some (writtenStation (s.bridge.station o.index) o.config o.offset))
      (movesStation (s.bridge.station o.index) o.config.address) = some g ↔
      ∃ st, s.bridge.station o.index = some st ∧ st.config.group = some g ∧
        (st.config.address ≠ o.config.address ∨ o.config.group ≠ some g) := fun g => by
    rw [Bridge.leftGroup_eq_some, groupOf_writtenStation]
    refine exists_congr fun st => and_congr_right fun hst => and_congr_right fun _ => or_congr_left ?_
    rw [hst, movesStation, decide_eq_true_eq]
  have hexec : exec (.stw src tag ops) s =
      .next (s.replied src tag 1#8 (stationWrite o s.bridge).1 (stationWrite o s.bridge).2) :=
    congrArg Host.Outcome.next (State.serve_decoded ht hd src tag 1#8 _)
  rw [htaken] at hexec
  generalize s.bridge.writeEntry _ _ _ = c at hwrote hexec
  obtain ⟨hentry, hothers, hrelease, htracker, hmask, htreatments, hstore, hcheck, htrip, hgroups, hleaves⟩ := hwrote
  refine ⟨s.replied src tag 1#8 (.done (stationFields (c.station o.index))) c, ?_, s.replied_eta .., ?_⟩
  · rw [hexec, State.replied_bridge]
  · rw [State.replied_bridge]
    refine ⟨hentry.trans (congrArg some ?_), hothers, hmask, htreatments, hstore, hcheck, htracker, htrip, hrelease,
      fun g => ?_, ?_⟩
    · cases s.bridge.station o.index with
      | none => rfl
      | some st =>
        by_cases ha : st.config.address = o.config.address
        · rw [writtenStation_kept ha]
          exact (if_neg (not_not.mpr ha)).symm
        · rw [writtenStation_moved ha]
          exact (if_pos ha).symm
    · obtain ⟨hrecord, hrun, hmaster⟩ := hgroups g
      exact ⟨hrecord, hrun, hmaster.trans (if_congr (or_congr_right (and_congr_left' hmoves)) rfl rfl)⟩
    · obtain ⟨w, heq, hmasters, hleft, hkept⟩ := hleaves
      refine ⟨w, hentry ▸ heq, hmasters, fun g hg => hleft g ((hleaves_iff g).mpr hg), fun hnone => hkept ?_⟩
      exact Option.eq_none_iff_forall_ne_some.mpr fun g hg => hnone g ((hleaves_iff g).mp hg)

/-- Settles O32. -/
theorem stationClear : Obligations.StationClear := by
  intro src tag index s hindex ht i locked probed fatal answers
  have hd : decodeOperands readStation [index] = some i := decodeOperands_readStation hindex
  have hexec : exec (.stc src tag [index]) s =
      .next (s.replied src tag 3#8 (Machine.stationClear i s.bridge).1 (Machine.stationClear i s.bridge).2) :=
    congrArg Host.Outcome.next (State.serve_decoded ht hd src tag 3#8 _)
  have hlocked : s.bridge.locked (groupOf (s.bridge.station i)) = true ↔ locked := by
    rw [Bridge.locked_iff]
    simp only [groupOf_eq_some]
    constructor
    · rintro ⟨g, ⟨st, hst, hg⟩, hrun⟩
      exact ⟨st, g, hst, hg, hrun⟩
    · rintro ⟨st, g, hst, hg, hrun⟩
      exact ⟨g, ⟨st, hst, hg⟩, hrun⟩
  have hprobed : s.bridge.probed i = true ↔ probed := s.bridge.probed_iff i
  have hfatal : isFatal (s.bridge.station i) = true ↔ fatal := isFatal_iff _
  refine ⟨fun h => ?_, fun h hl => ?_, fun h hl hp => ?_, fun h hl hp hf => ?_, fun h hl hp hf => ?_⟩
  · change exec _ s = _
    rw [hexec, Machine.stationClear, if_pos h]
    rfl
  · change exec _ s = _
    rw [hexec, Machine.stationClear, if_neg h, if_pos (hlocked.mpr hl)]
    rfl
  · change exec _ s = _
    rw [hexec, Machine.stationClear, if_neg h, if_neg (hlocked.not.mpr hl), if_pos (hprobed.mpr hp)]
    rfl
  · change exec _ s = _
    rw [hexec, Machine.stationClear, if_neg h, if_neg (hlocked.not.mpr hl), if_neg (hprobed.not.mpr hp),
      if_pos (hfatal.mpr hf)]
    rfl
  · have htaken : Machine.stationClear i s.bridge = (.done [], s.bridge.clearEntry i) := by
      rw [Machine.stationClear]
      simp only [if_neg h, if_neg (hlocked.not.mpr hl), if_neg (hprobed.not.mpr hp), if_neg (hfatal.not.mpr hf)]
    have hwrote : WroteEntry { s.bridge with treatments := s.bridge.treatments.set i none } i none true
        (s.bridge.clearEntry i) := by
      refine Bridge.writeEntry_wrote (fun g hleft => ?_) fun st hst => by cases hst
      obtain ⟨st, hst, hg, -⟩ := Bridge.leftGroup_eq_some.mp hleft
      refine DriveGroup.inactive_of_unlocked (Classical.byContradiction fun hnot => hl ⟨st, g, hst, hg, not_or.mp hnot⟩)
    have hleaves_iff : ∀ g, Bridge.leftGroup { s.bridge with treatments := s.bridge.treatments.set i none } i none true =
        some g ↔ ∃ st, s.bridge.station i = some st ∧ st.config.group = some g := fun g => by
      rw [Bridge.leftGroup_eq_some]
      exact exists_congr fun st => and_congr_right fun _ => and_iff_left (.inl rfl)
    rw [htaken] at hexec
    generalize s.bridge.clearEntry i = c at hwrote hexec
    obtain ⟨hentry, hothers, hrelease, htracker, hmask, htreatments, hstore, hcheck, htrip, hgroups, hleaves⟩ := hwrote
    refine ⟨s.replied src tag 3#8 (.done []) c, ?_, s.replied_eta .., ?_⟩
    · rw [hexec, State.replied_bridge]
    · rw [State.replied_bridge]
      refine ⟨hentry, htreatments, hothers, hmask, hstore, hcheck, htracker, htrip, fun g => ?_, ?_⟩
      · obtain ⟨hrecord, hrun, hmaster⟩ := hgroups g
        refine ⟨hrecord, hrun, hmaster.trans ?_⟩
        simp only [true_and]
        rfl
      · obtain ⟨w, heq, hmasters, hleft, hkept⟩ := hleaves
        refine ⟨w, heq, hmasters, fun g hg => hleft g ((hleaves_iff g).mpr hg), fun hnone => hkept ?_⟩
        exact Option.eq_none_iff_forall_ne_some.mpr fun g hg => hnone g ((hleaves_iff g).mp hg)

end Sys2Proof.Proofs
end

section
/-! PROOFS. The unwind, fault actions, excursions, and the stage entry with its event (R95, R103, R120, R123 to R133). -/

namespace Sys2Proof.Machine

/-! ## The unwind (R120) -/

/-- The speed of a group after its next unwind step. -/
def DriveGroup.unwound (x : DriveGroup) : Int := approach x.speed x.reference x.record.abortRamp

/-- The blend count of a group whose speed has become `v`. -/
def DriveGroup.blended (x : DriveGroup) (v : Int) : Nat :=
  if (v - x.reference).natAbs ≤ x.record.blendWindow then x.blend + 1 else 0

/-- A step of C toward the reference and the blend count after it. -/
theorem Bridge.rampTo_takeBlend (b : Bridge) (g : GroupIx) (rate : Nat) :
    let x := b.group g
    let v := approach x.speed x.reference rate
    (b.rampTo g x.reference rate).takeBlend g =
      (b.setGroup g { x with speed := v, blend := x.blended v }, decide (x.blended v = 4)) := by
  intro x v
  unfold Bridge.takeBlend Bridge.rampTo Bridge.modifyGroup
  simp only [Bridge.group_setGroup, if_true, Bridge.setGroup_setGroup]
  rfl

theorem Bridge.unwindStep_eq (b : Bridge) (g : GroupIx) :
    let x := b.group g
    let stepped := b.setGroup g { x with speed := x.unwound, blend := x.blended x.unwound }
    b.unwindStep g = if x.blended x.unwound = 4 then stepped.endUnwind g else stepped := by
  intro x stepped
  have hstep := b.rampTo_takeBlend g x.record.abortRamp
  unfold Bridge.unwindStep
  rw [hstep]
  simp only [decide_eq_true_eq]
  rfl

/-- A group that unwinds takes its unwind step at its close. -/
theorem Bridge.stageProgress_unwinding {b : Bridge} {g : GroupIx} (h : (b.group g).unwinds = true)
    (failing : List StationIx) (alarm : Bool) : b.stageProgress g failing alarm = b.unwindStep g := by
  have hplan : (b.group g).inPlan = false := by
    have hall : ∀ r, DriveGroup.unwinds { b.group g with runState := r } = true →
        DriveGroup.inPlan { b.group g with runState := r } = false := by
      intro r hr
      cases r with
      | aborting | fault => rfl
      | _ => cases hr
    exact hall (b.group g).runState h
  unfold Bridge.stageProgress
  simp only [hplan, h, if_true]

theorem Bridge.endUnwind_fault {b : Bridge} {g : GroupIx} {cause : Cause} {sub : FaultSub}
    (h : (b.group g).runState = .fault cause sub) :
    b.endUnwind g = b.setGroup g { b.group g with runState := .fault cause .settled } := by
  unfold Bridge.endUnwind
  rw [h]
  rfl

theorem Bridge.endUnwind_aborting {b : Bridge} {g : GroupIx} (h : (b.group g).runState = .aborting) :
    b.endUnwind g = (b.postGroup .planAborted g).modifyGroup g DriveGroup.toIdle := by
  unfold Bridge.endUnwind
  rw [h]

/-! ## Fault actions (R123, R124) -/

theorem Bridge.sendStage_eq (b : Bridge) :
    b.sendTrip .stage = { b with
      trip := { b.trip with stage := true }, events := (b.sendTrip .stage).events
      eventsLost := (b.sendTrip .stage).eventsLost } := by
  unfold Bridge.sendTrip Bridge.post
  split
  · rfl
  · conv_lhs => rw [b.append_eq]
    rfl

section
variable {b : Bridge} {g : GroupIx} (cause : Cause) (i : Option StationIx)

theorem Bridge.takeFaultAction_unwinds (h : (b.currentStage g).faultAction = some .halt ∨
    (b.currentStage g).faultAction = some .excursion ∧ (b.group g).runState = .held) :
    b.takeFaultAction g cause i = b.enterFault g cause .unwinding i (b.group g).stage := by
  unfold Bridge.takeFaultAction
  rcases h with h | ⟨h, hheld⟩
  · simp only [h]
    rfl
  · simp only [h, DriveGroup.isHeld, hheld, decide_true, if_true]
    rfl

theorem Bridge.takeFaultAction_trip (h : (b.currentStage g).faultAction = some .trip) :
    b.takeFaultAction g cause i = (b.enterFault g cause .settled i (b.group g).stage).sendTrip .stage := by
  unfold Bridge.takeFaultAction
  simp only [h]
  rfl

theorem Bridge.takeFaultAction_excursion {target : Nat} (h : (b.currentStage g).faultAction = some .excursion)
    (hheld : (b.group g).runState ≠ .held) (ht : (b.currentStage g).excTarget = some target) :
    b.takeFaultAction g cause i =
      if (b.group g).stack.length < 3 then b.takeExcursion g target cause i else b.deferExcursion g target cause i := by
  unfold Bridge.takeFaultAction
  simp only [h, DriveGroup.isHeld, decide_eq_false hheld, ht]
  rfl

end

theorem DriveGroup.faultBlend_of_inPlan {x : DriveGroup} (h : x.inPlan = true) : x.faultBlend .unwinding = 0 := by
  have hunwinds : x.unwinds = false := by
    have hall : ∀ r, DriveGroup.inPlan { x with runState := r } = true →
        DriveGroup.unwinds { x with runState := r } = false := by
      intro r hr
      cases r with
      | running | held => rfl
      | _ => cases hr
    exact hall x.runState h
  rw [DriveGroup.faultBlend, hunwinds]
  rfl

/-! ## The stage entry and its event (R95, R103) -/

theorem Bridge.stageAt_congr {b c : Bridge} (h : c.store = b.store) : c.stageAt = b.stageAt := by
  funext i
  rw [Bridge.stageAt, Bridge.stageAt, h]

theorem Bridge.verdict_congr {b c : Bridge} (h : c.store = b.store) : c.verdict = b.verdict := by
  funext range i
  rw [Bridge.verdict, Bridge.verdict, Bridge.stageAt_congr h]

theorem Bridge.enterStage_refused {b : Bridge} {g : GroupIx} {i : Nat} (h : b.verdict (b.group g).planRange i ≠ none) :
    b.enterStage g i = b.enterFault g .stageInvalid .unwinding none (some i) := by
  unfold Bridge.enterStage
  cases hv : b.verdict (b.group g).planRange i with
  | none => exact absurd hv h
  | some d => rfl

theorem Bridge.enterStage_passed {b : Bridge} {g : GroupIx} {i : Nat} (h : b.verdict (b.group g).planRange i = none) :
    b.enterStage g i = b.beginStage g i (decide (b.mode g = .speed)) (b.trimsOn g) := by
  unfold Bridge.enterStage
  rw [h]

theorem Bridge.seedWhen_others (b : Bridge) (g : GroupIx) (seeds : Bool) :
    let c := b.seedWhen g seeds
    c.events = b.events ∧ c.eventsLost = b.eventsLost ∧ c.trip = b.trip ∧ c.store = b.store ∧ c.tracker = b.tracker := by
  cases seeds
  · exact ⟨rfl, rfl, rfl, rfl, rfl⟩
  · simp [Bridge.seedWhen, Bridge.seedTrims]

theorem Bridge.recordEntry_others (b : Bridge) (g : GroupIx) (r : StageRecord) :
    let c := b.recordEntry g r
    c.events = b.events ∧ c.eventsLost = b.eventsLost ∧ c.trip = b.trip ∧ c.store = b.store ∧ c.tracker = b.tracker ∧
      (∀ j, c.station j = b.station j) ∧ ∀ k, k ≠ g → c.group k = b.group k := by
  unfold Bridge.recordEntry
  split
  · refine ⟨rfl, rfl, rfl, rfl, rfl, fun _ => rfl, fun k hk => ?_⟩
    simp only [Bridge.group_modifyGroup, if_neg (Ne.symm hk)]
  · exact ⟨rfl, rfl, rfl, rfl, rfl, fun _ => rfl, fun _ _ => rfl⟩

/-- The event of a stage entry, and what the entry does not touch. -/
theorem Bridge.beginStage_others (b : Bridge) (g : GroupIx) (i : Nat) (wasSpeed hadTrims : Bool) :
    let c := b.beginStage g i wasSpeed hadTrims
    (b.events.length ≤ 64 →
      Posted b c [⟨.stageEntered, b.tracker.cycle, some g, none, some i, (b.group g).planTag, none⟩]) ∧
    c.trip = b.trip ∧ ∀ k, k ≠ g → c.group k = b.group k := by
  unfold Bridge.beginStage
  simp only
  generalize hm : ((b.modifyGroup g _).postGroup _ g _).modifyGroup g _ = m
  have hposted : b.events.length ≤ 64 →
      Posted b m [⟨.stageEntered, b.tracker.cycle, some g, none, some i, (b.group g).planTag, none⟩] := fun h => by
    have happend := Posted.append b ⟨.stageEntered, b.tracker.cycle, some g, none, some i, (b.group g).planTag, none⟩ h
    refine happend.congr rfl rfl ?_ ?_ <;>
      rw [← hm] <;> simp [Bridge.postGroup, Bridge.post, Bridge.append] <;> split <;> rfl
  have htrip : m.trip = b.trip := by
    rw [← hm]
    simp [Bridge.postGroup, Bridge.post]
  have hothers : ∀ k, k ≠ g → m.group k = b.group k := fun k hk => by
    rw [← hm]
    simp [Bridge.postGroup, Bridge.post, Ne.symm hk]
  obtain ⟨hseed, hseedLost, hseedTrip, -, -⟩ := m.seedWhen_others g ((b.stageAt i).trimsOn && !hadTrims)
  obtain ⟨hseedGroup, -, -⟩ := m.seedWhen_spec g ((b.stageAt i).trimsOn && !hadTrims)
  generalize m.seedWhen g _ = n at hseed hseedLost hseedTrip hseedGroup ⊢
  obtain ⟨hevents, hlost, hentryTrip, -, -, -, hgroups⟩ := n.recordEntry_others g (b.stageAt i)
  refine ⟨fun h => (hposted h).congr rfl rfl (hevents.trans hseed) (hlost.trans hseedLost),
    hentryTrip.trans (hseedTrip.trans htrip), fun k hk => ?_⟩
  rw [Bridge.group_modifyGroup, if_neg (Ne.symm hk), hgroups k hk, hseedGroup, hothers k hk]

/-- A stage entry reads of the bridge only the Station Table, the Stage Store and the group. -/
theorem EntersStage.congr {b n c : Bridge} {g : GroupIx} {i : Nat} (h : EntersStage n c g i)
    (hs : n.stations = b.stations) (hr : n.store = b.store) (hg : n.group g = b.group g) : EntersStage b c g i := by
  have hstation : ∀ j, n.station j = b.station j := Bridge.station_congr hs
  have hmembers : n.members g = b.members g := Bridge.members_congr g fun j => by rw [hstation]
  have hmode : n.mode g = b.mode g := Bridge.mode_congr hr (by rw [hg]) (by rw [hg])
  have htrims : n.trimsOn g = b.trimsOn g := by
    rw [Bridge.trimsOn, Bridge.trimsOn, hg, Bridge.currentStage_congr hr (by rw [hg])]
  simpa only [EntersStage, hg, Bridge.stageAt_congr hr, hmode, htrims, hmembers, hstation] using h

/-! ## Excursions (R130 to R133) -/

/-- The group has pushed `frame`, given its probe up and posted EXCURSION_TAKEN; the target stage is still to be
entered. -/
def Bridge.excursed (b : Bridge) (g : GroupIx) (frame : StackFrame) (target : Nat) (cause : Cause)
    (i : Option StationIx) : Bridge :=
  ((b.modifyGroup g fun x => { x with stack := frame :: x.stack }).releaseProbe g).postGroup .excursionTaken g
    (some target) (some cause) i

theorem Bridge.takeExcursion_eq {b : Bridge} {g : GroupIx} {stage : Nat} {phase : Phase}
    (hs : (b.group g).stage = some stage) (hp : (b.group g).phase = some phase) (target : Nat) (cause : Cause)
    (i : Option StationIx) :
    b.takeExcursion g target cause i = (b.excursed g (b.frameOf g stage phase) target cause i).enterStage g target := by
  unfold Bridge.takeExcursion
  rw [hs, hp]
  rfl

/-- What the first half of an excursion leaves. -/
theorem Bridge.excursed_spec (b : Bridge) (g : GroupIx) (frame : StackFrame) (target : Nat) (cause : Cause)
    (i : Option StationIx) :
    let c := b.excursed g frame target cause i
    FaultWork b c ∧ c.group g = { b.group g with stack := frame :: (b.group g).stack, waiting := false } ∧
    (b.events.length ≤ 64 → Posted b c
      [⟨.excursionTaken, b.tracker.cycle, some g, i, some target, (b.group g).planTag, some cause⟩]) ∧
    (b.OwnersSound → GivesUpProbe b c g ∧ ∀ p, (c.probe p).owner ≠ some (.group g)) := by
  unfold Bridge.excursed
  simp only
  generalize hn : (b.modifyGroup g fun x => { x with stack := frame :: x.stack }) = n
  have hgroup : n.group g = { b.group g with stack := frame :: (b.group g).stack } := by
    rw [← hn, Bridge.group_modifyGroup, if_pos rfl]
  have hprobe : ∀ p, n.probe p = b.probe p := fun p => by rw [← hn, Bridge.probe_modifyGroup]
  have hothers : ∀ k, k ≠ g → n.group k = b.group k := fun k hk => by
    rw [← hn, Bridge.group_modifyGroup, if_neg (Ne.symm hk)]
  have hwork : ArbiterWork b (n.releaseProbe g) := by
    rw [← hn]
    exact (ArbiterWork.modifyGroup b g _).trans (ArbiterWork.releaseProbe _ g)
  obtain ⟨hreleased, hunowned⟩ := n.releaseProbe_group g
  have hrest : n.stations = b.stations ∧ n.store = b.store ∧ n.tracker = b.tracker := by
    rw [← hn]
    exact ⟨rfl, rfl, rfl⟩
  obtain ⟨hstations, hstore, htracker⟩ := hrest
  have hgives : b.OwnersSound → GivesUpProbe b (n.releaseProbe g) g := fun hsound =>
    Bridge.releaseProbe_givesUp (fun p q => hsound.single p q g) hstations hstore htracker hprobe hothers
  generalize n.releaseProbe g = m at hwork hreleased hunowned hgives ⊢
  have hevent : m.postGroup .excursionTaken g (some target) (some cause) i =
      m.append ⟨.excursionTaken, b.tracker.cycle, some g, i, some target, (b.group g).planTag, some cause⟩ := by
    rw [Bridge.postGroup, Bridge.post, hreleased, hgroup, hwork.tracker]
  rw [hevent]
  refine ⟨(FaultWork.ofArbiter hwork).trans (FaultWork.append m _), ?_, fun he => ?_, fun hsound => ⟨?_, fun p => ?_⟩⟩
  · rw [Bridge.group_append, hreleased, hgroup]
  · exact (Posted.append m _ (hwork.events ▸ he)).congr hwork.events.symm hwork.eventsLost.symm rfl rfl
  · exact (hgives hsound).congr (fun p => Bridge.probe_append ..) fun k _ => Bridge.group_append ..
  · rw [Bridge.probe_append]
    exact hunowned (fun p q => by rw [hprobe, hprobe]; exact hsound.single p q g) p

/-- The excursion waits in the pending slot, and EXCURSION_PENDING is posted (R133). -/
def Bridge.deferred (b : Bridge) (g : GroupIx) (d : Deferred) : Bridge :=
  (b.modifyGroup g fun x => { x with deferred := some d }).postGroup .excursionPending g (some d.target) (some d.cause)
    d.station

theorem Bridge.deferred_spec (b : Bridge) (g : GroupIx) (d : Deferred) :
    (b.deferred g d).group g = { b.group g with deferred := some d } ∧
    (b.events.length ≤ 64 → Posted b (b.deferred g d)
      [⟨.excursionPending, b.tracker.cycle, some g, d.station, some d.target, (b.group g).planTag, some d.cause⟩]) := by
  have hgroup : (b.modifyGroup g fun x => { x with deferred := some d }).group g =
      { b.group g with deferred := some d } := by
    rw [Bridge.group_modifyGroup, if_pos rfl]
  unfold Bridge.deferred Bridge.postGroup Bridge.post
  rw [hgroup]
  exact ⟨by rw [Bridge.group_append, hgroup], fun he => (Posted.append (b.modifyGroup g _) _ he).congr rfl rfl rfl rfl⟩

theorem Bridge.deferExcursion_defers {b : Bridge} {g : GroupIx} {stage target : Nat} {cause : Cause}
    {i : Option StationIx} (hd : (b.group g).deferred = none) (hs : (b.group g).stage = some stage) :
    b.deferExcursion g target cause i =
      if cause = .tuneFailed then (b.deferred g ⟨target, stage, cause, i⟩).resettle g
      else b.deferred g ⟨target, stage, cause, i⟩ := by
  unfold Bridge.deferExcursion
  rw [hd, hs]
  rfl

theorem Bridge.deferExcursion_overflows {b : Bridge} {g : GroupIx} {stage target : Nat} {cause : Cause}
    {i : Option StationIx} (hd : (b.group g).deferred ≠ none) (hs : (b.group g).stage = some stage) :
    b.deferExcursion g target cause i = b.enterFault g .excursionOverflow .unwinding i (some stage) := by
  unfold Bridge.deferExcursion
  cases hslot : (b.group g).deferred with
  | none => exact absurd hslot hd
  | some d =>
    rw [← hs]
    rfl

/-- A fault of a group that owns no probe leaves every probe and every other group. -/
theorem Bridge.enterFault_unowned {b : Bridge} {g : GroupIx} (h : ∀ p, (b.probe p).owner ≠ some (.group g))
    (cause : Cause) (sub : FaultSub) (i : Option StationIx) (stage : Option Nat) :
    (∀ p, (b.enterFault g cause sub i stage).probe p = b.probe p) ∧
      ∀ k, k ≠ g → (b.enterFault g cause sub i stage).group k = b.group k := by
  have hgives : GivesUpProbe b (b.enterFault g cause sub i stage) g := by
    unfold Bridge.enterFault Bridge.postGroup Bridge.post
    refine Bridge.releaseProbe_givesUp (fun p q hp => absurd hp (h p)) ?_ ?_ ?_ (fun p => ?_) fun k hk => ?_
    · rw [Bridge.append_stations]
      rfl
    · rw [Bridge.append_store]
      rfl
    · rw [Bridge.append_tracker]
      rfl
    · rw [Bridge.probe_append, Bridge.probe_setGroup]
    · rw [Bridge.group_append, Bridge.group_setGroup, if_neg (Ne.symm hk)]
  obtain ⟨hprobe, hgroup, -⟩ := hgives
  exact ⟨fun p => hprobe p (h p), hgroup h⟩

end Sys2Proof.Machine

namespace Sys2Proof.Proofs

open Sys2Proof.Machine

/-- Settles O23. -/
theorem unwindAtClose : Obligations.UnwindAtClose := by
  intro b g failing alarm he x c v n
  have hstep : b.unwindStep g = if n = 4 then (b.setGroup g { x with speed := v, blend := n }).endUnwind g
      else b.setGroup g { x with speed := v, blend := n } := b.unwindStep_eq g
  refine ⟨fun cause h => ?_, fun h hn => ?_, fun h hn => ?_⟩
  all_goals
    have hunwinds : x.unwinds = true := by
      unfold DriveGroup.unwinds
      rw [h]
    have hc : c = b.unwindStep g := Bridge.stageProgress_unwinding hunwinds failing alarm
    rw [hc, hstep]
  · by_cases hn : n = 4
    · rw [if_pos hn, Bridge.endUnwind_fault (cause := cause) (sub := .unwinding)
        (by rw [Bridge.group_setGroup, if_pos rfl]; exact h), Bridge.setGroup_setGroup, Bridge.group_setGroup, if_pos rfl,
        if_pos hn]
      rfl
    · rw [if_neg hn, if_neg hn, ← h]
      rfl
  · exact if_neg hn
  · rw [if_pos hn, Bridge.endUnwind_aborting (by rw [Bridge.group_setGroup, if_pos rfl]; exact h), Bridge.postGroup,
      Bridge.post]
    refine ⟨?_, ?_, fun k hk => ?_⟩
    · rw [Bridge.group_modifyGroup, if_pos rfl, Bridge.group_append, Bridge.group_setGroup, if_pos rfl]
      rfl
    · refine (Posted.append (b.setGroup g { x with speed := v, blend := n }) _ he).congr rfl rfl ?_ ?_ <;>
        rw [Bridge.group_setGroup, if_pos rfl] <;> rfl
    · rw [Bridge.group_modifyGroup, if_neg (Ne.symm hk), Bridge.group_append, Bridge.group_setGroup, if_neg (Ne.symm hk)]

/-- Settles O24. -/
theorem faultActionsHaltAndTrip : Obligations.FaultActionsHaltAndTrip := by
  intro b g cause i he hsound hplan x r c y fault common
  have hsingle : ∀ p q, (b.probe p).owner = some (.group g) → (b.probe q).owner = some (.group g) → p = q :=
    fun p q => hsound.single p q g
  refine ⟨fun h => ?_, fun h => ?_⟩
  · have hc : c = b.enterFault g cause .unwinding i x.stage := Bridge.takeFaultAction_unwinds cause i h
    obtain ⟨hgroup, hposted, howner⟩ := b.enterFault_spec g cause .unwinding i x.stage
    have hwork := FaultWork.enterFault b g cause .unwinding i x.stage
    have hgives := Bridge.enterFault_givesUp (g := g) hsound cause .unwinding i x.stage
    rw [← hc] at hgroup hposted howner hwork hgives
    have hy : y = _ := hgroup
    refine ⟨by rw [hy], ⟨by rw [hy], by rw [hy], by rw [hy], by rw [hy], by rw [hy], by rw [hy], howner hsingle, hgives,
      hwork.stations⟩, ?_, ?_, hwork.trip, hposted he⟩
    · rw [hy]
      exact DriveGroup.faultBlend_of_inPlan hplan
    · rw [hy]
      rfl
  · let d := b.enterFault g cause .settled i x.stage
    have hc : c = d.sendTrip .stage := Bridge.takeFaultAction_trip cause i h
    obtain ⟨hgroup, hposted, howner⟩ := b.enterFault_spec g cause .settled i x.stage
    have hwork := FaultWork.enterFault b g cause .settled i x.stage
    have hgives := Bridge.enterFault_givesUp (g := g) hsound cause .settled i x.stage
    have hfault : Posted b d [fault] := hposted he
    have htrip := d.sendTrip_posted .stage hfault.length
    have hsend := d.sendStage_eq
    rw [← hc] at htrip hsend
    have hy : y = d.group g := by
      change c.group g = d.group g
      rw [hsend]
      rfl
    have hprobe : ∀ p, c.probe p = d.probe p := fun p => by
      rw [hsend]
      cases p <;> rfl
    have hothers : ∀ k, c.group k = d.group k := fun k => by
      rw [hsend]
      rfl
    have hctrip : c.trip = { b.trip with stage := true } := by
      rw [hsend, ← hwork.trip]
    have hstations : c.stations = b.stations := by
      rw [hsend]
      exact hwork.stations
    rw [hgroup] at hy
    refine ⟨by rw [hy], ⟨by rw [hy], by rw [hy], by rw [hy], by rw [hy], by rw [hy], by rw [hy],
      fun p => by rw [hprobe]; exact howner hsingle p, hgives.congr hprobe fun k _ => hothers k, hstations⟩, hctrip, ?_⟩
    rw [hwork.trip, hwork.tracker] at htrip
    split
    · rename_i hopen
      rw [if_pos hopen] at htrip
      exact hfault.trans htrip
    · rename_i hopen
      rw [if_neg hopen] at htrip
      exact hfault.trans htrip

/-- Settles O25. -/
theorem faultActionExcursion : Obligations.FaultActionExcursion := by
  intro b g cause i target stage phase he hrun hstage hphase haction htarget x c y
  have hnotHeld : x.runState ≠ .held := by rw [hrun]; exact RunState.noConfusion
  have haction := Bridge.takeFaultAction_excursion cause i haction hnotHeld htarget
  have hexcursion := Bridge.takeExcursion_eq hstage hphase target cause i
  obtain ⟨hwork, hgroup, hposted, hgives⟩ := b.excursed_spec g (b.frameOf g stage phase) target cause i
  have hframe : b.frameOf g stage phase =
      { stage := stage, phase := phase, dwell := x.dwell
        retries := if (b.currentStage g).kind = .tune then x.retries else 0
        origin := if (x.planRange.map fun p => p.contains stage) = some true then .plan else .excursion } := by
    have hcurrent : b.currentStage g = b.stageAt stage := by rw [Bridge.currentStage, hstage]
    rw [hcurrent]
    rfl
  generalize b.excursed g (b.frameOf g stage phase) target cause i = m at hexcursion hwork hgroup hposted hgives
  have hverdict : m.verdict (m.group g).planRange target = b.verdict x.planRange target := by
    rw [Bridge.verdict_congr hwork.store, hgroup]
  have hposted := hposted he
  refine ⟨fun hroom hv => ?_, fun hroom hv => ?_, fun hfull hd => ?_, fun hfull hd => ?_⟩
  · have hc : c = m.enterStage g target := haction.trans ((if_pos hroom).trans hexcursion)
    have henters : EntersStage m c g target := hc ▸ Bridge.enterStage_enters (hverdict.trans hv)
    rw [Bridge.enterStage_passed (hverdict.trans hv)] at hc
    obtain ⟨hentered, -, hothers⟩ := m.beginStage_others g target (decide (m.mode g = .speed)) (m.trimsOn g)
    obtain ⟨hyRun, -, hyStack, hyDeferred, hyWaiting, hyStage, -, -, hprobes⟩ :=
      m.beginStage_group g target (decide (m.mode g = .speed)) (m.trimsOn g)
    rw [← hc] at hentered hothers hyRun hyStack hyDeferred hyWaiting hyStage hprobes
    rw [hgroup] at hyStack hyDeferred hyWaiting hentered
    have hstack : y.stack = b.frameOf g stage phase :: x.stack := hyStack
    refine ⟨hyRun, hyStage, hyDeferred, hyWaiting, hstack.trans (by rw [hframe]), ?_,
      fun hsound => (hgives hsound).1.congr hprobes hothers, ?_⟩
    · refine henters.congr hwork.stations hwork.store ?_
      rw [hgroup, hstack]
      exact (b.group_setGroup g g _).symm ▸ (if_pos rfl).symm
    · have hboth := hposted.trans (hentered hposted.length)
      rw [hwork.tracker] at hboth
      exact hboth
  · have hc : c = m.enterFault g .stageInvalid .unwinding none (some target) :=
      haction.trans ((if_pos hroom).trans (hexcursion.trans (Bridge.enterStage_refused (hverdict.trans_ne hv))))
    obtain ⟨hfaulted, hfault, -⟩ := m.enterFault_spec g .stageInvalid .unwinding none (some target)
    have hunowned := fun h => m.enterFault_unowned (g := g) h .stageInvalid .unwinding none (some target)
    rw [← hc] at hfaulted hfault hunowned
    rw [hgroup] at hfaulted hfault
    have hy : y = _ := hfaulted
    refine ⟨by rw [hy], by rw [hy]; exact hstage, by rw [hy], fun hsound => ?_, ?_⟩
    · obtain ⟨hgiven, hfree⟩ := hgives hsound
      obtain ⟨hprobes, hothers⟩ := hunowned hfree
      exact hgiven.congr hprobes hothers
    · have hboth := hposted.trans (hfault hposted.length)
      rw [hwork.tracker] at hboth
      exact hboth
  · have hc : c = b.deferExcursion g target cause i := haction.trans (if_neg hfull.not_gt)
    rw [Bridge.deferExcursion_defers hd hstage] at hc
    obtain ⟨hdeferred, hpending⟩ := b.deferred_spec g ⟨target, stage, cause, i⟩
    generalize b.deferred g ⟨target, stage, cause, i⟩ = n at hc hdeferred hpending
    by_cases hcause : cause = .tuneFailed
    · rw [if_pos hcause, Bridge.resettle] at hc
      have hy : y = { n.group g with phase := some .settling, settle := (n.currentStage g).dwell.getD 0 } := by
        change c.group g = _
        rw [hc, Bridge.group_modifyGroup, if_pos rfl]
      rw [hy, hdeferred, if_pos hcause, hc]
      exact ⟨hrun, hstage, rfl, rfl, rfl, (hpending he).congr rfl rfl rfl rfl⟩
    · rw [if_neg hcause] at hc
      have hy : y = n.group g := by rw [← hc]
      rw [hy, hdeferred, if_neg hcause, hc]
      exact ⟨hrun, hstage, rfl, rfl, hphase, hpending he⟩
  · have hc : c = b.enterFault g .excursionOverflow .unwinding i (some stage) :=
      haction.trans ((if_neg hfull.not_gt).trans (Bridge.deferExcursion_overflows hd hstage))
    obtain ⟨hfaulted, hfault, -⟩ := b.enterFault_spec g .excursionOverflow .unwinding i (some stage)
    have hgives := fun hsound => Bridge.enterFault_givesUp (b := b) (g := g) hsound .excursionOverflow .unwinding i (some stage)
    rw [← hc] at hfaulted hfault hgives
    have hy : y = _ := hfaulted
    exact ⟨by rw [hy], by rw [hy], by rw [hy], hgives, hfault he⟩

end Sys2Proof.Proofs
end

section
/-! PROOFS. The end of a stage with RETURN (R134 to R137). -/

namespace Sys2Proof.Machine

/-- A group's event, as one append. -/
theorem Bridge.postGroup_eq (b : Bridge) (kind : EventKind) (g : GroupIx) (stage : Option Nat) (cause : Option Cause)
    (i : Option StationIx) :
    b.postGroup kind g stage cause i =
      b.append ⟨kind, b.tracker.cycle, some g, i, stage, (b.group g).planTag, cause⟩ := rfl

theorem Bridge.recordEntry_group (b : Bridge) (g : GroupIx) (r : StageRecord) :
    (b.recordEntry g r).group g =
      if r.kind = .bump then
        { b.group g with bumpEntry := some (b.group g).speed, bumpActuals := b.entryActuals g }
      else b.group g := by
  unfold Bridge.recordEntry
  split
  · rw [Bridge.group_modifyGroup, if_pos rfl]
  · rfl

/-- The group as a return leaves it, before its alarm is looked at (R135, R136). -/
def DriveGroup.returned (x : DriveGroup) (r : StageRecord) (f : StackFrame) (rest : List StackFrame)
    (actuals : List EntryActual) : DriveGroup :=
  let z := { x with stack := rest, stage := some f.stage, runState := .running }.resumed r f
  if r.kind = .bump then { z with bumpEntry := some x.speed, bumpActuals := actuals } else z

/-- What a return leaves: the group, the trims it seeds, its event and nothing else. -/
theorem Bridge.resume_spec (b : Bridge) (g : GroupIx) (f : StackFrame) (rest : List StackFrame) :
    let r := b.stageAt f.stage
    let c := b.resume g f rest
    c.group g = (b.group g).returned r f rest (b.entryActuals g) ∧
    (∀ k, k ≠ g → c.group k = b.group k) ∧
    (∀ j, c.station j = (b.station j).map fun st =>
      if st.config.group = some g ∧ (r.trimsOn && !b.trimsOn g) = true then
        { st with run := { st.run with trim := clampAbs (b.group g).record.trimLimit st.config.offset } }
      else st) ∧
    (b.events.length ≤ 64 → Posted b c
      [⟨.excursionReturn, b.tracker.cycle, some g, none, some f.stage, (b.group g).planTag, none⟩]) ∧
    c.trip = b.trip ∧ c.store = b.store ∧ c.tracker = b.tracker := by
  unfold Bridge.resume
  simp only
  generalize hm : (b.modifyGroup g fun x =>
    { x with stack := rest, stage := some f.stage, runState := .running }.resumed (b.stageAt f.stage) f) = m
  have hgroup : m.group g =
      { b.group g with stack := rest, stage := some f.stage, runState := .running }.resumed (b.stageAt f.stage) f := by
    rw [← hm, Bridge.group_modifyGroup, if_pos rfl]
  have hothers : ∀ k, k ≠ g → m.group k = b.group k := fun k hk => by
    rw [← hm, Bridge.group_modifyGroup, if_neg (Ne.symm hk)]
  have hsame : m.stations = b.stations ∧ m.events = b.events ∧ m.eventsLost = b.eventsLost ∧ m.trip = b.trip ∧
      m.store = b.store ∧ m.tracker = b.tracker := by
    rw [← hm]
    exact ⟨rfl, rfl, rfl, rfl, rfl, rfl⟩
  obtain ⟨hstations, hevents, hlost, htrip, hstore, htracker⟩ := hsame
  have hactuals : m.entryActuals g = b.entryActuals g := by
    rw [Bridge.entryActuals, Bridge.entryActuals,
      Bridge.members_congr (c := m) (b := b) g fun i => by rw [Bridge.station_congr hstations]]
    simp only [Bridge.station_congr hstations]
  have hentry := m.recordEntry_group g (b.stageAt f.stage)
  have hentryOthers := m.recordEntry_others g (b.stageAt f.stage)
  generalize m.recordEntry g (b.stageAt f.stage) = n at hentry hentryOthers ⊢
  obtain ⟨hentryEvents, hentryLost, hentryTrip, hentryStore, hentryTracker, hentryStations, hentryOthers⟩ := hentryOthers
  generalize ((b.stageAt f.stage).trimsOn && !b.trimsOn g) = seeds
  obtain ⟨hseedGroup, -, hseedStation⟩ := n.seedWhen_spec g seeds
  have hseedOthers := n.seedWhen_others g seeds
  generalize n.seedWhen g seeds = q at hseedGroup hseedStation hseedOthers ⊢
  obtain ⟨hseedEvents, hseedLost, hseedTrip, hseedStore, hseedTracker⟩ := hseedOthers
  have hqgroup : q.group g = (b.group g).returned (b.stageAt f.stage) f rest (b.entryActuals g) := by
    rw [hseedGroup, hentry, hactuals, hgroup]
    rfl
  have htag : (q.group g).planTag = (b.group g).planTag := by
    rw [hqgroup, DriveGroup.returned]
    split <;> rfl
  have hrecord : (n.group g).record = (b.group g).record := by
    rw [hentry, hgroup]
    split <;> rfl
  rw [Bridge.postGroup_eq, htag, hseedTracker, hentryTracker, htracker]
  refine ⟨by rw [Bridge.group_append, hqgroup], fun k hk => ?_, fun j => ?_, fun he => ?_, ?_, ?_, ?_⟩
  · rw [Bridge.group_append, hseedGroup, hentryOthers k hk, hothers k hk]
  · rw [Bridge.station_append, hseedStation, hentryStations, Bridge.station_congr hstations, hrecord]
  · have hqevents : q.events = b.events := hseedEvents.trans (hentryEvents.trans hevents)
    exact (Posted.append q _ (hqevents ▸ he)).congr hqevents.symm
      (hseedLost.trans (hentryLost.trans hlost)).symm rfl rfl
  · rw [Bridge.append_trip, hseedTrip, hentryTrip, htrip]
  · rw [Bridge.append_store, hseedStore, hentryStore, hstore]
  · rw [Bridge.append_tracker, hseedTracker, hentryTracker, htracker]

/-- What a return keeps of its group and what it takes from the frame. -/
theorem DriveGroup.returned_fields (x : DriveGroup) (r : StageRecord) (f : StackFrame) (rest : List StackFrame)
    (actuals : List EntryActual) :
    let y := x.returned r f rest actuals
    y.runState = .running ∧ y.stage = some f.stage ∧ y.stack = rest ∧ y.deferred = x.deferred ∧ y.speed = x.speed ∧
      y.planTag = x.planTag ∧ y.planRange = x.planRange ∧ y.phase = some (r.resumedPhase x.speed f.phase) ∧
      y.reference = x.reference := by
  unfold DriveGroup.returned DriveGroup.resumed
  simp only
  split <;> exact ⟨rfl, rfl, rfl, rfl, rfl, rfl, rfl, rfl, rfl⟩

/-- The counts of a resumed stage (R136). -/
theorem DriveGroup.returned_counts (x : DriveGroup) (r : StageRecord) (f : StackFrame) (rest : List StackFrame)
    (actuals : List EntryActual) :
    let y := x.returned r f rest actuals
    (r.kind ∈ [StageKind.pass, .trim, .creep, .thread] → y.dwell = f.dwell) ∧
      (r.kind = .bump → y.dwell = r.dwell.getD 0 ∧ y.bumpEntry = some x.speed ∧ y.bumpActuals = actuals) ∧
      (r.kind = .tune → y.retries = f.retries) ∧
      (r.exit = some .settled ∨ r.kind = .tune → y.settle = r.dwell.getD 0) ∧ (r.kind = .handback → y.blend = 0) := by
  unfold DriveGroup.returned DriveGroup.resumed
  refine ⟨fun h => ?_, fun h => ?_, fun h => ?_, fun h => ?_, fun h => ?_⟩
  · simp only [List.mem_cons, List.not_mem_nil, or_false] at h
    rcases h with h | h | h | h <;> simp [h]
  · simp [h]
  · simp [h]
  · simp only
    rw [if_pos h]
    split <;> rfl
  · simp [h]

theorem Bridge.endStage_return {b : Bridge} {g : GroupIx} {stage : Nat} (hs : (b.group g).stage = some stage)
    (hn : (b.stageAt stage).next = some .ret) :
    b.endStage g = (b.postGroup .stageDone g (some stage)).endWithReturn g := by
  unfold Bridge.endStage
  simp only [hs, hn]

theorem Bridge.endWithReturn_deferred {b : Bridge} {g : GroupIx} {d : Deferred} (h : (b.group g).deferred = some d) :
    b.endWithReturn g =
      ((b.modifyGroup g fun x => { x with deferred := none }).postGroup .excursionTaken g (some d.target) (some d.cause)
        d.station).enterStage g d.target := by
  unfold Bridge.endWithReturn
  rw [h]

theorem Bridge.endWithReturn_frame {b : Bridge} {g : GroupIx} {f : StackFrame} {rest : List StackFrame}
    (h : (b.group g).deferred = none) (hs : (b.group g).stack = f :: rest) :
    b.endWithReturn g = b.returnTo g f rest := by
  unfold Bridge.endWithReturn
  rw [h, hs]

theorem Bridge.returnTo_quiet {b : Bridge} {g : GroupIx} {f : StackFrame} {rest : List StackFrame}
    (h : (b.group g).alarm = false) : b.returnTo g f rest = b.resume g f rest := by
  obtain ⟨-, -, -, -, -, -, -, halarm, -⟩ := b.resume_group g f rest
  unfold Bridge.returnTo
  simp only [halarm, h, Bool.false_eq_true, if_false]

theorem Bridge.returnTo_alarm {b : Bridge} {g : GroupIx} {f : StackFrame} {rest : List StackFrame}
    (h : (b.group g).alarm = true) : b.returnTo g f rest = (b.resume g f rest).takeFaultAction g .alarm := by
  obtain ⟨-, -, -, -, -, -, -, halarm, -⟩ := b.resume_group g f rest
  unfold Bridge.returnTo
  simp only [halarm, h, if_true]

end Sys2Proof.Machine

namespace Sys2Proof.Proofs

open Sys2Proof.Machine

/-- Settles O42. -/
theorem returnAtStageEnd : Obligations.ReturnAtStageEnd := by
  intro b g stage he hrun hstage hnext x cycle c y event
  obtain ⟨s, hs⟩ : ∃ s, s = b.append (event .stageDone none stage none) := ⟨_, rfl⟩
  have hc : c = s.endWithReturn g := by
    change b.endStage g = _
    rw [Bridge.endStage_return hstage hnext, Bridge.postGroup_eq, hs]
  have hdone : Posted b s [event .stageDone none stage none] := hs ▸ Posted.append b _ he
  have hsgroup : ∀ k, s.group k = b.group k := fun k => by rw [hs, Bridge.group_append]
  have hsstore : s.store = b.store := by rw [hs, Bridge.append_store]
  have hstracker : s.tracker = b.tracker := by rw [hs, Bridge.append_tracker]
  have hstrip : s.trip = b.trip := by rw [hs, Bridge.append_trip]
  have hsstations : s.stations = b.stations := by rw [hs, Bridge.append_stations]
  refine ⟨fun d hd hv => ?_, fun f rest hd hstack => ?_⟩
  · rw [Bridge.endWithReturn_deferred (by rw [hsgroup]; exact hd)] at hc
    generalize hn : s.modifyGroup g (fun x => { x with deferred := none }) = n at hc
    have hngroup : n.group g = { x with deferred := none } := by
      rw [← hn, Bridge.group_modifyGroup, if_pos rfl, hsgroup]
    have hnrest : n.store = b.store ∧ n.tracker = b.tracker ∧ n.events = s.events ∧ n.eventsLost = s.eventsLost := by
      rw [← hn, ← hsstore, ← hstracker]
      exact ⟨rfl, rfl, rfl, rfl⟩
    obtain ⟨hnstore, hntracker, hnevents, hnlost⟩ := hnrest
    rw [Bridge.postGroup_eq, hngroup, hntracker] at hc
    have htaken : Posted s (n.append (event .excursionTaken d.station d.target (some d.cause))) _ :=
      (Posted.append n _ (hnevents ▸ hdone.length)).congr hnevents.symm hnlost.symm rfl rfl
    have hboth := hdone.trans htaken
    generalize hp : n.append (event .excursionTaken d.station d.target (some d.cause)) = p at hboth
    have hpgroup : p.group g = { x with deferred := none } := by rw [← hp, Bridge.group_append, hngroup]
    have hpstore : p.store = b.store := by rw [← hp, Bridge.append_store, hnstore]
    have hptracker : p.tracker = b.tracker := by rw [← hp, Bridge.append_tracker, hntracker]
    have hc : c = p.enterFault g .stageInvalid .unwinding none (some d.target) := by
      rw [hc, ← Bridge.enterStage_refused (b := p), ← hp]
      rw [Bridge.verdict_congr hpstore, hpgroup]
      exact hv
    obtain ⟨hfaulted, hfault, -⟩ := p.enterFault_spec g .stageInvalid .unwinding none (some d.target)
    rw [← hc, hpgroup] at hfaulted hfault
    rw [hptracker] at hfault
    have hy : y = _ := hfaulted
    refine ⟨by rw [hy], by rw [hy]; exact hstage, by rw [hy], by rw [hy], by rw [hy], ?_⟩
    exact hboth.trans (hfault hboth.length)
  · intro r waits phase returned
    have hc : c = s.returnTo g f rest :=
      hc.trans (Bridge.endWithReturn_frame (by rw [hsgroup]; exact hd) (by rw [hsgroup]; exact hstack))
    obtain ⟨hgroup, hothers, hstation, hposted, htrip, hstore, htracker⟩ := s.resume_spec g f rest
    have hr : s.stageAt f.stage = r := by rw [Bridge.stageAt_congr hsstore]
    have hactuals : s.entryActuals g = b.entryActuals g := by
      rw [Bridge.entryActuals, Bridge.entryActuals,
        Bridge.members_congr (c := s) (b := b) g fun i => by rw [Bridge.station_congr hsstations]]
      simp only [Bridge.station_congr hsstations]
    have hphase : r.resumedPhase x.speed f.phase = phase := rfl
    rw [hr, hsgroup, hactuals] at hgroup
    rw [hr] at hstation
    have hreturned : Posted b (s.resume g f rest) returned := by
      have hboth := hdone.trans (hposted hdone.length)
      rw [hstracker, hsgroup] at hboth
      exact hboth
    have hquiet : x.alarm = false → c = s.resume g f rest := fun h =>
      hc.trans (Bridge.returnTo_quiet (by rw [hsgroup]; exact h))
    have halarm : x.alarm = true → c = (s.resume g f rest).takeFaultAction g .alarm := fun h =>
      hc.trans (Bridge.returnTo_alarm (by rw [hsgroup]; exact h))
    obtain ⟨hrunState, hstageOf, hstackOf, hdeferred, hspeed, htag, hrange, hphaseOf, href⟩ :=
      x.returned_fields r f rest (b.entryActuals g)
    obtain ⟨hdwell, hbump, htune, hsettle, hhandback⟩ := x.returned_counts r f rest (b.entryActuals g)
    generalize s.resume g f rest = n at hgroup hothers hstation htrip hstore htracker hreturned hquiet halarm
    rw [← hgroup] at hrunState hstageOf hstackOf hdeferred hspeed htag hrange hphaseOf href hdwell hbump htune hsettle
    rw [← hgroup] at hhandback
    have hcurrent : n.currentStage g = r := by
      rw [Bridge.currentStage, hstageOf]
      exact (congrFun (Bridge.stageAt_congr hstore) _).trans hr
    have hplan : (n.group g).inPlan = true := by
      rw [DriveGroup.inPlan, DriveGroup.isRunning, hrunState]
      rfl
    have hmode : n.mode g = r.mode := by rw [Bridge.mode, if_pos hplan, hcurrent]
    have hseeds : (r.trimsOn && !s.trimsOn g) = true ↔ r.trims = some true ∧ (b.stageAt stage).trims ≠ some true := by
      have hsplan : (s.group g).inPlan = true := by
        rw [hsgroup, DriveGroup.inPlan, DriveGroup.isRunning, hrun]
        rfl
      have hscurrent : s.currentStage g = b.stageAt stage := by
        rw [Bridge.currentStage_congr hsstore (by rw [hsgroup]), Bridge.currentStage, hstage]
      rw [Bridge.trimsOn, hsplan, hscurrent]
      simp [StageRecord.trimsOn]
    refine ⟨fun h => ?_, fun h haction => ?_, fun h haction => ?_, fun target h haction htarget hroom => ?_⟩
    · have hcn := hquiet h
      have hy : y = n.group g := by rw [← hcn]
      rw [hy, hcn]
      refine ⟨hrunState, hstageOf, hstackOf, hdeferred.trans hd, hspeed, htag, hrange, hphaseOf.trans (congrArg some hphase),
        hdwell, hbump, htune, hsettle, hhandback, fun j => ?_, fun k hk => ?_, hreturned⟩
      · rw [hstation j, Bridge.station_congr hsstations, hsgroup]
        refine congrArg (Option.map · _) (funext fun st => if_congr (and_congr_right fun _ => hseeds) rfl rfl)
      · rw [hothers k hk, hsgroup]
    · have hcn := (halarm h).trans (Bridge.takeFaultAction_unwinds .alarm none (.inl (hcurrent ▸ haction)))
      obtain ⟨hfaulted, hfault, -⟩ := n.enterFault_spec g .alarm .unwinding none (n.group g).stage
      have hwork := FaultWork.enterFault n g .alarm .unwinding none (n.group g).stage
      rw [← hcn] at hfaulted hfault hwork
      have hy : y = _ := hfaulted
      refine ⟨by rw [hy], by rw [hy]; exact hstageOf, by rw [hy], by rw [hy], ?_, ?_, hwork.trip.trans (htrip.trans hstrip), ?_⟩
      · rw [hy]
        exact DriveGroup.faultBlend_of_inPlan hplan
      · rw [hy]
        change n.unwindStart g = _
        rw [Bridge.unwindStart, hmode, hspeed, href]
      · have hboth := hreturned.trans (hfault hreturned.length)
        rw [htracker, hstracker, hstageOf, htag] at hboth
        exact hboth
    · have hcn := (halarm h).trans (Bridge.takeFaultAction_trip .alarm none (hcurrent ▸ haction))
      obtain ⟨hfaulted, hfault, -⟩ := n.enterFault_spec g .alarm .settled none (n.group g).stage
      have hwork := FaultWork.enterFault n g .alarm .settled none (n.group g).stage
      generalize n.enterFault g .alarm .settled none (n.group g).stage = d at hcn hfaulted hfault hwork
      have hboth := hreturned.trans (hfault hreturned.length)
      have hopened := d.sendTrip_posted .stage hboth.length
      have hsend := d.sendStage_eq
      rw [← hcn] at hopened hsend
      have hy : y = d.group g := by
        change c.group g = d.group g
        rw [hsend]
        rfl
      have hdtrip : d.trip = b.trip := hwork.trip.trans (htrip.trans hstrip)
      rw [hfaulted] at hy
      rw [htracker, hstracker, hstageOf, htag] at hboth
      rw [hdtrip, hwork.tracker, htracker, hstracker] at hopened
      refine ⟨by rw [hy], by rw [hy]; exact hstageOf, by rw [hy], by rw [hy], ?_, hboth.trans hopened⟩
      rw [hsend, ← hdtrip]
    · have hexcursion := faultActionExcursion n g .alarm none target f.stage phase hreturned.length hrunState hstageOf
        (hphaseOf.trans (congrArg some hphase)) (hcurrent ▸ haction) (hcurrent ▸ htarget)
      rw [← halarm h, hcurrent] at hexcursion
      obtain ⟨hentered, hrefused, -, -⟩ := hexcursion
      have hroom' : (n.group g).stack.length < 3 := by
        rw [hstackOf]
        exact Nat.lt_succ_of_le hroom
      have hverdict : n.verdict (n.group g).planRange target = b.verdict x.planRange target := by
        rw [hrange, Bridge.verdict_congr (hstore.trans hsstore)]
      rw [htag, htracker, hstracker] at hentered hrefused
      refine ⟨fun hv => ?_, fun hv => ?_⟩
      · obtain ⟨hyRun, hyStage, hyDeferred, -, hyStack, -, -, hyPosted⟩ := hentered hroom' (hverdict.trans hv)
        rw [hstackOf, hrange] at hyStack
        refine ⟨hyRun, hyStage, hyDeferred.trans (hdeferred.trans hd), ⟨_, hyStack, rfl, rfl,
          hdwell, fun h => (hbump h).1, ?_, rfl⟩, hreturned.trans hyPosted⟩
        by_cases hkind : r.kind = .tune
        · rw [if_pos hkind, if_pos hkind]
          exact htune hkind
        · rw [if_neg hkind, if_neg hkind]
      · obtain ⟨hyRun, hyStage, hyStack, -, hyPosted⟩ := hrefused hroom' (hverdict.trans_ne hv)
        exact ⟨hyRun, hyStage, hyStack, hreturned.trans hyPosted⟩

end Sys2Proof.Proofs
end

section
/-! PROOFS. Stage progress at a group close (R105 to R114). -/

namespace Sys2Proof.Machine

/-! ## Ramps and counts (R106, R107, R108) -/

theorem approach_reached {c target : Int} {rate : Nat} (h : (target - c).natAbs ≤ rate) : approach c target rate = target :=
  if_pos h

theorem approach_up {c target : Int} {rate : Nat} (h : rate < (target - c).natAbs) (hc : c < target) :
    approach c target rate = c + rate := by
  rw [approach, if_neg h.not_ge, if_pos hc]

theorem approach_down {c target : Int} {rate : Nat} (h : rate < (target - c).natAbs) (hc : ¬c < target) :
    approach c target rate = c - rate := by
  rw [approach, if_neg h.not_ge, if_neg hc]

/-- A step reaches the target exactly where the rate spans the distance. -/
theorem approach_eq_target_iff {c target : Int} {rate : Nat} :
    approach c target rate = target ↔ (target - c).natAbs ≤ rate := by
  refine ⟨fun h => not_lt.mp fun hlt => ?_, approach_reached⟩
  by_cases hc : c < target
  · rw [approach_up hlt hc] at h
    omega
  · rw [approach_down hlt hc] at h
    omega

/-- The close is settled (R108). -/
theorem ShareResult.settled_iff {v : ShareResult} {window : Nat} :
    v.settled window = true ↔ v.outcome = .single ∨
      v.outcome = .evaluated ∧ ∀ m ∈ v.members, ∀ j, m.judgement = some j → j.error.natAbs ≤ window := by
  have hmember : ∀ m : MemberShare, (match m.judgement with
      | some j => decide (j.error.natAbs ≤ window)
      | none => true) = true ↔ ∀ j, m.judgement = some j → j.error.natAbs ≤ window := fun m => by
    cases m.judgement <;> simp
  unfold ShareResult.settled
  cases v.outcome with
  | single => simp
  | suspended => simp
  | belowFloor => simp
  | evaluated =>
    simp only [List.all_eq_true, reduceCtorEq, true_and, false_or]
    exact forall₂_congr fun m _ => hmember m

section
variable {b : Bridge} {g : GroupIx}

theorem Bridge.rampTo_eq (b : Bridge) (g : GroupIx) (target : Int) (rate : Nat) :
    b.rampTo g target rate = b.setGroup g { b.group g with speed := approach (b.group g).speed target rate } := rfl

theorem Bridge.takeDwell_eq (b : Bridge) (g : GroupIx) :
    b.takeDwell g =
      (b.setGroup g { b.group g with dwell := (b.group g).dwell - 1 }, decide ((b.group g).dwell - 1 = 0)) := rfl

/-- The share result that stands settles the current stage's close. -/
def Bridge.settles (b : Bridge) (g : GroupIx) : Prop :=
  ∃ v, (b.group g).shareResult = some v ∧ (v.outcome = .single ∨ v.outcome = .evaluated ∧
    ∀ m ∈ v.members, ∀ j, m.judgement = some j → j.error.natAbs ≤ (b.currentStage g).settleWindow.getD 0)

theorem Bridge.settles_iff : ((b.group g).shareResult.map fun s => s.settled ((b.currentStage g).settleWindow.getD 0)) =
    some true ↔ b.settles g := by
  rw [Option.map_eq_some_iff]
  exact exists_congr fun v => and_congr_right fun _ => ShareResult.settled_iff

theorem Bridge.takeSettle_unsettled (h : ¬b.settles g) :
    b.takeSettle g = (b.setGroup g { b.group g with settle := (b.currentStage g).dwell.getD 0 }, false) :=
  if_neg (Bridge.settles_iff.not.mpr h)

theorem Bridge.takeSettle_settled (h : b.settles g) :
    b.takeSettle g =
      (b.setGroup g { b.group g with settle := (b.group g).settle - 1 }, decide ((b.group g).settle - 1 = 0)) :=
  if_pos (Bridge.settles_iff.mpr h)

/-! ## Triggers, and the phase of a RUNNING group (R105) -/

theorem Bridge.stageProgress_held (h : (b.group g).runState = .held) : b.stageProgress g [] false = b := by
  unfold Bridge.stageProgress
  simp [DriveGroup.inPlan, DriveGroup.isRunning, DriveGroup.isHeld, h]

theorem Bridge.stageProgress_running (h : (b.group g).runState = .running) :
    b.stageProgress g [] false = b.progress g := by
  unfold Bridge.stageProgress
  simp [DriveGroup.inPlan, DriveGroup.isRunning, DriveGroup.isHeld, h]

theorem Bridge.stageProgress_direction (h : (b.group g).inPlan = true) (i : StationIx) (rest : List StationIx)
    (alarm : Bool) : b.stageProgress g (i :: rest) alarm = b.takeFaultAction g .direction (some i) := by
  unfold Bridge.stageProgress
  simp only [h]

theorem Bridge.stageProgress_alarm (h : (b.group g).inPlan = true) :
    b.stageProgress g [] true = b.takeFaultAction g .alarm := by
  unfold Bridge.stageProgress
  simp only [h, if_true]

/-! ## RAMP and RISE, FALL, BLEND (R106, R111, R114) -/

theorem Bridge.progress_ramp {target : Int} {rate : Nat}
    (hp : (b.group g).phase = some .ramp ∨ (b.group g).phase = some .rise)
    (ht : (b.currentStage g).target = some target) (hr : (b.currentStage g).ramp = some rate) :
    let x := b.group g
    let v := approach x.speed target rate
    b.progress g = b.setGroup g
      (if v = target then
        { x with speed := v, phase := some (if (b.currentStage g).exit = some .confirm then .awaitConfirm else .dwell) }
      else { x with speed := v }) := by
  intro x v
  have hprogress : b.progress g = b.progressRamp g := by
    unfold Bridge.progress
    rcases hp with hp | hp <;> rw [hp]
  rw [hprogress, Bridge.progressRamp]
  simp only [ht, hr, Bridge.rampTo_eq, Bridge.group_setGroup, if_true, Bridge.setPhase, Bridge.modifyGroup,
    Bridge.setGroup_setGroup]
  split <;> rfl

theorem Bridge.progress_fall {entry : Int} {rate : Nat} (hp : (b.group g).phase = some .fall)
    (he : (b.group g).bumpEntry = some entry) (hr : (b.currentStage g).ramp = some rate) :
    let v := approach (b.group g).speed entry rate
    b.progress g =
      if v = entry then (b.setGroup g { b.group g with speed := v }).endStage g
      else b.setGroup g { b.group g with speed := v } := by
  have hfall : b.progressFall g =
      if ((b.rampTo g entry rate).group g).speed = entry then (b.rampTo g entry rate).endStage g
      else b.rampTo g entry rate := by
    unfold Bridge.progressFall
    rw [he, hr]
  have hgroup : ((b.rampTo g entry rate).group g).speed = approach (b.group g).speed entry rate := by
    rw [Bridge.rampTo_eq, Bridge.group_setGroup, if_pos rfl]
  intro v
  have hprogress : b.progress g = b.progressFall g := by
    unfold Bridge.progress
    rw [hp]
  rw [hprogress, hfall, hgroup]
  rfl

theorem Bridge.progress_blend {rate : Nat} (hp : (b.group g).phase = some .blend)
    (hr : (b.currentStage g).ramp = some rate) :
    let x := b.group g
    let v := approach x.speed x.reference rate
    b.progress g =
      if x.blended v = 4 then (b.setGroup g { x with speed := v, blend := x.blended v }).endStage g
      else b.setGroup g { x with speed := v, blend := x.blended v } := by
  intro x v
  have hstep : (b.rampTo g (b.group g).reference rate).takeBlend g =
    (b.setGroup g { x with speed := v, blend := x.blended v }, decide (x.blended v = 4)) := b.rampTo_takeBlend g rate
  have hprogress : b.progress g = b.progressBlend g := by
    unfold Bridge.progress
    rw [hp]
  rw [hprogress, Bridge.progressBlend, hr]
  simp only [hstep, decide_eq_true_eq]

theorem Bridge.progress_waits
    (hp : (b.group g).phase = some .awaitConfirm ∨ (b.group g).phase = some .waitProbe) : b.progress g = b := by
  unfold Bridge.progress
  rcases hp with hp | hp <;> rw [hp]

/-! ## DWELL (R107, R108, R110) -/

theorem Bridge.progress_dwell (hp : (b.group g).phase = some .dwell) : b.progress g = b.progressDwell g := by
  unfold Bridge.progress
  rw [hp]

theorem Bridge.progressDwell_bump (hk : (b.currentStage g).kind = .bump) :
    b.progressDwell g = b.setGroup g
      (if (b.group g).dwell - 1 = 0 then { b.group g with dwell := (b.group g).dwell - 1, phase := some .fall }
      else { b.group g with dwell := (b.group g).dwell - 1 }) := by
  unfold Bridge.progressDwell
  simp only [if_pos hk, Bridge.takeDwell_eq, decide_eq_true_eq, Bridge.setPhase, Bridge.modifyGroup,
    Bridge.group_setGroup, if_true, Bridge.setGroup_setGroup]
  split <;> rfl

theorem Bridge.progressDwell_dwell (hk : (b.currentStage g).kind ≠ .bump) (he : (b.currentStage g).exit = some .dwell) :
    b.progressDwell g =
      if (b.group g).dwell - 1 = 0 then
        (b.setGroup g { b.group g with dwell := (b.group g).dwell - 1 }).endStage g
      else b.setGroup g { b.group g with dwell := (b.group g).dwell - 1 } := by
  unfold Bridge.progressDwell
  simp only [if_neg hk, he, Bridge.takeDwell_eq, decide_eq_true_eq]

theorem Bridge.progressDwell_dwellThenConfirm (hk : (b.currentStage g).kind ≠ .bump)
    (he : (b.currentStage g).exit = some .dwellThenConfirm) :
    b.progressDwell g = b.setGroup g
      (if (b.group g).dwell - 1 = 0 then { b.group g with dwell := (b.group g).dwell - 1, phase := some .awaitConfirm }
      else { b.group g with dwell := (b.group g).dwell - 1 }) := by
  unfold Bridge.progressDwell
  simp only [if_neg hk, he, Bridge.takeDwell_eq, decide_eq_true_eq, Bridge.setPhase, Bridge.modifyGroup,
    Bridge.group_setGroup, if_true, Bridge.setGroup_setGroup]
  split <;> rfl

theorem Bridge.progressDwell_settled (hk : (b.currentStage g).kind ≠ .bump)
    (he : (b.currentStage g).exit = some .settled) :
    b.progressDwell g = if (b.takeSettle g).2 = true then (b.takeSettle g).1.endStage g else (b.takeSettle g).1 := by
  unfold Bridge.progressDwell
  simp only [if_neg hk, he]

/-! ## SETTLING and the claim of a probe (R106, R108, R112, R143) -/

theorem Bridge.progress_settling {target : Int} {rate : Nat} (hp : (b.group g).phase = some .settling)
    (ht : (b.currentStage g).target = some target) (hr : (b.currentStage g).ramp = some rate) :
    b.progress g =
      if (b.group g).speed = target then
        if (b.takeSettle g).2 = true then (b.takeSettle g).1.claim g else (b.takeSettle g).1
      else b.rampTo g target rate := by
  unfold Bridge.progress
  rw [hp]
  simp only [Bridge.progressSettling, ht, hr]

theorem Probe.free_iff {p : Probe} :
    p.free = true ↔ p.state = .idle ∨ p.state = .done ∧ ∃ tag, p.owner = some (.request tag) := by
  unfold Probe.free
  cases p.state with
  | idle => simp
  | running => simp
  | done => cases p.owner with
    | none => simp
    | some owner => cases owner <;> simp

theorem Bridge.claim_waits (h1 : ¬b.probe1.free = true) (h2 : ¬b.probe2.free = true) :
    b.claim g = b.setGroup g { b.group g with phase := some .waitProbe, waiting := true } := by
  rw [Bridge.claim, if_neg h1, if_neg h2]
  rfl

theorem Bridge.grant_eq {i : StationIx} {w : Nat} (p : ProbeId) (hi : b.leader g = some i)
    (hw : (b.currentStage g).probeWindow = some w) :
    b.grant p g = (b.setProbe p (startedProbe (.group g) i .fixed w)).setGroup g
      { b.group g with phase := some .probing, waiting := false } := by
  unfold Bridge.grant
  rw [hi, hw]
  simp only [Bridge.modifyGroup, Bridge.group_setProbe]

/-! ## PROBING (R113) -/

theorem Bridge.progress_probing (hp : (b.group g).phase = some .probing) : b.progress g = b.progressProbing g := by
  unfold Bridge.progress
  rw [hp]

theorem Bridge.ownedProbe_eq_none (h : ∀ p, (b.probe p).owner ≠ some (.group g)) : b.ownedProbe g = none := by
  cases ho : b.ownedProbe g with
  | none => rfl
  | some p => exact absurd (Bridge.ownedProbe_some ho) (h p)

end

end Sys2Proof.Machine

namespace Sys2Proof.Proofs

open Sys2Proof.Machine

/-- Settles O22. -/
theorem stageProgressAtClose : Obligations.StageProgressAtClose := by
  intro b g x r set leaves ends settled
  have hrunning : x.runState = .running → b.stageProgress g [] false = b.progress g := Bridge.stageProgress_running
  have hdwell : x.runState = .running → x.phase = some .dwell → b.stageProgress g [] false = b.progressDwell g :=
    fun h hp => (hrunning h).trans (Bridge.progress_dwell hp)
  have hsettles : settled ↔ b.settles g := Iff.rfl
  refine ⟨fun h => ?_, Bridge.stageProgress_held, fun target rate h hp ht hr => ?_, fun h hp hk he hn => ?_,
    fun h hp hk he hn => ?_, fun h hp hk he hn => ?_, fun h hp hk he => ?_, fun h hp hk hn => ?_, fun h hp hk hn => ?_,
    fun entry rate h hp he hr => ?_, fun target rate h hp ht hr hne => ?_, fun rate h hp ht hr => ?_, fun h hp => ?_,
    fun rate h hp hr => ?_, fun h hp => (hrunning h).trans (Bridge.progress_waits hp)⟩
  · have hplan : x.inPlan = true := by
      rcases h with h | h <;> simp [DriveGroup.inPlan, DriveGroup.isRunning, DriveGroup.isHeld, h]
    exact ⟨Bridge.stageProgress_direction hplan, Bridge.stageProgress_alarm hplan⟩
  · have hramp := (hrunning h).trans (Bridge.progress_ramp hp ht hr)
    refine ⟨fun hd => hramp.trans ?_, fun hd hlt => hramp.trans ?_, fun hd hlt => hramp.trans ?_⟩
    · rw [approach_reached hd, if_pos rfl]
      rfl
    · rw [if_neg (approach_eq_target_iff.not.mpr hd.not_ge), approach_up hd hlt]
      rfl
    · rw [if_neg (approach_eq_target_iff.not.mpr hd.not_ge), approach_down hd hlt.not_gt]
      rfl
  · have hleft : ¬x.dwell - 1 = 0 := by omega
    rcases he with he | he
    · exact ((hdwell h hp).trans (Bridge.progressDwell_dwell hk he)).trans (if_neg hleft)
    · exact ((hdwell h hp).trans (Bridge.progressDwell_dwellThenConfirm hk he)).trans (congrArg _ (if_neg hleft))
  · have hzero : x.dwell - 1 = 0 := by omega
    have hdone := (hdwell h hp).trans (Bridge.progressDwell_dwell hk he)
    rw [if_pos hzero, hzero] at hdone
    exact hdone
  · have hzero : x.dwell - 1 = 0 := by omega
    have hdone := (hdwell h hp).trans (Bridge.progressDwell_dwellThenConfirm hk he)
    rw [if_pos hzero, hzero] at hdone
    exact hdone
  · have hdone := (hdwell h hp).trans (Bridge.progressDwell_settled hk he)
    refine ⟨fun hs => ?_, fun hs hn => ?_, fun hs hn => ?_⟩
    · rw [Bridge.takeSettle_unsettled hs] at hdone
      exact hdone
    · have hleft : ¬x.settle - 1 = 0 := by omega
      rw [Bridge.takeSettle_settled hs] at hdone
      exact hdone.trans (if_neg fun hzero => hleft (of_decide_eq_true hzero))
    · have hzero : x.settle - 1 = 0 := by omega
      rw [Bridge.takeSettle_settled hs] at hdone
      refine hdone.trans ((if_pos (decide_eq_true hzero)).trans ?_)
      rw [hzero]
      rfl
  · have hleft : ¬x.dwell - 1 = 0 := by omega
    exact ((hdwell h hp).trans (Bridge.progressDwell_bump hk)).trans (congrArg _ (if_neg hleft))
  · have hzero : x.dwell - 1 = 0 := by omega
    have hdone := (hdwell h hp).trans (Bridge.progressDwell_bump hk)
    rw [if_pos hzero, hzero] at hdone
    exact hdone
  · have hfall := (hrunning h).trans (Bridge.progress_fall hp he hr)
    refine ⟨fun hd => hfall.trans ((if_neg (approach_eq_target_iff.not.mpr hd.not_ge)).trans ?_), fun hd => ?_⟩
    · rw [approach, if_neg hd.not_ge]
      rfl
    · rw [approach_reached hd, if_pos rfl] at hfall
      exact hfall
  · exact ((hrunning h).trans (Bridge.progress_settling hp ht hr)).trans (if_neg hne)
  · have hdone := ((hrunning h).trans (Bridge.progress_settling hp ht hr)).trans (if_pos rfl)
    refine ⟨fun hs => ?_, fun hs hn => ?_, fun hs hn => ?_⟩
    · rw [Bridge.takeSettle_unsettled hs] at hdone
      exact hdone
    · have hleft : ¬x.settle - 1 = 0 := by omega
      rw [Bridge.takeSettle_settled hs] at hdone
      exact hdone.trans (if_neg fun hzero => hleft (of_decide_eq_true hzero))
    · have hzero : x.settle - 1 = 0 := by omega
      rw [Bridge.takeSettle_settled hs] at hdone
      have hclaim := hdone.trans (if_pos (decide_eq_true hzero))
      rw [hzero] at hclaim
      generalize hn : b.setGroup g { b.group g with settle := 0 } = n at hclaim
      have hngroup : n.group g = { x with settle := 0 } := by
        rw [← hn, Bridge.group_setGroup, if_pos rfl]
      have hnstations : n.stations = b.stations := by rw [← hn]; rfl
      have hnstore : n.store = b.store := by rw [← hn]; rfl
      have hnprobe1 : n.probe1 = b.probe1 := by rw [← hn]; rfl
      have hnprobe2 : n.probe2 = b.probe2 := by rw [← hn]; rfl
      intro free
      have hfree : ∀ y, free y ↔ y.free = true := fun y => Probe.free_iff.symm
      refine ⟨fun h1 h2 => ?_, fun i w hi hw => ?_⟩
      · rw [hfree] at h1 h2
        rw [Bridge.claim_waits (hnprobe1 ▸ h1) (hnprobe2 ▸ h2), hngroup, ← hn, Bridge.setGroup_setGroup] at hclaim
        exact hclaim
      · have hgrant := fun p => Bridge.grant_eq (b := n) p ((Bridge.leader_congr hnstations g).trans hi)
          ((congrArg StageRecord.probeWindow (Bridge.currentStage_congr hnstore (by rw [hngroup]))).trans hw)
        intro granted run
        rw [hfree, hfree]
        refine ⟨fun h1 => ?_, fun h1 h2 => ?_⟩
        · rw [Bridge.claim, hnprobe1, if_pos h1, hgrant, hngroup, ← hn] at hclaim
          rw [hclaim]
          simp only [granted, set, run, Bridge.setProbe, Bridge.setGroup, Vector.set_set]
          rfl
        · rw [Bridge.claim, hnprobe1, hnprobe2, if_neg h1, if_pos h2, hgrant, hngroup, ← hn] at hclaim
          rw [hclaim]
          simp only [granted, set, run, Bridge.setProbe, Bridge.setGroup, Vector.set_set]
          rfl
  · have hprobing := (hrunning h).trans (Bridge.progress_probing hp)
    refine ⟨fun hunowned => hprobing.trans ?_, fun p ho hstate => hprobing.trans ?_⟩
    · rw [Bridge.progressProbing, Bridge.ownedProbe_eq_none hunowned]
      rfl
    · rw [Bridge.progressProbing, ho]
      exact if_neg hstate
  · have hblend := (hrunning h).trans (Bridge.progress_blend hp hr)
    intro v n
    exact ⟨fun hn => hblend.trans (if_neg hn), fun hn => (hblend.trans (if_pos hn)).trans
      (congrArg (fun k => (set { x with speed := v, blend := k }).endStage g) hn)⟩

end Sys2Proof.Proofs
end

section
/-! PROOFS. What the stage machine keeps of other parts, and the TUNE stage that takes its probe's result (R113). -/

namespace Sys2Proof.Machine

/-! ## What the stage machine of a group keeps -/

/-- A property that the pieces of group `g`'s stage machine keep: changes of the group that leave the waiting set, events,
the release of the group's probe, seeded trims and the cause STAGE. -/
structure StageKeeps (g : GroupIx) (P : Bridge → Prop) : Prop where
  setGroup : ∀ b y, y.waiting = (b.group g).waiting → P b → P (b.setGroup g y)
  append : ∀ b e, P b → P (b.append e)
  release : ∀ b, P b → P (b.releaseProbe g)
  seed : ∀ b, P b → P (b.seedTrims g)
  trip : ∀ b, P b → P (b.sendTrip .stage)

namespace StageKeeps

variable {g : GroupIx} {P : Bridge → Prop}

theorem modifyGroup (h : StageKeeps g P) {b : Bridge} (f : DriveGroup → DriveGroup)
    (hb : P b) (hf : (f (b.group g)).waiting = (b.group g).waiting := by rfl) : P (b.modifyGroup g f) :=
  h.setGroup b _ hf hb

theorem postGroup (h : StageKeeps g P) {b : Bridge} (kind : EventKind) (stage : Option Nat) (cause : Option Cause)
    (i : Option StationIx) (hb : P b) : P (b.postGroup kind g stage cause i) := h.append b _ hb

theorem enterFault (h : StageKeeps g P) {b : Bridge} (cause : Cause) (sub : FaultSub) (i : Option StationIx)
    (stage : Option Nat) (hb : P b) : P (b.enterFault g cause sub i stage) :=
  h.release _ (h.postGroup .groupFault stage (some cause) i (h.setGroup b _ rfl hb))

theorem seedWhen (h : StageKeeps g P) {b : Bridge} (seeds : Bool) (hb : P b) : P (b.seedWhen g seeds) := by
  cases seeds
  · exact hb
  · exact h.seed b hb

theorem recordEntry (h : StageKeeps g P) {b : Bridge} (r : StageRecord) (hb : P b) : P (b.recordEntry g r) := by
  unfold Bridge.recordEntry
  split
  · exact h.modifyGroup _ hb
  · exact hb

theorem beginStage (h : StageKeeps g P) {b : Bridge} (i : Nat) (wasSpeed hadTrims : Bool) (hb : P b) :
    P (b.beginStage g i wasSpeed hadTrims) := by
  unfold Bridge.beginStage
  exact h.modifyGroup _ (h.recordEntry _ (h.seedWhen _ (h.modifyGroup _ (h.postGroup _ _ _ _ (h.modifyGroup _ hb)))))

theorem resettle (h : StageKeeps g P) {b : Bridge} (hb : P b) : P (b.resettle g) := by
  unfold Bridge.resettle
  exact h.modifyGroup _ hb

theorem enterStage (h : StageKeeps g P) {b : Bridge} (i : Nat) (hb : P b) : P (b.enterStage g i) := by
  unfold Bridge.enterStage
  split
  · exact h.enterFault _ _ _ _ hb
  · exact h.beginStage _ _ _ hb

theorem takeExcursion (h : StageKeeps g P) {b : Bridge} (target : Nat) (cause : Cause) (i : Option StationIx)
    (hb : P b) : P (b.takeExcursion g target cause i) := by
  unfold Bridge.takeExcursion
  split
  · exact h.enterStage _ (h.postGroup _ _ _ _ (h.release _ (h.modifyGroup _ hb)))
  · exact hb

theorem deferExcursion (h : StageKeeps g P) {b : Bridge} (target : Nat) (cause : Cause) (i : Option StationIx)
    (hb : P b) : P (b.deferExcursion g target cause i) := by
  unfold Bridge.deferExcursion
  split
  · exact h.enterFault _ _ _ _ hb
  · simp only
    split
    · exact h.resettle (h.postGroup _ _ _ _ (h.modifyGroup _ hb))
    · exact h.postGroup _ _ _ _ (h.modifyGroup _ hb)
  · exact hb

theorem takeFaultAction (h : StageKeeps g P) {b : Bridge} (cause : Cause) (i : Option StationIx) (hb : P b) :
    P (b.takeFaultAction g cause i) := by
  unfold Bridge.takeFaultAction
  simp only
  split
  · exact hb
  · exact h.enterFault _ _ _ _ hb
  · exact h.trip _ (h.enterFault _ _ _ _ hb)
  · split
    · exact h.enterFault _ _ _ _ hb
    · split
      · exact hb
      · split
        · exact h.takeExcursion _ _ _ hb
        · exact h.deferExcursion _ _ _ hb

theorem returnTo (h : StageKeeps g P) {b : Bridge} (f : StackFrame) (rest : List StackFrame) (hb : P b) :
    P (b.returnTo g f rest) := by
  have hresumed : P (b.resume g f rest) := by
    unfold Bridge.resume
    exact h.postGroup _ _ _ _ (h.seedWhen _ (h.recordEntry _ (h.modifyGroup _ hb)))
  unfold Bridge.returnTo
  simp only
  split
  · exact h.takeFaultAction _ _ hresumed
  · exact hresumed

theorem endStage (h : StageKeeps g P) {b : Bridge} (hb : P b) : P (b.endStage g) := by
  have hdone : ∀ {c : Bridge}, P c → P (c.becomeDone g) := fun hc => h.postGroup _ _ _ _ (h.modifyGroup _ hc)
  unfold Bridge.endStage
  split
  · exact hb
  · rename_i i _
    have hposted : P (b.postGroup .stageDone g (some i)) := h.postGroup _ _ _ _ hb
    simp only
    split
    · split
      · exact hdone hposted
      · exact h.enterStage _ hposted
    · exact hdone hposted
    · unfold Bridge.endWithReturn
      split
      · exact h.enterStage _ (h.postGroup _ _ _ _ (h.modifyGroup _ hposted))
      · exact h.returnTo _ _ hposted
      · exact hposted
    · exact hposted

end StageKeeps

/-- The configurations of all stations are those of `b`. -/
theorem StageKeeps.configs (b : Bridge) (g : GroupIx) :
    StageKeeps g fun c => ∀ i, (c.station i).map Station.config = (b.station i).map Station.config where
  setGroup c y _ h := h
  append c e h i := by rw [Bridge.station_append, h]
  release c h i := by rw [Bridge.station_congr (ArbiterWork.releaseProbe c g).stations, h]
  seed c h i := by
    rw [Bridge.seedTrims, Bridge.station_mapMembers, ← h i, Option.map_map]
    refine congrArg (Option.map · _) (funext fun st => ?_)
    simp only [Function.comp]
    split <;> rfl
  trip c h i := by
    rw [Bridge.sendStage_eq]
    exact h i

/-- No group waits for a probe, and probe `p` is `z`. -/
structure Bridge.Resting (b : Bridge) (p : ProbeId) (z : Probe) : Prop where
  quiet : ∀ k, (b.group k).waiting = false
  probe : b.probe p = z

/-- A probe that the group does not own rests while no group waits. -/
theorem StageKeeps.resting (g : GroupIx) (p : ProbeId) {z : Probe} (hz : z.owner ≠ some (.group g)) :
    StageKeeps g fun c => c.Resting p z where
  setGroup c y hy h := by
    refine ⟨fun k => ?_, by rw [Bridge.probe_setGroup, h.probe]⟩
    rw [Bridge.group_setGroup]
    split
    · exact hy.trans (h.quiet g)
    · exact h.quiet k
  append c e h := ⟨fun k => by rw [Bridge.group_append, h.quiet], by rw [Bridge.probe_append, h.probe]⟩
  release c h := by
    have hreleased : ∀ d : Bridge, (∀ k, (d.group k).waiting = false) → d.probe p = z → ∀ q, q ≠ p →
        ((d.cancelRun q).probeFreed q).Resting p z ∧ ((d.idleProbe q).probeFreed q).Resting p z := fun d hd hp q hq => by
      have hcancel : ∀ k, ((d.cancelRun q).group k).waiting = false := fun k => by rw [Bridge.cancelRun_group, hd]
      have hidle : ∀ k, ((d.idleProbe q).group k).waiting = false := fun k => by rw [Bridge.idleProbe_group, hd]
      rw [Bridge.probeFreed_none hcancel, Bridge.probeFreed_none hidle]
      refine ⟨⟨hcancel, ?_⟩, ⟨hidle, ?_⟩⟩
      · rw [← hp]
        cases p <;> cases q <;> simp_all [Bridge.cancelRun, Bridge.probe, Bridge.setProbe]
      · rw [Bridge.idleProbe, Bridge.probe_setProbe, if_neg hq, hp]
    unfold Bridge.releaseProbe
    simp only
    generalize hm : (c.modifyGroup g fun x => { x with waiting := false }) = m
    have hquiet : ∀ k, (m.group k).waiting = false := fun k => by
      rw [← hm, Bridge.group_modifyGroup]
      split
      · rfl
      · exact h.quiet k
    have hprobe : m.probe p = z := by rw [← hm, Bridge.probe_modifyGroup, h.probe]
    cases ho : m.ownedProbe g with
    | none => exact ⟨hquiet, hprobe⟩
    | some q =>
      have hne : q ≠ p := fun e => hz (by rw [← hprobe, ← e]; exact Bridge.ownedProbe_some ho)
      obtain ⟨hcancelled, hidled⟩ := hreleased m hquiet hprobe q hne
      simp only
      split
      · exact hcancelled
      · exact hidled
  seed c h := by
    refine ⟨fun k => ?_, ?_⟩
    · rw [Bridge.seedTrims, Bridge.group_mapMembers, h.quiet]
    · rw [Bridge.seedTrims, Bridge.probe_mapMembers, h.probe]
  trip c h := by
    rw [Bridge.sendStage_eq]
    refine ⟨h.quiet, ?_⟩
    rw [← h.probe]
    cases p <;> rfl

/-! ## The result of a TUNE stage's probe (R113) -/

theorem ProbeResult.passes_iff {r : ProbeResult} {limit : Nat} :
    r.passes limit = true ↔ r.outcome = .completed ∧ ∃ a, r.ripple = some a ∧ a ≤ limit := by
  unfold ProbeResult.passes
  cases r.ripple <;> simp

/-- The bridge with the DONE probe taken from the group and given back to the arbiter. -/
def Bridge.giveBack (b : Bridge) (p : ProbeId) : Bridge := (b.idleProbe p).probeFreed p

theorem Bridge.giveBack_work (b : Bridge) (p : ProbeId) : ArbiterWork b (b.giveBack p) :=
  (ArbiterWork.idleProbe b p).trans (ArbiterWork.probeFreed _ p)

theorem Bridge.giveBack_group {b : Bridge} {g : GroupIx} (h : (b.group g).waiting = false) (p : ProbeId) :
    (b.giveBack p).group g = b.group g := by
  rw [Bridge.giveBack, (Bridge.probeFreed_other _ p g (by rw [Bridge.idleProbe_group, h])).1, Bridge.idleProbe_group]

theorem Bridge.giveBack_resting {b : Bridge} (h : ∀ k, (b.group k).waiting = false) (p : ProbeId) :
    (b.giveBack p).Resting p { b.probe p with state := .idle, owner := none } := by
  have hidle : ∀ k, ((b.idleProbe p).group k).waiting = false := fun k => by rw [Bridge.idleProbe_group, h]
  rw [Bridge.giveBack, Bridge.probeFreed_none hidle]
  exact ⟨hidle, by rw [Bridge.idleProbe, Bridge.probe_setProbe, if_pos rfl]⟩

theorem Bridge.progressProbing_done {b : Bridge} {g : GroupIx} {p : ProbeId} {result : ProbeResult} {limit : Nat}
    (ho : b.ownedProbe g = some p) (hs : (b.probe p).state = .done) (hr : (b.probe p).result = some result)
    (hl : (b.currentStage g).rippleLimit = some limit) :
    b.progressProbing g = (b.giveBack p).judgeProbe g (result.passes limit) := by
  unfold Bridge.progressProbing
  simp only [ho, hs, hr, hl, if_true, Option.map_some, Option.getD_some, Option.some.injEq, Bool.decide_eq_true]
  rfl

theorem Bridge.judgeProbe_passes (b : Bridge) (g : GroupIx) :
    b.judgeProbe g true = ((b.learnOffsets g).postGroup .offsetLearned g (b.group g).stage).endStage g := by
  unfold Bridge.judgeProbe
  simp only [if_true]

theorem Bridge.judgeProbe_retries {b : Bridge} {g : GroupIx} (h : 0 < (b.group g).retries) :
    b.judgeProbe g false = (b.modifyGroup g fun x => { x with retries := x.retries - 1 }).resettle g := by
  simp only [Bridge.judgeProbe, Bool.false_eq_true, if_false, if_pos h]

theorem Bridge.judgeProbe_fails {b : Bridge} {g : GroupIx} (h : (b.group g).retries = 0) :
    b.judgeProbe g false = b.takeFaultAction g .tuneFailed := by
  simp only [Bridge.judgeProbe, Bool.false_eq_true, if_false, h, lt_self_iff_false]

/-- The judging of a result keeps a probe that rests. -/
theorem Bridge.Resting.judgeProbe {b : Bridge} {p : ProbeId} {z : Probe} (h : b.Resting p z) (g : GroupIx)
    (hz : z.owner ≠ some (.group g)) (passes : Bool) : (b.judgeProbe g passes).Resting p z := by
  have hkeeps := StageKeeps.resting g p hz
  cases passes with
  | true =>
    rw [Bridge.judgeProbe_passes]
    refine hkeeps.endStage (hkeeps.postGroup _ _ _ _ ⟨fun k => ?_, ?_⟩)
    · rw [Bridge.learnOffsets, Bridge.group_mapMembers, h.quiet]
    · rw [Bridge.learnOffsets, Bridge.probe_mapMembers, h.probe]
  | false =>
    by_cases hretries : 0 < (b.group g).retries
    · rw [Bridge.judgeProbe_retries hretries]
      exact hkeeps.resettle (hkeeps.modifyGroup _ h)
    · rw [Bridge.judgeProbe_fails (Nat.eq_zero_of_not_pos hretries)]
      exact hkeeps.takeFaultAction _ _ h

end Sys2Proof.Machine

namespace Sys2Proof.Proofs

open Sys2Proof.Machine

/-- Settles O26. -/
theorem tuneTakesItsResult : Obligations.TuneTakesItsResult := by
  intro b g p result limit stage hrun hphase hwaiting hstage ho hstate hresult hlimit x passes c put freed
  have hfreed : freed = b.giveBack p := by
    cases p <;> rfl
  have hc : c = (b.giveBack p).judgeProbe g (result.passes limit) :=
    ((Bridge.stageProgress_running hrun).trans (Bridge.progress_probing hphase)).trans
      (Bridge.progressProbing_done ho hstate hresult hlimit)
  have hpasses : result.passes limit = true ↔ passes := ProbeResult.passes_iff
  have hgroup : (b.giveBack p).group g = x := Bridge.giveBack_group hwaiting p
  have hwork := b.giveBack_work p
  have hrests := fun hquiet => Bridge.giveBack_resting (b := b) hquiet p
  rw [← hfreed] at hc hgroup hwork hrests
  clear_value freed c
  refine ⟨fun hquiet => ?_, fun hp => ?_, fun hp hretries => ?_, fun hp hretries => ?_⟩
  · have hrests := (hrests hquiet).judgeProbe g (fun h => by cases h) (result.passes limit)
    rw [← hc] at hrests
    rw [hrests.probe]
    exact ⟨rfl, rfl, hresult⟩
  · rw [hpasses.mpr hp, Bridge.judgeProbe_passes, hgroup] at hc
    obtain ⟨d, hd⟩ : ∃ d, d = (freed.learnOffsets g).postGroup .offsetLearned g x.stage := ⟨_, rfl⟩
    rw [← hd] at hc
    have htag : ((freed.learnOffsets g).group g).planTag = x.planTag := by
      rw [Bridge.learnOffsets, Bridge.group_mapMembers, hgroup]
    have hcycle : (freed.learnOffsets g).tracker = b.tracker := by
      rw [Bridge.learnOffsets, Bridge.mapMembers_tracker, hwork.tracker]
    rw [Bridge.postGroup_eq, htag, hcycle, hstage] at hd
    have hdstation : ∀ i, d.station i = (b.station i).map fun st =>
        if st.config.group = some g then { st with config := { st.config with offset := st.run.trim } } else st := fun i => by
      rw [hd, Bridge.station_append, Bridge.learnOffsets, Bridge.station_mapMembers,
        Bridge.station_congr hwork.stations]
    refine ⟨⟨d, hc, ?_, hdstation, fun he => ?_⟩, fun i u v hu hv => ?_⟩
    · have hlearned : freed.learnOffsets g = { freed with stations := (freed.learnOffsets g).stations } := rfl
      generalize freed.learnOffsets g = l at hd hlearned
      have hstations : d.stations = l.stations := by rw [hd, Bridge.append_stations]
      have happend : d = { l with events := d.events, eventsLost := d.eventsLost } := by
        rw [hd]
        exact l.append_eq _
      rw [hstations]
      conv_lhs => rw [happend, hlearned]
    · have hevents : (freed.learnOffsets g).events = b.events := by
        rw [Bridge.learnOffsets, Bridge.mapMembers_events, hwork.events]
      have hlost : (freed.learnOffsets g).eventsLost = b.eventsLost := by
        rw [Bridge.learnOffsets, Bridge.mapMembers_eventsLost, hwork.eventsLost]
      rw [hd]
      exact (Posted.append _ _ (hevents ▸ he)).congr hevents.symm hlost.symm rfl rfl
    · have hconfig : (c.station i).map Station.config = (d.station i).map Station.config := by
        rw [hc]
        exact (StageKeeps.configs d g).endStage (fun _ => rfl) i
      rw [hv, hdstation, hu] at hconfig
      rw [Option.some.inj hconfig]
      beta_reduce
      split <;> rfl
  · rw [Bool.eq_false_iff.mpr (hpasses.not.mpr hp), Bridge.judgeProbe_retries (by rw [hgroup]; exact hretries)] at hc
    have hdwell : ((freed.modifyGroup g fun y => { y with retries := y.retries - 1 }).currentStage g) = b.currentStage g :=
      Bridge.currentStage_congr hwork.store (by rw [Bridge.group_modifyGroup, if_pos rfl, hgroup])
    rw [Bridge.resettle, hdwell, Bridge.modifyGroup, Bridge.modifyGroup, Bridge.group_setGroup, if_pos rfl,
      Bridge.setGroup_setGroup, hgroup] at hc
    exact ⟨hc, by rw [hc]; exact hwork.stations⟩
  · rw [Bool.eq_false_iff.mpr (hpasses.not.mpr hp), Bridge.judgeProbe_fails (by rw [hgroup]; exact hretries)] at hc
    exact hc

end Sys2Proof.Proofs
end

section
/-! PROOFS. A current Feedback Frame closes its station, and the close reaches the station's group (R22, R26, R35 to R43,
R52, R54). -/

namespace Sys2Proof.Machine

/-! ## The station close (R26, R42, R43) -/

/-- The entry takes the closed runtime record, and the transition posts its event and sends RUNAWAY; the close is still to
be handed on. `before` is the validity before the close. -/
def Bridge.closing (b : Bridge) (i : StationIx) (config : StationConfig) (before : Validity) (run : StationRun) : Bridge :=
  let posted := (b.setStation i (some ⟨config, run⟩)).postValidity i config.group (transitionOf before run.validity)
  if transitionOf before run.validity = some .fatal then posted.sendTrip .runaway else posted

theorem Bridge.stationClose_closing {b : Bridge} {i : StationIx} {st : Station} (h : b.station i = some st) (n : CycleNo)
    (boundary : Bool) :
    b.stationClose i n boundary =
      (b.closing i st.config st.run.validity (st.run.closed st.config boundary)).handOn
        (closeRecord i n st.run (st.run.closed st.config boundary)) st.config.group := by
  unfold Bridge.stationClose
  rw [h]
  rfl

/-- The closed runtime record of an OPEN entry that takes the latch `l`. -/
def Station.closedBy (st : Station) (l : Latch) : StationRun :=
  { st.run with latch := some l, fresh := true, mark := .closed }.closed st.config false

theorem StationRun.feedback_open {r : StationRun} (h : r.mark = .isOpen) (l : Latch) :
    r.feedback true l = { r with latch := some l, fresh := true, mark := .closed } := by
  rw [StationRun.feedback, if_pos rfl, h]

theorem Bridge.setStation_setStation (b : Bridge) (i : StationIx) (x y : Option Station) :
    (b.setStation i x).setStation i y = b.setStation i y := by
  simp [Bridge.setStation]

/-- The record of the close that the latch `l` causes. -/
def Station.closeRecord (st : Station) (i : StationIx) (n : CycleNo) (l : Latch) : CloseRecord :=
  Machine.closeRecord i n st.run (st.closedBy l)

/-- A current Feedback Frame for an OPEN entry closes it. -/
theorem Bridge.takeFeedback_closes {b : Bridge} (h : b.TableSound) {a : Byte} {i : StationIx} {st : Station}
    (hb : b.Binds a i st) {l : Latch} (hc : b.tracker.cycle = some l.cycle) (hm : st.run.mark = .isOpen) :
    b.takeFeedback a l =
      (b.closing i st.config st.run.validity (st.closedBy l)).handOn (st.closeRecord i l.cycle l) st.config.group := by
  rw [Bridge.takeFeedback_eq h hb]
  simp only [hc, hm, and_self, if_true, decide_true, StationRun.feedback_open hm]
  rw [Bridge.stationClose_closing (st := ⟨st.config, _⟩) (by rw [Bridge.station_setStation, if_pos rfl]),
    Bridge.closing, Bridge.setStation_setStation]
  rfl

/-- The events of a transition (R43, R165). -/
def Bridge.closeEvents (b : Bridge) (i : StationIx) (group : Option GroupIx) (before after : Validity) : List Event :=
  if after = before then []
  else match after with
    | .invalid => [⟨.stationInvalid, b.tracker.cycle, group, some i, none, none, none⟩]
    | .valid => [⟨.stationValid, b.tracker.cycle, group, some i, none, none, none⟩]
    | .fatal => ⟨.stationFatal, b.tracker.cycle, group, some i, none, none, some .runaway⟩ ::
        if b.trip = ⟨false, false, false⟩ then
          [⟨.tripOpened, b.tracker.cycle, none, none, none, none, some .runaway⟩] else []

theorem Bridge.closing_posted {b : Bridge} (he : b.events.length ≤ 64) (i : StationIx) (config : StationConfig)
    (before : Validity) (run : StationRun) :
    Posted b (b.closing i config before run) (b.closeEvents i config.group before run.validity) := by
  have hpost : ∀ e, Posted b ((b.setStation i (some ⟨config, run⟩)).append e) [e] := fun e =>
    (Posted.append (b.setStation i (some ⟨config, run⟩)) e he).congr rfl rfl rfl rfl
  unfold Bridge.closing Bridge.closeEvents
  simp only
  by_cases hsame : run.validity = before
  · have hnone : transitionOf before run.validity = none := if_pos hsame.symm
    rw [hnone, if_pos hsame, if_neg (Option.some_ne_none _).symm]
    exact Posted.refl b he
  · have hsome : transitionOf before run.validity = some run.validity := if_neg fun e => hsame e.symm
    rw [hsome, if_neg hsame]
    cases run.validity with
    | invalid => exact hpost _
    | valid => exact hpost _
    | fatal =>
      rw [if_pos rfl]
      have hopened := Bridge.sendTrip_posted _ .runaway
        (hpost ⟨.stationFatal, b.tracker.cycle, config.group, some i, none, none, some .runaway⟩).length
      rw [Bridge.append_trip, Bridge.append_tracker] at hopened
      exact (hpost _).trans hopened

theorem Bridge.closing_eq (b : Bridge) (i : StationIx) (config : StationConfig) (before : Validity) (run : StationRun) :
    let c := b.closing i config before run
    c = { b with
      stations := b.stations.set i (some ⟨config, run⟩)
      trip := if transitionOf before run.validity = some .fatal then { b.trip with runaway := true } else b.trip
      events := c.events, eventsLost := c.eventsLost } := by
  unfold Bridge.closing
  simp only
  have hposted := ((b.setStation i (some ⟨config, run⟩)).postValidity_eq i config.group
    (transitionOf before run.validity)).1
  generalize (b.setStation i (some ⟨config, run⟩)).postValidity i config.group (transitionOf before run.validity) = n
    at hposted
  split
  · have hsend := n.sendRunaway_eq.1
    generalize n.sendTrip .runaway = w at hsend
    rw [hsend, hposted]
    rfl
  · rw [hposted]
    rfl

theorem Bridge.handOn_nobody {b : Bridge} {r : CloseRecord} (h : b.runsHeld r.station = []) : b.handOn r none = b := by
  unfold Bridge.handOn Bridge.recipients
  rw [h]
  rfl

theorem Bridge.runsHeld_eq_nil {b : Bridge} {i : StationIx}
    (h : ∀ p, ¬((b.probe p).state = .running ∧ (b.probe p).station = some i)) : b.runsHeld i = [] := by
  rw [Bridge.runsHeld, List.filter_eq_nil_iff]
  exact fun p _ hp => h p (of_decide_eq_true hp)

/-- The conditions of an entry that a group close does not deliver are read from its core. -/
theorem Station.core_present {x y : Station} (h : y.core = x.core) :
    y.run.present = { x.run.present with
      shareDev := y.run.present.shareDev, fight := y.run.present.fight, direction := y.run.present.direction } := by
  have hpresent := congrArg (fun st : Station => st.run.present) h
  simp only [Station.core, Conditions.mk.injEq] at hpresent
  obtain ⟨h1, h2, h3, h4, h5, h6, h7, -⟩ := hpresent
  calc y.run.present = ⟨y.run.present.fbMissing, y.run.present.fbLate, y.run.present.fbOverrun, y.run.present.headroom,
        y.run.present.driveFault, y.run.present.speedDev, y.run.present.runaway, y.run.present.shareDev,
        y.run.present.fight, y.run.present.direction⟩ := rfl
    _ = _ := by rw [h1, h2, h3, h4, h5, h6, h7]

theorem Station.core_config_offset {x y : Station} (h : y.core = x.core) :
    y.config = { x.config with offset := y.config.offset } := by
  have hconfig : { y.config with offset := 0 } = { x.config with offset := 0 } := congrArg Station.config h
  calc y.config = { { y.config with offset := 0 } with offset := y.config.offset } := rfl
    _ = { { x.config with offset := 0 } with offset := y.config.offset } := by rw [hconfig]
    _ = { x.config with offset := y.config.offset } := rfl

/-- The flags of the lesser set are set in the greater. -/
theorem Conditions.le_flags {c d : Conditions} (h : c.le d) :
    (c.fbLate → d.fbLate) ∧ (c.fbOverrun → d.fbOverrun) ∧ (c.headroom → d.headroom) ∧ (c.driveFault → d.driveFault) ∧
      (c.speedDev → d.speedDev) ∧ (c.runaway → d.runaway) := by
  rw [← show c.union d = d from h]
  simp only [Conditions.union, Bool.or_eq_true]
  exact ⟨.inl, .inl, .inl, .inl, .inl, .inl⟩

theorem Conditions.le_union_right (c d : Conditions) : d.le (c.union d) := by
  unfold Conditions.le Conditions.union
  congr 1 <;> exact Bool.or_left_comm .. |>.trans (by rw [Bool.or_self])

/-! ## A member's close record at its group (R52) -/

section
variable {b : Bridge} {g : GroupIx} {r : CloseRecord}

theorem Bridge.countClose_outside
    (h : ∀ p, (b.group g).pendingSet = some p → p.cycle = r.cycle → r.station ∉ p.stations) : b.countClose g r = b := by
  unfold Bridge.countClose
  cases hp : (b.group g).pendingSet with
  | none => rfl
  | some p => exact if_neg fun hcounts => h p hp hcounts.1 hcounts.2

theorem Bridge.countClose_waits {p : PendingSet} (hp : (b.group g).pendingSet = some p) (hc : p.cycle = r.cycle)
    (hm : r.station ∈ p.stations) (hrest : p.stations.erase r.station ≠ []) :
    b.countClose g r = b.setGroup g { b.group g with
      forming := (b.group g).forming ++ [⟨r.station, b.closeSample r⟩]
      pendingSet := some ⟨p.cycle, p.stations.erase r.station⟩ } := by
  unfold Bridge.countClose
  rw [hp]
  simp only [hc, hm, and_self, if_true, if_neg hrest]
  rfl

theorem Bridge.countClose_last {p : PendingSet} (hp : (b.group g).pendingSet = some p) (hc : p.cycle = r.cycle)
    (hm : r.station ∈ p.stations) (hrest : p.stations.erase r.station = []) :
    b.countClose g r = (b.setGroup g { b.group g with
      forming := (b.group g).forming ++ [⟨r.station, b.closeSample r⟩], pendingSet := none }).groupClose g r.cycle := by
  unfold Bridge.countClose
  rw [hp]
  simp only [hc, hm, and_self, if_true, hrest]
  rfl

/-- The close sample reads the station's latch and polarity (R52). -/
theorem Bridge.closeSample_eq {y : Station} {l : Latch} (hy : b.station r.station = some y) (hl : y.run.latch = some l) :
    b.closeSample r =
      { validity := r.validity, fresh := r.fresh, headroom := r.present.headroom
        speed := some (surfaceSpeed y.config.polarity l.speed)
        torque := some (surfaceTorque y.config.polarity l.torque) } := by
  simp only [Bridge.closeSample, hy, hl, Option.bind_some, Option.map_some]

end

/-- Everything that the hand-on of a close to its group leaves in the entry's core. -/
theorem Bridge.closed_entry {b m : Bridge} {S : GroupIx → Prop} (h : GroupWork S b m) {i : StationIx} {config : StationConfig}
    {run : StationRun} (hb : b.station i = some ⟨config, run⟩) :
    ∃ y, m.station i = some y ∧ y.config.polarity = config.polarity ∧ y.run.latch = run.latch ∧
      y.run.validity = run.validity := by
  have hcore := h.stations i
  rw [hb] at hcore
  obtain ⟨y, hy, hcore⟩ := Option.map_eq_some_iff.mp hcore
  obtain ⟨-, hlatch, -, -, -, -, -, hvalidity⟩ := Station.core_run hcore
  have hpolarity := congrArg (fun st : Station => st.config.polarity) hcore
  exact ⟨y, hy, hpolarity, hlatch, hvalidity⟩

theorem ProbeWork.station {b c : Bridge} (h : ProbeWork b c) (i : StationIx) : c.station i = b.station i := by
  rw [h.rest]
  rfl

/-- The current Feedback Frame of a member: the entry closes, and the close is handed on to the group and to the probes
that run on the station. -/
theorem exec_feedback_of_member {s : State} (hheld : s.held = false) (htable : s.bridge.TableSound) {dst src : Byte}
    {n : CycleNo} {speed : BitVec 24} {torque : BitVec 16} {status tag : Byte} {i : StationIx} {st : Station} {g : GroupIx}
    (hbinds : s.bridge.Binds src i st) (hcycle : s.bridge.tracker.cycle = some n) (hmark : st.run.mark = .isOpen)
    (hg : st.config.group = some g) :
    let l := feedbackLatch n speed torque status
    let r := st.closeRecord i n l
    ∃ (t : State) (closed m : Bridge), exec (.feedbackFrameArrival dst src n speed torque status tag) s = .next t ∧
      closed = { s.bridge with
        stations := s.bridge.stations.set i (some ⟨st.config, st.closedBy l⟩)
        trip := if r.transition = some .fatal then { s.bridge.trip with runaway := true } else s.bridge.trip
        events := closed.events, eventsLost := closed.eventsLost } ∧
      ProbeWork closed m ∧ ProbeWork (m.groupReceives g r) t.bridge ∧
      (closed.runsHeld i = [] → m = closed ∧ t.bridge = m.groupReceives g r) := by
  intro l r
  have hcloses : s.bridge.takeFeedback src l = _ := Bridge.takeFeedback_closes htable hbinds hcycle hmark
  rw [hg] at hcloses
  have hclosing := s.bridge.closing_eq i st.config st.run.validity (st.closedBy l)
  generalize s.bridge.closing i st.config st.run.validity (st.closedBy l) = closed at hcloses hclosing
  obtain ⟨m, hbefore, hafter, halone⟩ := closed.handOn_group r g
  refine ⟨_, closed, m, exec_feedbackFrameArrival hheld .., hclosing, hbefore, ?_, fun h => ?_⟩
  · rw [show s.bridge.takeFeedback src l = _ from hcloses]
    exact hafter
  · rw [show s.bridge.takeFeedback src l = _ from hcloses]
    exact halone h

/-! ## The close of a group that runs no plan, as a whole (R52, R54) -/

theorem UnchangedOrGranted.close_fields {x y : DriveGroup} (h : UnchangedOrGranted x y) :
    y.pendingSet = x.pendingSet ∧ y.forming = x.forming ∧ y.roster = x.roster ∧ y.shareResult = x.shareResult ∧
      y.runState = x.runState ∧ y.record = x.record ∧ y.alarmCounter = x.alarmCounter ∧ y.alarm = x.alarm ∧
      y.draw = x.draw ∧ y.stage = x.stage ∧ y.planTag = x.planTag ∧ y.stack = x.stack := by
  rcases h with rfl | ⟨-, rfl⟩ <;> exact ⟨rfl, rfl, rfl, rfl, rfl, rfl, rfl, rfl, rfl, rfl, rfl, rfl⟩

theorem Bridge.alarmCounts_congr {b c : Bridge} {g : GroupIx} (hs : ∀ i, c.station i = b.station i)
    (hd : (c.group g).draw = (b.group g).draw) : c.alarmCounts g = b.alarmCounts g := by
  rw [Bool.eq_iff_iff, Bridge.alarmCounts_iff, Bridge.alarmCounts_iff, hd]
  simp only [hs]

/-- The stations of a roster that has formed, ascending. -/
theorem roster_stations (forming : List RosterEntry) (l : List StationIx) :
    (l.filterMap fun j => forming.find? fun e => decide (e.station = j)).map RosterEntry.station =
      l.filter fun j => (forming.map RosterEntry.station).contains j := by
  induction l with
  | nil => rfl
  | cons j l ih =>
    rw [List.filterMap_cons, List.filter_cons]
    cases hfind : forming.find? fun e => decide (e.station = j) with
    | none =>
      have habsent : ¬(forming.map RosterEntry.station).contains j = true := by
        rw [List.contains_iff_mem, List.mem_map]
        rintro ⟨e, he, rfl⟩
        exact absurd (List.find?_eq_none.mp hfind e he) (by simp)
      rw [if_neg habsent]
      exact ih
    | some e =>
      have hstation : e.station = j := by simpa using List.find?_some hfind
      have hpresent : (forming.map RosterEntry.station).contains j = true := by
        rw [List.contains_iff_mem, List.mem_map]
        exact ⟨e, List.mem_of_find?_eq_some hfind, hstation⟩
      rw [if_pos hpresent, List.map_cons, hstation, ih]

end Sys2Proof.Machine

namespace Sys2Proof.Proofs

open Sys2Proof.Machine

/-- Settles O15: what the hand-on of the close keeps (`GroupWork`) carries the closed entry to the end of the step. -/
theorem feedbackClosesStation : Obligations.FeedbackClosesStation := by
  intro dst src n speed torque status tag i st s hheld htable hbinds hcycle hmark l
  have hcloses : s.bridge.takeFeedback src l = _ := Bridge.takeFeedback_closes htable hbinds hcycle hmark
  obtain ⟨hst, -⟩ := hbinds
  have hexec : exec (.feedbackFrameArrival dst src n speed torque status tag) s = .next { s with
      link := s.link.sendUp (feedbackFrame dst src n speed torque status (s.bridge.feedbackTag src))
      bridge := s.bridge.takeFeedback src l } := exec_feedbackFrameArrival hheld ..
  rw [hcloses] at hexec
  have hclosing := s.bridge.closing_eq i st.config st.run.validity (st.closedBy l)
  have hposted := fun he => Bridge.closing_posted (b := s.bridge) he i st.config st.run.validity (st.closedBy l)
  have hwork := GroupWork.handOn (s.bridge.closing i st.config st.run.validity (st.closedBy l))
    (st.closeRecord i l.cycle l) st.config.group
  have halone : st.config.group = none →
      (∀ p, ¬((s.bridge.probe p).state = .running ∧ (s.bridge.probe p).station = some i)) →
      (s.bridge.closing i st.config st.run.validity (st.closedBy l)).handOn (st.closeRecord i l.cycle l) st.config.group =
        s.bridge.closing i st.config st.run.validity (st.closedBy l) := fun hnone hprobes => by
    rw [hnone]
    refine Bridge.handOn_nobody (Bridge.runsHeld_eq_nil fun p => ?_)
    have hprobe : (s.bridge.closing i st.config st.run.validity (st.closedBy l)).probe p = s.bridge.probe p := by
      rw [hclosing]
      cases p <;> rfl
    rw [hprobe]
    exact hprobes p
  generalize (s.bridge.closing i st.config st.run.validity (st.closedBy l)).handOn (st.closeRecord i l.cycle l)
    st.config.group = c at hexec hwork halone
  generalize s.bridge.closing i st.config st.run.validity (st.closedBy l) = m at hclosing hposted hwork halone
  have hm : m.station i = some ⟨st.config, st.closedBy l⟩ := by
    rw [hclosing]
    exact (Bridge.station_setStation s.bridge i i _).trans (if_pos rfl)
  have hothers : ∀ j, j ≠ i → m.station j = s.bridge.station j := fun j hj => by
    rw [hclosing]
    exact (Bridge.station_setStation s.bridge i j _).trans (if_neg (Ne.symm hj))
  have hcore := hwork.stations i
  rw [hm] at hcore
  obtain ⟨y, hy, hcore⟩ := Option.map_eq_some_iff.mp hcore
  have hlatched := hwork.latched i _ y hm hy
  obtain ⟨hmarkOf, hlatchOf, hfresh, hlate, hoverrun, hsent, hcounter, hvalidity⟩ := Station.core_run hcore
  have hpresent := Station.core_present hcore
  obtain ⟨hclosed, hmissing⟩ := StationRun.closed_feedback st.config st.run l
  have hstepped := StationRun.closed_stepped st.config { st.run with latch := some l, fresh := true, mark := .closed } false
  change ClosedWith st.config st.run l (st.closedBy l).present at hclosed
  refine ⟨_, y, hexec, hy, (Station.core_config_offset hcore :), hlatchOf, hfresh, hmarkOf, hlate, hoverrun, hsent, ?_, ?_, ?_,
    ?_, ?_, fun j hj => ?_, ?_, ?_, ?_, ?_, ?_, ?_, ?_, fun g => ⟨?_, ?_⟩⟩
  · rw [hpresent]
    exact ⟨hclosed.fbMissing, hclosed.fbLate, hclosed.fbOverrun, hclosed.headroom, hclosed.driveFault, hclosed.speedDev,
      hclosed.runaway⟩
  · have hquality : (st.closedBy l).present.quality = (y.run.present.fbLate || y.run.present.fbOverrun ||
        y.run.present.headroom || y.run.present.driveFault) := by
      rw [hpresent, Conditions.quality]
      rw [hclosed.fbMissing, Bool.false_or]
    have hrunaway : (st.closedBy l).present.runaway = y.run.present.runaway := by rw [hpresent]
    rw [← hquality, ← hrunaway, hcounter, hvalidity]
    exact hstepped
  · exact Conditions.le_trans (Conditions.le_union _ _) hlatched
  · have hflags := Conditions.le_flags (Conditions.le_trans (Conditions.le_union_right st.run.latched _) hlatched)
    rw [hpresent]
    exact hflags
  · intro turns opens own
    have hturns : transitionOf st.run.validity (st.closedBy l).validity = some .fatal ↔ turns := by
      rw [transitionOf_fatal, ← hvalidity]
    have htrip : m.trip = if turns then { s.bridge.trip with runaway := true } else s.bridge.trip := by
      rw [hclosing]
      exact if_congr hturns rfl rfl
    have hown : own = s.bridge.closeEvents i st.config.group st.run.validity (st.closedBy l).validity := by
      have hsame : (st.closedBy l).validity = y.run.validity := hvalidity.symm
      simp only [own, opens]
      unfold Bridge.closeEvents
      rw [hsame, hcycle] <;> cases y.run.validity <;> rfl
    refine ⟨fun h => ?_, fun h => ?_, ?_, fun he => ?_⟩
    · rw [hwork.runaway, htrip, if_pos h]
    · rw [hwork.runaway, htrip, if_neg h]
    · rw [hwork.console, htrip]
      split <;> rfl
    · rw [hown]
      by_cases hnobody : st.config.group = none ∧
          ∀ p, ¬((s.bridge.probe p).state = .running ∧ (s.bridge.probe p).station = some i)
      · obtain ⟨hnone, hprobes⟩ := hnobody
        refine ⟨[], ?_, fun _ _ => rfl⟩
        rw [List.append_nil, halone hnone hprobes]
        exact hposted he
      · obtain ⟨more, hmore⟩ := hwork.posts (hposted he).length
        exact ⟨more, (hposted he).trans hmore, fun hnone hprobes => absurd ⟨hnone, hprobes⟩ hnobody⟩
  · rw [hwork.stations, hothers j hj]
  · rw [hwork.tracker, hclosing]
  · rw [hwork.mask, hclosing]
  · rw [hwork.store, hclosing]
  · rw [hwork.treatments, hclosing]
  · rw [hwork.check, hclosing]
  · rw [hwork.release, hclosing]
  · rw [hwork.timeBase, hclosing]
  · rw [hwork.records, hclosing]
    rfl
  · rw [hwork.masters, hclosing]
    rfl

/-- Settles O17: the group takes the close once, and closes at probes come before and after (`ProbeWork`). -/
theorem memberCloseReachesItsGroup : Obligations.MemberCloseReachesItsGroup := by
  intro dst src n speed torque status tag i st g s hheld htable hbinds hcycle hmark hg latch run r sample setGroup
  have hrecord : st.closeRecord i n latch = r := by
    have htransition : transitionOf st.run.validity run.validity =
        if run.validity = st.run.validity then none else some run.validity := if_congr eq_comm rfl rfl
    change CloseRecord.mk i n true run.validity (transitionOf st.run.validity run.validity) run.present = r
    rw [htransition]
  obtain ⟨t, closed, m, hexec, hclosing, hbefore, hafter, halone⟩ :=
    exec_feedback_of_member hheld htable (dst := dst) (speed := speed) (torque := torque) (status := status) (tag := tag)
      hbinds hcycle hmark hg
  rw [show st.closeRecord i n (feedbackLatch n speed torque status) = r from hrecord] at hclosing hafter halone
  have hclosed : closed.station i = some ⟨st.config, run⟩ := by
    rw [hclosing]
    exact (Bridge.station_setStation s.bridge i i _).trans (if_pos rfl)
  have hentry : m.station i = some ⟨st.config, run⟩ := (hbefore.station i).trans hclosed
  obtain ⟨y, hy, hpolarity, hlatch, -⟩ := Bridge.closed_entry (GroupWork.groupTransition m g r) hentry
  have hsample : (m.groupTransition g r).closeSample r = sample := by
    rw [Bridge.closeSample_eq hy hlatch, hpolarity]
  refine ⟨t, closed, m, m.groupReceives g r, hexec, hclosing, ⟨hbefore.rest, hbefore.groups⟩, ?_,
    ⟨hafter.rest, hafter.groups⟩, fun hprobes => ?_⟩
  · intro b x
    refine ⟨fun h => Bridge.countClose_outside (b := b) (g := g) (r := r) h, fun p hp hc hm => ?_⟩
    refine ⟨fun hrest => ?_, fun hrest => ?_⟩
    · have hwaits := Bridge.countClose_waits (r := r) hp hc hm hrest
      rw [hsample, hc] at hwaits
      exact hwaits
    · have hlast : b.countClose g r = (b.setGroup g { b.group g with
          forming := (b.group g).forming ++ [⟨i, b.closeSample r⟩], pendingSet := none }).groupClose g n :=
        Bridge.countClose_last (r := r) hp hc hm hrest
      rw [hsample] at hlast
      have hreceives : m.groupReceives g r = b.countClose g r := rfl
      have hcloses := b.groupClose_closes g n ((b.group g).forming ++ [⟨i, sample⟩]) none
      rw [← hlast] at hcloses
      rw [hreceives]
      exact hcloses
  · refine halone (Bridge.runsHeld_eq_nil fun p => ?_)
    have hprobe : closed.probe p = s.bridge.probe p := by
      rw [hclosing]
      cases p <;> rfl
    rw [hprobe]
    exact hprobes p

/-- Settles O16. -/
theorem lastMemberClosesGroup : Obligations.LastMemberClosesGroup := by
  intro dst src n speed torque status tag i st g s hheld htable hbinds hcycle hmark hg hpending hinactive
  obtain ⟨t, closed, m, hexec, hclosing, hbefore, hafter, -⟩ :=
    exec_feedback_of_member hheld htable (dst := dst) (speed := speed) (torque := torque) (status := status) (tag := tag)
      hbinds hcycle hmark hg
  generalize hr : st.closeRecord i n (feedbackLatch n speed torque status) = r at hclosing hafter
  have hrstation : r.station = i := by rw [← hr]; rfl
  have hrcycle : r.cycle = n := by rw [← hr]; rfl
  have hclosedGroup : closed.group g = s.bridge.group g := by rw [hclosing]; rfl
  obtain ⟨hmPending, hmForming, -, -, hmRun, hmRecord, hmCounter, hmAlarm, -⟩ := (hbefore.groups g).close_fields
  rw [hclosedGroup] at hmPending hmForming hmRun hmRecord hmCounter hmAlarm
  have hmInactive : (m.group g).active = false := (DriveGroup.active_congr hmRun).trans hinactive
  have hreceives : m.groupReceives g r = (m.setGroup g { m.group g with
      forming := (m.group g).forming ++ [⟨r.station, m.closeSample r⟩], pendingSet := none }).groupClose g r.cycle := by
    rw [Bridge.groupReceives, Bridge.groupTransition_inactive m g r hmInactive]
    exact Bridge.countClose_last (hmPending.trans hpending) hrcycle.symm (by simp [hrstation]) (by simp [hrstation])
  generalize hf : m.setGroup g { m.group g with
      forming := (m.group g).forming ++ [⟨r.station, m.closeSample r⟩], pendingSet := none } = f at hreceives
  have hfgroup : f.group g = { m.group g with
      forming := (m.group g).forming ++ [⟨r.station, m.closeSample r⟩], pendingSet := none } := by
    rw [← hf, Bridge.group_setGroup, if_pos rfl]
  rw [Bridge.groupClose_inactive f g r.cycle (by rw [hfgroup]; exact hmInactive)] at hreceives
  obtain ⟨hjudged, -⟩ := f.judgeGroup_group g r.cycle
  have halarm := (f.judgeGroup g r.cycle).1.alarmStep_eq g
  generalize (f.judgeGroup g r.cycle).1 = j at hreceives hjudged halarm
  rw [hreceives] at hafter
  obtain ⟨hPending, hForming, hRoster, hShare, hRun, -, hCounter, hAlarm, hDraw, -⟩ := (hafter.groups g).close_fields
  have hjgroup : (j.alarmStep g).group g = { j.group g with
      alarmCounter := ((j.alarmStep g).group g).alarmCounter, alarm := ((j.alarmStep g).group g).alarm } := by
    rw [Bridge.alarmStep, Bridge.group_setGroup, if_pos rfl]
  have hcounts : t.bridge.alarmCounts g = j.alarmCounts g :=
    Bridge.alarmCounts_congr (fun k => hafter.station k) (hDraw.trans (by rw [hjgroup]))
  have hjrecord : (j.group g).record = (s.bridge.group g).record ∧
      (j.group g).alarmCounter = (s.bridge.group g).alarmCounter ∧ (j.group g).alarm = (s.bridge.group g).alarm := by
    rw [hjudged, hfgroup]
    exact ⟨hmRecord, hmCounter, hmAlarm⟩
  obtain ⟨hjRecord, hjCounter, hjAlarm⟩ := hjrecord
  have hstepped := congrArg (fun b : Bridge => b.group g) halarm
  simp only [Bridge.group_setGroup, if_true] at hstepped
  rw [hjRecord, hjCounter, hjAlarm, ← hcounts] at hstepped
  refine ⟨t, hexec, ?_⟩
  intro x y limit
  refine ⟨?_, ?_, ?_, ?_, ?_, fun h hlow => ?_, fun h hhigh => ?_, fun h => ?_⟩
  · exact hPending.trans (by rw [hjgroup, hjudged])
  · exact hForming.trans (by rw [hjgroup, hjudged])
  · have hroster : y.roster = (f.group g).takeRoster.roster := hRoster.trans (by rw [hjgroup, hjudged])
    rw [hroster, DriveGroup.takeRoster, roster_stations, hfgroup, hmForming]
    refine List.filter_congr fun k _ => ?_
    rw [List.map_append, List.map_cons, List.map_nil, hrstation, Bool.eq_iff_iff, List.contains_iff_mem, List.mem_append,
      List.mem_singleton, Bool.or_eq_true, decide_eq_true_eq, List.contains_iff_mem, or_comm]
  · have hshare : y.shareResult = some ((f.modifyGroup g DriveGroup.takeRoster).shareResult g r.cycle) :=
      hShare.trans (by rw [hjgroup, hjudged])
    rw [hshare, Option.map_some]
    exact congrArg some hrcycle
  · exact hRun.trans (by rw [hjgroup, hjudged, hfgroup]; exact hmRun)
  · rw [if_pos h, if_pos hlow] at hstepped
    rw [hCounter, hAlarm, hstepped]
    exact ⟨rfl, rfl⟩
  · rw [if_pos h, if_neg hhigh.not_gt] at hstepped
    rw [hCounter, hAlarm, hstepped]
    exact ⟨rfl, rfl⟩
  · rw [if_neg (by rw [h]; exact Bool.false_ne_true)] at hstepped
    rw [hCounter, hAlarm, hstepped]
    exact ⟨rfl, by simp [x, limit]⟩

end Sys2Proof.Proofs
end

section
/-! PROOFS. A member's transition at its group (R52, R121, R125). -/

namespace Sys2Proof.Machine

theorem StageKind.overridesSpeed_iff {k : StageKind} :
    k.overridesSpeed = true ↔ k ∈ [StageKind.creep, .bump, .tune, .thread, .handback] := by
  cases k <;> decide

section
variable {b : Bridge} {g : GroupIx} {r : CloseRecord}

theorem Bridge.groupTransition_quiet (h : r.transition = none ∨ r.transition = some .valid) :
    b.groupTransition g r = b := by
  unfold Bridge.groupTransition
  rcases h with h | h <;> rw [h]

theorem Bridge.groupTransition_lost (h : r.transition = some .invalid) (hplan : (b.group g).inPlan = true)
    (hk : (b.currentStage g).kind.overridesSpeed = true) :
    b.groupTransition g r = b.takeFaultAction g .memberLost (some r.station) := by
  unfold Bridge.groupTransition
  rw [h]
  simp only [hplan, hk, Bool.and_self, if_true]

theorem Bridge.groupTransition_kept (h : r.transition = some .invalid)
    (hlost : ¬((b.group g).inPlan = true ∧ (b.currentStage g).kind.overridesSpeed = true)) :
    b.groupTransition g r = b := by
  unfold Bridge.groupTransition
  rw [h]
  exact if_neg (by rwa [Bool.and_eq_true])

theorem Bridge.groupTransition_fatal (h : r.transition = some .fatal) :
    b.groupTransition g r = b.bypass .memberFatal (some r.station) g := by
  unfold Bridge.groupTransition
  rw [h]

end

theorem Bridge.bypass_active {b : Bridge} {g : GroupIx} (h : (b.group g).active = true) (cause : Cause)
    (i : Option StationIx) : b.bypass cause i g = b.enterFault g cause .settled i (b.group g).stage := if_pos h

theorem Bridge.bypass_inactive {b : Bridge} {g : GroupIx} (h : (b.group g).active = false) (cause : Cause)
    (i : Option StationIx) : b.bypass cause i g = b := if_neg (by rw [h]; exact Bool.false_ne_true)

theorem DriveGroup.inPlan_iff_runState {x : DriveGroup} :
    x.inPlan = true ↔ x.runState = .running ∨ x.runState = .held := by
  simp [DriveGroup.inPlan, DriveGroup.isRunning, DriveGroup.isHeld]

/-! ## The group's own close after it has been faulted (R54) -/

/-- The run of the plan is as it was: the run state with everything that follows it. -/
def PlanKept (x y : DriveGroup) : Prop :=
  y.runState = x.runState ∧ y.stage = x.stage ∧ y.planTag = x.planTag ∧ y.phase = x.phase ∧ y.stack = x.stack ∧
    y.deferred = x.deferred ∧ y.waiting = x.waiting

theorem PlanKept.refl (x : DriveGroup) : PlanKept x x := ⟨rfl, rfl, rfl, rfl, rfl, rfl, rfl⟩

theorem PlanKept.trans {x y z : DriveGroup} (h : PlanKept x y) (k : PlanKept y z) : PlanKept x z := by
  obtain ⟨h1, h2, h3, h4, h5, h6, h7⟩ := h
  obtain ⟨k1, k2, k3, k4, k5, k6, k7⟩ := k
  exact ⟨k1.trans h1, k2.trans h2, k3.trans h3, k4.trans h4, k5.trans h5, k6.trans h6, k7.trans h7⟩

theorem Bypassed.planKept {cause : Cause} {x y z : DriveGroup} (h : Bypassed cause x y) (k : PlanKept y z)
    (hblend : z.blend = y.blend) : Bypassed cause x z := by
  obtain ⟨hrun, hstage, htag, hphase, hstack, hdeferred, hwaiting⟩ := k
  unfold Bypassed
  rw [hrun, hstage, htag, hphase, hstack, hdeferred, hwaiting, hblend]
  exact h

/-- Steps 1 to 6 of a group's close keep the run of its plan and the trip causes. -/
theorem Bridge.judged_kept (b : Bridge) (g : GroupIx) (n : CycleNo) :
    PlanKept (b.group g) (((b.judgeGroup g n).1.alarmStep g).group g) ∧
      (((b.judgeGroup g n).1.alarmStep g).group g).blend = (b.group g).blend ∧
      ((b.judgeGroup g n).1.alarmStep g).trip = b.trip := by
  obtain ⟨hjudged, -⟩ := b.judgeGroup_group g n
  have htrip := b.judgeGroup_trip g n
  generalize (b.judgeGroup g n).1 = j at hjudged htrip
  rw [Bridge.alarmStep, Bridge.group_setGroup, if_pos rfl, Bridge.setGroup_trip, hjudged]
  exact ⟨⟨rfl, rfl, rfl, rfl, rfl, rfl, rfl⟩, rfl, htrip⟩

/-- A close does not take a group out of the FAULT that it has just entered: an unwind takes four closes, and its blend
count stands at 0. -/
theorem Bridge.groupClose_faulted {b : Bridge} {g : GroupIx} {n : CycleNo} {cause : Cause} {sub : FaultSub}
    (h : (b.group g).runState = .fault cause sub) (hblend : sub = .unwinding → (b.group g).blend = 0) :
    PlanKept (b.group g) ((b.groupClose g n).group g) ∧
      (sub = .settled → ((b.groupClose g n).group g).blend = (b.group g).blend) ∧ (b.groupClose g n).trip = b.trip := by
  obtain ⟨hkept, hsame, htrip⟩ := b.judged_kept g n
  unfold Bridge.groupClose
  simp only
  generalize (b.judgeGroup g n).2 = failing
  generalize ((((b.judgeGroup g n).1.alarmStep g).group g).alarm && !((b.judgeGroup g n).1.group g).alarm) = alarm
  generalize (b.judgeGroup g n).1.alarmStep g = j at hkept hsame htrip
  have hrun : (j.group g).runState = .fault cause sub := hkept.1.trans h
  cases sub with
  | settled =>
    have hinactive : (j.group g).active = false := by
      simp [DriveGroup.active, DriveGroup.inPlan, DriveGroup.isRunning, DriveGroup.isHeld, DriveGroup.unwinds, hrun]
    rw [Bridge.stageProgress_inactive j g failing alarm hinactive]
    exact ⟨hkept, fun _ => hsame, htrip⟩
  | unwinding =>
    have hunwinds : (j.group g).unwinds = true := by
      unfold DriveGroup.unwinds
      rw [hrun]
    have hfirst : (j.group g).blended (j.group g).unwound ≠ 4 := by
      rw [DriveGroup.blended, hsame, hblend rfl]
      split <;> decide
    have hstep := j.unwindStep_eq g
    simp only [if_neg hfirst] at hstep
    rw [Bridge.stageProgress_unwinding hunwinds, hstep, Bridge.group_setGroup, if_pos rfl, Bridge.setGroup_trip]
    exact ⟨hkept, fun h => (FaultSub.noConfusion h), htrip⟩

theorem Bridge.countClose_faulted {b : Bridge} {g : GroupIx} (r : CloseRecord) {cause : Cause} {sub : FaultSub}
    (h : (b.group g).runState = .fault cause sub) (hblend : sub = .unwinding → (b.group g).blend = 0) :
    PlanKept (b.group g) ((b.countClose g r).group g) ∧
      (sub = .settled → ((b.countClose g r).group g).blend = (b.group g).blend) ∧ (b.countClose g r).trip = b.trip := by
  by_cases hcounts : ∃ p, (b.group g).pendingSet = some p ∧ p.cycle = r.cycle ∧ r.station ∈ p.stations
  · obtain ⟨p, hp, hc, hm⟩ := hcounts
    by_cases hrest : p.stations.erase r.station = []
    · rw [Bridge.countClose_last hp hc hm hrest]
      generalize hf : b.setGroup g _ = f
      have hfgroup : PlanKept (b.group g) (f.group g) ∧ (f.group g).blend = (b.group g).blend := by
        rw [← hf, Bridge.group_setGroup, if_pos rfl]
        exact ⟨PlanKept.refl _, rfl⟩
      obtain ⟨hkept, hsame⟩ := hfgroup
      have hftrip : f.trip = b.trip := by rw [← hf]; rfl
      obtain ⟨hclose, hcloseBlend, hcloseTrip⟩ :=
        Bridge.groupClose_faulted (n := r.cycle) (hkept.1.trans h) fun e => hsame.trans (hblend e)
      exact ⟨hkept.trans hclose, fun e => (hcloseBlend e).trans hsame, hcloseTrip.trans hftrip⟩
    · rw [Bridge.countClose_waits hp hc hm hrest, Bridge.group_setGroup, if_pos rfl, Bridge.setGroup_trip]
      exact ⟨PlanKept.refl _, fun _ => rfl, rfl⟩
  · rw [Bridge.countClose_outside fun p hp hc hm => hcounts ⟨p, hp, hc, hm⟩]
    exact ⟨PlanKept.refl _, fun _ => rfl, rfl⟩

end Sys2Proof.Machine

namespace Sys2Proof.Proofs

open Sys2Proof.Machine

/-- Settles O18. -/
theorem transitionReachesItsGroup : Obligations.TransitionReachesItsGroup := by
  refine ⟨fun b g r => ?_, ?_⟩
  · intro x c lost
    have hlost : lost ↔ x.inPlan = true ∧ (b.currentStage g).kind.overridesSpeed = true :=
      and_congr DriveGroup.inPlan_iff_runState.symm StageKind.overridesSpeed_iff.symm
    refine ⟨Bridge.groupTransition_quiet, fun h hl => ?_, fun h hl => Bridge.groupTransition_kept h (hlost.not.mp hl),
      fun h hi => ?_, fun h ha => ?_⟩
    · obtain ⟨hplan, hk⟩ := hlost.mp hl
      exact Bridge.groupTransition_lost h hplan hk
    · exact (Bridge.groupTransition_fatal h).trans (Bridge.bypass_inactive hi _ _)
    · obtain ⟨hbypassed, hposted⟩ := b.bypass_spec .memberFatal (some r.station) g
      have hwork := FaultWork.bypass b .memberFatal (some r.station) g
      have hothers := (GroupWork.bypass b .memberFatal (some r.station) g).others
      obtain ⟨-, -, hunowned⟩ := b.enterFault_spec g .memberFatal .settled (some r.station) x.stage
      rw [← Bridge.bypass_active ha] at hunowned
      rw [if_pos ha] at hposted
      have hc : c = b.bypass .memberFatal (some r.station) g := Bridge.groupTransition_fatal h
      rw [hc]
      exact ⟨hbypassed, hothers, hwork.stations, hwork.trip, hwork.check, hwork.tracker, hwork.mask, hwork.store,
        fun hsound => hunowned fun p q => hsound.single p q g, hposted⟩
  · intro dst src n speed torque status tag i st g s hheld htable hbinds hcycle hmark hg
    obtain ⟨t, closed, m, hexec, hclosing, hbefore, hafter, -⟩ :=
      exec_feedback_of_member hheld htable (dst := dst) (speed := speed) (torque := torque) (status := status)
        (tag := tag) hbinds hcycle hmark hg
    generalize hr : st.closeRecord i n (feedbackLatch n speed torque status) = r at hclosing hafter
    have hclosed : closed.station i = some ⟨st.config, st.closedBy (feedbackLatch n speed torque status)⟩ := by
      rw [hclosing]
      exact (Bridge.station_setStation s.bridge i i _).trans (if_pos rfl)
    obtain ⟨y, hy, -, -, hvalidity⟩ :=
      Bridge.closed_entry (GroupWork.groupReceives m g r) ((hbefore.station i).trans hclosed)
    have htransition : r.transition = transitionOf st.run.validity y.run.validity := by
      rw [hvalidity, ← hr]
      rfl
    have hclosedGroup : closed.group g = s.bridge.group g := by rw [hclosing]; rfl
    have hgranted : UnchangedOrGranted (s.bridge.group g) (m.group g) := hclosedGroup ▸ hbefore.groups g
    obtain ⟨-, -, -, -, hmRun, -, -, -, -, hmStage, hmTag, -⟩ := hgranted.close_fields
    have hmStore : m.store = s.bridge.store := by
      rw [hbefore.rest, hclosing]
    have hcurrent : m.currentStage g = s.bridge.currentStage g := Bridge.currentStage_congr hmStore hmStage
    have htafter : ∀ k, UnchangedOrGranted ((m.groupReceives g r).group k) (t.bridge.group k) := hafter.groups
    have httrip : t.bridge.trip = (m.groupReceives g r).trip := by rw [hafter.rest]
    refine ⟨t, y, hexec, (hafter.station i).trans hy, ?_⟩
    intro x z q
    refine ⟨fun hbefore' hfatal hactive => ?_, fun hvalid hinvalid hplan hkind => ?_⟩
    · have hbypass := Bridge.groupTransition_fatal (b := m) (g := g)
        (htransition.trans ((transitionOf_fatal _ _).mpr ⟨hbefore', hfatal⟩))
      obtain ⟨hbypassed, -⟩ := m.bypass_spec .memberFatal (some r.station) g
      rw [← hbypass] at hbypassed
      have hmActive : (m.group g).active = true := (DriveGroup.active_congr hmRun).trans hactive
      have hfault := hbypassed.2.2
      rw [if_pos hmActive] at hfault
      obtain ⟨hkept, hblend, -⟩ := Bridge.countClose_faulted r hfault.1 fun h => by cases h
      exact ((hbypassed.planKept hkept (hblend rfl)).then (htafter g)).after hgranted
    · have hlost := Bridge.groupTransition_lost (b := m) (g := g) (r := r)
        (htransition.trans (by rw [hvalid, hinvalid]; rfl))
        ((DriveGroup.inPlan_congr hmRun).trans hplan) (by rw [hcurrent]; exact StageKind.overridesSpeed_iff.mpr hkind)
      have hends : ∀ {sub : FaultSub} {speed : Int} {blend : Nat},
          (m.groupTransition g r).group g = { m.group g with
            runState := .fault .memberLost sub, phase := none, stack := [], deferred := none, speed := speed, blend := blend
            waiting := false } →
          PlanKept ((m.groupTransition g r).group g) (((m.groupTransition g r).countClose g r).group g) →
          z.runState = .fault .memberLost sub ∧ z.stage = x.stage ∧ z.planTag = x.planTag ∧ z.stack = [] :=
        fun hfaulted hkept => by
          obtain ⟨-, -, -, -, hzRun, -, -, -, -, hzStage, hzTag, hzStack⟩ := (htafter g).close_fields
          obtain ⟨hkRun, hkStage, hkTag, -, hkStack, -⟩ := hkept
          rw [hfaulted] at hkRun hkStage hkTag hkStack
          exact ⟨hzRun.trans hkRun, hzStage.trans (hkStage.trans hmStage), hzTag.trans (hkTag.trans hmTag),
            hzStack.trans hkStack⟩
      have hmFault : (m.currentStage g).faultAction = q.faultAction := by rw [hcurrent]
      refine ⟨fun haction => ?_, fun haction => ?_⟩
      · rw [Bridge.takeFaultAction_unwinds .memberLost _ (by rw [hmFault, hmRun]; exact haction)] at hlost
        obtain ⟨hfaulted, -⟩ := m.enterFault_spec g .memberLost .unwinding (some r.station) (m.group g).stage
        rw [← hlost] at hfaulted
        have hblend : ((m.groupTransition g r).group g).blend = 0 := by
          rw [hfaulted]
          exact DriveGroup.faultBlend_of_inPlan ((DriveGroup.inPlan_congr hmRun).trans hplan)
        obtain ⟨hkept, -, -⟩ := Bridge.countClose_faulted (b := m.groupTransition g r) r (by rw [hfaulted]) fun _ => hblend
        exact hends hfaulted hkept
      · rw [Bridge.takeFaultAction_trip .memberLost _ (by rw [hmFault]; exact haction)] at hlost
        obtain ⟨hfaulted, -⟩ := m.enterFault_spec g .memberLost .settled (some r.station) (m.group g).stage
        generalize m.enterFault g .memberLost .settled (some r.station) (m.group g).stage = f at hlost hfaulted
        have hsend := f.sendStage_eq
        rw [← hlost] at hsend
        have hgroup : (m.groupTransition g r).group g = f.group g := by
          rw [hsend]
          rfl
        rw [← hgroup] at hfaulted
        obtain ⟨hkept, -, htrip⟩ := Bridge.countClose_faulted (b := m.groupTransition g r) r (by rw [hfaulted])
          fun h => by cases h
        obtain ⟨hzRun, hzStage, hzTag, hzStack⟩ := hends hfaulted hkept
        refine ⟨hzRun, hzStage, hzTag, hzStack, ?_⟩
        rw [httrip, Bridge.groupReceives, htrip, hsend]

end Sys2Proof.Proofs
end

section
/-! PROOFS. The plan services PLS and PLC, and the validation of a plan (R93, R94, R101, R102, R118). -/

namespace Sys2Proof.Machine

/-! ## The first that fits, in an ascending list -/

theorem find?_ascending {n : Nat} {l : List (Fin n)} (hl : l.Pairwise (· < ·)) {p : Fin n → Bool} {i : Fin n} :
    l.find? p = some i ↔ i ∈ l ∧ p i = true ∧ ∀ j ∈ l, p j = true → i ≤ j := by
  rw [List.find?_eq_some_iff_append]
  constructor
  · rintro ⟨hp, before, after, rfl, hbefore⟩
    rw [List.pairwise_append, List.pairwise_cons] at hl
    obtain ⟨-, ⟨hafter, -⟩, -⟩ := hl
    refine ⟨by simp, hp, fun j hj hpj => ?_⟩
    obtain hj | hj := List.mem_append.mp hj
    · exact absurd hpj (by simpa using hbefore j hj)
    · obtain rfl | hj := List.mem_cons.mp hj
      · exact le_refl _
      · exact (hafter j hj).le
  · rintro ⟨hi, hp, hleast⟩
    obtain ⟨before, after, rfl⟩ := List.append_of_mem hi
    rw [List.pairwise_append] at hl
    obtain ⟨-, -, hcross⟩ := hl
    refine ⟨hp, before, after, rfl, fun j hj => ?_⟩
    have hlt : j < i := hcross j hj i (by simp)
    simpa using fun hpj => hlt.not_ge (hleast j (by simp [hj]) hpj)

theorem findSome?_ascending {α : Type} {l : List Nat} (hl : l.Pairwise (· < ·)) {f : Nat → Option α} {i : Nat} {a : α} :
    (l.findSome? fun j => (f j).map fun a => (j, a)) = some (i, a) ↔
      i ∈ l ∧ f i = some a ∧ ∀ j ∈ l, j < i → f j = none := by
  rw [List.findSome?_eq_some_iff]
  constructor
  · rintro ⟨before, k, after, rfl, hk, hbefore⟩
    obtain ⟨b, hb, heq⟩ := Option.map_eq_some_iff.mp hk
    obtain ⟨rfl, rfl⟩ := Prod.mk.inj heq
    rw [List.pairwise_append, List.pairwise_cons] at hl
    obtain ⟨-, ⟨hafter, -⟩, -⟩ := hl
    refine ⟨by simp, hb, fun j hj hlt => ?_⟩
    obtain hj | hj := List.mem_append.mp hj
    · exact Option.map_eq_none_iff.mp (hbefore j hj)
    · obtain rfl | hj := List.mem_cons.mp hj
      · exact absurd hlt (Nat.lt_irrefl _)
      · exact absurd hlt (hafter j hj).not_gt
  · rintro ⟨hi, ha, hleast⟩
    obtain ⟨before, after, rfl⟩ := List.append_of_mem hi
    rw [List.pairwise_append] at hl
    obtain ⟨-, -, hcross⟩ := hl
    refine ⟨before, i, after, rfl, by rw [ha]; rfl, fun j hj => ?_⟩
    rw [hleast j (by simp [hj]) (hcross j hj i (by simp))]
    rfl

/-! ## The completeness check (R93) -/

section
variable {b : Bridge} {range : Option PlanRange} {i : Nat}

theorem Bridge.verdict_outside (h : 128 ≤ i) : b.verdict range i = some .indexOutsideStore := if_pos h

theorem Bridge.verdict_empty (hi : i < 128) (hk : (b.stageAt i).kind = .empty) : b.verdict range i = some .kindEmpty := by
  simp [Bridge.verdict, hi.not_ge, hk]

theorem Bridge.verdict_missing {f : Nat} (hi : i < 128) (hk : (b.stageAt i).kind ≠ .empty)
    (hf : (b.stageAt i).missingField = some f) : b.verdict range i = some (.fieldMissing f) := by
  simp [Bridge.verdict, hi.not_ge, hk, hf]

theorem Bridge.verdict_target {target : Nat} (hi : i < 128) (hk : (b.stageAt i).kind ≠ .empty)
    (hf : (b.stageAt i).missingField = none) (ha : (b.stageAt i).faultAction = some .excursion)
    (ht : (b.stageAt i).excTarget = some target) (h : 128 ≤ target) :
    b.verdict range i = some .targetOutsideStore := by
  simp [Bridge.verdict, hi.not_ge, hk, hf, ha, ht, h]

/-- A record whose fields and target are in order is refused only for a RETURN inside the plan. -/
theorem Bridge.verdict_ordered (hi : i < 128) (hk : (b.stageAt i).kind ≠ .empty)
    (hf : (b.stageAt i).missingField = none)
    (ht : (b.stageAt i).faultAction = some .excursion → ∀ target, (b.stageAt i).excTarget = some target → target < 128) :
    b.verdict range i =
      if (range.map fun p => p.contains i) = some true ∧ (b.stageAt i).next = some .ret then some .returnInPlan
      else none := by
  have hinside : ¬((b.stageAt i).faultAction = some .excursion ∧ 128 ≤ (b.stageAt i).excTarget.getD 0) := by
    rintro ⟨ha, h⟩
    cases htarget : (b.stageAt i).excTarget with
    | none => simp [htarget] at h
    | some target =>
      rw [htarget] at h
      exact (ht ha target htarget).not_ge h
  simp only [Bridge.verdict, hi.not_ge, hk, hf, hinside, if_false]

end

theorem PlanRange.contains_iff (p : PlanRange) (i : Nat) :
    p.contains i = true ↔ p.first ≤ i ∧ i < p.first + p.length := decide_eq_true_iff

theorem contained_iff (range : Option PlanRange) (i : Nat) :
    (range.map fun p => p.contains i) = some true ↔
      ∃ p, range = some p ∧ p.first ≤ i ∧ i < p.first + p.length := by
  simp only [Option.map_eq_some_iff, PlanRange.contains_iff]

/-! ## The validation of a plan (R94) -/

theorem Bridge.mem_namedTargets {b : Bridge} {p : PlanRange} {i : Nat} :
    i ∈ b.namedTargets p ↔ i < 128 ∧ ∃ j, p.first ≤ j ∧ j < p.first + p.length ∧
      (b.stageAt j).faultAction = some .excursion ∧ (b.stageAt j).excTarget = some i := by
  simp only [Bridge.namedTargets, List.mem_filterMap, List.mem_range'_1, Option.ite_none_right_eq_some,
    Option.filter_eq_some_iff, decide_eq_true_iff]
  exact ⟨fun ⟨j, ⟨hlo, hhi⟩, ha, ht, hi⟩ => ⟨hi, j, hlo, hhi, ha, ht⟩,
    fun ⟨hi, j, hlo, hhi, ha, ht⟩ => ⟨j, ⟨hlo, hhi⟩, ha, ht, hi⟩⟩

theorem Bridge.mem_checkedSet {b : Bridge} {p : PlanRange} {i : Nat} :
    i ∈ b.checkedSet p ↔ i < 128 ∧ ((p.first ≤ i ∧ i < p.first + p.length) ∨
      ∃ j, p.first ≤ j ∧ j < p.first + p.length ∧ (b.stageAt j).faultAction = some .excursion ∧
        (b.stageAt j).excTarget = some i) := by
  simp only [Bridge.checkedSet, List.mem_filter, List.mem_range, Bool.or_eq_true, PlanRange.contains_iff,
    decide_eq_true_iff, Bridge.mem_namedTargets]
  exact and_congr_right fun hi => or_congr_right ⟨fun ⟨_, h⟩ => h, fun h => ⟨hi, h⟩⟩

theorem Bridge.checkedSet_ascending (b : Bridge) (p : PlanRange) : (b.checkedSet p).Pairwise (· < ·) :=
  List.pairwise_lt_range.filter _

theorem Bridge.planDefect_outside {b : Bridge} {p : PlanRange} (h : 128 ≤ p.last) :
    b.planDefect p = some (128, .indexOutsideStore) := if_pos h

section
variable {b : Bridge} {p : PlanRange}

theorem Bridge.planDefect_some (hp : p.last < 128) {i : Nat} {d : Defect} :
    b.planDefect p = some (i, d) ↔ i ∈ b.checkedSet p ∧ b.verdict (some p) i = some d ∧
      ∀ j ∈ b.checkedSet p, j < i → b.verdict (some p) j = none := by
  rw [Bridge.planDefect, if_neg (by omega)]
  exact findSome?_ascending (b.checkedSet_ascending p)

theorem Bridge.planDefect_none (hp : p.last < 128) :
    b.planDefect p = none ↔ ∀ i ∈ b.checkedSet p, b.verdict (some p) i = none := by
  rw [Bridge.planDefect, if_neg (by omega), List.findSome?_eq_none_iff]
  simp only [Option.map_eq_none_iff]

/-- A plan that passes begins with a record that passes. -/
theorem Bridge.verdict_first (h : b.planDefect p = none) (hlength : 1 ≤ p.length) :
    b.verdict (some p) p.first = none := by
  have hlast : p.last < 128 := by
    by_contra hout
    rw [Bridge.planDefect_outside (by omega)] at h
    cases h
  refine (Bridge.planDefect_none hlast).mp h _ (Bridge.mem_checkedSet.mpr ⟨?_, .inl ⟨le_refl _, by omega⟩⟩)
  rw [PlanRange.last] at hlast
  omega

end

/-! ## The checks of PLS (R101) -/

section
variable {b : Bridge} {g : GroupIx}

theorem Bridge.mem_of_disabledMember {i : StationIx} :
    b.disabledMember g = some i ↔ i ∈ b.members g ∧ b.mask.getLsbD i.val = false ∧
      ∀ j ∈ b.members g, b.mask.getLsbD j.val = false → i ≤ j := by
  rw [Bridge.disabledMember, find?_ascending (b.members_pairwise g)]
  simp only [Bool.not_eq_true']

theorem Bridge.disabledMember_none :
    b.disabledMember g = none ↔ ∀ i ∈ b.members g, b.mask.getLsbD i.val = true := by
  simp [Bridge.disabledMember]

theorem Bridge.unfit_iff {i : StationIx} (hi : i ∈ b.members g) :
    decide ((b.station i).map (fun st => st.run.validity) ≠ some .valid) = true ↔
      ∃ st, b.station i = some st ∧ st.run.validity ≠ .valid := by
  obtain ⟨st, hst, -⟩ := Bridge.mem_members.mp hi
  simp [hst]

theorem Bridge.mem_of_unfitMember {i : StationIx} :
    b.unfitMember g = some i ↔ i ∈ b.members g ∧ (∃ st, b.station i = some st ∧ st.run.validity ≠ .valid) ∧
      ∀ j ∈ b.members g, (∃ st, b.station j = some st ∧ st.run.validity ≠ .valid) → i ≤ j := by
  rw [Bridge.unfitMember, find?_ascending (b.members_pairwise g)]
  refine and_congr_right fun hi => and_congr (Bridge.unfit_iff hi) (forall_congr' fun j => forall_congr' fun hj => ?_)
  rw [Bridge.unfit_iff hj]

theorem Bridge.unfitMember_none :
    b.unfitMember g = none ↔ ∀ i ∈ b.members g, ∀ st, b.station i = some st → st.run.validity = .valid := by
  rw [Bridge.unfitMember, List.find?_eq_none]
  refine forall_congr' fun i => forall_congr' fun hi => ?_
  rw [Bridge.unfit_iff hi]
  simp

theorem Bridge.startRefusal_unsynced (h : b.tracker.sync ≠ .synced) : b.startRefusal g = some (.notSynced, []) := by
  have hunsynced : b.tracker.sync = .unsynced := by
    cases hs : b.tracker.sync with
    | synced => exact absurd hs h
    | unsynced => rfl
  exact if_pos hunsynced

theorem Bridge.startRefusal_unreleased (hs : b.tracker.sync = .synced) (h : b.release = false) :
    b.startRefusal g = some (.notReleased, []) := by
  simp [Bridge.startRefusal, hs, h]

theorem Bridge.startRefusal_unchecked (hs : b.tracker.sync = .synced) (hr : b.release = true)
    (h : b.check.state ≠ .running) : b.startRefusal g = some (.checkNotRunning, []) := by
  simp [Bridge.startRefusal, hs, hr, h]

end

section
variable {b : Bridge} {g : GroupIx} (hs : b.tracker.sync = .synced) (hr : b.release = true)
  (hc : b.check.state = .running)
include hs hr hc

theorem Bridge.startRefusal_locked (h : (b.group g).unlocked = false) : b.startRefusal g = some (.wrongState, []) := by
  simp [Bridge.startRefusal, hs, hr, hc, h]

variable (hu : (b.group g).unlocked = true)
include hu

theorem Bridge.startRefusal_invalid {i : Nat} {d : Defect} (h : b.planDefect (b.group g).record.range = some (i, d)) :
    b.startRefusal g = some (.planInvalid, putByte i ++ putByte d.codes.1 ++ putByte d.codes.2) := by
  simp [Bridge.startRefusal, hs, hr, hc, hu, h]

variable (hp : b.planDefect (b.group g).record.range = none)
include hp

theorem Bridge.startRefusal_shares (h : b.leader g = none ∨ b.shareSum g ≠ 1000) :
    b.startRefusal g = some (.sharesInvalid, []) := by
  simp [Bridge.startRefusal, hs, hr, hc, hu, hp, h]

variable (hl : (b.leader g).isSome = true) (hsum : b.shareSum g = 1000)
include hl hsum

theorem Bridge.startRefusal_disabled {i : StationIx} (h : b.disabledMember g = some i) :
    b.startRefusal g = some (.memberDisabled, putStation i) := by
  simp [Bridge.startRefusal, hs, hr, hc, hu, hp, Option.isSome_iff_ne_none.mp hl, hsum, h]

theorem Bridge.startRefusal_unfit {i : StationIx} (hd : b.disabledMember g = none) (h : b.unfitMember g = some i) :
    b.startRefusal g = some (.memberNotValid, putStation i) := by
  simp [Bridge.startRefusal, hs, hr, hc, hu, hp, Option.isSome_iff_ne_none.mp hl, hsum, hd, h]

theorem Bridge.startRefusal_passes (hd : b.disabledMember g = none) (h : b.unfitMember g = none) :
    b.startRefusal g = none := by
  simp [Bridge.startRefusal, hs, hr, hc, hu, hp, Option.isSome_iff_ne_none.mp hl, hsum, hd, h]

end

theorem planStart_refused {b : Bridge} {g : GroupIx} {code : RefusalCode} {detail : List Byte}
    (h : b.startRefusal g = some (code, detail)) (tag : Byte) : planStart tag g b = (.refused code detail, b) := by
  unfold planStart
  rw [h]
  rfl

theorem planStart_taken {b : Bridge} {g : GroupIx} (h : b.startRefusal g = none) (tag : Byte) :
    planStart tag g b = (.accepted [], b.startPlan g tag) := by
  unfold planStart
  rw [h]

theorem putStation_eq (i : StationIx) : putStation i = [BitVec.ofNat 8 i.val] :=
  putByte_eq _ (by omega)

/-! ## A stage entry leaves the rest of the bridge (R103) -/

/-- `c` differs from `b` at most in the stations, the groups and the Event Queue. -/
def Bridge.StationWork (b c : Bridge) : Prop :=
  c = { b with stations := c.stations, groups := c.groups, events := c.events, eventsLost := c.eventsLost }

namespace Bridge.StationWork

theorem trans {b c d : Bridge} (hbc : b.StationWork c) (hcd : c.StationWork d) : b.StationWork d :=
  Eq.trans hcd (congrArg (fun x : Bridge =>
    { x with stations := d.stations, groups := d.groups, events := d.events, eventsLost := d.eventsLost }) hbc)

theorem modifyGroup (b : Bridge) (g : GroupIx) (f : DriveGroup → DriveGroup) : b.StationWork (b.modifyGroup g f) := rfl

theorem append (b : Bridge) (e : Event) : b.StationWork (b.append e) := by
  unfold Bridge.StationWork
  conv_lhs => rw [b.append_eq]
  rw [Bridge.append_stations, Bridge.append_groups]

theorem withStations (b : Bridge) (stations : Vector (Option Station) 32) :
    b.StationWork { b with stations := stations } := rfl

theorem seedWhen (b : Bridge) (g : GroupIx) (seeds : Bool) : b.StationWork (b.seedWhen g seeds) := by
  unfold Bridge.seedWhen Bridge.seedTrims Bridge.mapMembers Bridge.mapStations
  split
  · exact withStations b _
  · exact withStations b b.stations

theorem recordEntry (b : Bridge) (g : GroupIx) (r : StageRecord) : b.StationWork (b.recordEntry g r) := by
  unfold Bridge.recordEntry
  split <;> rfl

theorem beginStage (b : Bridge) (g : GroupIx) (i : Nat) (wasSpeed hadTrims : Bool) :
    b.StationWork (b.beginStage g i wasSpeed hadTrims) := by
  unfold Bridge.beginStage
  exact (((((modifyGroup _ _ _).trans (append _ _)).trans (modifyGroup _ _ _)).trans (seedWhen _ _ _)).trans
    (recordEntry _ _ _)).trans (modifyGroup _ _ _)

end Bridge.StationWork

/-! ## The start of a plan (R102) -/

theorem DriveGroup.unwinds_of_unlocked {x : DriveGroup} (h : x.unlocked = true) : x.unwinds = false := by
  unfold DriveGroup.unwinds
  obtain h | h := x.unlocked_iff.mp h <;> rw [h]

theorem Bridge.mode_of_unlocked {b : Bridge} {g : GroupIx} (h : (b.group g).unlocked = true) : b.mode g = .none := by
  rw [Bridge.mode, DriveGroup.inPlan_of_unlocked h, DriveGroup.unwinds_of_unlocked h]
  rfl

theorem Bridge.trimsOn_of_unlocked {b : Bridge} {g : GroupIx} (h : (b.group g).unlocked = true) :
    b.trimsOn g = false := by
  rw [Bridge.trimsOn, DriveGroup.inPlan_of_unlocked h, Bool.false_and]

/-- The group has taken the plan of its record under the tag; the plan's first stage is still to be entered. -/
def Bridge.planned (b : Bridge) (g : GroupIx) (tag : Byte) : Bridge :=
  b.modifyGroup g fun x =>
    { x with planTag := some tag, planRange := some x.record.range, stack := [], deferred := none }

theorem Bridge.startPlan_eq (b : Bridge) (g : GroupIx) (tag : Byte) :
    b.startPlan g tag = (b.planned g tag).enterStage g (b.group g).record.planFirst := rfl

theorem Bridge.planned_group (b : Bridge) (g : GroupIx) (tag : Byte) :
    (b.planned g tag).group g =
      { b.group g with
        planTag := some tag, planRange := some (b.group g).record.range, stack := [], deferred := none } := by
  rw [Bridge.planned, Bridge.group_modifyGroup, if_pos rfl]

theorem Bridge.planned_others (b : Bridge) {g k : GroupIx} (hk : k ≠ g) (tag : Byte) :
    (b.planned g tag).group k = b.group k := by
  rw [Bridge.planned, Bridge.group_modifyGroup, if_neg (Ne.symm hk)]

/-! ## The end of a stage (R115, R118) -/

section
variable {b : Bridge} {g : GroupIx} {stage : Nat} (hs : (b.group g).stage = some stage)
include hs

theorem Bridge.endStage_done (h : (b.stageAt stage).next = some .fin ∨
    (b.stageAt stage).next = some .next ∧ (b.group g).planRange.map PlanRange.last = some stage) :
    b.endStage g = (b.postGroup .stageDone g (some stage)).becomeDone g := by
  unfold Bridge.endStage
  rw [hs]
  obtain h | ⟨h, hlast⟩ := h
  · simp only [h]
  · simp only [h, Bridge.postGroup_eq, Bridge.group_append, hlast, if_true]

theorem Bridge.endStage_next (h : (b.stageAt stage).next = some .next)
    (hlast : (b.group g).planRange.map PlanRange.last ≠ some stage) :
    b.endStage g = (b.postGroup .stageDone g (some stage)).enterStage g (stage + 1) := by
  unfold Bridge.endStage
  rw [hs]
  simp only [h, Bridge.postGroup_eq, Bridge.group_append, hlast, if_false]

end

theorem lastIn_iff (range : Option PlanRange) (stage : Nat) :
    range.map PlanRange.last = some stage ↔ ∃ p, range = some p ∧ p.first + p.length - 1 = stage :=
  Option.map_eq_some_iff

/-- The group with which a plan ends (R115). -/
theorem Bridge.becomeDone_spec (b : Bridge) (g : GroupIx) :
    (b.becomeDone g).group g = { b.group g with runState := .done, phase := none, stack := [], deferred := none } ∧
    (∀ k, k ≠ g → (b.becomeDone g).group k = b.group k) ∧ (b.becomeDone g).stations = b.stations ∧
    (b.events.length ≤ 64 → Posted b (b.becomeDone g)
      [⟨.planDone, b.tracker.cycle, some g, none, none, (b.group g).planTag, none⟩]) := by
  unfold Bridge.becomeDone
  rw [Bridge.postGroup_eq, Bridge.group_modifyGroup, if_pos rfl]
  refine ⟨by rw [Bridge.group_append, Bridge.group_modifyGroup, if_pos rfl], fun k hk => ?_, ?_, fun he => ?_⟩
  · rw [Bridge.group_append, Bridge.group_modifyGroup, if_neg (Ne.symm hk)]
  · rw [Bridge.append_stations]
    rfl
  · exact (Posted.append (b.modifyGroup g _) _ he).congr rfl rfl rfl rfl

/-- A stage entered from `b`: the group's own part, the other groups and the event. -/
theorem Bridge.enterStage_entered {b : Bridge} {g : GroupIx} {i : Nat}
    (h : b.verdict (b.group g).planRange i = none) (he : b.events.length ≤ 64) :
    let c := b.enterStage g i
    let y := c.group g
    y.runState = .running ∧ y.stage = some i ∧ y.planTag = (b.group g).planTag ∧
      y.planRange = (b.group g).planRange ∧ y.stack = (b.group g).stack ∧ y.deferred = (b.group g).deferred ∧
      Posted b c [⟨.stageEntered, b.tracker.cycle, some g, none, some i, (b.group g).planTag, none⟩] := by
  rw [Bridge.enterStage_passed h]
  obtain ⟨hrun, -, hstack, hdeferred, -, hstage, htag, hrange, -⟩ :=
    b.beginStage_group g i (decide (b.mode g = .speed)) (b.trimsOn g)
  obtain ⟨hposted, -⟩ := b.beginStage_others g i (decide (b.mode g = .speed)) (b.trimsOn g)
  exact ⟨hrun, hstage, htag, hrange, hstack, hdeferred, hposted he⟩

theorem StageRecord.mode_speed_iff (r : StageRecord) : r.mode = .speed ↔ r.kind.overridesSpeed = true := by
  unfold StageRecord.mode
  cases r.kind with
  | pass => cases r.trimsOn <;> simp [StageKind.overridesSpeed]
  | _ => simp [StageKind.overridesSpeed]

theorem planConfirm_idle {b : Bridge} {g : GroupIx} (h : (b.group g).runState ≠ .running) :
    planConfirm g b = (.refused .wrongState [], b) := by
  simp [planConfirm, DriveGroup.isRunning, h, refuse]

theorem planConfirm_early {b : Bridge} {g : GroupIx} (h : (b.group g).runState = .running)
    (hp : (b.group g).phase ≠ some .awaitConfirm) : planConfirm g b = (.refused .notAwaiting [], b) := by
  simp [planConfirm, DriveGroup.isRunning, h, hp, refuse]

theorem planConfirm_taken {b : Bridge} {g : GroupIx} (h : (b.group g).runState = .running)
    (hp : (b.group g).phase = some .awaitConfirm) : planConfirm g b = (.done [], b.endStage g) := by
  simp [planConfirm, DriveGroup.isRunning, h, hp]

end Sys2Proof.Machine

namespace Sys2Proof.Proofs

open Sys2Proof.Machine

/-- Settles O39. -/
theorem planValidation : Obligations.PlanValidation := by
  constructor
  · intro b range i r inRange
    refine ⟨Bridge.verdict_outside, Bridge.verdict_empty, fun f => Bridge.verdict_missing,
      fun target => Bridge.verdict_target, fun hi hk hf ht => ?_⟩
    have hverdict := Bridge.verdict_ordered (range := range) hi hk hf ht
    have hcontained := contained_iff range i
    exact ⟨fun hin hret => hverdict.trans (if_pos ⟨hcontained.mpr hin, hret⟩),
      fun hnot => hverdict.trans (if_neg (mt (And.imp_left hcontained.mp) hnot))⟩
  · intro b p hlength checked
    have hchecked : ∀ i, i ∈ b.checkedSet p ↔ checked i := fun i => Bridge.mem_checkedSet
    refine ⟨Bridge.planDefect_outside, fun hlast => ⟨fun i d => ?_, ?_⟩⟩
    · rw [Bridge.planDefect_some hlast]
      simp only [hchecked]
    · rw [Bridge.planDefect_none hlast]
      simp only [hchecked]

/-- Settles O38. -/
theorem planStartRefused : Obligations.PlanStartRefused := by
  intro src tag ops g s ht hd b x answers c1 c2 c3 c4 c5 c6 disabled unfit
  have hanswers : ∀ {code detail}, b.startRefusal g = some (code, detail) → answers code detail := fun {code detail} h =>
    congrArg Host.Outcome.next <| by
      rw [State.serve_decoded ht hd, planStart_refused h]
  refine ⟨fun h => hanswers (Bridge.startRefusal_unsynced h), fun hs h => hanswers (Bridge.startRefusal_unreleased hs h),
    fun ⟨hs, hr⟩ h => hanswers (Bridge.startRefusal_unchecked hs hr h), fun ⟨⟨hs, hr⟩, hc⟩ hidle hdone =>
      hanswers (Bridge.startRefusal_locked hs hr hc ((DriveGroup.locked_iff _).mpr ⟨hidle, hdone⟩)),
    fun i d ⟨⟨⟨hs, hr⟩, hc⟩, hu⟩ h =>
      hanswers (Bridge.startRefusal_invalid hs hr hc ((DriveGroup.unlocked_iff _).mpr hu) h),
    fun ⟨⟨⟨⟨hs, hr⟩, hc⟩, hu⟩, hp⟩ h =>
      hanswers (Bridge.startRefusal_shares hs hr hc ((DriveGroup.unlocked_iff _).mpr hu) hp h),
    fun i ⟨⟨⟨⟨⟨hs, hr⟩, hc⟩, hu⟩, hp⟩, hl, hsum⟩ ⟨hi, hclear⟩ hleast => ?_,
    fun i ⟨⟨⟨⟨⟨hs, hr⟩, hc⟩, hu⟩, hp⟩, hl, hsum⟩ hall ⟨hi, hbad⟩ hleast => ?_⟩
  · have hfound : b.disabledMember g = some i :=
      Bridge.mem_of_disabledMember.mpr ⟨hi, hclear, fun j hj hj' => hleast j ⟨hj, hj'⟩⟩
    have h := Bridge.startRefusal_disabled hs hr hc ((DriveGroup.unlocked_iff _).mpr hu) hp hl hsum hfound
    rw [putStation_eq] at h
    exact hanswers h
  · have hnone : b.disabledMember g = none :=
      Bridge.disabledMember_none.mpr fun j hj => by simpa using fun hj' => hall j ⟨hj, hj'⟩
    have hfound : b.unfitMember g = some i :=
      Bridge.mem_of_unfitMember.mpr ⟨hi, hbad, fun j hj hj' => hleast j ⟨hj, hj'⟩⟩
    have h := Bridge.startRefusal_unfit hs hr hc ((DriveGroup.unlocked_iff _).mpr hu) hp hl hsum hnone hfound
    rw [putStation_eq] at h
    exact hanswers h

/-- Settles O37. -/
theorem planStarts : Obligations.PlanStarts := by
  intro src tag ops g s ht hd hcounters he hs hr hc hu hp hl hsum hmask hvalid x first r waits
  have hunlocked : x.unlocked = true := x.unlocked_iff.mpr hu
  have hpasses : s.bridge.startRefusal g = none :=
    Bridge.startRefusal_passes hs hr hc hunlocked hp hl hsum (Bridge.disabledMember_none.mpr hmask)
      (Bridge.unfitMember_none.mpr fun i hi st hst => hvalid i st hst (by
        obtain ⟨st', hst', hg⟩ := Bridge.mem_members.mp hi
        rw [hst] at hst'
        rw [Option.some.inj hst']
        exact hg))
  have hexec : exec (.pls src tag ops) s = .next (s.replied src tag 16#8 (.accepted []) (s.bridge.startPlan g tag)) :=
    congrArg Host.Outcome.next (by rw [State.serve_decoded ht hd, planStart_taken hpasses])
  have hgroup := s.bridge.planned_group g tag
  have hothers := fun k (hk : k ≠ g) => s.bridge.planned_others hk tag
  have hmode : (s.bridge.planned g tag).mode g = .none :=
    Bridge.mode_of_unlocked (by rw [hgroup]; exact hunlocked)
  have htrims : (s.bridge.planned g tag).trimsOn g = false :=
    Bridge.trimsOn_of_unlocked (by rw [hgroup]; exact hunlocked)
  have hwork : s.bridge.StationWork (s.bridge.planned g tag) := Bridge.StationWork.modifyGroup _ _ _
  have hrest : (s.bridge.planned g tag).stations = s.bridge.stations ∧ (s.bridge.planned g tag).store = s.bridge.store ∧
      (s.bridge.planned g tag).tracker = s.bridge.tracker ∧ (s.bridge.planned g tag).events = s.bridge.events ∧
      (s.bridge.planned g tag).eventsLost = s.bridge.eventsLost := ⟨rfl, rfl, rfl, rfl, rfl⟩
  rw [Bridge.startPlan_eq] at hexec
  generalize s.bridge.planned g tag = p at hgroup hothers hmode htrims hwork hrest hexec
  obtain ⟨hstations, hstore, htracker, hevents, hlost⟩ := hrest
  have hverdict : p.verdict (p.group g).planRange first = none := by
    rw [Bridge.verdict_congr hstore, hgroup]
    exact Bridge.verdict_first hp (hcounters.2 g).plan
  have henters := Bridge.enterStage_enters hverdict
  have hbegin := Bridge.enterStage_passed hverdict
  obtain ⟨hposted, -, hleaves⟩ := p.beginStage_others g first (decide (p.mode g = .speed)) (p.trimsOn g)
  have hdone := hwork.trans (Bridge.StationWork.beginStage p g first (decide (p.mode g = .speed)) (p.trimsOn g))
  rw [← hbegin] at hposted hleaves hdone
  rw [hevents, hgroup, htracker] at hposted
  generalize p.enterStage g first = c at henters hposted hleaves hdone hexec
  obtain ⟨hcgroup, hcstation⟩ := henters
  have hstation : ∀ i, p.station i = s.bridge.station i := Bridge.station_congr hstations
  have hmembers : p.members g = s.bridge.members g := Bridge.members_congr g fun i => by rw [hstation]
  rw [hgroup, Bridge.stageAt_congr hstore, hmode, hmembers] at hcgroup
  rw [htrims, hgroup, Bridge.stageAt_congr hstore] at hcstation
  have hspeed : (if r.kind.overridesSpeed = true ∧ Mode.none ≠ Mode.speed then x.reference else x.speed) =
      if r.kind ∈ [StageKind.creep, .bump, .tune, .thread, .handback] then x.reference else x.speed :=
    if_congr ((and_iff_left (by decide)).trans StageKind.overridesSpeed_iff) rfl rfl
  have hstage : s.bridge.stageAt first = r := rfl
  have hreference : ({ x with
      planTag := some tag, planRange := some x.record.range, stack := [], deferred := none } : DriveGroup).reference =
        x.reference := rfl
  rw [hstage, hreference] at hcgroup
  simp only [hstation] at hcgroup
  rw [hspeed] at hcgroup
  refine ⟨s.replied src tag 16#8 (.accepted []) c, by rw [hexec, State.replied_bridge], s.replied_eta .., ?_⟩
  rw [State.replied_bridge]
  refine ⟨?_, (hposted he).congr hevents.symm hlost.symm rfl rfl, fun k hk => (hleaves k hk).trans (hothers k hk),
    fun i => ?_, hdone⟩
  · intro y
    have hy : y = _ := hcgroup
    have hyspeed := congrArg DriveGroup.speed hy
    have hyphase := congrArg DriveGroup.phase hy
    simp only at hyphase hyspeed
    rw [← hyspeed] at hyphase
    refine ⟨by rw [hy], by rw [hy], by rw [hy], by rw [hy]; rfl, by rw [hy], by rw [hy], by rw [hy], by rw [hy], by rw [hy],
      fun h => ?_, hyspeed, fun h => ?_, fun h => ?_, fun h => ⟨?_, ?_, ?_⟩, fun h => ?_, fun h => ?_, by rw [hy],
      by rw [hy], by rw [hy]⟩
    · rw [hy]
      exact if_pos h
    · rw [hyphase]
      obtain h | h := h <;> rw [h]
    · rw [hyphase]
      obtain h | h := h <;> rw [h]
    · rw [hyphase, h]
    · rw [hyspeed, hy]
      exact if_pos h
    · rw [hy]
      exact if_pos h
    · rw [hyphase, h]
    · rw [hyphase, h]
  · rw [hcstation, hstation]
    refine congrArg (Option.map · _) (funext fun st => if_congr (and_congr_right fun _ => and_iff_left rfl) rfl rfl)

/-- Settles O41. -/
theorem planConfirm :  Obligations.PlanConfirm := by
  intro src tag ops g stage s ht hd he b x r cycle stageDone leaves awaits isLast
  have hexec : exec (.plc src tag ops) s =
      .next (s.replied src tag 19#8 (Machine.planConfirm g b).1 (Machine.planConfirm g b).2) :=
    congrArg Host.Outcome.next (State.serve_decoded ht hd src tag 19#8 Machine.planConfirm)
  have hsent : awaits → exec (.plc src tag ops) s =
      .next (s.replied src tag 19#8 (.done []) (s.replied src tag 19#8 (.done []) (b.endStage g)).bridge) :=
    fun ⟨hrun, hphase, _⟩ => by rw [hexec, planConfirm_taken hrun hphase, State.replied_bridge]
  have hcurrent : awaits → b.currentStage g = b.stageAt stage := fun ⟨_, _, hstage⟩ => by
    rw [Bridge.currentStage, hstage]
  obtain ⟨d, hd'⟩ : ∃ d, d = b.append stageDone := ⟨_, rfl⟩
  have hpost : b.postGroup .stageDone g (some stage) = d := by rw [Bridge.postGroup_eq, hd']
  have hdone : Posted b d [stageDone] := hd' ▸ Posted.append b _ he
  have hdgroup : ∀ k, d.group k = b.group k := fun k => by rw [hd', Bridge.group_append]
  have hdstore : d.store = b.store := by rw [hd', Bridge.append_store]
  have hdtracker : d.tracker = b.tracker := by rw [hd', Bridge.append_tracker]
  have hdstations : d.stations = b.stations := by rw [hd', Bridge.append_stations]
  refine ⟨fun h => ?_, fun h hp => ?_, fun ha => ⟨_, hsent ha, s.replied_eta .., State.replied_bridge ..⟩, fun ha h => ⟨_, hsent ha, s.replied_eta .., ?_⟩,
    fun ha h hlast hv => ⟨_, hsent ha, s.replied_eta .., ?_⟩, fun ha h hlast hv => ⟨_, hsent ha, s.replied_eta .., ?_⟩,
    fun f rest ha h hdef hstack halarm =>
      ⟨_, hsent ha, s.replied_eta .., ?_⟩, fun e ha h hdef hv =>
      ⟨_, hsent ha, s.replied_eta .., ?_⟩⟩
  · rw [hexec, planConfirm_idle h]
  · rw [hexec, planConfirm_early h hp]
  · rw [State.replied_bridge]
    have hr : r = b.stageAt stage := hcurrent ha
    obtain ⟨-, -, hstage⟩ := ha
    rw [hr] at h
    have hend := Bridge.endStage_done hstage (h.imp id (And.imp_right (lastIn_iff ..).mpr))
    rw [hend, hpost]
    obtain ⟨hgroup, hothers, hstations, hposted⟩ := d.becomeDone_spec g
    rw [hdgroup] at hgroup
    rw [hdtracker, hdgroup] at hposted
    exact ⟨hgroup, fun k hk => (hothers k hk).trans (hdgroup k), hstations.trans hdstations,
      hdone.trans (hposted hdone.length)⟩
  · rw [State.replied_bridge]
    have hr : r = b.stageAt stage := hcurrent ha
    obtain ⟨-, -, hstage⟩ := ha
    rw [hr] at h
    rw [Bridge.endStage_next hstage h (mt (lastIn_iff ..).mp hlast), hpost]
    have hverdict : d.verdict (d.group g).planRange (stage + 1) = none := by
      rw [Bridge.verdict_congr hdstore, hdgroup]
      exact hv
    have henters := (Bridge.enterStage_enters hverdict).congr hdstations hdstore (hdgroup g)
    obtain ⟨hrun, hnext, htag, hrange, hstack, hdeferred, hposted⟩ := Bridge.enterStage_entered hverdict hdone.length
    rw [hdgroup] at htag hrange hstack hdeferred hposted
    rw [hdtracker] at hposted
    generalize d.enterStage g (stage + 1) = c at hrun hnext htag hrange hstack hdeferred hposted henters
    have hspeed := congrArg DriveGroup.speed henters.1
    refine ⟨hrun, hnext, htag, hrange, hstack, hdeferred, ?_, henters, hdone.trans hposted⟩
    rw [hspeed]
    exact if_congr (and_congr_left fun _ => (StageRecord.mode_speed_iff _).symm) rfl rfl
  · rw [State.replied_bridge]
    have hr : r = b.stageAt stage := hcurrent ha
    obtain ⟨-, -, hstage⟩ := ha
    rw [hr] at h
    rw [Bridge.endStage_next hstage h (mt (lastIn_iff ..).mp hlast), hpost, Bridge.enterStage_refused (by
      rw [Bridge.verdict_congr hdstore, hdgroup]
      exact hv)]
    obtain ⟨hfaulted, hfault, -⟩ := d.enterFault_spec g .stageInvalid .unwinding none (some (stage + 1))
    rw [hdgroup] at hfaulted hfault
    rw [hdtracker] at hfault
    exact ⟨congrArg DriveGroup.runState hfaulted, (congrArg DriveGroup.stage hfaulted).trans hstage,
      congrArg DriveGroup.stack hfaulted, hdone.trans (hfault hdone.length)⟩
  · rw [State.replied_bridge]
    have hr : r = b.stageAt stage := hcurrent ha
    obtain ⟨hrun, -, hstage⟩ := ha
    rw [hr] at h
    obtain ⟨hquiet, -⟩ := (returnAtStageEnd b g stage he hrun hstage h).2 f rest hdef hstack
    obtain ⟨hyRun, hyStage, hyStack, -, hySpeed, -, -, -, -, -, -, -, -, -, -, hyPosted⟩ := hquiet halarm
    exact ⟨hyRun, hyStage, hyStack, hySpeed, hyPosted⟩
  · rw [State.replied_bridge]
    have hr : r = b.stageAt stage := hcurrent ha
    obtain ⟨-, -, hstage⟩ := ha
    rw [hr] at h
    rw [Bridge.endStage_return hstage h, hpost, Bridge.endWithReturn_deferred (by rw [hdgroup]; exact hdef)]
    generalize hn : d.modifyGroup g (fun x => { x with deferred := none }) = n
    have hngroup : n.group g = { x with deferred := none } := by
      rw [← hn, Bridge.group_modifyGroup, if_pos rfl, hdgroup]
    have hnrest : n.store = d.store ∧ n.tracker = d.tracker ∧ n.stations = d.stations ∧ n.events = d.events ∧
        n.eventsLost = d.eventsLost := by
      rw [← hn]
      exact ⟨rfl, rfl, rfl, rfl, rfl⟩
    obtain ⟨hnstore, hntracker, hnstations, hnevents, hnlost⟩ := hnrest
    rw [Bridge.postGroup_eq, hngroup, hntracker, hdtracker]
    have htaken := (Posted.append n ⟨.excursionTaken, cycle, some g, e.station, some e.target, x.planTag, some e.cause⟩
      (hnevents ▸ hdone.length)).congr hnevents.symm hnlost.symm rfl rfl
    obtain ⟨m, hm⟩ : ∃ m, m = n.append ⟨.excursionTaken, cycle, some g, e.station, some e.target, x.planTag, some e.cause⟩ :=
      ⟨_, rfl⟩
    have hmstations : m.stations = b.stations := by rw [hm, Bridge.append_stations, hnstations, hdstations]
    have hmstore : m.store = b.store := by rw [hm, Bridge.append_store, hnstore, hdstore]
    have hmtracker : m.tracker = b.tracker := by rw [hm, Bridge.append_tracker, hntracker, hdtracker]
    have hmgroup : m.group g = { x with deferred := none } := by rw [hm, Bridge.group_append, hngroup]
    have hboth := hdone.trans htaken
    rw [← hm] at hboth
    have hverdict : m.verdict (m.group g).planRange e.target = none := by
      rw [Bridge.verdict_congr hmstore, hmgroup]
      exact hv
    have henters : EntersStage { b with groups := b.groups.set g { x with deferred := none } } (m.enterStage g e.target) g
        e.target :=
      (Bridge.enterStage_enters hverdict).congr hmstations hmstore
        (hmgroup.trans ((b.group_setGroup g g _).trans (if_pos rfl)).symm)
    obtain ⟨hrun, hnext, -, -, hstack, hdeferred, hposted⟩ := Bridge.enterStage_entered hverdict hboth.length
    rw [hmgroup] at hstack hdeferred hposted
    rw [hmtracker] at hposted
    have hall := hboth.trans hposted
    rw [← hm]
    exact ⟨hrun, hnext, hstack, hdeferred, henters, hall⟩

end Sys2Proof.Proofs
end

section
/-! PROOFS. The probe units: cancel and read, the result of a sub-window, and a close that reaches a running probe (R144
to R152). -/

namespace Sys2Proof.Machine

/-! ## Results (R147, R148) -/

section
variable (a : Accumulators)

theorem Accumulators.result_empty (h : a.samples = 0) :
    a.result.meanTorque = none ∧ a.result.ripple = none ∧ a.result.elapsed = none ∧ a.result.frequency = none := by
  unfold Accumulators.result
  cases a.firstTime <;> cases a.lastTime <;> cases a.errorMin <;> cases a.errorMax <;> simp [h]

theorem Accumulators.result_mean (h : a.samples ≠ 0) :
    a.result.meanTorque = some (a.torqueSum.tdiv a.samples) := if_neg h

theorem Accumulators.result_ripple {lo hi : Int} (h : a.samples ≠ 0) (hlo : a.errorMin = some lo)
    (hhi : a.errorMax = some hi) : a.result.ripple = some (hi - lo).toNat := by
  unfold Accumulators.result
  simp only [hlo, hhi]
  exact if_neg h

theorem Accumulators.result_single (h : a.samples = 1) : a.result.elapsed = none ∧ a.result.frequency = none := by
  unfold Accumulators.result
  cases a.firstTime <;> cases a.lastTime <;> simp [h]

/-- The elapsed time is taken modulo 2^32 (R147). -/
theorem Accumulators.result_times {t0 t1 : BitVec 32} (h : 2 ≤ a.samples) (h0 : a.firstTime = some t0)
    (h1 : a.lastTime = some t1) :
    let e := (t1.toNat + 4294967296 - t0.toNat) % 4294967296
    a.result.elapsed = some e ∧ (e = 0 → a.result.frequency = none) ∧
      (e ≠ 0 → a.result.frequency = some (a.crossings * 100000000 / (2 * e))) := by
  intro e
  have he : (t1 - t0).toNat = e := by
    rw [BitVec.toNat_sub]
    have := t0.isLt
    simp only [e]
    congr 1
    omega
  unfold Accumulators.result
  simp only [h0, h1, h.not_gt, if_false, he, true_and]
  exact ⟨fun hz => if_pos hz, fun hz => if_neg hz⟩

end

/-- The median is one of the three, at least two are no greater, and at least two no less. -/
theorem median_spec (a b c : Nat) :
    (median a b c = a ∨ median a b c = b ∨ median a b c = c) ∧
      2 ≤ [a, b, c].countP (· ≤ median a b c) ∧ 2 ≤ [a, b, c].countP (median a b c ≤ ·) := by
  have hone : median a b c = a ∨ median a b c = b ∨ median a b c = c := by
    unfold median
    omega
  refine ⟨hone, ?_, ?_⟩ <;>
    simp only [List.countP_cons, List.countP_nil, decide_eq_true_eq] <;> unfold median <;> split_ifs <;> omega

theorem chosenSub_none {r1 r2 r3 : SubResult} (h : r1.ripple = none ∨ r2.ripple = none ∨ r3.ripple = none) :
    chosenSub [r1, r2, r3] = none := by
  simp only [chosenSub]
  split
  · next h1 h2 h3 => simp [h1, h2, h3] at h
  · rfl

theorem chosenSub_some {r1 r2 r3 : SubResult} {a b c : Nat} (h1 : r1.ripple = some a) (h2 : r2.ripple = some b)
    (h3 : r3.ripple = some c) :
    chosenSub [r1, r2, r3] = some (if a = median a b c then 1 else if b = median a b c then 2 else 3) := by
  unfold chosenSub
  simp only [h1, h2, h3]

/-- The place of the chosen sub-window is the first that holds the median. -/
theorem median_place (a b c : Nat) :
    let n := if a = median a b c then 1 else if b = median a b c then 2 else 3
    1 ≤ n ∧ [a, b, c][n - 1]? = some (median a b c) ∧
      ∀ k, 1 ≤ k → k < n → [a, b, c][k - 1]? ≠ some (median a b c) := by
  obtain ⟨hone, -, -⟩ := median_spec a b c
  generalize median a b c = m at hone ⊢
  intro n
  by_cases ha : a = m
  · have hn : n = 1 := if_pos ha
    rw [hn, ha]
    exact ⟨le_refl _, rfl, fun k hk hlt => absurd hk hlt.not_ge⟩
  · by_cases hb : b = m
    · have hn : n = 2 := (if_neg ha).trans (if_pos hb)
      rw [hn, hb]
      refine ⟨by omega, rfl, fun k hk hlt => ?_⟩
      obtain rfl : k = 1 := by omega
      simpa using ha
    · have hn : n = 3 := (if_neg ha).trans (if_neg hb)
      have hc : c = m := (hone.resolve_left (Ne.symm ha)).resolve_left (Ne.symm hb) |>.symm
      rw [hn, hc]
      refine ⟨by omega, rfl, fun k hk hlt => ?_⟩
      obtain rfl | rfl : k = 1 ∨ k = 2 := by omega
      · simpa using ha
      · simpa using hb

/-! ## The result record of a run (R147 to R149) -/

/-- What a result record carries over from its run. -/
theorem Bridge.probeResult_heads (b : Bridge) (p : ProbeId) (outcome : Cause) :
    let v := b.probeResult p outcome
    let x := b.probe p
    v.probe = p ∧ v.owner = x.owner ∧ v.station = x.station ∧ v.mode = x.mode ∧ v.window = x.window ∧
      v.outcome = outcome ∧ v.cycle = b.tracker.cycle := by
  unfold Bridge.probeResult
  simp only
  split <;> exact ⟨rfl, rfl, rfl, rfl, rfl, rfl, rfl⟩

theorem Bridge.probeResult_fixed {b : Bridge} {p : ProbeId} (h : (b.probe p).mode = .fixed) (outcome : Cause) :
    let v := b.probeResult p outcome
    v.subs = [] ∧ v.chosen = none ∧
      (b.probe p).acc.result = ⟨v.closes, v.samples, v.meanTorque, v.ripple, v.crossings, v.elapsed, v.frequency⟩ := by
  unfold Bridge.probeResult
  simp only [h]
  exact ⟨rfl, rfl, rfl⟩

theorem Bridge.probeResult_stepped {b : Bridge} {p : ProbeId} (h : (b.probe p).mode = .stepped) (outcome : Cause) :
    b.probeResult p outcome = (b.probe p).steppedResult p b.tracker.cycle outcome
      ((b.probe p).completed ++ [(b.probe p).acc.result]) (Config.freeCrossings b.choiceCount).toNat := by
  unfold Bridge.probeResult
  simp only [h]

/-- The run-level fields of a STEPPED record (R148). -/
theorem Probe.steppedResult_fields (x : Probe) (p : ProbeId) (cycle : Option CycleNo) (outcome : Cause)
    (subs : List SubResult) (free : Nat) :
    let v := x.steppedResult p cycle outcome subs free
    v.subs = subs ∧ v.chosen = (if outcome = .completed then chosenSub v.subs else none) ∧
      v.closes = (v.subs.map SubResult.closes).sum ∧ v.samples = (v.subs.map SubResult.samples).sum ∧
      (v.chosen = none → v.ripple = none ∧ v.meanTorque = none ∧ v.elapsed = none ∧ v.frequency = none) ∧
      ∀ n u, v.chosen = some n → v.subs[n - 1]? = some u →
        v.ripple = u.ripple ∧ v.meanTorque = u.meanTorque ∧ v.crossings = u.crossings ∧ v.elapsed = u.elapsed ∧
          v.frequency = u.frequency := by
  unfold Probe.steppedResult
  simp only
  refine ⟨trivial, trivial, trivial, trivial, fun h => ?_, fun n u hn hu => ?_⟩
  · rw [h]
    exact ⟨rfl, rfl, rfl, rfl⟩
  · rw [hn]
    simp only [Option.bind_some, hu, Option.map_some, Option.getD_some, and_self]

/-- The record that the run of `x` leaves when it ends with `a` as its last accumulators. -/
def Probe.Recorded (x : Probe) (p : ProbeId) (cycle : Option CycleNo) (outcome : Cause) (a : Accumulators)
    (v : ProbeResult) : Prop :=
  v.probe = p ∧ v.owner = x.owner ∧ v.station = x.station ∧ v.mode = x.mode ∧ v.window = x.window ∧
  v.outcome = outcome ∧ v.cycle = cycle ∧
  (x.mode = .fixed → v.subs = [] ∧ v.chosen = none ∧
    a.result = ⟨v.closes, v.samples, v.meanTorque, v.ripple, v.crossings, v.elapsed, v.frequency⟩) ∧
  (x.mode = .stepped → v.subs = x.completed ++ [a.result] ∧
    v.chosen = (if outcome = .completed then chosenSub v.subs else none) ∧
    v.closes = (v.subs.map SubResult.closes).sum ∧ v.samples = (v.subs.map SubResult.samples).sum ∧
    (v.chosen = none → v.ripple = none) ∧
    (outcome = .completed → v.chosen = none → v.meanTorque = none ∧ v.elapsed = none ∧ v.frequency = none) ∧
    (∀ n u, v.chosen = some n → v.subs[n - 1]? = some u →
      v.ripple = u.ripple ∧ v.meanTorque = u.meanTorque ∧ v.crossings = u.crossings ∧ v.elapsed = u.elapsed ∧
        v.frequency = u.frequency))

theorem Bridge.probeResult_recorded {b : Bridge} {p : ProbeId} {x : Probe} {a : Accumulators}
    (h : b.probe p = { x with acc := a }) (outcome : Cause) :
    x.Recorded p b.tracker.cycle outcome a (b.probeResult p outcome) := by
  obtain ⟨hprobe, howner, hstation, hmode, hwindow, houtcome, hcycle⟩ := b.probeResult_heads p outcome
  rw [h] at howner hstation hmode hwindow
  refine ⟨hprobe, howner, hstation, hmode, hwindow, houtcome, hcycle, fun hm => ?_, fun hm => ?_⟩
  · have hfixed := Bridge.probeResult_fixed (b := b) (p := p) (by rw [h]; exact hm) outcome
    rw [h] at hfixed
    exact hfixed
  · rw [Bridge.probeResult_stepped (by rw [h]; exact hm), h]
    obtain ⟨hsubs, hchosen, hcloses, hsamples, habsent, hfound⟩ := Probe.steppedResult_fields { x with acc := a } p
      b.tracker.cycle outcome (x.completed ++ [a.result]) (Config.freeCrossings b.choiceCount).toNat
    exact ⟨hsubs, hchosen, hcloses, hsamples, fun hn => (habsent hn).1, fun _ hn => (habsent hn).2, hfound⟩

/-! ## The end of a run (R147, R150) -/

theorem Bridge.setProbe_self (b : Bridge) (p : ProbeId) : b.setProbe p (b.probe p) = b := by
  cases p <;> rfl

theorem Bridge.setProbe_setProbe (b : Bridge) (p : ProbeId) (x y : Probe) :
    (b.setProbe p x).setProbe p y = b.setProbe p y := by
  cases p <;> rfl

/-- An event appended after a probe has been set could have been appended before. -/
theorem Bridge.append_setProbe (b : Bridge) (p : ProbeId) (x : Probe) (e : Event) :
    (b.setProbe p x).append e =
      { b with events := ((b.setProbe p x).append e).events
               eventsLost := ((b.setProbe p x).append e).eventsLost }.setProbe p x := by
  conv_lhs => rw [Bridge.append_eq]
  cases p <;> rfl

theorem Bridge.cancelRun_eq (b : Bridge) (p : ProbeId) :
    b.cancelRun p =
      { b with choiceCount := b.choiceCount + (b.probeResult p .cancelled).drawn }.setProbe p
        { b.probe p with state := .idle, owner := none, result := some (b.probeResult p .cancelled) } := by
  cases p <;> rfl

theorem Bridge.idleProbe_eq (b : Bridge) (p : ProbeId) :
    b.idleProbe p = b.setProbe p { b.probe p with state := .idle, owner := none } := rfl

/-- The probe has become DONE with its result; PROBE_DONE is still to be posted. -/
def Bridge.ended (b : Bridge) (p : ProbeId) (outcome : Cause) : Bridge :=
  { b with choiceCount := b.choiceCount + (b.probeResult p outcome).drawn }.setProbe p
    { b.probe p with state := .done, result := some (b.probeResult p outcome) }

theorem Bridge.endRun_request {b : Bridge} {p : ProbeId} {tag : Byte} (h : (b.probe p).owner = some (.request tag))
    (outcome : Cause) :
    b.endRun p outcome = ((b.ended p outcome).append
      ⟨.probeDone, b.tracker.cycle, none, (b.probe p).station, none, some tag, some outcome⟩).probeFreed p := by
  unfold Bridge.endRun
  simp only
  split
  · next tag' htag =>
    obtain rfl : tag' = tag := ProbeOwner.request.inj (Option.some.inj (htag.symm.trans h))
    cases p <;> rfl
  · next hother => exact absurd h (hother tag)

theorem Bridge.endRun_other {b : Bridge} {p : ProbeId} (h : ∀ tag, (b.probe p).owner ≠ some (.request tag))
    (outcome : Cause) : b.endRun p outcome = b.ended p outcome := by
  unfold Bridge.endRun
  simp only
  cases p <;> rfl

theorem Bridge.ended_events (b : Bridge) (p : ProbeId) (outcome : Cause) :
    (b.ended p outcome).events = b.events ∧ (b.ended p outcome).eventsLost = b.eventsLost := by
  cases p <;> exact ⟨rfl, rfl⟩

/-- The run's accumulators do not stay in the way of the end's bridge. -/
theorem Bridge.ended_setProbe (b : Bridge) (p : ProbeId) (y : Probe) (outcome : Cause) :
    (b.setProbe p y).ended p outcome =
      { b with choiceCount := b.choiceCount + ((b.setProbe p y).probeResult p outcome).drawn }.setProbe p
        { y with state := .done, result := some ((b.setProbe p y).probeResult p outcome) } := by
  cases p <;> rfl

/-! ## The arbiter (R144) -/

theorem Bridge.probeFreed_grants {b : Bridge} {g : GroupIx} {i : StationIx} {w : Nat} (p : ProbeId)
    (h : (b.group g).waiting = true) (hleast : ∀ k, (b.group k).waiting = true → g ≤ k) (hi : b.leader g = some i)
    (hw : (b.currentStage g).probeWindow = some w) :
    b.probeFreed p = (b.setProbe p (startedProbe (.group g) i .fixed w)).setGroup g
      { b.group g with phase := some .probing, waiting := false } := by
  unfold Bridge.probeFreed
  rw [Bridge.lowestWaiting_eq h hleast]
  exact Bridge.grant_eq p hi hw

/-! ## PBC and PBR (R150, R152) -/

theorem Probe.groupOwned_iff (x : Probe) : x.groupOwned = true ↔ ∃ g, x.owner = some (.group g) := by
  unfold Probe.groupOwned
  split
  · next g h => exact ⟨fun _ => ⟨g, h⟩, fun _ => rfl⟩
  · next h => exact ⟨fun hf => absurd hf Bool.false_ne_true, fun ⟨g, hg⟩ => absurd hg (h g)⟩

section
variable {b : Bridge} {p : ProbeId}

theorem probeCancel_owned (h : ∃ g, (b.probe p).owner = some (.group g)) :
    probeCancel p b = (.refused .wrongOwner [], b) := if_pos ((Probe.groupOwned_iff _).mpr h)

theorem probeCancel_stopped (h : ¬∃ g, (b.probe p).owner = some (.group g)) (hs : (b.probe p).state ≠ .running) :
    probeCancel p b = (.refused .wrongState [], b) :=
  (if_neg (mt (Probe.groupOwned_iff _).mp h)).trans (if_pos hs)

theorem probeCancel_running (h : ¬∃ g, (b.probe p).owner = some (.group g)) (hs : (b.probe p).state = .running) :
    probeCancel p b = (.done (resultFields (b.probeResult p .cancelled)), (b.cancelRun p).probeFreed p) :=
  (if_neg (mt (Probe.groupOwned_iff _).mp h)).trans (if_neg (not_not.mpr hs))

theorem probeRead_running (hs : (b.probe p).state = .running) :
    probeRead p b = (.done (runningFields (b.probe p)), b) := by
  unfold probeRead
  simp only [hs]

theorem probeRead_idle (hs : (b.probe p).state = .idle) :
    probeRead p b = (.done (putOpt resultFields (b.probe p).result), b) := by
  unfold probeRead
  simp only [hs]

theorem probeRead_done {r : ProbeResult} (hs : (b.probe p).state = .done) (hr : (b.probe p).result = some r) :
    probeRead p b = (.done (resultFields r), (b.idleProbe p).probeFreed p) := by
  unfold probeRead
  simp only [hs, hr, Option.toList_some, List.flatMap_singleton]

end

theorem decodeOperands_readProbe {code : Byte} {p : ProbeId} (h : code = 1#8 ∧ p = .p1 ∨ code = 2#8 ∧ p = .p2) :
    decodeOperands readProbe [code] = some p := by
  obtain ⟨rfl, rfl⟩ | ⟨rfl, rfl⟩ := h <;> decide

/-! ## Sampling (R145) -/

section
variable (a : Accumulators) (st : Station) (fresh : Bool) (time : BitVec 32)

theorem Accumulators.count_closes : (a.count st fresh time).closes = a.closes + 1 := by
  unfold Accumulators.count
  simp only
  split <;> rfl

theorem Accumulators.count_unsampled (h : fresh = false ∨ st.run.latch = none ∨ st.run.lastSent = none) :
    a.count st fresh time = { a with closes := (a.count st fresh time).closes } := by
  rw [Accumulators.count_closes]
  unfold Accumulators.count
  simp only
  split
  · next l sent hl hsent => simp [hl, hsent] at h
  · rfl

theorem Accumulators.count_sampled {l : Latch} {sent : Int} (hl : st.run.latch = some l)
    (hsent : st.run.lastSent = some sent) :
    a.count st true time = { a with closes := a.closes + 1 }.sample (surfaceTorque st.config.polarity l.torque)
      (surfaceSpeed st.config.polarity l.speed - sent) time := by
  unfold Accumulators.count
  simp only [hl, hsent]

end

/-- What a sample does to the accumulators (R145). -/
theorem Accumulators.sample_fields (a : Accumulators) (torque e : Int) (time : BitVec 32) :
    let c := a.sample torque e time
    c.samples = a.samples + 1 ∧ c.torqueSum = a.torqueSum + torque ∧
      c.errorMin = some (match a.errorMin with | some m => if e < m then e else m | none => e) ∧
      c.errorMax = some (match a.errorMax with | some m => if m < e then e else m | none => e) ∧
      c.crossings =
        (if a.lastSign = some .neg ∧ 0 < e ∨ a.lastSign = some .pos ∧ e < 0 then a.crossings + 1 else a.crossings) ∧
      c.lastSign = (if e < 0 then some .neg else if 0 < e then some .pos else a.lastSign) ∧
      c.firstTime = some (a.firstTime.getD time) ∧ c.lastTime = some time := by
  have hmin : ∀ m : Int, min m e = if e < m then e else m := fun m => by
    rw [min_comm, min_def]
    split_ifs <;> omega
  have hmax : ∀ m : Int, max m e = if m < e then e else m := fun m => by
    rw [max_def]
    split_ifs <;> omega
  unfold Accumulators.sample
  refine ⟨rfl, rfl, ?_, ?_, ?_, ?_, ?_, rfl⟩
  · cases a.errorMin with
    | none => rfl
    | some m => exact congrArg some (hmin m)
  · cases a.errorMax with
    | none => rfl
    | some m => exact congrArg some (hmax m)
  · obtain hneg | rfl | hpos := lt_trichotomy e 0
    · cases a.lastSign with
      | none => simp
      | some s => cases s <;> simp [signOf, hneg, hneg.not_gt]
    · simp [signOf]
    · cases a.lastSign with
      | none => simp
      | some s => cases s <;> simp [signOf, hpos, hpos.not_gt]
  · obtain hneg | rfl | hpos := lt_trichotomy e 0
    · simp [signOf, hneg]
    · simp [signOf]
    · simp [signOf, hpos, hpos.not_gt]
  · cases a.firstTime <;> rfl

theorem endsRun_iff (t : Option Validity) : endsRun t = true ↔ t = some .invalid ∨ t = some .fatal := by
  obtain _ | _ | _ | _ := t <;> simp [endsRun]

section
variable {b : Bridge} {p : ProbeId} {r : CloseRecord} (hrun : (b.probe p).state = .running)
  (hstation : (b.probe p).station = some r.station)
include hrun hstation

theorem Bridge.probeClose_ends (h : r.transition = some .invalid ∨ r.transition = some .fatal) :
    b.probeClose p r = b.endRun p .invalidated := by
  unfold Bridge.probeClose
  simp only [hrun, hstation, (endsRun_iff _).mpr h, and_self, if_true]

theorem Bridge.probeClose_counts {st : Station} (hst : b.station r.station = some st)
    (h : ¬(r.transition = some .invalid ∨ r.transition = some .fatal)) :
    b.probeClose p r =
      (b.setProbe p { b.probe p with acc := (b.probe p).acc.count st r.fresh b.timeBase }).endSubWindow p := by
  unfold Bridge.probeClose
  simp only [hrun, hstation, mt (endsRun_iff _).mp h, hst, and_self, if_true, Bool.false_eq_true, if_false]

end

theorem Bridge.endSubWindow_open {b : Bridge} {p : ProbeId} (h : (b.probe p).acc.closes ≠ (b.probe p).length) :
    b.endSubWindow p = b := if_pos h

theorem Bridge.endSubWindow_next {b : Bridge} {p : ProbeId} (h : (b.probe p).acc.closes = (b.probe p).length)
    (hm : (b.probe p).mode = .stepped) (hs : (b.probe p).sub < 3) :
    b.endSubWindow p = b.setProbe p
      { b.probe p with
        sub := (b.probe p).sub + 1, acc := Accumulators.empty
        completed := (b.probe p).completed ++ [(b.probe p).acc.result] } :=
  (if_neg (not_not.mpr h)).trans (if_pos ⟨hm, hs⟩)

theorem Bridge.endSubWindow_last {b : Bridge} {p : ProbeId} (h : (b.probe p).acc.closes = (b.probe p).length)
    (hl : ¬((b.probe p).mode = .stepped ∧ (b.probe p).sub < 3)) : b.endSubWindow p = b.endRun p .completed :=
  (if_neg (not_not.mpr h)).trans (if_neg hl)

end Sys2Proof.Machine

namespace Sys2Proof.Proofs

open Sys2Proof.Machine

/-- Settles O45. -/
theorem subWindowResults : Obligations.SubWindowResults := by
  constructor
  · intro a r
    refine ⟨rfl, rfl, rfl, a.result_empty, fun h => ⟨a.result_mean h, fun lo hi => a.result_ripple h⟩, a.result_single,
      fun t0 t1 => a.result_times⟩
  · intro r1 r2 r3
    refine ⟨chosenSub_none, ?_⟩
    intro a1 a2 a3 h1 h2 h3 all
    obtain ⟨hpositive, hplace, hearliest⟩ := median_place a1 a2 a3
    obtain ⟨-, hbelow, habove⟩ := median_spec a1 a2 a3
    exact ⟨_, _, chosenSub_some h1 h2 h3, hpositive, hplace, hbelow, habove, hearliest⟩

/-- Settles O44. -/
theorem probeCancelAndRead : Obligations.ProbeCancelAndRead := by
  intro src tag code p s ht hp b x pbc pbr put byGroup
  have hd := decodeOperands_readProbe hp
  have hput : ∀ (b : Bridge) (y : Probe), put b y = b.setProbe p y := fun b y => by cases p <;> rfl
  have hcancel : pbc (probeCancel p b).1 (probeCancel p b).2 :=
    congrArg Host.Outcome.next (State.serve_decoded ht hd src tag 25#8 probeCancel)
  have hread : pbr (probeRead p b).1 (probeRead p b).2 :=
    congrArg Host.Outcome.next (State.serve_decoded ht hd src tag 26#8 probeRead)
  refine ⟨fun h => ?_, fun h hs => ?_, fun h hs => ?_, fun hs => ?_, fun hs => ?_, fun r hs hr => ?_,
    fun c hc => Bridge.probeFreed_none hc p, fun c g i w hg hleast hi hw => ?_⟩
  · rw [probeCancel_owned h] at hcancel
    exact hcancel
  · rw [probeCancel_stopped h hs] at hcancel
    exact hcancel
  · rw [probeCancel_running h hs, Bridge.cancelRun_eq] at hcancel
    obtain ⟨hprobe, howner, hstation, hmode, hwindow, houtcome, hcycle⟩ := b.probeResult_heads p .cancelled
    have hchosen : (b.probeResult p .cancelled).chosen = none := by
      cases hm : x.mode with
      | fixed => exact (Bridge.probeResult_fixed hm _).2.1
      | stepped =>
        rw [Bridge.probeResult_stepped hm]
        exact (Probe.steppedResult_fields ..).2.1
    refine ⟨b.probeResult p .cancelled, _, houtcome, hprobe, howner, hstation, hmode, hwindow, hcycle, hchosen,
      fun hm => ?_, fun hm => ?_, by rw [hput]; exact hcancel⟩
    · obtain ⟨hsubs, -, hacc⟩ := Bridge.probeResult_fixed hm .cancelled
      generalize b.probeResult p .cancelled = v at hsubs hacc
      exact ⟨(congrArg SubResult.closes hacc).symm, (congrArg SubResult.samples hacc).symm,
        (congrArg SubResult.crossings hacc).symm, (congrArg SubResult.meanTorque hacc).symm,
        (congrArg SubResult.ripple hacc).symm, hsubs⟩
    · rw [Bridge.probeResult_stepped hm] at hchosen ⊢
      obtain ⟨hsubs, -, -, -, habsent, -⟩ := Probe.steppedResult_fields (b.probe p) p b.tracker.cycle .cancelled
        ((b.probe p).completed ++ [(b.probe p).acc.result]) (Config.freeCrossings b.choiceCount).toNat
      exact ⟨hsubs, (habsent hchosen).1⟩
  · rw [probeRead_running hs] at hread
    exact hread
  · rw [probeRead_idle hs] at hread
    have hcases : ∀ o : Option ProbeResult, pbr (.done (putOpt resultFields o)) b →
        pbr (.done (match o with | none => [0#8] | some r => 1#8 :: resultFields r)) b := fun o h => by
      cases o <;> exact h
    exact hcases _ hread
  · rw [probeRead_done hs hr, Bridge.idleProbe_eq] at hread
    rw [hput]
    exact hread
  · rw [Bridge.probeFreed_grants p hg hleast hi hw]
    cases p <;> rfl

/-- Settles O46. -/
theorem probeSamplesClose : Obligations.ProbeSamplesClose := by
  intro b p r st he hrun hstation hst x old c put full ends
  have hput : ∀ (b : Bridge) (y : Probe), put b y = b.setProbe p y := fun b y => by cases p <;> rfl
  have hends : ∀ outcome a, c = (b.setProbe p { x with acc := a }).endRun p outcome → ends outcome a := by
    intro outcome a hc
    have hx : (b.setProbe p { x with acc := a }).probe p = { x with acc := a } := by
      rw [Bridge.probe_setProbe, if_pos rfl]
    have htracker : (b.setProbe p { x with acc := a }).tracker = b.tracker := Bridge.setProbe_tracker ..
    have hended := b.ended_setProbe p { x with acc := a } outcome
    have hevents := (b.setProbe p { x with acc := a }).ended_events p outcome
    rw [Bridge.setProbe_events, Bridge.setProbe_eventsLost] at hevents
    generalize b.setProbe p { x with acc := a } = n at hc hx htracker hended hevents
    obtain ⟨hevents, hlost⟩ := hevents
    have hrecorded := Bridge.probeResult_recorded hx outcome
    rw [htracker] at hrecorded
    obtain ⟨hprobe, howner, hstation, hmode, hwindow, houtcome, hcycle, hfixed, hstepped⟩ := hrecorded
    by_cases hrequest : ∃ tag, x.owner = some (.request tag)
    · obtain ⟨tag, htag⟩ := hrequest
      have hend := hc.trans (Bridge.endRun_request (by rw [hx]; exact htag) outcome)
      rw [hx, htracker] at hend
      have hposted := (Posted.append (n.ended p outcome)
        ⟨.probeDone, b.tracker.cycle, none, x.station, none, some tag, some outcome⟩ (hevents ▸ he)).congr hevents.symm
          hlost.symm rfl rfl
      have hd := Bridge.append_setProbe { b with choiceCount := b.choiceCount + (n.probeResult p outcome).drawn } p
        { x with acc := a, state := .done, result := some (n.probeResult p outcome) }
        ⟨.probeDone, b.tracker.cycle, none, x.station, none, some tag, some outcome⟩
      rw [← hended] at hd
      generalize (n.ended p outcome).append _ = d at hend hposted hd
      refine ⟨n.probeResult p outcome, d, hprobe, howner, hstation, hmode, hwindow, houtcome, hcycle, hfixed, hstepped,
        ⟨b.choiceCount + (n.probeResult p outcome).drawn, by rw [hput]; exact hd⟩, ?_⟩
      rw [htag]
      exact ⟨hend, hposted⟩
    · have hend := hc.trans (Bridge.endRun_other (by rw [hx]; exact not_exists.mp hrequest) outcome)
      refine ⟨n.probeResult p outcome, n.ended p outcome, hprobe, howner, hstation, hmode, hwindow, houtcome, hcycle,
        hfixed, hstepped, ⟨b.choiceCount + (n.probeResult p outcome).drawn, ?_⟩, ?_⟩
      · rw [hput, hevents, hlost]
        exact hended
      · cases hxowner : x.owner with
        | none => exact ⟨hend, hevents, hlost⟩
        | some o =>
          cases o with
          | group g => exact ⟨hend, hevents, hlost⟩
          | request tag => exact absurd ⟨tag, hxowner⟩ hrequest
  refine ⟨fun h => hends _ _ ?_, fun hinvalid hfatal => ?_⟩
  · rw [Bridge.setProbe_self]
    exact Bridge.probeClose_ends hrun hstation h
  · have hc : c = _ := Bridge.probeClose_counts hrun hstation hst (not_or.mpr ⟨hinvalid, hfatal⟩)
    have hcloses := old.count_closes st r.fresh b.timeBase
    have hunsampled := old.count_unsampled st r.fresh b.timeBase
    have hsampled : ∀ l sent, r.fresh = true → st.run.latch = some l → st.run.lastSent = some sent →
        old.count st r.fresh b.timeBase = { old with closes := old.closes + 1 }.sample
          (surfaceTorque st.config.polarity l.torque) (surfaceSpeed st.config.polarity l.speed - sent) b.timeBase :=
      fun l sent hfresh hl hsent => by
        rw [hfresh]
        exact old.count_sampled st b.timeBase hl hsent
    change c = (b.setProbe p { x with acc := old.count st r.fresh b.timeBase }).endSubWindow p at hc
    generalize old.count st r.fresh b.timeBase = a at hc hcloses hunsampled hsampled
    have hx : (b.setProbe p { x with acc := a }).probe p = { x with acc := a } := by
      rw [Bridge.probe_setProbe, if_pos rfl]
    have hfull : ((b.setProbe p { x with acc := a }).probe p).length = full := by
      rw [hx]
      rfl
    have hacc : ((b.setProbe p { x with acc := a }).probe p).acc.closes = a.closes := by rw [hx]
    refine ⟨a, hcloses, hunsampled, fun l sent hfresh hl hsent => ?_, fun hopen => ?_, fun hclosed hm hs => ?_,
      fun hclosed hlast => hends _ _ (hc.trans (Bridge.endSubWindow_last (hacc.trans (hclosed.trans hfull.symm)) ?_))⟩
    · rw [hsampled l sent hfresh hl hsent]
      exact Accumulators.sample_fields { old with closes := old.closes + 1 } _ _ _
    · rw [hput, hc]
      exact Bridge.endSubWindow_open (by rw [hacc, hfull]; exact hopen)
    · rw [hput, hc, Bridge.endSubWindow_next (hacc.trans (hclosed.trans hfull.symm)) (by rw [hx]; exact hm)
        (by rw [hx]; exact hs), hx, Bridge.setProbe_setProbe]
      rfl
    · rw [hx]
      rintro ⟨hm, hs⟩
      obtain hfixed | hthird := hlast
      · exact absurd (hfixed.symm.trans hm) (by decide)
      · exact absurd hs hthird.not_gt

end Sys2Proof.Proofs
end

section
/-! PROOFS. The treatment of a slot and the override mode (R73 to R78). -/

namespace Sys2Proof.Machine

/-! ## The override mode (R74) -/

section
variable {b : Bridge} {g : GroupIx}

theorem Bridge.mode_inPlan (h : (b.group g).inPlan = true) : b.mode g = (b.currentStage g).mode := if_pos h

theorem Bridge.mode_outside (h : (b.group g).inPlan = false) :
    b.mode g = if (b.group g).unwinds then .speed else .none := by
  rw [Bridge.mode, h]
  rfl

end

theorem DriveGroup.outside_of_runState {x : DriveGroup} (hr : x.runState ≠ .running) (hh : x.runState ≠ .held) :
    x.inPlan = false :=
  Bool.eq_false_iff.mpr fun h => (x.inPlan_iff_runState.mp h).elim hr hh

theorem DriveGroup.unwinds_iff (x : DriveGroup) :
    x.unwinds = true ↔ x.runState = .aborting ∨ ∃ c, x.runState = .fault c .unwinding := by
  unfold DriveGroup.unwinds
  split
  · next h => exact ⟨fun _ => .inl h, fun _ => rfl⟩
  · next c h => exact ⟨fun _ => .inr ⟨c, h⟩, fun _ => rfl⟩
  · next hno haborting =>
    exact ⟨fun h => absurd h Bool.false_ne_true, fun h => h.elim (absurd · hno) fun ⟨c, hc⟩ => absurd hc (haborting c)⟩

theorem StageRecord.mode_trim {r : StageRecord} (h : r.kind = .trim) : r.mode = .trims := by
  simp [StageRecord.mode, h, StageKind.overridesSpeed]

theorem StageRecord.mode_pass {r : StageRecord} (h : r.kind = .pass) :
    r.mode = if r.trims = some true then .trims else .none := by
  simp [StageRecord.mode, h, StageKind.overridesSpeed, StageRecord.trimsOn]

/-! ## A slot that leaves as it came (R73, R75) -/

theorem Bridge.mayAlter_iff (b : Bridge) (i : StationIx) (g : GroupIx) :
    b.mayAlter i g = true ↔ b.tracker.sync = .synced ∧ b.check.state = .running ∧ b.release = true ∧
      b.mask.getLsbD i.val = true ∧ b.mode g ≠ .none := by
  simp only [Bridge.mayAlter, Bool.and_eq_true, decide_eq_true_eq, and_assoc]

section
variable {b : Bridge} {i : StationIx} {st : Station} {g : GroupIx}

theorem Bridge.alteringGroup_free (h : b.station i = some st) (hg : st.config.group = none) :
    b.alteringGroup i = none := by
  simp [Bridge.alteringGroup, h, hg]

theorem Bridge.alteringGroup_member (h : b.station i = some st) (hg : st.config.group = some g) :
    b.alteringGroup i = if b.mayAlter i g then some g else none := by
  simp [Bridge.alteringGroup, h, hg, Option.filter_some]

end

section
variable {b : Bridge} {x : Slot}

theorem Bridge.treatSlot_unbound (h : ∀ i st, ¬b.Binds x.addr i st) : b.treatSlot x = x := by
  unfold Bridge.treatSlot
  rw [Bridge.boundTo_none h]

theorem Bridge.treatSlot_bound {i : StationIx} {st : Station} (ht : b.TableSound) (h : b.Binds x.addr i st) :
    b.treatSlot x = ((b.alteringGroup i).map fun g => b.alterSlot g st x).getD x := by
  unfold Bridge.treatSlot
  rw [Bridge.boundTo_eq ht h]
  simp only [h.1]
  cases b.alteringGroup i <;> rfl

end

/-! ## An altered slot (R76 to R78) -/

theorem toInt_ofInt_clampSpeed (v : Int) :
    (BitVec.ofInt 24 (clampSpeed v)).toInt = if v < -8388608 then -8388608 else if 8388607 < v then 8388607 else v := by
  have hclamp : clampSpeed v = if v < -8388608 then -8388608 else if 8388607 < v then 8388607 else v := rfl
  rw [BitVec.toInt_ofInt_eq_self (by decide), hclamp]
  · rw [hclamp]
    split_ifs <;> omega
  · rw [hclamp]
    split_ifs <;> omega

theorem Bridge.formSpeed_trims {b : Bridge} {g : GroupIx} (h : b.mode g = .trims) (st : Station) (m : Int) :
    b.formSpeed g st m = m + signed st.config.polarity st.run.trim := by
  unfold Bridge.formSpeed
  simp only [h]

theorem Bridge.formSpeed_speed {b : Bridge} {g : GroupIx} (h : b.mode g = .speed) (st : Station) (m : Int) :
    b.formSpeed g st m =
      signed st.config.polarity ((b.group g).speed + if b.trimsOn g then st.run.trim else 0) := by
  unfold Bridge.formSpeed
  simp only [h]
  cases b.trimsOn g
  · simp
  · rfl

theorem Bridge.torqueCap_bump {b : Bridge} {g : GroupIx} (h : (b.group g).inPlan = true)
    (hk : (b.currentStage g).kind = .bump) : b.torqueCap g = (b.currentStage g).cap := by
  simp [Bridge.torqueCap, h, hk]

theorem Bridge.torqueCap_other {b : Bridge} {g : GroupIx}
    (h : ¬((b.group g).inPlan = true ∧ (b.currentStage g).kind = .bump)) : b.torqueCap g = none := by
  have hfalse : ((b.group g).inPlan && decide ((b.currentStage g).kind = .bump)) = false :=
    Bool.eq_false_iff.mpr (by simpa using h)
  rw [Bridge.torqueCap, hfalse]
  rfl

theorem Bridge.formTorque_uncapped {b : Bridge} {g : GroupIx} (h : b.torqueCap g = none) (m : BitVec 16) :
    b.formTorque g m = m := by
  unfold Bridge.formTorque
  rw [h]

theorem Bridge.formTorque_capped {b : Bridge} {g : GroupIx} {cap : Nat} (h : b.torqueCap g = some cap) (m : BitVec 16) :
    (b.formTorque g m).toNat = min cap m.toNat := by
  unfold Bridge.formTorque
  simp only [h]
  have hm : m.toNat < 65536 := m.isLt
  by_cases hcap : cap < m.toNat
  · rw [if_pos hcap, BitVec.toNat_ofNat, Nat.mod_eq_of_lt (by omega), Nat.min_eq_left hcap.le]
  · rw [if_neg hcap, Nat.min_eq_right (by omega)]

end Sys2Proof.Machine

namespace Sys2Proof.Proofs

open Sys2Proof.Machine

/-- Settles O12. -/
theorem slotTreatment : Obligations.SlotTreatment := by
  constructor
  · intro b g x r
    refine ⟨fun h hk => ?_, fun h hk => ?_, fun h hk ht => ?_, fun h hk ht => ?_, fun h => ?_, fun h => ?_,
      x.inPlan_iff_runState, fun h => ?_, fun c h => ?_, fun c h => ?_, fun h => ?_⟩
    · exact (Bridge.mode_inPlan h).trans ((StageRecord.mode_speed_iff _).mpr (StageKind.overridesSpeed_iff.mpr hk))
    · exact (Bridge.mode_inPlan h).trans (StageRecord.mode_trim hk)
    · exact (Bridge.mode_inPlan h).trans ((StageRecord.mode_pass hk).trans (if_pos ht))
    · exact (Bridge.mode_inPlan h).trans ((StageRecord.mode_pass hk).trans (if_neg (by rw [ht]; decide)))
    · rw [Bridge.trimsOn, h, Bool.true_and]
      exact decide_eq_true_iff
    · rw [Bridge.trimsOn, h, Bool.false_and]
    · exact (Bridge.mode_outside (DriveGroup.outside_of_runState (by rw [h]; decide) (by rw [h]; decide))).trans
        (if_pos (x.unwinds_iff.mpr (.inl h)))
    · exact (Bridge.mode_outside (DriveGroup.outside_of_runState (by rw [h]; simp) (by rw [h]; simp))).trans
        (if_pos (x.unwinds_iff.mpr (.inr ⟨c, h⟩)))
    · refine (Bridge.mode_outside (DriveGroup.outside_of_runState (by rw [h]; simp) (by rw [h]; simp))).trans
        (if_neg (mt x.unwinds_iff.mp ?_))
      rw [h]
      simp
    · exact Bridge.mode_of_unlocked (x.unlocked_iff.mpr h)
  · intro b x ht
    refine ⟨Bridge.treatSlot_unbound, fun i st hi hg => ?_, ?_⟩
    · rw [Bridge.treatSlot_bound ht hi, Bridge.alteringGroup_free hi.1 hg]
      rfl
    · intro i st g hi hg alters
      have halters : b.mayAlter i g = true ↔ alters := b.mayAlter_iff i g
      have htreat := Bridge.treatSlot_bound ht hi
      rw [Bridge.alteringGroup_member hi.1 hg] at htreat
      refine ⟨fun h => ?_, ?_⟩
      · rw [htreat, if_neg (mt halters.mp h)]
        rfl
      · intro h y v bumps
        have hy : y = b.alterSlot g st x := by
          change b.treatSlot x = _
          rw [htreat, if_pos (halters.mpr h)]
          rfl
        have hv : b.formSpeed g st x.speed.toInt = v := by
          obtain ⟨-, -, -, -, hmode⟩ := h
          simp only [v]
          cases hm : b.mode g with
          | speed => exact Bridge.formSpeed_speed hm _ _
          | trims => exact Bridge.formSpeed_trims hm _ _
          | none => exact absurd hm hmode
        refine ⟨by rw [hy]; rfl, by rw [hy]; rfl, by rw [hy]; rfl, ?_, fun hno => ?_, fun hbumps cap hcap => ?_⟩
        · rw [hy, ← hv]
          exact toInt_ofInt_clampSpeed _
        · have huncapped : b.torqueCap g = none := by
            by_cases hbumps : bumps
            · exact (Bridge.torqueCap_bump hbumps.1 hbumps.2).trans (hno.resolve_left (not_not.mpr hbumps))
            · exact Bridge.torqueCap_other hbumps
          rw [hy]
          exact Bridge.formTorque_uncapped huncapped _
        · rw [hy]
          exact Bridge.formTorque_capped ((Bridge.torqueCap_bump hbumps.1 hbumps.2).trans hcap) _

end Sys2Proof.Proofs
end

section
/-! PROOFS. The layout of the Status frame (R179, 12.5). -/

namespace Sys2Proof.Machine

/-! ## Fields of one and of three bytes -/

theorem putInt_length (lo hi v : Int) : (putInt lo hi v).length = (fieldShape lo hi).width := by
  rw [putInt, List.length_drop]
  have hbe32 : ∀ w : BitVec 32, (be32 w).length = 4 := fun _ => rfl
  rw [hbe32]
  obtain h | h | h | h := fieldShape_width lo hi <;> omega

theorem putByte_length (n : Nat) : (putByte n).length = 1 := putInt_length 0 255 n

theorem putByte_single (n : Nat) : ∃ x, putByte n = [x] ∧ (n ≤ 255 → x.toNat = n) := by
  obtain ⟨x, hx⟩ := List.length_eq_one_iff.mp (putByte_length n)
  refine ⟨x, hx, fun h => ?_⟩
  rw [putByte_eq n h] at hx
  rw [← List.singleton_inj.mp hx, BitVec.toNat_ofNat]
  omega

/-- A speed takes three bytes, which carry it where it is in range. -/
theorem putSpeed_bytes (v : Int) :
    ∃ w : BitVec 24, putSpeed v = be24 w ∧ (-8388608 ≤ v → v ≤ 8388607 → w.toInt = v) := by
  have hshape : fieldShape (-8388608) 8388607 = ⟨3, true⟩ := by decide
  have hlow : ∀ u : BitVec 32, (be32 u).drop 1 = be24 (u.extractLsb' 0 24) := fun u => by
    have hpart : ∀ k, k ≤ 16 → (u.extractLsb' 0 24).extractLsb' k 8 = u.extractLsb' k 8 := fun k hk => by
      rw [BitVec.extractLsb'_extractLsb'_of_le (by omega)]
    simp only [be32, be24, List.drop_succ_cons, List.drop_zero, hpart _ (Nat.le_refl 16), hpart 8 (by omega), hpart 0 (by omega)]
  unfold putSpeed putInt
  simp only [hshape]
  refine ⟨_, hlow _, fun hlo hhi => ?_⟩
  have hholds : FieldShape.holds ⟨3, true⟩ v = true := by
    simp [FieldShape.holds]
    omega
  rw [if_pos hholds]
  have hcut : (BitVec.ofInt 32 v).extractLsb' 0 24 = BitVec.ofInt 24 v := by
    apply BitVec.eq_of_toNat_eq
    simp only [BitVec.extractLsb'_toNat, BitVec.toNat_ofInt, Nat.shiftRight_zero]
    omega
  rw [hcut, BitVec.toInt_ofInt_eq_self (by decide)] <;> omega

/-! ## Bit masks -/

theorem testBit_bitmask (flags : List Bool) (k : Nat) : (bitmask flags).testBit k = true ↔ flags[k]? = some true := by
  induction flags generalizing k with
  | nil => simp [bitmask]
  | cons f rest ih =>
    have hbit : bitmask (f :: rest) = Nat.bit f (bitmask rest) := by
      rw [bitmask, Nat.bit_val]
      cases f
      · simp
      · simp [Nat.add_comm]
    rw [hbit]
    cases k with
    | zero => simp
    | succ k => rw [Nat.testBit_bit_succ, ih, List.getElem?_cons_succ]

theorem ofNat_bitmask_three : ∀ a b c : Bool, putByte (bitmask [a, b, c]) =
    [(if a then 1#8 else 0#8) + (if b then 2#8 else 0#8) + (if c then 4#8 else 0#8)] := by
  decide

/-- The seven flags of the flags byte. -/
theorem putByte_bitmask_seven : ∀ a b c d e f g : Bool, putByte (bitmask [a, b, c, d, e, f, g]) =
    [(if a then 1#8 else 0#8) + (if b then 2#8 else 0#8) + (if c then 4#8 else 0#8) + (if d then 8#8 else 0#8) +
      (if e then 16#8 else 0#8) + (if f then 32#8 else 0#8) + (if g then 64#8 else 0#8)] := by
  decide

/-! ## Blocks of equal length -/

theorem length_flatMap_const {α β : Type} {f : α → List β} {k : Nat} (hf : ∀ a, (f a).length = k) (l : List α) :
    (l.flatMap f).length = k * l.length := by
  induction l with
  | nil => rfl
  | cons a l ih => rw [List.flatMap_cons, List.length_append, hf, ih, List.length_cons, Nat.mul_succ, Nat.add_comm]

theorem take_drop_flatMap {α β : Type} {f : α → List β} {k : Nat} (hf : ∀ a, (f a).length = k) {l : List α} {i : Nat}
    {a : α} (h : l[i]? = some a) (rest : List β) : ((l.flatMap f ++ rest).drop (k * i)).take k = f a := by
  induction l generalizing i with
  | nil => simp at h
  | cons x l ih =>
    rw [List.flatMap_cons, List.append_assoc]
    cases i with
    | zero =>
      obtain rfl : x = a := by simpa using h
      rw [Nat.mul_zero, List.drop_zero, List.take_left' (hf x)]
    | succ i =>
      rw [Nat.mul_succ, Nat.add_comm, ← List.drop_drop, List.drop_left' (hf x)]
      exact ih (by simpa using h)

/-! ## The parts of the body (12.5) -/

/-- The bridge-wide fields at the start of the body. -/
def Bridge.statusHead (b : Bridge) : List Byte :=
  be16 (b.tracker.cycle.getD 0) ++ putFlag (decide (b.tracker.sync = .synced)) ++ putByte b.check.state.code
    ++ be16 b.check.challenge ++ [b.check.sequence] ++ putByte b.trip.code ++ putFlag b.release

/-- The Event Queue count and the flags byte at the end of the body. -/
def Link.statusTail (l : Link) (b : Bridge) : List Byte :=
  putByte b.events.length ++ putByte (l.flagBits b.eventsLost)

theorem statusBody_eq (l : Link) (b : Bridge) :
    statusBody l b = b.statusHead ++ (groupIxs.flatMap b.groupBlock ++
      (stationIxs.flatMap b.stationByte ++ l.statusTail b)) := by
  simp only [statusBody, Bridge.statusHead, Link.statusTail, List.append_assoc]

theorem putFlag_decide (p : Prop) [Decidable p] : putFlag (decide p) = [if p then 1#8 else 0#8] := by
  by_cases h : p <;> simp [putFlag, h]

theorem Bridge.statusHead_eq (b : Bridge) :
    b.statusHead =
      be16 (b.tracker.cycle.getD 0#16) ++ [if b.tracker.sync = .synced then 1#8 else 0#8] ++
        [match b.check.state with | .inactive => 0#8 | .running => 1#8 | .failed => 2#8] ++
        be16 b.check.challenge ++ [b.check.sequence] ++
        [(if b.trip.console then 1#8 else 0#8) + (if b.trip.runaway then 2#8 else 0#8) +
          (if b.trip.stage then 4#8 else 0#8)] ++
        [if b.release then 1#8 else 0#8] := by
  have hcheck : putByte b.check.state.code =
      [match b.check.state with | .inactive => 0#8 | .running => 1#8 | .failed => 2#8] := by
    cases b.check.state <;> decide
  have htrip : putByte b.trip.code = _ := ofNat_bitmask_three b.trip.console b.trip.runaway b.trip.stage
  rw [Bridge.statusHead, hcheck, htrip, putFlag_decide, putFlag]
  rfl

theorem Bridge.statusHead_length (b : Bridge) : b.statusHead.length = 9 := by
  rw [Bridge.statusHead_eq]
  rfl

theorem Bridge.groupBlock_length (b : Bridge) (g : GroupIx) : (b.groupBlock g).length = 11 := by
  obtain ⟨w, hw, -⟩ := putSpeed_bytes (b.group g).speed
  simp only [Bridge.groupBlock, hw, List.length_append, putByte_length, putFlag, be24, be16, List.length_cons,
    List.length_nil]

theorem Bridge.stationByte_eq (b : Bridge) (i : StationIx) :
    b.stationByte i =
      [match b.station i with
        | none => 0#8
        | some st => match st.run.validity with | .valid => 1#8 | .invalid => 2#8 | .fatal => 3#8] := by
  unfold Bridge.stationByte
  cases b.station i with
  | none => decide
  | some st =>
    simp only
    cases st.run.validity <;> decide

theorem Link.statusTail_eq (l : Link) {b : Bridge} (h : b.events.length ≤ 64) :
    l.statusTail b =
      [BitVec.ofNat 8 b.events.length,
        (if l.frameErrorLine.on then 1#8 else 0#8) + (if l.frameErrorDrive.on then 2#8 else 0#8) +
          (if l.upCongestion.on then 4#8 else 0#8) + (if l.downCongestion.on then 8#8 else 0#8) +
          (if l.slip.on then 16#8 else 0#8) + (if l.requestDiscarded.on then 32#8 else 0#8) +
          (if b.eventsLost then 64#8 else 0#8)] := by
  rw [Link.statusTail, putByte_eq _ (by omega), Link.flagBits, putByte_bitmask_seven]
  rfl

/-- The run state and the phase of a group, as 12.5 codes them. -/
theorem DriveGroup.putByte_codes (x : DriveGroup) :
    putByte x.runState.code =
        [match x.runState with
          | .idle => 0#8 | .running => 1#8 | .held => 2#8 | .aborting => 3#8
          | .fault _ .unwinding => 4#8 | .fault _ .settled => 5#8 | .done => 6#8] ∧
      putByte (if x.inPlan then phaseCode x.phase else 0) =
        [if x.runState = .running ∨ x.runState = .held then
          match x.phase with
          | none => 0#8 | some .ramp => 1#8 | some .dwell => 2#8 | some .awaitConfirm => 3#8 | some .rise => 4#8
          | some .fall => 5#8 | some .settling => 6#8 | some .waitProbe => 7#8 | some .probing => 8#8
          | some .blend => 9#8
        else 0#8] := by
  constructor
  · cases x.runState with
    | fault c sub =>
      cases sub with
      | unwinding => exact putByte_eq 4 (by decide)
      | settled => exact putByte_eq 5 (by decide)
    | _ => decide
  · by_cases h : x.inPlan = true
    · rw [if_pos h, if_pos (x.inPlan_iff_runState.mp h)]
      cases x.phase with
      | none => decide
      | some p => cases p <;> decide
    · rw [if_neg h, if_neg (mt x.inPlan_iff_runState.mpr h)]
      decide

theorem Bridge.summary_length (b : Bridge) (g : GroupIx) : (b.summary g).length ≤ 16 := by
  simp [Bridge.summary, Conditions.flags]

theorem getLsbD_bitmask {flags : List Bool} (h : flags.length ≤ 16) (k : Nat) :
    (BitVec.ofNat 16 (bitmask flags)).getLsbD k = true ↔ flags[k]? = some true := by
  rw [BitVec.getLsbD_ofNat, Bool.and_eq_true, decide_eq_true_iff, testBit_bitmask]
  refine and_iff_right_of_imp fun hk => ?_
  obtain ⟨hlt, -⟩ := List.getElem?_eq_some_iff.mp hk
  omega

end Sys2Proof.Machine

namespace Sys2Proof.Proofs

open Sys2Proof.Machine

/-- Settles O13. -/
theorem statusFrameLayout : Obligations.StatusFrameLayout := by
  intro address l b he f
  have hbody : f.body = _ := statusBody_eq l b
  have hblocks : (groupIxs.flatMap b.groupBlock).length = 88 := length_flatMap_const b.groupBlock_length groupIxs
  have hstations : stationIxs.flatMap b.stationByte = (List.finRange 32).map fun i =>
      match b.station i with
      | none => 0#8
      | some st => match st.run.validity with | .valid => 1#8 | .invalid => 2#8 | .fatal => 3#8 := by
    rw [List.map_eq_flatMap]
    exact List.flatMap_congr fun i _ => b.stationByte_eq i
  have htail := l.statusTail_eq he
  have hdrop : f.body.drop 97 = stationIxs.flatMap b.stationByte ++ l.statusTail b := by
    rw [hbody, ← List.append_assoc, List.drop_left' (by rw [List.length_append, b.statusHead_length, hblocks])]
  have hlength : (stationIxs.flatMap b.stationByte).length = 32 := by
    rw [hstations, List.length_map, List.length_finRange]
  refine ⟨rfl, rfl, rfl, ?_, ?_, fun g => ?_, ?_, ?_⟩
  · rw [hbody, List.length_append, List.length_append, List.length_append, b.statusHead_length, hblocks, hlength, htail]
    rfl
  · rw [hbody, List.take_left' b.statusHead_length]
    exact b.statusHead_eq
  · have hblock : (f.body.drop (9 + 11 * g.val)).take 11 = b.groupBlock g := by
      rw [hbody, ← List.drop_drop, List.drop_left' b.statusHead_length]
      exact take_drop_flatMap b.groupBlock_length (by simp [groupIxs]) _
    obtain ⟨stage, hstage, hstageNat⟩ := putByte_single ((b.group g).stage.getD 255)
    obtain ⟨depth, hdepth, hdepthNat⟩ := putByte_single (b.group g).stack.length
    obtain ⟨speed, hspeed, hspeedInt⟩ := putSpeed_bytes (b.group g).speed
    obtain ⟨hrun, hphase⟩ := (b.group g).putByte_codes
    refine ⟨stage, depth, speed, BitVec.ofNat 16 (bitmask (b.summary g)), ?_, fun h => ?_, fun i h hi => ?_,
      fun h => hdepthNat (by omega), hspeedInt, getLsbD_bitmask (b.summary_length g)⟩
    · rw [hblock, Bridge.groupBlock]
      rw [hrun, hphase, hstage, hdepth, hspeed]
      rfl
    · rw [h] at hstageNat
      exact BitVec.eq_of_toNat_eq (hstageNat (by decide))
    · rw [h] at hstageNat
      exact hstageNat (by simpa using Nat.le_trans hi (by decide))
  · rw [hdrop, List.take_left' hlength]
    exact hstations
  · rw [show 129 = 97 + 32 from rfl, ← List.drop_drop, hdrop, List.drop_left' hlength]
    exact htail

end Sys2Proof.Proofs
end

section
/-! PROOFS. A Cycle Frame arrival as its acts in one order, and the tracker's step among them (R11 to R16). -/

namespace Sys2Proof.Machine

/-! ## What acts reach, cut in two and gone through -/

theorem CycleReaches.split {c : CycleContext} {first last : List CycleAct} {x z : Link × Bridge}
    (h : CycleReaches c (first ++ last) x z) : ∃ y, CycleReaches c first x y ∧ CycleReaches c last y z := by
  induction first generalizing x with
  | nil => exact ⟨x, ⟨x.2.choices, x.2.choiceCount, rfl⟩, h⟩
  | cons a first ih =>
    obtain ⟨cs, n, h⟩ := h
    obtain ⟨y, hfirst, hlast⟩ := ih h
    exact ⟨y, ⟨cs, n, hfirst⟩, hlast⟩

/-- What the free choices keep, and each of the acts, is kept. -/
theorem CycleReaches.keeps {c : CycleContext} {acts : List CycleAct} {x y : Link × Bridge} (h : CycleReaches c acts x y)
    (P : Link → Bridge → Prop) (hd : ∀ l b cs n, P l b → P l { b with choices := cs, choiceCount := n })
    (ha : ∀ a ∈ acts, ∀ l b, P l b → P (cycleAct c a (l, b)).1 (cycleAct c a (l, b)).2) (hx : P x.1 x.2) :
    P y.1 y.2 := by
  induction acts generalizing x with
  | nil =>
    obtain ⟨cs, n, rfl⟩ := h
    exact hd _ _ _ _ hx
  | cons a acts ih =>
    obtain ⟨cs, n, h⟩ := h
    exact ih h (fun d hm => ha d (List.mem_cons_of_mem _ hm)) (ha a List.mem_cons_self _ _ (hd _ _ _ _ hx))

/-- One act, and then the others. -/
theorem CycleReaches.first {c : CycleContext} {a : CycleAct} {acts : List CycleAct} {x y : Link × Bridge}
    (h : CycleReaches c (a :: acts) x y) :
    ∃ cs n, CycleReaches c acts (cycleAct c a (x.1, { x.2 with choices := cs, choiceCount := n })) y := h

/-- An order is cut at any of its acts. -/
theorem CycleOrder.cut {c : CycleContext} {order : List CycleAct} {x y : Link × Bridge} (h : CycleOrder c order x y)
    {a : CycleAct} (ha : a ∈ order) :
    ∃ before after m, order = before ++ a :: after ∧ cycleReady (a :: after) a = true ∧
      CycleReaches c before x m ∧ CycleReaches c (a :: after) m y := by
  obtain ⟨before, after, horder⟩ := List.append_of_mem ha
  obtain ⟨m, hbefore, hafter⟩ := h.splits _ _ horder
  exact ⟨before, after, m, horder, h.ready _ _ _ horder, hbefore, hafter⟩

/-- Before the tracker's step only closes can come. -/
theorem CycleOrder.before_tracker {c : CycleContext} {before after : List CycleAct} {x y : Link × Bridge}
    (h : CycleOrder c (before ++ .tracker :: after) x y) (hnodup : (before ++ CycleAct.tracker :: after).Nodup) {a : CycleAct}
    (ha : a ∈ before) : ∃ i, a = .boundary i := by
  obtain ⟨first, last, rfl⟩ := List.append_of_mem ha
  have hready := h.ready first a (last ++ .tracker :: after) (by simp)
  have hlater : CycleAct.tracker ∈ a :: (last ++ .tracker :: after) := by simp
  cases a with
  | boundary i => exact ⟨i, rfl⟩
  | tracker => exact absurd hnodup (by simp [List.nodup_append])
  | record | status => simp [cycleReady] at hready
  | treat => simp [cycleReady] at hready

/-! ## The acts of an arrival -/

theorem cycleActs_mem (c : CycleContext) (b : Bridge) :
    .tracker ∈ cycleActs c b ∧ .record ∈ cycleActs c b ∧ .treat ∈ cycleActs c b ∧ .status ∈ cycleActs c b := by
  simp [cycleActs]

theorem Bridge.mem_openStations {b : Bridge} {i : StationIx} :
    i ∈ b.openStations ↔ ∃ st, b.station i = some st ∧ st.run.mark = .isOpen := by
  simp [Bridge.openStations, stationIxs]

/-- A close is among the acts where a cycle ends with the entry OPEN. -/
theorem boundary_mem_cycleActs {c : CycleContext} {b : Bridge} {i : StationIx} :
    .boundary i ∈ cycleActs c b ↔ c.previous ≠ none ∧ ∃ st, b.station i = some st ∧ st.run.mark = .isOpen := by
  rw [← Bridge.mem_openStations]
  unfold cycleActs
  cases c.previous <;> simp

/-- The acts that post no event and leave the trip causes: the two records, the treatment and the Status frame. -/
theorem cycleAct_silent {c : CycleContext} {a : CycleAct} (ha : a ≠ .tracker) (hb : ∀ i, a ≠ .boundary i) (l : Link)
    (b : Bridge) :
    let d := (cycleAct c a (l, b)).2
    d.events = b.events ∧ d.eventsLost = b.eventsLost ∧ d.trip = b.trip := by
  cases a with
  | tracker => exact absurd rfl ha
  | boundary i => exact absurd rfl (hb i)
  | record => simp [cycleAct, Bridge.recordMasters]
  | treat =>
    obtain ⟨-, -, -, -, -, htrip, hevents, hlost, -⟩ := b.recordSent_keeps c.slots (c.slots.map b.treatSlot)
    exact ⟨hevents, hlost, htrip⟩
  | status => exact ⟨rfl, rfl, rfl⟩

theorem Bridge.stationClose_posts {b : Bridge} (he : b.events.length ≤ 64) (i : StationIx) (n : CycleNo)
    (boundary : Bool) : ∃ es, Posted b (b.stationClose i n boundary) es := by
  cases hs : b.station i with
  | none =>
    have hnone : b.stationClose i n boundary = b := by
      unfold Bridge.stationClose
      rw [hs]
    exact ⟨[], hnone.symm ▸ Posted.refl b he⟩
  | some st =>
    rw [Bridge.stationClose_closing hs]
    have hclosing := b.closing_posted he i st.config st.run.validity (st.run.closed st.config boundary)
    obtain ⟨es, hes⟩ := (GroupWork.handOn (b.closing i st.config st.run.validity (st.run.closed st.config boundary))
      (closeRecord i n st.run (st.run.closed st.config boundary)) st.config.group).posts hclosing.length
    exact ⟨_, hclosing.trans hes⟩

/-- Acts without the tracker's step post some events; without a close among them they post none. -/
theorem CycleReaches.posts {c : CycleContext} {acts : List CycleAct} {x y : Link × Bridge} (h : CycleReaches c acts x y)
    (ht : .tracker ∉ acts) (he : x.2.events.length ≤ 64) :
    ∃ es, Posted x.2 y.2 es ∧ ((∀ i, .boundary i ∉ acts) → es = []) := by
  by_cases hb : ∀ i, CycleAct.boundary i ∉ acts
  · refine ⟨[], h.keeps (fun _ b => Posted x.2 b []) (fun _ b cs n hp => hp) (fun a ha l b hp => ?_) (Posted.refl _ he),
      fun _ => rfl⟩
    obtain ⟨hevents, hlost, -⟩ :=
      cycleAct_silent (c := c) (a := a) (fun e => ht (e ▸ ha)) (fun i e => hb i (e ▸ ha)) l b
    exact hp.congr rfl rfl hevents hlost
  · have hposts : ∃ es, Posted x.2 y.2 es :=
      h.keeps (fun _ b => ∃ es, Posted x.2 b es) (fun _ b cs n hp => hp) (fun a ha l b ⟨es, hp⟩ => by
        by_cases hbound : ∃ i, a = .boundary i
        · obtain ⟨i, rfl⟩ := hbound
          unfold cycleAct
          cases c.previous with
          | none => exact ⟨es, hp⟩
          | some p =>
            obtain ⟨fs, hf⟩ := Bridge.stationClose_posts hp.length i p true
            exact ⟨es ++ fs, hp.trans hf⟩
        · obtain ⟨hevents, hlost, -⟩ :=
            cycleAct_silent (c := c) (a := a) (fun e => ht (e ▸ ha)) (fun i e => hbound ⟨i, e⟩) l b
          exact ⟨es, hp.congr rfl rfl hevents hlost⟩) ⟨[], Posted.refl _ he⟩
    obtain ⟨es, hes⟩ := hposts
    exact ⟨es, hes, fun hno => absurd hno hb⟩

/-- Acts without the tracker's step leave the tracker, and everything that every act leaves. -/
theorem CycleReaches.cycleKeeps {c : CycleContext} {acts : List CycleAct} {x y : Link × Bridge}
    (h : CycleReaches c acts x y) : CycleKeeps x.2 y.2 :=
  h.keeps (fun _ b => CycleKeeps x.2 b) (fun _ b cs n hk => hk.trans (CycleKeeps.setChoices b cs n))
    (fun a _ l b hk => hk.trans (cycleAct_keeps c a l b).1) (CycleKeeps.refl _)

theorem CycleReaches.tracker {c : CycleContext} {acts : List CycleAct} {x y : Link × Bridge}
    (h : CycleReaches c acts x y) (ht : .tracker ∉ acts) : y.2.tracker = x.2.tracker :=
  h.keeps (fun _ b => b.tracker = x.2.tracker) (fun _ _ _ _ hk => hk)
    (fun a ha l b hk => ((cycleAct_keeps c a l b).2 fun e => ht (e ▸ ha)).trans hk) rfl

/-! ## The opening of the cycle (R20, R51) -/

theorem Bridge.opened_keeps (b : Bridge) (n : CycleNo) :
    let c := b.openCycle.formPending n
    c.tracker = b.tracker ∧ c.events = b.events ∧ c.eventsLost = b.eventsLost ∧ c.trip = b.trip ∧ c.check = b.check ∧
      c.mask = b.mask ∧ c.release = b.release ∧ c.store = b.store ∧ c.timeBase = b.timeBase ∧
      c.treatments = b.treatments := by
  simp [Bridge.openCycle, Bridge.formPending]

theorem Bridge.opened_group (b : Bridge) (n : CycleNo) (g : GroupIx) :
    (b.openCycle.formPending n).group g =
      { b.group g with
        pendingSet := if b.members g = [] then none else some ⟨n, b.members g⟩, forming := [] } := by
  have hmembers : b.openCycle.members g = b.members g := Bridge.members_congr g fun i => by
    rw [Bridge.openCycle_station, Option.map_map]
    rfl
  rw [Bridge.formPending_group, hmembers, Bridge.openCycle_group]

theorem Bridge.opened_station (b : Bridge) (n : CycleNo) (i : StationIx) :
    (b.openCycle.formPending n).station i =
      (b.station i).map fun st => { st with run := { st.run with fresh := false, mark := .isOpen } } := by
  rw [Bridge.formPending_station, Bridge.openCycle_station]

/-- A Cycle Frame arrival that is taken: its acts in one order, and the opening of the cycle. -/
theorem exec_cycleFrameArrival_order {s : State} (hheld : s.held = false) (dst src : Byte) (n : CycleNo)
    {slots : List Slot} (h1 : 1 ≤ slots.length) (h48 : slots.length ≤ 48) :
    ∃ (t : State) (order : List CycleAct) (m : Bridge),
      exec (.cycleFrameArrival dst src n slots) s = .next t ∧ t = { s with link := t.link, bridge := t.bridge } ∧
      order.Perm (cycleActs ⟨dst, src, n, slots, s.bridge.tracker.cycle, s.address⟩ s.bridge) ∧ order.Nodup ∧
      CycleOrder ⟨dst, src, n, slots, s.bridge.tracker.cycle, s.address⟩ order
        (s.link, { s.bridge with tracker := { s.bridge.tracker with cycle := some n } }) (t.link, m) ∧
      t.bridge = m.openCycle.formPending n := by
  have hexec := exec_cycleFrameArrival_of_taken hheld dst src n h1 h48
  obtain ⟨order, m, hperm, horder, hend⟩ :=
    beginCycle_order ⟨dst, src, n, slots, s.bridge.tracker.cycle, s.address⟩ (s.link, s.bridge)
  simp only at hexec
  generalize beginCycle ⟨dst, src, n, slots, s.bridge.tracker.cycle, s.address⟩ (s.link, s.bridge) = y
    at hexec horder hend
  exact ⟨{ s with link := y.1, bridge := y.2 }, order, m, hexec, rfl, hperm,
    hperm.nodup_iff.mpr (cycleActs_nodup _ _), horder, hend⟩

/-! ## A group faulted by the loss of sync (R16) -/

/-- The run state, the stage and the plan tag stand. -/
def RunKept (x y : DriveGroup) : Prop := y.runState = x.runState ∧ y.stage = x.stage ∧ y.planTag = x.planTag

theorem RunKept.refl (x : DriveGroup) : RunKept x x := ⟨rfl, rfl, rfl⟩

theorem RunKept.trans {x y z : DriveGroup} (h : RunKept x y) (k : RunKept y z) : RunKept x z :=
  ⟨k.1.trans h.1, k.2.1.trans h.2.1, k.2.2.trans h.2.2⟩

theorem PlanKept.runKept {x y : DriveGroup} (h : PlanKept x y) : RunKept x y := ⟨h.1, h.2.1, h.2.2.1⟩

theorem UnchangedOrGranted.runKept {x y : DriveGroup} (h : UnchangedOrGranted x y) : RunKept x y := by
  obtain rfl | ⟨-, rfl⟩ := h <;> exact ⟨rfl, rfl, rfl⟩

theorem DriveGroup.inactive_of_settled {x : DriveGroup} {cause : Cause} (h : x.runState = .fault cause .settled) :
    x.active = false := by
  simp [DriveGroup.active, DriveGroup.inPlan, DriveGroup.isRunning, DriveGroup.isHeld, DriveGroup.unwinds, h]

/-- A close reaches no group in FAULT SETTLED. -/
theorem Bridge.stationClose_settled {b : Bridge} {k : GroupIx} {cause : Cause}
    (h : (b.group k).runState = .fault cause .settled) (i : StationIx) (n : CycleNo) (boundary : Bool) :
    RunKept (b.group k) ((b.stationClose i n boundary).group k) := by
  cases hs : b.station i with
  | none =>
    unfold Bridge.stationClose
    rw [hs]
    exact RunKept.refl _
  | some st =>
    obtain ⟨m, hm, -, -, -, -, he⟩ := Bridge.stationClose_eq hs n boundary
    have hg : m.group k = b.group k := by rw [hm]; rfl
    rw [he, ← hg]
    refine Bridge.handOn_induction (fun c => RunKept (m.group k) (c.group k)) _ _
      (fun c j hc => by rw [c.choose_eq]; exact hc) (fun c g _ hc => hc.trans ?_)
      (fun c p hc => hc.trans ((GroupWork.probeClose (S := fun _ => False) c p _).others k id).runKept) (RunKept.refl _)
    have hsettled : (c.group k).runState = .fault cause .settled := hc.1.trans (by rw [hg]; exact h)
    by_cases hk : k = g
    · subst hk
      unfold Bridge.groupReceives
      rw [Bridge.groupTransition_inactive _ _ _ (DriveGroup.inactive_of_settled hsettled)]
      exact (Bridge.countClose_faulted _ hsettled (fun e => FaultSub.noConfusion e)).1.runKept
    · exact ((GroupWork.groupReceives c g _).others k hk).runKept

theorem CycleReaches.settled {c : CycleContext} {acts : List CycleAct} {x y : Link × Bridge}
    (h : CycleReaches c acts x y) (ht : .tracker ∉ acts) {k : GroupIx} {cause : Cause}
    (hk : (x.2.group k).runState = .fault cause .settled) : RunKept (x.2.group k) (y.2.group k) :=
  h.keeps (fun _ b => RunKept (x.2.group k) (b.group k)) (fun _ _ _ _ hr => hr) (fun a ha l b hr => by
    have hb : (b.group k).runState = .fault cause .settled := hr.1.trans hk
    refine hr.trans ?_
    cases a with
    | tracker => exact absurd ha ht
    | boundary i =>
      unfold cycleAct
      cases c.previous with
      | none => exact RunKept.refl _
      | some p => exact Bridge.stationClose_settled hb i p true
    | record =>
      unfold cycleAct
      rw [Bridge.group_recordMasters]
      split <;> exact ⟨rfl, rfl, rfl⟩
    | treat =>
      unfold cycleAct
      rw [Bridge.recordSent_group]
      exact RunKept.refl _
    | status => exact RunKept.refl _) (RunKept.refl _)

/-! ## The tracker's step (R11, R12, R13) -/

/-- A step without a loss of sync leaves the stations, the groups and the trip causes, and posts LINK_SYNCED at the
eighth good frame. -/
theorem Bridge.trackerStep_kept {b : Bridge} {p : Option CycleNo} {n : CycleNo}
    (h : b.tracker.sync = .unsynced ∨ p.map (· + 1#16) = some n ∨ b.tracker.slips p n = true) :
    let c := b.trackerStep p n
    c.stations = b.stations ∧ c.groups = b.groups ∧ c.trip = b.trip ∧
      (b.events.length ≤ 64 → Posted b c
        (if b.tracker.sync = .unsynced ∧ b.tracker.good p n = true ∧ b.tracker.runCount + 1 = 8 then
          [⟨.linkSynced, some n, none, none, none, none, none⟩] else [])) := by
  unfold Bridge.trackerStep
  simp only
  cases hsync : b.tracker.sync with
  | unsynced =>
    by_cases hgood : b.tracker.good p n = true
    · by_cases h8 : b.tracker.runCount + 1 = 8
      · simp only [hgood, h8, if_true, and_self, Bridge.post]
        refine ⟨?_, ?_, ?_, fun he => ?_⟩
        · rw [Bridge.append_stations]
        · rw [Bridge.append_groups]
        · rw [Bridge.append_trip]
        · exact (Posted.append ({ b with tracker := ⟨.synced, some n, 8, b.tracker.restart.timer, b.tracker.restart.setting⟩ })
            ⟨.linkSynced, some n, none, none, none, none, none⟩ he).congr rfl rfl rfl rfl
      · simp only [hgood, h8, if_true, if_false, and_false]
        exact ⟨trivial, trivial, trivial, Posted.refl b⟩
    · simp only [hgood, Bool.false_eq_true, if_false, and_false, false_and]
      exact ⟨trivial, trivial, trivial, Posted.refl b⟩
  | synced =>
    have hok := h.resolve_left (by rw [hsync]; decide)
    simp only [if_pos hok, reduceCtorEq, false_and, if_false]
    exact ⟨trivial, trivial, trivial, Posted.refl b⟩

theorem Bridge.bypass_fold_others (cause : Cause) {gs : List GroupIx} {g : GroupIx} (hg : g ∉ gs) (b : Bridge) :
    UnchangedOrGranted (b.group g) ((gs.foldl (fun b k => b.bypass cause none k) b).group g) := by
  induction gs generalizing b with
  | nil => exact .inl rfl
  | cons k gs ih =>
    have hk : g ≠ k := fun e => hg (e ▸ List.mem_cons_self)
    exact ((GroupWork.bypass b cause none k).others g hk).trans (ih (fun hm => hg (List.mem_cons_of_mem _ hm)) _)

theorem Bridge.bypassAll_bypassed (b : Bridge) (cause : Cause) (g : GroupIx) :
    Bypassed cause (b.group g) ((b.bypassAll cause).group g) := by
  obtain ⟨before, after, hsplit⟩ := List.append_of_mem (List.mem_finRange g)
  have hnodup : (before ++ g :: after).Nodup := hsplit ▸ List.nodup_finRange 8
  rw [List.nodup_append, List.nodup_cons] at hnodup
  obtain ⟨-, ⟨hafter, -⟩, hcross⟩ := hnodup
  have hbefore : g ∉ before := fun hm => hcross g hm g List.mem_cons_self rfl
  unfold Bridge.bypassAll groupIxs
  rw [hsplit, List.foldl_append, List.foldl_cons]
  exact ((Bridge.bypass_spec _ cause none g).1.after (Bridge.bypass_fold_others cause hbefore b)).then
    (Bridge.bypass_fold_others cause hafter _)

theorem Bridge.unsynced_group (b : Bridge) (g : GroupIx) : b.unsynced.group g = b.group g := Bridge.group_append ..

/-- A step that loses sync: every active group is bypassed, in ascending order (R16). -/
theorem Bridge.trackerStep_lost {b : Bridge} {p : Option CycleNo} {n : CycleNo} (hs : b.tracker.sync = .synced)
    (h : ¬(p.map (· + 1#16) = some n ∨ b.tracker.slips p n = true)) :
    let c := b.trackerStep p n
    (∀ g, Bypassed .link (b.group g) (c.group g)) ∧
      (b.events.length ≤ 64 → Posted b c (⟨.linkLost, some n, none, none, none, none, none⟩ ::
        ((List.finRange 8).filter fun g => (b.group g).active).map fun g =>
          ⟨.groupFault, some n, some g, none, (b.group g).stage, (b.group g).planTag, some .link⟩)) := by
  have hstep : b.trackerStep p n =
      ({ b with tracker := { b.tracker.restart with cycle := some n } } : Bridge).unsynced.bypassAll .link := by
    unfold Bridge.trackerStep
    simp only [hs, if_neg h]
    rfl
  rw [hstep]
  constructor
  · intro g
    have hbypassed := ({ b with tracker := { b.tracker.restart with cycle := some n } } : Bridge).unsynced.bypassAll_bypassed
      .link g
    rw [Bridge.unsynced_group] at hbypassed
    exact hbypassed
  · intro he
    have hposted := Bridge.unsynced_posted (b := { b with tracker := { b.tracker.restart with cycle := some n } }) he
    obtain ⟨-, hall⟩ := Bridge.bypassAll_after hposted (fun g => Bridge.group_append ..)
      (by rw [Bridge.unsynced, Bridge.post, Bridge.append_tracker]) .link
    exact hall.congr rfl rfl rfl rfl

theorem Tracker.good_iff (t : Tracker) (p : Option CycleNo) (n : CycleNo) :
    t.good p n = true ↔ (∃ left, t.timer = .running left) ∧ ∃ q, p = some q ∧ n = q + 1#16 := by
  have htimer : t.timer.isRunning = true ↔ ∃ left, t.timer = .running left := by
    cases t.timer <;> simp [CycleTimer.isRunning]
  rw [Tracker.good, Bool.and_eq_true, htimer, decide_eq_true_iff, Option.map_eq_some_iff]
  simp only [eq_comm]

theorem map_add_iff (p : Option CycleNo) (d n : CycleNo) : p.map (· + d) = some n ↔ ∃ q, p = some q ∧ n = q + d := by
  rw [Option.map_eq_some_iff]
  simp only [eq_comm]

theorem Tracker.slips_iff (t : Tracker) (p : Option CycleNo) (n : CycleNo) :
    t.slips p n = true ↔ t.sync = .synced ∧ ∃ q, p = some q ∧ n = q + 2#16 := by
  rw [Tracker.slips, Bool.and_eq_true, decide_eq_true_iff, decide_eq_true_iff, map_add_iff]

/-! ## The SLIP flag (R12, R10) -/

theorem Link.sendStatus_keeps (l : Link) (f : Frame) :
    l.sendStatus f = { l with
      forwardQueue := (l.sendStatus f).forwardQueue, localQueue := (l.sendStatus f).localQueue
      lineTx := (l.sendStatus f).lineTx, lastTaken := (l.sendStatus f).lastTaken } := by
  unfold Link.sendStatus Link.kick
  simp only
  split
  · conv_lhs => rw [Link.chooseLine_keeps]
  · rfl

theorem Link.slip_sendDown (l : Link) (f : Frame) : (l.sendDown f).slip = l.slip := by
  rw [Link.sendDown_eq]
  split_ifs <;> rfl

/-- Without the tracker's step, only the Status frame touches the flag: it carries it. -/
theorem CycleReaches.slip {c : CycleContext} {acts : List CycleAct} {x y : Link × Bridge} (h : CycleReaches c acts x y)
    (ht : .tracker ∉ acts) (hnodup : acts.Nodup) :
    y.1.slip = if .status ∈ acts then x.1.slip.carry else x.1.slip := by
  induction acts generalizing x with
  | nil =>
    obtain ⟨cs, n, rfl⟩ := h
    rfl
  | cons a acts ih =>
    obtain ⟨hnot, hnodup⟩ := List.nodup_cons.mp hnodup
    obtain ⟨cs, n, h⟩ := h.first
    rw [ih h (fun hm => ht (List.mem_cons_of_mem _ hm)) hnodup]
    cases a with
    | tracker => exact absurd List.mem_cons_self ht
    | boundary i =>
      unfold cycleAct
      cases c.previous <;> simp
    | record => simp [cycleAct]
    | treat => simp [cycleAct, Link.slip_sendDown]
    | status =>
      rw [if_neg hnot, if_pos List.mem_cons_self]
      unfold cycleAct
      rw [Link.sendStatus_keeps]
      rfl

end Sys2Proof.Machine

namespace Sys2Proof.Proofs

open Sys2Proof.Machine

/-- Settles O9. -/
theorem cycleFrameStepsTracker : Obligations.CycleFrameStepsTracker := by
  intro dst src n slots s hheld h1 h48 k good next slip quiet
  obtain ⟨t, order, m, hexec, -, hperm, hnodup, horder, hopened⟩ := exec_cycleFrameArrival_order hheld dst src n h1 h48
  have hquiet : quiet → ∀ i, CycleAct.boundary i ∉ order := fun hq i hi => by
    obtain ⟨hprevious, st, hst, hopen⟩ := boundary_mem_cycleActs.mp (hperm.mem_iff.mp hi)
    exact hq.elim hprevious fun hall => hall i st hst hopen
  have hstatus : CycleAct.status ∈ order := hperm.mem_iff.mpr (cycleActs_mem _ _).2.2.2
  obtain ⟨before, after, ⟨l, z⟩, rfl, -, hbefore, hafter⟩ := horder.cut (hperm.mem_iff.mpr (cycleActs_mem _ _).1)
  have honly := fun a => horder.before_tracker hnodup (a := a)
  clear horder hperm
  rw [List.nodup_append, List.nodup_cons] at hnodup
  obtain ⟨hbeforeNodup, ⟨hafterFree, hafterNodup⟩, hcross⟩ := hnodup
  have hbeforeFree : CycleAct.tracker ∉ before := fun hm => hcross _ hm _ List.mem_cons_self rfl
  have hstatusBefore : CycleAct.status ∉ before := fun hm => by
    obtain ⟨i, hi⟩ := honly _ hm
    cases hi
  have hstatusAfter : CycleAct.status ∈ after := by
    obtain hm | hm := List.mem_append.mp hstatus
    · exact absurd hm hstatusBefore
    · exact (List.mem_cons.mp hm).resolve_left (by decide)
  obtain ⟨cs, j, hafter⟩ := hafter.first
  have hztracker : z.tracker = { k with cycle := some n } := hbefore.tracker hbeforeFree
  have hlslip : l.slip = s.link.slip := (hbefore.slip hbeforeFree hbeforeNodup).trans (if_neg hstatusBefore)
  have hzposts := hbefore.posts hbeforeFree
  have hzquiet : quiet → ∀ g, z.group g = s.bridge.group g := fun hq g => by
    have hnone : before = [] := List.eq_nil_iff_forall_not_mem.mpr fun a ha => by
      obtain ⟨i, rfl⟩ := honly a ha
      exact hquiet hq i (List.mem_append_left _ ha)
    rw [hnone] at hbefore
    obtain ⟨cs, j, heq⟩ := hbefore
    rw [(Prod.mk.inj heq).2]
    rfl
  obtain ⟨z', hz'⟩ : ∃ z', z' = { z with choices := cs, choiceCount := j } := ⟨_, rfl⟩
  have hsame : z'.tracker = { k with cycle := some n } ∧ z'.events = z.events ∧ z'.eventsLost = z.eventsLost ∧
      ∀ g, z'.group g = z.group g := by
    rw [hz']
    exact ⟨hztracker, rfl, rfl, fun _ => rfl⟩
  obtain ⟨htracker, hevents, hlost, hgroup⟩ := hsame
  rw [← hz'] at hafter
  have hstep := z'.trackerStep_spec k.cycle n
  have hkept := Bridge.trackerStep_kept (b := z') (p := k.cycle) (n := n)
  have hlose := Bridge.trackerStep_lost (b := z') (p := k.cycle) (n := n)
  have hslip : z'.tracker.slips k.cycle n = true ↔ slip := by
    rw [htracker]
    exact Tracker.slips_iff _ _ _
  have hgood : z'.tracker.good k.cycle n = true ↔ good := by
    rw [htracker]
    exact Tracker.good_iff _ _ _
  have hnext : k.cycle.map (· + 1#16) = some n ↔ next := map_add_iff _ _ _
  have hslipped : t.link.slip = (if slip then l.slip.latch else l.slip).carry := by
    have h := hafter.slip hafterFree hafterNodup
    rw [if_pos hstatusAfter] at h
    refine h.trans (congrArg PortFlag.carry ?_)
    change (if z'.tracker.slips k.cycle n = true then { l with slip := l.slip.latch } else l).slip = _
    by_cases hs : slip
    · rw [if_pos (hslip.mpr hs), if_pos hs]
    · rw [if_neg (mt hslip.mp hs), if_neg hs]
  have hmtracker : m.tracker = (z'.trackerStep k.cycle n).tracker := hafter.tracker hafterFree
  have hposts : (z'.trackerStep k.cycle n).events.length ≤ 64 →
      ∃ es, Posted (z'.trackerStep k.cycle n) m es ∧ ((∀ i, .boundary i ∉ after) → es = []) := hafter.posts hafterFree
  have hinactive : ∀ g, ((z'.trackerStep k.cycle n).group g).active = false → (m.group g).active = false :=
    hafter.cycleKeeps.inactive
  have hsettled : ∀ g, ((z'.trackerStep k.cycle n).group g).runState = .fault .link .settled →
      RunKept ((z'.trackerStep k.cycle n).group g) (m.group g) := fun g => hafter.settled hafterFree
  clear hafter hbefore
  generalize z'.trackerStep k.cycle n = w at hstep hkept hlose hmtracker hposts hinactive hsettled
  obtain ⟨htopened, hteventsOpened, htlostOpened, -⟩ := m.opened_keeps n
  have htgroup : ∀ g, (t.bridge.group g).active = (m.group g).active ∧ RunKept (m.group g) (t.bridge.group g) := fun g => by
    rw [hopened, Bridge.opened_group]
    exact ⟨rfl, rfl, rfl, rfl⟩
  rw [← hopened] at htopened hteventsOpened htlostOpened
  have httracker : t.bridge.tracker = w.tracker := htopened.trans hmtracker
  have hown : ∀ own, (z'.events.length ≤ 64 → Posted z' w own) → s.bridge.events.length ≤ 64 →
      ∃ first last, Posted s.bridge t.bridge (first ++ own ++ last) ∧ (quiet → first = [] ∧ last = []) := by
    intro own hown he
    obtain ⟨first, hfirst, hfirstQuiet⟩ := hzposts he
    have hboth := hfirst.trans ((hown (hevents ▸ hfirst.length)).congr hevents.symm hlost.symm rfl rfl)
    obtain ⟨last, hlast, hlastQuiet⟩ := hposts hboth.length
    exact ⟨first, last, (hboth.trans hlast).congr rfl rfl hteventsOpened htlostOpened,
      fun hq => ⟨hfirstQuiet fun i hi => hquiet hq i (List.mem_append_left _ hi),
        hlastQuiet fun i hi => hquiet hq i (List.mem_append_right _ (List.mem_cons_of_mem _ hi))⟩⟩
  obtain ⟨-, -, -, hcycle, htimer, hsetting, hfound, hmissed, hfollows, hlosses⟩ := hstep
  rw [← httracker] at hcycle htimer hsetting hfound hmissed hfollows hlosses
  have hsyncEq : z'.tracker.sync = k.sync := by rw [htracker]
  have hcountEq : z'.tracker.runCount = k.runCount := by rw [htracker]
  rw [htracker] at htimer hsetting
  rw [hgood, hsyncEq, hcountEq] at hfound
  rw [hsyncEq] at hmissed
  rw [hnext, hslip, hsyncEq, hcountEq] at hfollows
  rw [hnext, hslip, hsyncEq] at hlosses hlose
  refine ⟨t, hexec, hcycle, htimer, hsetting, fun hs hg => ?_, fun hs hg => ?_, fun hs hok => ?_, fun hs hn hsl => ?_,
    fun hsl => ?_, fun hsl => ?_⟩
  · obtain ⟨hcount, hsync⟩ := hfound hs hg
    obtain ⟨-, -, -, hposted⟩ := hkept (.inl (hsyncEq.trans hs))
    have heighth : (z'.tracker.sync = .unsynced ∧ z'.tracker.good k.cycle n = true ∧ z'.tracker.runCount + 1 = 8) ↔
        k.runCount + 1 = 8 := by
      rw [hcountEq]
      exact ⟨fun h => h.2.2, fun h8 => ⟨hsyncEq.trans hs, hgood.mpr hg, h8⟩⟩
    exact ⟨hcount, hsync, hown _ fun he => if_congr heighth rfl rfl ▸ hposted he⟩
  · obtain ⟨hcount, hsync⟩ := hmissed hs (Bool.eq_false_iff.mpr (mt hgood.mp hg))
    obtain ⟨-, -, -, hposted⟩ := hkept (.inl (hsyncEq.trans hs))
    refine ⟨hcount, hsync, hown _ fun he => ?_⟩
    have h := hposted he
    rw [if_neg fun hall => hg (hgood.mp hall.2.1)] at h
    exact h
  · obtain ⟨hcount, hsync⟩ := hfollows hs hok
    obtain ⟨-, -, -, hposted⟩ := hkept (.inr (hok.imp hnext.mpr hslip.mpr))
    refine ⟨hcount, hsync, hown _ fun he => ?_⟩
    have h := hposted he
    rw [if_neg fun hall => Sync.noConfusion (hall.1.symm.trans (hsyncEq.trans hs))] at h
    exact h
  · obtain ⟨hcount, hsync, hoff⟩ := hlosses hs (not_or.mpr ⟨hn, hsl⟩)
    obtain ⟨hbypassed, hposted⟩ := hlose hs (not_or.mpr ⟨hn, hsl⟩)
    have hreached : ∀ g ∈ (List.finRange 8).filter (fun g => (z.group g).active),
        (t.bridge.group g).runState = .fault .link .settled ∧
          (⟨.groupFault, some n, some g, none, (t.bridge.group g).stage, (t.bridge.group g).planTag, some .link⟩ : Event) =
            ⟨.groupFault, some n, some g, none, (z.group g).stage, (z.group g).planTag, some .link⟩ := by
      intro g hg
      obtain ⟨hstage, htag, hfault⟩ := hbypassed g
      rw [hgroup, if_pos (of_decide_eq_true (by simpa using hg))] at hfault
      obtain ⟨hfault, -⟩ := hfault
      obtain ⟨hrun, hstageKept, htagKept⟩ := (hsettled g hfault).trans (htgroup g).2
      rw [hrun, hstageKept, htagKept, hstage, htag, hgroup]
      exact ⟨hfault, rfl⟩
    refine ⟨hcount, hsync, fun g => ?_, (List.finRange 8).filter (fun g => (z.group g).active),
      (List.pairwise_lt_finRange 8).filter _, fun hq => ?_, fun g hg => ?_, ?_⟩
    · rw [(htgroup g).1]
      exact hinactive g (hoff g)
    · simp only [hzquiet hq]
    · obtain ⟨hrun, -⟩ := hreached g hg
      exact hrun
    · refine hown _ fun he => ?_
      have hposted := hposted he
      simp only [hgroup] at hposted
      have hmap := List.map_congr_left fun g (hg : g ∈ (List.finRange 8).filter fun g => (z.group g).active) =>
        (hreached g hg).2
      rw [hmap]
      exact hposted
  · rw [hslipped, if_pos hsl]
    rfl
  · rw [hslipped, if_neg hsl, hlslip]
    rfl

end Sys2Proof.Proofs
end

section
/-! PROOFS. The boundary of a cycle: the closes of the OPEN entries and the opening of the next cycle (R15, R20, R51). -/

namespace Sys2Proof.Machine

/-! ## The whole order -/

theorem CycleOrder.reaches {c : CycleContext} {order : List CycleAct} {x y : Link × Bridge} (h : CycleOrder c order x y) :
    CycleReaches c order x y := by
  obtain ⟨m, hall, hnothing⟩ := h.splits order [] (List.append_nil _).symm
  have hboth := hall.append hnothing
  rwa [List.append_nil] at hboth

theorem CycleKeeps.withTracker (b : Bridge) (k : Tracker) : CycleKeeps b { b with tracker := k } :=
  ⟨rfl, rfl, rfl, rfl, rfl, fun _ => rfl, fun _ => rfl, fun _ h => h⟩

/-! ## An entry through the acts of an arrival -/

/-- What the acts of an arrival leave of an entry that does not close: its core up to the last sent reference. -/
def Station.unsent (st : Station) : Station := { st.core with run := { st.core.run with lastSent := none } }

theorem Bridge.trackerStep_stations (b : Bridge) (p : Option CycleNo) (n : CycleNo) :
    (b.trackerStep p n).stations = b.stations := by
  by_cases h : b.tracker.sync = .unsynced ∨ p.map (· + 1#16) = some n ∨ b.tracker.slips p n = true
  · exact (Bridge.trackerStep_kept h).1
  · obtain ⟨hsync, hlost⟩ := not_or.mp h
    have hsynced : b.tracker.sync = .synced := by
      cases hs : b.tracker.sync with
      | synced => rfl
      | unsynced => exact absurd hs hsync
    have hstep : b.trackerStep p n =
        ({ b with tracker := { b.tracker.restart with cycle := some n } } : Bridge).unsynced.bypassAll .link := by
      unfold Bridge.trackerStep
      simp only [hsynced, if_neg hlost]
      rfl
    rw [hstep, (FaultWork.bypassAll _ _).stations, Bridge.unsynced, Bridge.post, Bridge.append_stations]

/-- A station close closes its own entry, and leaves the cores of the others. -/
theorem Bridge.stationClose_core {b : Bridge} {i : StationIx} {st : Station} (h : b.station i = some st) (n : CycleNo)
    (boundary : Bool) (j : StationIx) :
    ((b.stationClose i n boundary).station j).map Station.core =
      if i = j then some (Station.core { st with run := st.run.closed st.config boundary })
      else (b.station j).map Station.core := by
  obtain ⟨m, hm, -, -, -, -, he⟩ := Bridge.stationClose_eq h n boundary
  have hstation : m.station j =
      (b.setStation i (some { st with run := st.run.closed st.config boundary })).station j := by
    rw [hm]
    rfl
  rw [he, (GroupWork.handOn m _ _).stations, hstation, Bridge.station_setStation]
  split <;> rfl

/-- Acts that do not close an entry leave it as it was, up to the last sent reference and what a close and its hand-on
may change of every entry. -/
theorem cycleAct_unsent {c : CycleContext} {a : CycleAct} {i : StationIx} (ha : a ≠ .boundary i) (l : Link) (b : Bridge) :
    ((cycleAct c a (l, b)).2.station i).map Station.unsent = (b.station i).map Station.unsent := by
  cases a with
  | tracker => exact congrArg (Option.map Station.unsent) (Bridge.station_congr (b.trackerStep_stations _ _) i)
  | boundary j =>
    have hj : j ≠ i := fun e => ha (e ▸ rfl)
    have hcore : ∀ p, ((b.stationClose j p true).station i).map Station.core = (b.station i).map Station.core := fun p => by
      cases hs : b.station j with
      | none =>
        unfold Bridge.stationClose
        rw [hs]
      | some st => rw [Bridge.stationClose_core hs, if_neg hj]
    have hunsent : Station.unsent = (fun st : Station => { st with run := { st.run with lastSent := none } }) ∘ Station.core :=
      rfl
    unfold cycleAct
    cases c.previous with
    | none => rfl
    | some p => rw [hunsent, ← Option.map_map, ← Option.map_map, hcore]
  | record =>
    unfold cycleAct Bridge.recordMasters
    rw [Bridge.station_mapGroups]
  | treat =>
    unfold cycleAct
    rw [Bridge.recordSent_station, Option.map_map]
    rfl
  | status => rfl

theorem CycleReaches.unsent {c : CycleContext} {acts : List CycleAct} {x y : Link × Bridge} (h : CycleReaches c acts x y)
    {i : StationIx} (hi : .boundary i ∉ acts) :
    (y.2.station i).map Station.unsent = (x.2.station i).map Station.unsent :=
  h.keeps (fun _ b => (b.station i).map Station.unsent = (x.2.station i).map Station.unsent) (fun _ _ _ _ hk => hk)
    (fun _ ha l b hk => (cycleAct_unsent (fun e => hi (e ▸ ha)) l b).trans hk) rfl

theorem CycleReaches.unsent_eq {c : CycleContext} {acts : List CycleAct} {l k : Link} {b d : Bridge}
    (h : CycleReaches c acts (l, b) (k, d)) {i : StationIx} (hi : .boundary i ∉ acts) {x : Station}
    (hx : b.station i = some x) : ∃ y, d.station i = some y ∧ y.unsent = x.unsent := by
  have halike : (d.station i).map Station.unsent = (b.station i).map Station.unsent := h.unsent hi
  rw [hx, Option.map_some, Option.map_eq_some_iff] at halike
  exact halike

theorem Bridge.stationClose_unsent {b : Bridge} {i : StationIx} {st : Station} (h : b.station i = some st) (n : CycleNo)
    (boundary : Bool) : ∃ y, (b.stationClose i n boundary).station i = some y ∧
      y.unsent = Station.unsent { st with run := st.run.closed st.config boundary } := by
  have hcore := Bridge.stationClose_core h n boundary i
  rw [if_pos rfl, Option.map_eq_some_iff] at hcore
  obtain ⟨y, hy, heq⟩ := hcore
  exact ⟨y, hy, congrArg (fun x : Station => { x with run := { x.run with lastSent := none } }) heq⟩

/-- What entries that are alike share. -/
theorem Station.unsent_fields {x y : Station} (h : y.unsent = x.unsent) :
    y.config = { x.config with offset := y.config.offset } ∧ y.run.mark = x.run.mark ∧ y.run.latch = x.run.latch ∧
      y.run.fresh = x.run.fresh ∧ y.run.late = x.run.late ∧ y.run.overrun = x.run.overrun ∧
      y.run.counter = x.run.counter ∧ y.run.validity = x.run.validity ∧
      y.run.present = { x.run.present with
        shareDev := y.run.present.shareDev, fight := y.run.present.fight, direction := y.run.present.direction } := by
  have hcore : ({ y with run := { y.run with lastSent := none } } : Station).core =
      ({ x with run := { x.run with lastSent := none } } : Station).core := h
  exact ⟨(Station.core_config_offset hcore :), congrArg (fun st => st.run.mark) h, congrArg (fun st => st.run.latch) h,
    congrArg (fun st => st.run.fresh) h, congrArg (fun st => st.run.late) h, congrArg (fun st => st.run.overrun) h,
    congrArg (fun st => st.run.counter) h, congrArg (fun st => st.run.validity) h, (Station.core_present hcore :)⟩

theorem Conditions.quality_of_missing {p : Conditions} (h : p.fbMissing = true) : p.quality = true := by
  rw [Conditions.quality, h]
  rfl

/-- An entry that reaches its boundary close as `z`, alike with `x`, closes as `x` would. -/
theorem closedAtBoundary_of_unsent {x z : Station} (h : z.unsent = x.unsent) (hfresh : x.run.fresh = false) :
    ClosedAtBoundary x.run (z.run.closed z.config true).present ∧
      ValidityStepped x.config x.run true false (z.run.closed z.config true).counter
        (z.run.closed z.config true).validity := by
  obtain ⟨hconfig, -, -, hzfresh, hlate, hoverrun, hcounter, hvalidity, -⟩ := Station.unsent_fields h
  have hclosed := StationRun.closed_boundary z.config z.run (hzfresh.trans hfresh)
  have hstepped := StationRun.closed_stepped z.config z.run true
  rw [Conditions.quality_of_missing hclosed.fbMissing, hclosed.runaway] at hstepped
  refine ⟨⟨hclosed.fbMissing, hclosed.fbLate.trans hlate, hclosed.fbOverrun.trans hoverrun, hclosed.headroom,
    hclosed.driveFault, hclosed.speedDev, hclosed.runaway⟩, ?_⟩
  have hlimit : z.config.limit = x.config.limit := by rw [hconfig]
  have hhold : z.config.hold = x.config.hold := by rw [hconfig]
  unfold ValidityStepped at hstepped ⊢
  rwa [hlimit, hhold, hcounter, hvalidity] at hstepped

end Sys2Proof.Machine

namespace Sys2Proof.Proofs

open Sys2Proof.Machine

/-- Settles O10. -/
theorem cycleFrameBoundary : Obligations.CycleFrameBoundary := by
  intro dst src n slots s hheld hmarks h1 h48
  obtain ⟨t, order, m, hexec, ht, hperm, hnodup, horder, hopened⟩ := exec_cycleFrameArrival_order hheld dst src n h1 h48
  have hkeeps : CycleKeeps s.bridge m :=
    (CycleKeeps.withTracker s.bridge { s.bridge.tracker with cycle := some n }).trans horder.reaches.cycleKeeps
  obtain ⟨start, hstart⟩ : ∃ start, start = { s.bridge with tracker := { s.bridge.tracker with cycle := some n } } :=
    ⟨_, rfl⟩
  rw [← hstart] at horder
  have hstarts : ∀ i, start.station i = s.bridge.station i := fun i => by
    rw [hstart]
    rfl
  obtain ⟨-, -, -, -, hcheck, hmask, hrelease, hstore, htime, -⟩ := m.opened_keeps n
  have hgroup := fun g => m.opened_group n g
  have hstation := fun i => m.opened_station n i
  rw [← hopened] at hcheck hmask hrelease hstore htime
  simp only [← hopened] at hgroup hstation
  refine ⟨t, hexec, fun i => ?_, fun i x y hx hy => ?_, fun g => ?_, hcheck.trans hkeeps.check, hmask.trans hkeeps.mask,
    hrelease.trans hkeeps.release, hstore.trans hkeeps.store, htime.trans hkeeps.timeBase, fun g => ?_,
    by rw [ht], by rw [ht], by rw [ht]⟩
  · have h := congrArg Option.isSome (hkeeps.configs i)
    rw [Option.isSome_map, Option.isSome_map] at h
    rw [hstation, Option.isSome_map, h]
  · obtain ⟨y', hy', rfl⟩ := Option.map_eq_some_iff.mp ((hstation i).symm.trans hy)
    have hmem : CycleAct.boundary i ∈ order ↔ s.bridge.tracker.cycle ≠ none ∧ x.run.mark = .isOpen := by
      rw [hperm.mem_iff, boundary_mem_cycleActs]
      simp [hx]
    by_cases hcloses : CycleAct.boundary i ∈ order
    · obtain ⟨hcycle, hopen⟩ := hmem.mp hcloses
      obtain ⟨p, hp⟩ := Option.ne_none_iff_exists'.mp hcycle
      obtain ⟨before, after, ⟨l, z⟩, rfl, -, hbefore, hafter⟩ := horder.cut hcloses
      rw [List.nodup_append, List.nodup_cons] at hnodup
      obtain ⟨-, ⟨hnotAfter, -⟩, hcross⟩ := hnodup
      have hnotBefore : CycleAct.boundary i ∉ before := fun hm => hcross _ hm _ List.mem_cons_self rfl
      obtain ⟨z₀, hz₀, hlike⟩ := hbefore.unsent_eq hnotBefore ((hstarts i).trans hx)
      obtain ⟨cs, j, hafter⟩ := hafter.first
      have hact : ∀ b : Bridge, cycleAct ⟨dst, src, n, slots, s.bridge.tracker.cycle, s.address⟩ (.boundary i) (l, b) =
          (l, b.stationClose i p true) := fun b => by
        rw [hp]
        rfl
      rw [hact] at hafter
      obtain ⟨w, hw, hwlike⟩ :=
        Bridge.stationClose_unsent (b := { z with choices := cs, choiceCount := j }) hz₀ p true
      obtain ⟨y₀, hy₀, hylike⟩ := hafter.unsent_eq hnotAfter hw
      obtain rfl : y₀ = y' := Option.some.inj (hy₀.symm.trans hy')
      obtain ⟨hconfig, -, hlatch, -, hlate, hoverrun, hcounter, hvalidity, hpresent⟩ :=
        Station.unsent_fields (hylike.trans hwlike)
      obtain ⟨hzconfig, -, hzlatch, -⟩ := Station.unsent_fields hlike
      obtain ⟨hclosed, hstepped⟩ := closedAtBoundary_of_unsent hlike (hmarks i x hx hopen)
      refine ⟨rfl, rfl, hlatch.trans hzlatch, ?_, fun h => ?_, fun _ _ => ⟨hlate, hoverrun, ?_, ?_⟩⟩
      · rw [hconfig, hzconfig]
      · exact absurd h (not_or.mpr ⟨not_not.mpr hopen, hcycle⟩)
      · change ClosedAtBoundary x.run y₀.run.present
        rw [hpresent]
        exact ⟨hclosed.fbMissing, hclosed.fbLate, hclosed.fbOverrun, hclosed.headroom, hclosed.driveFault,
          hclosed.speedDev, hclosed.runaway⟩
      · change ValidityStepped x.config x.run true false y₀.run.counter y₀.run.validity
        rw [hcounter, hvalidity]
        exact hstepped
    · obtain ⟨y₀, hy₀, hlike⟩ := horder.reaches.unsent_eq hcloses ((hstarts i).trans hx)
      obtain rfl : y₀ = y' := Option.some.inj (hy₀.symm.trans hy')
      obtain ⟨hconfig, -, hlatch, -, hlate, hoverrun, hcounter, hvalidity, -⟩ := Station.unsent_fields hlike
      exact ⟨rfl, rfl, hlatch, hconfig, fun _ => ⟨hlate, hoverrun, hcounter, hvalidity⟩,
        fun hopen hcycle => absurd (hmem.mpr ⟨hcycle, hopen⟩) hcloses⟩
  · rw [hgroup, hkeeps.members]
    exact ⟨rfl, rfl⟩
  · rw [hgroup]
    exact hkeeps.records g

end Sys2Proof.Proofs
end

section
/-! PROOFS. The Cycle Frame that goes on toward the drives, the records of its slots, and the Status frame (R6, R8, R73,
R79, R80, R178). -/

namespace Sys2Proof.Machine

/-! ## The link through the acts -/

theorem CycleReaches.sound {c : CycleContext} {acts : List CycleAct} {x y : Link × Bridge} (h : CycleReaches c acts x y)
    (hx : x.1.Sound) : y.1.Sound :=
  h.keeps (fun l _ => l.Sound) (fun _ _ _ _ hl => hl) (fun a _ l b hl => by
    cases a with
    | tracker =>
      unfold cycleAct
      simp only
      split
      · exact hl.congr rfl rfl rfl rfl rfl
      · exact hl
    | boundary i =>
      unfold cycleAct
      cases c.previous <;> exact hl
    | record => exact hl
    | treat => exact hl.sendDown _
    | status => exact (hl.mapFlags _).sendStatus _) hx

/-- The two sides of the link as far as the treatment of the slots touches them. -/
def Link.DriveKept (l k : Link) : Prop :=
  k.driveTx = l.driveTx ∧ k.driveQueue = l.driveQueue ∧ k.downCongestion.on = l.downCongestion.on

/-- What only the Status frame touches of the link. -/
def Link.LineKept (l k : Link) : Prop :=
  (k.forwardQueue = l.forwardQueue ∧ k.localQueue = l.localQueue ∧ k.lineTx = l.lineTx ∧ k.lastTaken = l.lastTaken) ∧
    k.frameErrorLine = l.frameErrorLine ∧ k.frameErrorDrive = l.frameErrorDrive ∧ k.upCongestion = l.upCongestion ∧
    k.requestDiscarded = l.requestDiscarded

theorem Link.DriveKept.refl (l : Link) : l.DriveKept l := ⟨rfl, rfl, rfl⟩

theorem Link.DriveKept.trans {l k j : Link} (h : l.DriveKept k) (h' : k.DriveKept j) : l.DriveKept j :=
  ⟨h'.1.trans h.1, h'.2.1.trans h.2.1, h'.2.2.trans h.2.2⟩

theorem Link.LineKept.refl (l : Link) : l.LineKept l := ⟨⟨rfl, rfl, rfl, rfl⟩, rfl, rfl, rfl, rfl⟩

theorem Link.LineKept.trans {l k j : Link} (h : l.LineKept k) (h' : k.LineKept j) : l.LineKept j := by
  obtain ⟨⟨h1, h2, h3, h4⟩, h5, h6, h7, h8⟩ := h
  obtain ⟨⟨k1, k2, k3, k4⟩, k5, k6, k7, k8⟩ := h'
  exact ⟨⟨k1.trans h1, k2.trans h2, k3.trans h3, k4.trans h4⟩, k5.trans h5, k6.trans h6, k7.trans h7, k8.trans h8⟩

theorem Link.DriveKept.sendStatus (l : Link) (f : Frame) : l.DriveKept ((l.mapFlags PortFlag.carry).sendStatus f) := by
  rw [Link.sendStatus_keeps]
  exact ⟨rfl, rfl, rfl⟩

theorem Link.LineKept.sendDown (l : Link) (f : Frame) : l.LineKept (l.sendDown f) := by
  rw [Link.sendDown_eq]
  split_ifs <;> exact ⟨⟨rfl, rfl, rfl, rfl⟩, rfl, rfl, rfl, rfl⟩

/-- The treatment apart, the acts leave the drive port and its flag. -/
theorem CycleReaches.drive {c : CycleContext} {acts : List CycleAct} {x y : Link × Bridge} (h : CycleReaches c acts x y)
    (ht : .treat ∉ acts) : x.1.DriveKept y.1 :=
  h.keeps (fun l _ => x.1.DriveKept l) (fun _ _ _ _ hl => hl) (fun a ha l b hl => hl.trans (by
    cases a with
    | tracker =>
      unfold cycleAct
      simp only
      split <;> exact ⟨rfl, rfl, rfl⟩
    | boundary i =>
      unfold cycleAct
      cases c.previous <;> exact Link.DriveKept.refl l
    | record => exact Link.DriveKept.refl l
    | treat => exact absurd ha ht
    | status => exact Link.DriveKept.sendStatus l _)) (Link.DriveKept.refl _)

/-- The Status frame apart, the acts leave the line port and four of the flags. -/
theorem CycleReaches.line {c : CycleContext} {acts : List CycleAct} {x y : Link × Bridge} (h : CycleReaches c acts x y)
    (hs : .status ∉ acts) : x.1.LineKept y.1 :=
  h.keeps (fun l _ => x.1.LineKept l) (fun _ _ _ _ hl => hl) (fun a ha l b hl => hl.trans (by
    cases a with
    | tracker =>
      unfold cycleAct
      simp only
      split <;> exact ⟨⟨rfl, rfl, rfl, rfl⟩, rfl, rfl, rfl, rfl⟩
    | boundary i =>
      unfold cycleAct
      cases c.previous <;> exact Link.LineKept.refl l
    | record => exact Link.LineKept.refl l
    | treat => exact Link.LineKept.sendDown l _
    | status => exact absurd ha hs)) (Link.LineKept.refl _)

/-- The two flags that an arrival may latch, before the Status frame is composed. -/
theorem CycleReaches.latches {c : CycleContext} {acts : List CycleAct} {x y : Link × Bridge} (h : CycleReaches c acts x y)
    (hs : .status ∉ acts) :
    (y.1.slip = x.1.slip ∨ y.1.slip = ⟨true, false⟩) ∧
      (.treat ∉ acts → y.1.downCongestion = x.1.downCongestion) := by
  constructor
  · refine h.keeps (fun l _ => l.slip = x.1.slip ∨ l.slip = ⟨true, false⟩) (fun _ _ _ _ hl => hl)
      (fun a ha l b hl => ?_) (.inl rfl)
    cases a with
    | tracker =>
      unfold cycleAct
      simp only
      split
      · exact .inr rfl
      · exact hl
    | boundary i =>
      unfold cycleAct
      cases c.previous <;> exact hl
    | record => exact hl
    | treat =>
      unfold cycleAct
      rw [Link.slip_sendDown]
      exact hl
    | status => exact absurd ha hs
  · intro ht
    refine h.keeps (fun l _ => l.downCongestion = x.1.downCongestion) (fun _ _ _ _ hl => hl) (fun a ha l b hl => ?_) rfl
    cases a with
    | tracker =>
      unfold cycleAct
      simp only
      split <;> exact hl
    | boundary i =>
      unfold cycleAct
      cases c.previous <;> exact hl
    | record => exact hl
    | treat => exact absurd ha ht
    | status => exact absurd ha hs

/-! ## The records of R79 and R80 through the acts -/

/-- The records of R79: the last treatments and the last sent references. -/
def Bridge.SentKept (b c : Bridge) : Prop :=
  c.treatments = b.treatments ∧
    ∀ i, ((c.station i).map fun st => st.run.lastSent) = (b.station i).map fun st => st.run.lastSent

theorem Bridge.SentKept.refl (b : Bridge) : b.SentKept b := ⟨rfl, fun _ => rfl⟩

theorem Bridge.SentKept.trans {b c d : Bridge} (h : b.SentKept c) (k : c.SentKept d) : b.SentKept d :=
  ⟨k.1.trans h.1, fun i => (k.2 i).trans (h.2 i)⟩

theorem Bridge.SentKept.stationClose (b : Bridge) (i : StationIx) (n : CycleNo) (boundary : Bool) :
    b.SentKept (b.stationClose i n boundary) := by
  obtain ⟨-, -, htreatments, -⟩ := b.stationClose_keeps i n boundary
  refine ⟨htreatments, fun j => ?_⟩
  cases hs : b.station i with
  | none =>
    unfold Bridge.stationClose
    rw [hs]
  | some st =>
    have hcomp : (fun st : Station => st.run.lastSent) = (fun st => st.run.lastSent) ∘ Station.core := rfl
    rw [hcomp, ← Option.map_map, Bridge.stationClose_core hs, ← Option.map_map]
    split
    · next hj =>
      subst hj
      rw [hs]
      rfl
    · rfl

/-- The treatment apart, the acts leave the records of R79. -/
theorem CycleReaches.sent {c : CycleContext} {acts : List CycleAct} {x y : Link × Bridge} (h : CycleReaches c acts x y)
    (ht : .treat ∉ acts) : x.2.SentKept y.2 :=
  h.keeps (fun _ b => x.2.SentKept b) (fun _ _ _ _ hb => hb) (fun a ha l b hb => hb.trans (by
    cases a with
    | tracker =>
      obtain ⟨-, htreatments, -⟩ := b.trackerStep_spec c.previous c.number
      exact ⟨htreatments, fun i => congrArg _ (Bridge.station_congr (b.trackerStep_stations _ _) i)⟩
    | boundary i =>
      unfold cycleAct
      cases c.previous with
      | none => exact Bridge.SentKept.refl b
      | some p => exact Bridge.SentKept.stationClose b i p true
    | record =>
      unfold cycleAct Bridge.recordMasters
      exact ⟨Bridge.mapGroups_treatments .., fun i => by rw [Bridge.station_mapGroups]⟩
    | treat => exact absurd ha ht
    | status => exact Bridge.SentKept.refl b)) (Bridge.SentKept.refl _)

/-- The record of R80 apart, the acts leave the master references. -/
theorem CycleReaches.masters {c : CycleContext} {acts : List CycleAct} {x y : Link × Bridge} (h : CycleReaches c acts x y)
    (hr : .record ∉ acts) : ∀ g, (y.2.group g).masterRef = (x.2.group g).masterRef :=
  h.keeps (fun _ b => ∀ g, (b.group g).masterRef = (x.2.group g).masterRef) (fun _ _ _ _ hb => hb)
    (fun a ha l b hb g => Eq.trans (by
      cases a with
      | tracker =>
        obtain ⟨-, -, hmasters, -⟩ := b.trackerStep_spec c.previous c.number
        exact hmasters g
      | boundary i =>
        unfold cycleAct
        cases c.previous with
        | none => rfl
        | some p =>
          obtain ⟨-, -, -, hmasters⟩ := b.stationClose_keeps i p true
          exact hmasters g
      | record => exact absurd ha hr
      | treat =>
        unfold cycleAct
        rw [Bridge.recordSent_group]
      | status => rfl) (hb g)) fun _ => rfl

/-- A master reference is formed from the configurations up to the learned offset. -/
theorem Bridge.masterSpeed_of_configs {b c : Bridge}
    (h : ∀ i, ((c.station i).map fun st => { st.config with offset := 0 }) =
      (b.station i).map fun st => { st.config with offset := 0 }) (slots : List Slot) (g : GroupIx) :
    c.masterSpeed slots g = b.masterSpeed slots g := by
  have hpart : ∀ {α : Type} (f : StationConfig → α), (∀ x : StationConfig, f { x with offset := 0 } = f x) → ∀ i,
      ((c.station i).map fun st => f st.config) = (b.station i).map fun st => f st.config := by
    intro α f hf i
    have hi := congrArg (Option.map f) (h i)
    rw [Option.map_map, Option.map_map] at hi
    simpa only [Function.comp_def, hf] using hi
  have hmembers : c.members g = b.members g := Bridge.members_congr g (hpart StationConfig.group fun _ => rfl)
  have hroles : c.isLeaderRole = b.isLeaderRole := by
    funext i
    have hrole := hpart (fun x => decide (x.role = .leader)) (fun _ => rfl) i
    unfold Bridge.isLeaderRole
    cases hc : c.station i <;> cases hb : b.station i <;> rw [hc, hb] at hrole <;> simp at hrole ⊢
    exact hrole
  have hleader : c.leader g = b.leader g := by
    unfold Bridge.leader
    rw [hmembers, hroles]
  unfold Bridge.masterSpeed
  rw [hleader]
  refine congrArg _ (funext fun i => ?_)
  have hspeed := hpart (fun x => (lastSlot slots x.address).map fun y => surfaceSpeed x.polarity y.speed.toInt)
    (fun _ => rfl) i
  cases hc : c.station i <;> cases hb : b.station i <;> rw [hc, hb] at hspeed <;> simp at hspeed ⊢
  exact hspeed

/-! ## Acts that neither step the tracker nor close an entry -/

/-- The records, the treatment and the Status frame leave the trip causes, the Event Queue and the groups up to the
master reference; the treatment alone touches the entries. -/
theorem CycleReaches.still {c : CycleContext} {acts : List CycleAct} {x y : Link × Bridge} (h : CycleReaches c acts x y)
    (ht : .tracker ∉ acts) (hb : ∀ i, .boundary i ∉ acts) :
    (y.2.trip = x.2.trip ∧ y.2.events = x.2.events ∧ y.2.eventsLost = x.2.eventsLost) ∧
      (∀ g, y.2.group g = { x.2.group g with masterRef := (y.2.group g).masterRef }) ∧
      (.treat ∉ acts → ∀ i, y.2.station i = x.2.station i) := by
  refine ⟨?_, fun g => ?_, fun htreat => ?_⟩
  · refine h.keeps (fun _ b => b.trip = x.2.trip ∧ b.events = x.2.events ∧ b.eventsLost = x.2.eventsLost)
      (fun _ _ _ _ hk => hk) (fun a ha l b hk => ?_) ⟨rfl, rfl, rfl⟩
    obtain ⟨htrip, hevents, hlost⟩ := hk
    obtain ⟨hevents', hlost', htrip'⟩ :=
      cycleAct_silent (c := c) (a := a) (fun e => ht (e ▸ ha)) (fun i e => hb i (e ▸ ha)) l b
    exact ⟨htrip'.trans htrip, hevents'.trans hevents, hlost'.trans hlost⟩
  · refine h.keeps (fun _ b => b.group g = { x.2.group g with masterRef := (b.group g).masterRef })
      (fun _ _ _ _ hk => hk) (fun a ha l b hk => ?_) rfl
    cases a with
    | tracker => exact absurd ha ht
    | boundary i => exact absurd ha (hb i)
    | record =>
      unfold cycleAct
      rw [Bridge.group_recordMasters]
      split
      · rw [hk]
      · exact hk
    | treat =>
      unfold cycleAct
      rw [Bridge.recordSent_group]
      exact hk
    | status => exact hk
  · refine h.keeps (fun _ b => ∀ i, b.station i = x.2.station i) (fun _ _ _ _ hk => hk) (fun a ha l b hk i => ?_) fun _ => rfl
    cases a with
    | tracker => exact absurd ha ht
    | boundary i => exact absurd ha (hb i)
    | record =>
      unfold cycleAct Bridge.recordMasters
      rw [Bridge.station_mapGroups]
      exact hk i
    | treat => exact absurd ha htreat
    | status => exact hk i

/-! ## The treatment and the Status frame in the order -/

/-- The order cut at the treatment and at the Status frame, whichever comes first. -/
theorem CycleOrder.treat_status {c : CycleContext} {order : List CycleAct} {x y : Link × Bridge}
    (h : CycleOrder c order x y) (ht : .treat ∈ order) (hs : .status ∈ order) :
    ∃ (untreated treating unshown showing : List CycleAct) (kb lc : Link × Bridge),
      order = untreated ++ .treat :: treating ∧ order = unshown ++ .status :: showing ∧
      CycleReaches c untreated x kb ∧ CycleReaches c (.treat :: treating) kb y ∧
      CycleReaches c unshown x lc ∧ CycleReaches c (.status :: showing) lc y ∧
      ((∃ between, unshown = untreated ++ .treat :: between ∧ CycleReaches c (.treat :: between) kb lc) ∨
        ∃ between, untreated = unshown ++ .status :: between) := by
  obtain ⟨first, last, horder⟩ := List.append_of_mem ht
  rw [horder] at hs
  obtain hfirst | hlast := List.mem_append.mp hs
  · obtain ⟨unshown, between, rfl⟩ := List.append_of_mem hfirst
    obtain ⟨lc, hunshown, hshowing⟩ := h.splits unshown (.status :: between ++ .treat :: last) (by simp [horder])
    obtain ⟨kb, hbetween, htreating⟩ := hshowing.split
    exact ⟨_, last, unshown, between ++ .treat :: last, kb, lc, horder, by simp [horder], hunshown.append hbetween,
      htreating, hunshown, hshowing, .inr ⟨between, rfl⟩⟩
  · obtain ⟨between, showing, rfl⟩ := List.append_of_mem ((List.mem_cons.mp hlast).resolve_left (by decide))
    obtain ⟨kb, huntreated, htreating⟩ := h.splits first (.treat :: between ++ .status :: showing) (by simp [horder])
    obtain ⟨lc, hbetween, hshowing⟩ := htreating.split
    exact ⟨first, between ++ .status :: showing, first ++ .treat :: between, showing, kb, lc, horder, by simp [horder],
      huntreated, htreating, huntreated.append hbetween, hshowing, .inl ⟨between, rfl, hbetween⟩⟩

theorem cycleReady_treat (rest : List CycleAct) : cycleReady rest .treat = true ↔ .tracker ∉ rest ∧ .record ∉ rest :=
  decide_eq_true_iff

theorem cycleReady_status (rest : List CycleAct) : cycleReady rest .status = true ↔ .tracker ∉ rest :=
  decide_eq_true_iff

/-- Where no entry closes, the tracker's step comes first of all. -/
theorem CycleOrder.tracker_first {c : CycleContext} {first rest : List CycleAct} {x y : Link × Bridge}
    (h : CycleOrder c (first ++ rest) x y) (hnodup : (first ++ rest).Nodup) (ht : .tracker ∈ first)
    (hb : ∀ i, .boundary i ∉ first ++ rest) :
    ∃ more, first = .tracker :: more ∧ .tracker ∉ more ∧ ∀ i, .boundary i ∉ more := by
  obtain ⟨before, more, rfl⟩ := List.append_of_mem ht
  rw [List.append_assoc, List.cons_append] at h hnodup
  have hbefore : before = [] := List.eq_nil_iff_forall_not_mem.mpr fun a ha => by
    obtain ⟨i, rfl⟩ := h.before_tracker hnodup ha
    exact hb i (by simp [ha])
  subst hbefore
  refine ⟨more, rfl, fun hm => ?_, fun i hm => hb i (by simp [hm])⟩
  exact (List.nodup_cons.mp hnodup).1 (List.mem_append_left _ hm)

/-- A step that does not lose sync, and acts after it that close no entry. -/
theorem CycleReaches.quiet {c : CycleContext} {more : List CycleAct} {l k : Link} {b d : Bridge}
    (h : CycleReaches c (.tracker :: more) (l, b) (k, d)) (ht : .tracker ∉ more) (hb : ∀ i, .boundary i ∉ more)
    (hsync : b.tracker.sync = .synced → d.tracker.sync = .synced) :
    d.trip = b.trip ∧ (∀ g, d.group g = { b.group g with masterRef := (d.group g).masterRef }) ∧
      (.treat ∉ more → ∀ i, d.station i = b.station i) := by
  obtain ⟨cs, n, h⟩ := h.first
  obtain ⟨b', hb'⟩ : ∃ b', b' = { b with choices := cs, choiceCount := n } := ⟨_, rfl⟩
  have hsame : b'.tracker = b.tracker ∧ b'.trip = b.trip ∧ (∀ g, b'.group g = b.group g) ∧ ∀ i, b'.station i = b.station i := by
    rw [hb']
    exact ⟨rfl, rfl, fun _ => rfl, fun _ => rfl⟩
  obtain ⟨htracker, htrip, hgroup, hstation⟩ := hsame
  rw [← hb'] at h
  have hdtracker : d.tracker = (b'.trackerStep c.previous c.number).tracker := h.tracker ht
  have hnotLost : b'.tracker.sync = .unsynced ∨ c.previous.map (· + 1#16) = some c.number ∨
      b'.tracker.slips c.previous c.number = true := by
    by_contra hlost
    obtain ⟨hsynced, hno⟩ := not_or.mp hlost
    have hs : b'.tracker.sync = .synced := by
      cases hs : b'.tracker.sync with
      | synced => rfl
      | unsynced => exact absurd hs hsynced
    obtain ⟨-, -, -, -, -, -, -, -, -, hloses⟩ := b'.trackerStep_spec c.previous c.number
    obtain ⟨-, hunsynced, -⟩ := hloses hs hno
    rw [← hdtracker, hsync (by rw [← htracker]; exact hs)] at hunsynced
    cases hunsynced
  obtain ⟨hwstations, hwgroups, hwtrip, -⟩ := Bridge.trackerStep_kept hnotLost
  obtain ⟨⟨hdtrip, -, -⟩, hdgroup, hdstation⟩ := h.still ht hb
  change d.trip = (b'.trackerStep c.previous c.number).trip at hdtrip
  change ∀ g, d.group g = { (b'.trackerStep c.previous c.number).group g with masterRef := (d.group g).masterRef }
    at hdgroup
  change .treat ∉ more → ∀ i, d.station i = (b'.trackerStep c.previous c.number).station i at hdstation
  refine ⟨hdtrip.trans (hwtrip.trans htrip), fun g => ?_, fun htreat i => ?_⟩
  · rw [← hgroup g, ← show (b'.trackerStep c.previous c.number).group g = b'.group g from by
      rw [Bridge.group, hwgroups, ← Bridge.group]]
    exact hdgroup g
  · exact (hdstation htreat i).trans ((Bridge.station_congr hwstations i).trans (hstation i))

/-- What stands after the treatment of the slots, and after the acts that follow it. -/
theorem CycleReaches.treated {c : CycleContext} {rest : List CycleAct} {k j : Link} {b m : Bridge}
    (h : CycleReaches c (.treat :: rest) (k, b) (j, m)) (hrest : .treat ∉ rest) :
    (k.sendDown (cycleFrame c.dst c.src c.number (c.slots.map b.treatSlot))).DriveKept j ∧
      (∀ i, m.treatments[i] = match b.station i with
        | some st => some (b.treatmentOf c.slots i st)
        | none => b.treatments[i]) ∧
      ∀ i, ((m.station i).map fun st => st.run.lastSent) =
        (b.station i).map fun st => lastSentOf (c.slots.map b.treatSlot) st := by
  obtain ⟨cs, n, h⟩ := h.first
  have hdrive := h.drive hrest
  obtain ⟨htreatments, hsent⟩ := h.sent hrest
  refine ⟨hdrive, fun i => ?_, fun i => ?_⟩
  · change m.treatments[i] = _
    rw [show m.treatments = _ from htreatments]
    exact Bridge.recordSent_treatments _ _ _ i
  · refine (hsent i).trans ?_
    change ((Bridge.recordSent _ _ _).station i).map _ = _
    rw [Bridge.recordSent_station, Option.map_map]
    rfl

/-- The treatment of the slots, with acts after it that close no entry, up to the Status frame. -/
theorem CycleReaches.treated_still {c : CycleContext} {rest : List CycleAct} {k j : Link} {b d : Bridge}
    (h : CycleReaches c (.treat :: rest) (k, b) (j, d)) (htreat : .treat ∉ rest) (hstatus : .status ∉ rest) :
    j.downCongestion = (k.sendDown (cycleFrame c.dst c.src c.number (c.slots.map b.treatSlot))).downCongestion ∧
      (.tracker ∉ rest → (∀ i, .boundary i ∉ rest) → ∀ i, d.station i =
        (b.station i).map fun st => { st with
          run := { st.run with lastSent := lastSentOf (c.slots.map b.treatSlot) st } }) := by
  obtain ⟨cs, n, h⟩ := h.first
  refine ⟨(h.latches hstatus).2 htreat, fun ht hb i => ?_⟩
  obtain ⟨-, -, hstation⟩ := h.still ht hb
  exact (hstation htreat i).trans (Bridge.recordSent_station _ _ _ i)

/-- What stands after the Status frame has been composed, and after the acts that follow it. -/
theorem CycleReaches.shown {c : CycleContext} {rest : List CycleAct} {l j : Link} {b m : Bridge}
    (h : CycleReaches c (.status :: rest) (l, b) (j, m)) (hrest : .status ∉ rest) :
    ((l.mapFlags PortFlag.carry).sendStatus (statusFrame c.address l b)).LineKept j := by
  obtain ⟨cs, n, h⟩ := h.first
  exact h.line hrest

/-- The master references after all the acts (R80). -/
theorem CycleOrder.masterRef {c : CycleContext} {order : List CycleAct} {x y : Link × Bridge} (h : CycleOrder c order x y)
    (hr : .record ∈ order) (hnodup : order.Nodup) (g : GroupIx) :
    (∀ v, x.2.masterSpeed c.slots g = some v → (y.2.group g).masterRef = some ⟨v, c.number⟩) ∧
      (x.2.masterSpeed c.slots g = none → (y.2.group g).masterRef = (x.2.group g).masterRef) := by
  obtain ⟨first, last, z, rfl, -, hfirst, hlast⟩ := h.cut hr
  rw [List.nodup_append, List.nodup_cons] at hnodup
  obtain ⟨-, ⟨hnotLast, -⟩, hcross⟩ := hnodup
  have hnotFirst : CycleAct.record ∉ first := fun hm => hcross _ hm _ List.mem_cons_self rfl
  obtain ⟨cs, n, hlast⟩ := hlast.first
  have hbefore : (z.2.group g).masterRef = (x.2.group g).masterRef := hfirst.masters hnotFirst g
  have hspeed : ({ z.2 with choices := cs, choiceCount := n } : Bridge).masterSpeed c.slots g = x.2.masterSpeed c.slots g :=
    Bridge.masterSpeed_of_configs (b := x.2) hfirst.cycleKeeps.configs c.slots g
  have hafter : (y.2.group g).masterRef =
      ((({ z.2 with choices := cs, choiceCount := n } : Bridge).recordMasters c.number c.slots).group g).masterRef :=
    hlast.masters hnotLast g
  rw [Bridge.group_recordMasters, hspeed] at hafter
  refine ⟨fun v hv => ?_, fun hnone => ?_⟩
  · rw [hv] at hafter
    exact hafter
  · rw [hnone] at hafter
    exact hafter.trans hbefore

/-- The last treatment of an entry (R79). -/
theorem Bridge.treatmentOf_cases {b : Bridge} {i : StationIx} {st : Station} (h : b.station i = some st)
    (slots : List Slot) :
    let alters := ∃ g, st.config.group = some g ∧ b.tracker.sync = .synced ∧ b.check.state = .running ∧
      b.release = true ∧ b.mask.getLsbD i.val = true ∧ b.mode g ≠ .none
    (lastSlot slots st.config.address = none → b.treatmentOf slots i st = .noSlot) ∧
      (lastSlot slots st.config.address ≠ none → alters → b.treatmentOf slots i st = .altered) ∧
      (lastSlot slots st.config.address ≠ none → ¬alters → b.treatmentOf slots i st = .passed) := by
  intro alters
  have halters : (b.alteringGroup i).isSome = true ↔ alters := by
    simp only [alters, ← b.mayAlter_iff]
    cases hg : st.config.group with
    | none => simp [Bridge.alteringGroup_free h hg]
    | some g =>
      rw [Bridge.alteringGroup_member h hg]
      by_cases hmay : b.mayAlter i g = true <;> simp [hmay]
  unfold Bridge.treatmentOf
  cases hslot : lastSlot slots st.config.address with
  | none => exact ⟨fun _ => rfl, fun hne => absurd rfl hne, fun hne => absurd rfl hne⟩
  | some x =>
    exact ⟨fun he => (by cases he), fun _ ha => if_pos (halters.mpr ha), fun _ ha => if_neg (mt halters.mp ha)⟩

end Sys2Proof.Machine

namespace Sys2Proof.Proofs

open Sys2Proof.Machine

/-- Settles O11. -/
theorem cycleFrameSendsSlotsAndStatus : Obligations.CycleFrameSendsSlotsAndStatus := by
  intro dst src n slots s hheld hsound h1 h48 ctx start quiet
  obtain ⟨t, order, m, hexec, -, hperm, hnodup, horder, hopened⟩ := exec_cycleFrameArrival_order hheld dst src n h1 h48
  change order.Perm (cycleActs ctx s.bridge) at hperm
  change CycleOrder ctx order start (t.link, m) at horder
  obtain ⟨htrackerMem, hrecordMem, htreatMem, hstatusMem⟩ := cycleActs_mem ctx s.bridge
  rw [← hperm.mem_iff] at htrackerMem hrecordMem htreatMem hstatusMem
  have hquiet : quiet → ∀ i, CycleAct.boundary i ∉ order := fun hq i hi => by
    obtain ⟨hprevious, st, hst, hopen⟩ := boundary_mem_cycleActs.mp (hperm.mem_iff.mp hi)
    exact hq.elim hprevious fun hall => hall i st hst hopen
  obtain ⟨untreated, treating, unshown, showing, ⟨k, b⟩, ⟨l, c⟩, htreatSplit, hstatusSplit, huntreated, htreating,
    hunshown, hshowing, hlayout⟩ := horder.treat_status htreatMem hstatusMem
  have htreatReady := horder.ready _ _ _ htreatSplit
  have hstatusReady := horder.ready _ _ _ hstatusSplit
  have htreatNodup := hnodup
  rw [htreatSplit, List.nodup_append, List.nodup_cons] at htreatNodup
  obtain ⟨-, ⟨htreatAfter, -⟩, htreatCross⟩ := htreatNodup
  have hstatusNodup := hnodup
  rw [hstatusSplit, List.nodup_append, List.nodup_cons] at hstatusNodup
  obtain ⟨-, ⟨hstatusAfter, -⟩, hstatusCross⟩ := hstatusNodup
  have htreatBefore : CycleAct.treat ∉ untreated := fun hm => htreatCross _ hm _ List.mem_cons_self rfl
  have hstatusBefore : CycleAct.status ∉ unshown := fun hm => hstatusCross _ hm _ List.mem_cons_self rfl
  obtain ⟨htrackerTreating, hrecordTreating⟩ : CycleAct.tracker ∉ .treat :: treating ∧ CycleAct.record ∉ .treat :: treating :=
    (cycleReady_treat _).mp htreatReady
  have htrackerShowing : CycleAct.tracker ∉ .status :: showing :=
    (cycleReady_status _).mp hstatusReady
  have htrackerUntreated : CycleAct.tracker ∈ untreated :=
    (List.mem_append.mp (htreatSplit ▸ htrackerMem)).resolve_right htrackerTreating
  have hrecordUntreated : CycleAct.record ∈ untreated :=
    (List.mem_append.mp (htreatSplit ▸ hrecordMem)).resolve_right hrecordTreating
  have htrackerUnshown : CycleAct.tracker ∈ unshown :=
    (List.mem_append.mp (hstatusSplit ▸ htrackerMem)).resolve_right htrackerShowing
  obtain ⟨httracker, htevents, htlost, -, -, -, -, -, -, httreatments⟩ := m.opened_keeps n
  have htgroup := fun g => m.opened_group n g
  have htstation := fun i => m.opened_station n i
  rw [← hopened] at httracker htevents htlost httreatments
  simp only [← hopened] at htgroup htstation
  have htmasters : ∀ g, (t.bridge.group g).masterRef = (m.group g).masterRef := fun g => by rw [htgroup]
  have hbtracker : b.tracker = t.bridge.tracker := (httracker.trans (htreating.tracker htrackerTreating)).symm
  have hctracker : c.tracker = t.bridge.tracker := (httracker.trans (hshowing.tracker htrackerShowing)).symm
  have hbmasters : ∀ g, (b.group g).masterRef = (t.bridge.group g).masterRef := fun g =>
    ((htmasters g).trans (htreating.masters hrecordTreating g)).symm
  have hkeepsStart : CycleKeeps s.bridge start.2 := CycleKeeps.withTracker _ _
  have hkeepsB : CycleKeeps s.bridge b := hkeepsStart.trans huntreated.cycleKeeps
  have hkeepsC : CycleKeeps s.bridge c := hkeepsStart.trans hunshown.cycleKeeps
  have hlayout : (∃ between, CycleAct.status ∉ untreated ∧ CycleAct.treat ∉ between ∧ CycleAct.status ∉ between ∧ CycleAct.tracker ∉ between ∧
      (∀ i, .boundary i ∈ between → .boundary i ∈ order) ∧ CycleReaches ctx (.treat :: between) (k, b) (l, c)) ∨
      CycleAct.treat ∉ unshown := by
    obtain ⟨between, hunshownEq, hbetween⟩ | ⟨between, huntreatedEq⟩ := hlayout
    · have hsub : (untreated ++ CycleAct.treat :: between).Nodup :=
        hunshownEq ▸ (List.nodup_append.mp (hstatusSplit ▸ hnodup)).1
      rw [List.nodup_append, List.nodup_cons] at hsub
      obtain ⟨-, ⟨htreatBetween, -⟩, hcross⟩ := hsub
      refine .inl ⟨between, fun hm => hstatusBefore (hunshownEq ▸ List.mem_append_left _ hm), htreatBetween, fun hm => hstatusBefore ?_, fun hm =>
        hcross _ htrackerUntreated _ (List.mem_cons_of_mem _ hm) rfl, fun i hm => ?_, hbetween⟩
      · rw [hunshownEq]
        simp [hm]
      · rw [hstatusSplit, hunshownEq]
        simp [hm]
    · exact .inr fun hm => htreatBefore (huntreatedEq ▸ List.mem_append_left _ hm)
  refine ⟨t, k, l, b, c, m, untreated, treating, unshown, showing, hexec, htreatSplit ▸ hperm,
    htreatSplit.symm.trans hstatusSplit, htrackerUntreated, hrecordUntreated, htrackerUnshown, huntreated, htreating,
    hunshown, hshowing, hopened, ?_, ?_, ?_, ?_, ?_⟩
  · exact ⟨hbtracker, hkeepsB.check, hkeepsB.mask, hkeepsB.release, hkeepsB.store, hkeepsB.records, hbmasters,
      hkeepsB.configs⟩
  · exact ⟨hctracker, hkeepsC.check, hkeepsC.release⟩
  · intro hq hsync
    obtain ⟨more, hmore, htrackerMore, hboundaryMore⟩ :=
      CycleOrder.tracker_first (htreatSplit ▸ horder) (htreatSplit ▸ hnodup) htrackerUntreated (htreatSplit ▸ hquiet hq)
    obtain ⟨shown, hshown, htrackerShown, hboundaryShown⟩ :=
      CycleOrder.tracker_first (hstatusSplit ▸ horder) (hstatusSplit ▸ hnodup) htrackerUnshown
        (hstatusSplit ▸ hquiet hq)
    have hboundaryShowing : ∀ i, CycleAct.boundary i ∉ .status :: showing := fun i hm =>
      hquiet hq i (hstatusSplit ▸ List.mem_append_right _ hm)
    obtain ⟨-, hbgroup, hbstation⟩ := (hmore ▸ huntreated).quiet htrackerMore hboundaryMore (hbtracker ▸ hsync)
    obtain ⟨hctrip, hcgroup, hcstation⟩ := (hshown ▸ hunshown).quiet htrackerShown hboundaryShown (hctracker ▸ hsync)
    obtain ⟨⟨-, hmevents, hmlost⟩, -, -⟩ := hshowing.still htrackerShowing hboundaryShowing
    have hbstation' : ∀ i, b.station i = s.bridge.station i :=
      hbstation fun hm => htreatBefore (hmore ▸ List.mem_cons_of_mem _ hm)
    refine ⟨fun g => hbmasters g ▸ hbgroup g, hbstation', hcgroup, fun i => ?_, hctrip,
      (htevents.trans hmevents).symm, (htlost.trans hmlost).symm⟩
    obtain ⟨between, -, htreatBetween, hstatusBetween, htrackerBetween, hboundaryBetween, hbetween⟩ | hfree := hlayout
    · obtain ⟨-, hstation⟩ := hbetween.treated_still htreatBetween hstatusBetween
      have h := hstation htrackerBetween (fun i hm => hquiet hq i (hboundaryBetween i hm)) i
      rw [hbstation'] at h
      exact .inr h
    · exact .inl (hcstation (fun hm => hfree (hshown ▸ List.mem_cons_of_mem _ hm)) i)
  · obtain ⟨hslip, hcongested⟩ := hunshown.latches hstatusBefore
    obtain ⟨-, herrorLine, herrorDrive, hup, hdiscarded⟩ := hunshown.line hstatusBefore
    refine ⟨herrorLine, herrorDrive, hup, hdiscarded, hslip, ?_⟩
    obtain ⟨between, hstatusUntreated, htreatBetween, hstatusBetween, -, -, hbetween⟩ | hfree := hlayout
    · obtain ⟨hl, -⟩ := hbetween.treated_still htreatBetween hstatusBetween
      obtain ⟨hkTx, hkQueue, -⟩ := huntreated.drive htreatBefore
      have hkDown : k.downCongestion = s.link.downCongestion := (huntreated.latches hstatusUntreated).2 htreatBefore
      change k.driveTx = s.link.driveTx at hkTx
      change k.driveQueue = s.link.driveQueue at hkQueue
      rw [hl, Link.sendDown_eq, hkTx, hkQueue]
      split_ifs with hidle hroom
      · exact .inl hkDown
      · exact .inl hkDown
      · exact .inr ⟨hidle, by omega, rfl⟩
    · exact .inl (hcongested hfree)
  · intro treated f
    obtain ⟨hkTx, hkQueue, -⟩ := huntreated.drive htreatBefore
    change k.driveTx = s.link.driveTx at hkTx
    change k.driveQueue = s.link.driveQueue at hkQueue
    obtain ⟨hbtreatments, -⟩ := huntreated.sent htreatBefore
    obtain ⟨hdrive, hmtreatments, hmsent⟩ := htreating.treated htreatAfter
    have hsend := k.sendDown_eq (cycleFrame ctx.dst ctx.src ctx.number (ctx.slots.map b.treatSlot))
    rw [hkTx, hkQueue] at hsend
    obtain ⟨htTx, htQueue, htDown⟩ := hdrive
    refine ⟨fun h => ?_, fun h hroom => ?_, fun h hfull => ?_, fun i y hy => ?_, fun i hi => ?_, fun g => ?_, ?_⟩
    · rw [if_pos h] at hsend
      rw [htTx, htQueue, hsend]
      exact ⟨rfl, hsound.driveIdle h⟩
    · rw [if_neg h, if_pos hroom] at hsend
      rw [htTx, htQueue, hsend]
      exact ⟨rfl, rfl⟩
    · rw [if_neg h, if_neg hfull.not_gt] at hsend
      rw [htTx, htQueue, htDown, hsend]
      exact ⟨rfl, rfl, rfl⟩
    · obtain ⟨y', hy', rfl⟩ := Option.map_eq_some_iff.mp ((htstation i).symm.trans hy)
      have hconfigs := htreating.cycleKeeps.configs i
      have hsent := hmsent i
      have htreated : t.bridge.treatments[i] = _ := (congrArg (·[i]) httreatments).trans (hmtreatments i)
      change ((m.station i).map fun st => { st.config with offset := 0 }) =
        (b.station i).map fun st => { st.config with offset := 0 } at hconfigs
      rw [hy', Option.map_some] at hconfigs hsent
      obtain ⟨st, hst, hconfig⟩ := Option.map_eq_some_iff.mp hconfigs.symm
      rw [hst, Option.map_some] at hsent
      rw [hst] at htreated
      have haddress : y'.config.address = st.config.address := (congrArg StationConfig.address hconfig).symm
      have hpolarity : y'.config.polarity = st.config.polarity := (congrArg StationConfig.polarity hconfig).symm
      have hgroup : y'.config.group = st.config.group := (congrArg StationConfig.group hconfig).symm
      obtain ⟨hnone, haltered, hpassed⟩ := Bridge.treatmentOf_cases hst slots
      simp only [haddress, hpolarity, hgroup]
      refine ⟨Option.some.inj hsent, fun h => ?_, fun h ha => ?_, fun h ha => ?_⟩
      · exact htreated.trans (congrArg some (hnone h))
      · exact htreated.trans (congrArg some (haltered h ha))
      · exact htreated.trans (congrArg some (hpassed h ha))
    · have hconfigs := htreating.cycleKeeps.configs i
      change ((m.station i).map fun st => { st.config with offset := 0 }) =
        (b.station i).map fun st => { st.config with offset := 0 } at hconfigs
      rw [Option.map_eq_none_iff.mp ((htstation i).symm.trans hi), Option.map_none, eq_comm, Option.map_eq_none_iff]
        at hconfigs
      have htreated : t.bridge.treatments[i] = _ := (congrArg (·[i]) httreatments).trans (hmtreatments i)
      rw [hconfigs] at htreated
      exact htreated.trans (congrArg (·[i]) hbtreatments)
    · obtain ⟨hsome, hnone⟩ := horder.masterRef hrecordMem hnodup g
      change ∀ v, s.bridge.masterSpeed slots g = some v → (m.group g).masterRef = some ⟨v, n⟩ at hsome
      change s.bridge.masterSpeed slots g = none → (m.group g).masterRef = (s.bridge.group g).masterRef at hnone
      have hspeed : (((s.bridge.leader g).bind s.bridge.station).bind fun st =>
          (lastSlot slots st.config.address).map fun x => surfaceSpeed st.config.polarity x.speed.toInt) =
            s.bridge.masterSpeed slots g := Option.bind_assoc _ _ _
      rw [htmasters, hspeed]
      cases hv : s.bridge.masterSpeed slots g with
      | some v => exact hsome v hv
      | none => exact hnone hv
    · intro status
      obtain ⟨⟨hforward, hlocal, hlineTx, hlast⟩, -⟩ := hunshown.line hstatusBefore
      obtain ⟨⟨htforward, htlocal, htlineTx, htlast⟩, -⟩ := hshowing.shown hstatusAfter
      have hsend := Link.sendStatus_eq ((hunshown.sound hsound).mapFlags PortFlag.carry) (statusFrame ctx.address l c)
      have hidleEq : (l.mapFlags PortFlag.carry).lineTx = s.link.lineTx := hlineTx
      rw [hidleEq] at hsend
      rw [htforward, htlineTx, htlast, htlocal]
      refine ⟨?_, fun h => ?_, fun h => ?_⟩
      · rw [hsend]
        split_ifs <;> exact hforward
      · rw [hsend, if_pos h]
        exact ⟨rfl, rfl, hlocal.trans (hsound.lineIdle h).2⟩
      · rw [hsend, if_neg h]
        refine ⟨rfl, hlast, ?_⟩
        change (l.localQueue.filter fun x => !x.isStatus) ++ _ = _
        rw [show l.localQueue = s.link.localQueue from hlocal]

end Sys2Proof.Proofs
end

section
/-! PROOFS. The operand lists (R186): every operand list is read back from its bytes, field by field, and a service of
one field takes the bytes of that field and no others. -/

namespace Sys2Proof.Machine

/-! ## Reading a list of fields -/

theorem Reader.guard_of {α : Type} {p : Prop} [Decidable p] (h : ¬p) (k : Reader α) (bytes : List Byte) :
    (do if p then failure
        k : Reader α) bytes = k bytes := by
  simp only [h, ite_false]

theorem decodeOperands_of_put {α : Type} {read : Reader α} {bytes : List Byte} {v : α}
    (h : ∀ rest, read (bytes ++ rest) = some (v, rest)) : decodeOperands read bytes = some v := by
  rw [decodeOperands_some]
  simpa using h []

/-! ## Fields by the kind of their range -/

/-- A small range takes one byte, whether it is written with its own bound or as a byte. -/
theorem readNat_putNat_byte {lo hi hi' v : Nat} (h : hi ≤ 255) (h' : hi' ≤ 255) (h1 : lo ≤ v) (h2 : v ≤ hi)
    (rest : List Byte) : readNat lo hi (putNat hi' v ++ rest) = some (v, rest) := by
  have hput : putNat hi' v = putByte v := by
    have hshape : fieldShape 0 hi' = fieldShape 0 255 := by
      simp [fieldShape, h']
    simp only [putByte, putNat, putInt]
    rw [hshape]
    rfl
  rw [hput]
  exact readNat_putByte h h1 h2 rest

theorem readNat_address {a : Byte} (h : 1 ≤ a.toNat ∧ a.toNat ≤ 120) (rest : List Byte) :
    readNat 1 120 (a :: rest) = some (a.toNat, rest) := by
  have hread := readNat_putByte (lo := 1) (hi := 120) (by omega) h.1 h.2 rest
  rwa [putByte_toNat] at hread

theorem readRole_put (r : Role) (rest : List Byte) : readEnum roles (putByte r.code ++ rest) = some (r, rest) := by
  cases r <;> exact readEnum_put rfl (by decide) rest

theorem readSign_put (p : Polarity) (rest : List Byte) :
    readInt (-1) 1 (putInt (-1) 1 (polarities p) ++ rest) = some (polarities p, rest) := by
  cases p <;> exact readInt_put rfl (by decide) (by decide) (by decide) rest

theorem readOverspeed_put {v : Nat} (h : 1000 ≤ v ∧ v ≤ 300000) (rest : List Byte) :
    readInt 1000 300000 (putNat 300000 v ++ rest) = some ((v : Int), rest) := by
  have hshape : fieldShape 1000 300000 = ⟨3, true⟩ := by decide
  refine readInt_put (by decide) ?_ (by omega) (by omega) rest
  rw [hshape]
  simp [FieldShape.holds]
  omega

theorem readOffset_put {v : Int} (h : -3000 ≤ v ∧ v ≤ 3000) (rest : List Byte) :
    readInt (-3000) 3000 (putInt (-3000) 3000 v ++ rest) = some (v, rest) := by
  have hshape : fieldShape (-3000) 3000 = ⟨2, true⟩ := by decide
  refine readInt_put rfl ?_ h.1 h.2 rest
  rw [hshape]
  simp [FieldShape.holds]
  omega

theorem readTarget_put {v : Int} (h : -300000 ≤ v ∧ v ≤ 300000) (rest : List Byte) :
    readInt (-300000) 300000 (putInt (-300000) 300000 v ++ rest) = some (v, rest) := by
  have hshape : fieldShape (-300000) 300000 = ⟨3, true⟩ := by decide
  refine readInt_put rfl ?_ h.1 h.2 rest
  rw [hshape]
  simp [FieldShape.holds]
  omega

theorem readStageKind_put (k : StageKind) (rest : List Byte) :
    readEnum stageKinds (putByte k.code ++ rest) = some (k, rest) := by
  cases k <;> exact readEnum_put rfl (by decide) rest

theorem readStageExit_put (e : StageExit) (rest : List Byte) :
    readEnum stageExits (putByte e.code ++ rest) = some (e, rest) := by
  cases e <;> exact readEnum_put rfl (by decide) rest

theorem readTrims_put (t : Bool) (rest : List Byte) :
    readEnum trimsValues (putByte (trimsCode t) ++ rest) = some (t, rest) := by
  cases t <;> exact readEnum_put rfl (by decide) rest

theorem readFaultAction_put (a : FaultAction) (rest : List Byte) :
    readEnum faultActions (putByte a.code ++ rest) = some (a, rest) := by
  cases a <;> exact readEnum_put rfl (by decide) rest

theorem readStageNext_put (n : StageNext) (rest : List Byte) :
    readEnum stageNexts (putByte n.code ++ rest) = some (n, rest) := by
  cases n <;> exact readEnum_put rfl (by decide) rest

theorem readProbeMode_put (m : ProbeMode) (rest : List Byte) :
    readEnum probeModes (putByte m.code ++ rest) = some (m, rest) := by
  cases m <;> exact readEnum_put rfl (by decide) rest

theorem readProbe_put (p : ProbeId) (rest : List Byte) : readProbe (putByte p.code ++ rest) = some (p, rest) := by
  unfold readProbe
  cases p <;> rw [Reader.bind_of (readNat_putByte (by omega) (by decide) (by decide) rest)] <;> rfl

theorem readIndex_put (i : Fin 128) (rest : List Byte) :
    readNat 0 127 (putByte i.val ++ rest) = some (i.val, rest) :=
  readNat_putByte (by omega) (by omega) (by omega) rest

/-! ## The operand lists -/

theorem readStw_put {o : StwOperands} (h : o.InRange) (rest : List Byte) : readStw (o.bytes ++ rest) = some (o, rest) := by
  obtain ⟨haddress, hshare, hclamp, hheadroom, hwindow, hoverspeed, hlimit, htotal, hown, hoffset⟩ := h
  obtain ⟨index, ⟨address, group, role, share, polarity, clamp, headroom, window, overspeed, limit, hold, own⟩, offset⟩ := o
  simp only at haddress hshare hclamp hheadroom hwindow hoverspeed hlimit htotal hown hoffset
  have hsign : ¬polarities polarity = 0 := by cases polarity <;> decide
  have hpolarity : (if polarities polarity = 1 then Polarity.plus else .minus) = polarity := by cases polarity <;> rfl
  simp only [StwOperands.bytes, List.append_assoc, readStw]
  rw [Reader.bind_of (readStation_put index _), List.singleton_append, Reader.bind_of (readNat_address haddress _),
    Reader.bind_of (readGroupOrNone_put group _), Reader.bind_of (readRole_put role _),
    Reader.bind_of (readNat_putWord (by omega) (by omega) (by omega) (by omega) (by omega) hshare _),
    Reader.bind_of (readSign_put polarity _), Reader.guard_of hsign,
    Reader.bind_of (readNat_putWord (by omega) (by omega) (by omega) (by omega) hclamp.1 hclamp.2 _),
    Reader.bind_of (readNat_putWord (by omega) (by omega) (by omega) (by omega) (by omega) hheadroom.2 _),
    Reader.guard_of (by omega),
    Reader.bind_of (readNat_putWord (by omega) (by omega) (by omega) (by omega) (by omega) hwindow _),
    Reader.bind_of (readOverspeed_put hoverspeed _),
    Reader.bind_of (readNat_putByte (by omega) hlimit.1 hlimit.2 _),
    Reader.bind_of (readNat_putByte (by omega) (by omega) (by omega) _), Reader.guard_of (by omega),
    Reader.bind_of (readOpt_put rest fun v hv => readOffset_put (hoffset v hv) rest), Reader.pure_of,
    hpolarity, BitVec.ofNat_toNat, BitVec.setWidth_eq, Int.toNat_natCast, hown]

theorem readGrw_put {o : GrwOperands} (h : o.InRange) (rest : List Byte) : readGrw (o.bytes ++ rest) = some (o, rest) := by
  obtain ⟨hgain, htrim, hfloor, hshare, hfight, hreference, htarget, hdraw, halarm, htotal, habort, hblend, hfirst,
    hlength⟩ := h
  simp only [GrwOperands.bytes, List.append_assoc, readGrw]
  rw [Reader.bind_of (readGroup_put o.group _),
    Reader.bind_of (readNat_putByte (by omega) (by omega) hgain _),
    Reader.bind_of (readNat_putWord (by omega) (by omega) (by omega) (by omega) (by omega) htrim _),
    Reader.bind_of (readNat_putWord (by omega) (by omega) (by omega) (by omega) (by omega) hfloor _),
    Reader.bind_of (readNat_putWord (by omega) (by omega) (by omega) (by omega) hshare.1 hshare.2 _),
    Reader.bind_of (readNat_putWord (by omega) (by omega) (by omega) (by omega) (by omega) hfight _),
    Reader.bind_of (readOpt_put _ fun g _ => readGroup_put g _), Reader.guard_of hreference,
    Reader.bind_of (readOpt_put _ fun v hv =>
      readNat_putWord (by omega) (by omega) (by omega) (by omega) (htarget v hv).1 (htarget v hv).2 _),
    Reader.bind_of (readNat_putWord (by omega) (by omega) (by omega) (by omega) hdraw.1 hdraw.2 _),
    Reader.bind_of (readNat_putByte (by omega) halarm.1 halarm.2 _),
    Reader.bind_of (readNat_putByte (by omega) (by omega) (by omega) _), Reader.guard_of (by omega),
    Reader.bind_of (readNat_putWord (by omega) (by omega) (by omega) (by omega) habort.1 habort.2 _),
    Reader.bind_of (readNat_putWord (by omega) (by omega) (by omega) (by omega) (by omega) hblend _),
    Reader.bind_of (readNat_putByte (by omega) (by omega) hfirst _),
    Reader.bind_of (readNat_putByte (by omega) hlength.1 hlength.2 _), Reader.pure_of]

theorem readSgw_put {o : SgwOperands} (h : o.InRange) (rest : List Byte) : readSgw (o.bytes ++ rest) = some (o, rest) := by
  obtain ⟨htarget, hramp, hdwell, hcap, hsettle, hprobe, hripple, hretries, hexc, hallowed, hzero⟩ := h
  have hstored : ¬(!o.record.allowed || o.record.zeroDwell) = true := by simp [hallowed, hzero]
  simp only [SgwOperands.bytes, List.append_assoc, readSgw]
  rw [Reader.bind_of (readIndex_put o.index _), Reader.bind_of (readStageKind_put o.record.kind _),
    Reader.bind_of (readOpt_put _ fun v hv => readTarget_put (htarget v hv) _),
    Reader.bind_of (readOpt_put _ fun v hv =>
      readNat_putWord (by omega) (by omega) (by omega) (by omega) (hramp v hv).1 (hramp v hv).2 _),
    Reader.bind_of (readOpt_put _ fun v hv =>
      readNat_putWord (by omega) (by omega) (by omega) (by omega) (by omega) (hdwell v hv) _),
    Reader.bind_of (readOpt_put _ fun e _ => readStageExit_put e _),
    Reader.bind_of (readOpt_put _ fun t _ => readTrims_put t _),
    Reader.bind_of (readOpt_put _ fun v hv =>
      readNat_putWord (by omega) (by omega) (by omega) (by omega) (by omega) (hcap v hv) _),
    Reader.bind_of (readOpt_put _ fun v hv =>
      readNat_putWord (by omega) (by omega) (by omega) (by omega) (hsettle v hv).1 (hsettle v hv).2 _),
    Reader.bind_of (readOpt_put _ fun v hv =>
      readNat_putWord (by omega) (by omega) (by omega) (by omega) (hprobe v hv).1 (hprobe v hv).2 _),
    Reader.bind_of (readOpt_put _ fun v hv =>
      readNat_putWord (by omega) (by omega) (by omega) (by omega) (hripple v hv).1 (hripple v hv).2 _),
    Reader.bind_of (readOpt_put _ fun v hv =>
      readNat_putNat_byte (by omega) (by omega) (by omega) (hretries v hv) _),
    Reader.bind_of (readOpt_put _ fun a _ => readFaultAction_put a _),
    Reader.bind_of (readOpt_put _ fun v hv => readNat_putNat_byte (by omega) (by omega) (by omega) (hexc v hv) _),
    Reader.bind_of (readOpt_put rest fun n _ => readStageNext_put n rest), Reader.guard_of hstored, Reader.pure_of,
    Fin.ofNat_eq_cast, Fin.cast_val_eq_self]

theorem readSgr_put (o : SgrOperands) (rest : List Byte) : readSgr (o.bytes ++ rest) = some (o, rest) := by
  simp only [SgrOperands.bytes, List.append_assoc, readSgr]
  rw [Reader.bind_of (readIndex_put o.index _), Reader.bind_of (readOpt_put rest fun g _ => readGroup_put g rest),
    Reader.pure_of, Fin.ofNat_eq_cast, Fin.cast_val_eq_self]

theorem readPbs_put {o : PbsOperands} (h : 16 ≤ o.window ∧ o.window ≤ 1024) (rest : List Byte) :
    readPbs (o.bytes ++ rest) = some (o, rest) := by
  simp only [PbsOperands.bytes, putStation, List.append_assoc, readPbs]
  rw [Reader.bind_of (readProbe_put o.probe _), Reader.bind_of (readStation_put o.station _),
    Reader.bind_of (readNat_putWord (by omega) (by omega) (by omega) (by omega) h.1 h.2 _),
    Reader.bind_of (readProbeMode_put o.mode rest), Reader.pure_of]

/-! ## Operand lists of one field -/

/-- A number that is turned into a value: the value's list is the list of a number that gives it. -/
theorem decodeOperands_map {α β : Type} (read : Reader α) (f : α → β) (ops : List Byte) (v : β) :
    decodeOperands (do let a ← read; return f a) ops = some v ↔ ∃ a, decodeOperands read ops = some a ∧ f a = v := by
  rw [decodeOperands_some, Reader.bind_some]
  constructor
  · rintro ⟨a, rest, hread, hpure⟩
    obtain ⟨rfl, rfl⟩ := Prod.mk.inj ((Reader.pure_some _ _ _).mp hpure)
    exact ⟨a, decodeOperands_some.mpr hread, rfl⟩
  · rintro ⟨a, hread, rfl⟩
    exact ⟨a, [], decodeOperands_some.mp hread, Reader.pure_of _ _⟩

theorem natOfBytes_singleton_iff {ops : List Byte} {n : Nat} (hn : n ≤ 255) :
    ops.length = 1 ∧ natOfBytes ops = n ↔ ops = [BitVec.ofNat 8 n] := by
  constructor
  · rintro ⟨hlen, hval⟩
    obtain ⟨b, rfl⟩ := List.length_eq_one_iff.mp hlen
    have hb : b.toNat = n := by simpa [natOfBytes] using hval
    rw [← hb, BitVec.ofNat_toNat, BitVec.setWidth_eq]
  · rintro rfl
    refine ⟨rfl, ?_⟩
    simp [natOfBytes]
    omega

theorem natOfBytes_be16_iff {ops : List Byte} {v : BitVec 16} :
    ops.length = 2 ∧ natOfBytes ops = v.toNat ↔ ops = be16 v := by
  have hv := v.isLt
  constructor
  · rintro ⟨hlen, hval⟩
    obtain ⟨h, l, rfl⟩ := List.length_eq_two.mp hlen
    rw [natOfBytes_pair] at hval
    have hh := h.isLt
    have hl := l.isLt
    simp only [be16, List.cons.injEq, and_true]
    constructor <;> apply BitVec.eq_of_toNat_eq <;>
      simp only [BitVec.extractLsb'_toNat, Nat.shiftRight_eq_div_pow] <;> omega
  · rintro rfl
    refine ⟨rfl, ?_⟩
    simp only [be16, natOfBytes_pair, BitVec.extractLsb'_toNat, Nat.shiftRight_eq_div_pow]
    omega

theorem natOfBytes_be32_iff {ops : List Byte} {v : BitVec 32} :
    ops.length = 4 ∧ natOfBytes ops = v.toNat ↔ ops = be32 v := by
  constructor
  · rintro ⟨hlen, hval⟩
    obtain ⟨b3, b2, b1, b0, rfl⟩ : ∃ b3 b2 b1 b0, ops = [b3, b2, b1, b0] := by
      match ops, hlen with
      | [b3, b2, b1, b0], _ => exact ⟨b3, b2, b1, b0, rfl⟩
    have heq : b3 ++ b2 ++ b1 ++ b0 = v := by
      apply BitVec.eq_of_toNat_eq
      rw [← hval, ← be32_append, natOfBytes_be32]
    rw [← heq, be32_append]
  · rintro rfl
    exact ⟨rfl, natOfBytes_be32 v⟩

/-- A field of one byte is its number. -/
theorem decodeOperands_readNat_byte_iff {lo hi : Nat} (h : hi ≤ 255) (ops : List Byte) (n : Nat) :
    decodeOperands (readNat lo hi) ops = some n ↔ lo ≤ n ∧ n ≤ hi ∧ ops = [BitVec.ofNat 8 n] := by
  have hshape : fieldShape lo hi = ⟨1, false⟩ := by
    unfold fieldShape
    rw [if_pos (by omega)]
  rw [decodeOperands_readNat_iff hshape]
  constructor
  · rintro ⟨hlen, hval, hlo, hhi⟩
    exact ⟨hlo, hhi, (natOfBytes_singleton_iff (by omega)).mp ⟨hlen, hval⟩⟩
  · rintro ⟨hlo, hhi, hops⟩
    obtain ⟨hlen, hval⟩ := (natOfBytes_singleton_iff (by omega)).mpr hops
    exact ⟨hlen, hval, hlo, hhi⟩

/-- A field of two unsigned bytes is its number. -/
theorem decodeOperands_readNat_word_iff {lo hi : Nat} (h1 : 255 < hi) (h2 : hi ≤ 65535) (ops : List Byte) (n : Nat) :
    decodeOperands (readNat lo hi) ops = some n ↔ lo ≤ n ∧ n ≤ hi ∧ ops = be16 (BitVec.ofNat 16 n) := by
  rw [decodeOperands_readNat_iff (fieldShape_word h1 h2), ← natOfBytes_be16_iff, BitVec.toNat_ofNat]
  constructor
  · rintro ⟨hlen, hval, hlo, hhi⟩
    exact ⟨hlo, hhi, hlen, by rw [hval, Nat.mod_eq_of_lt (by omega)]⟩
  · rintro ⟨hlo, hhi, hlen, hval⟩
    rw [Nat.mod_eq_of_lt (by omega)] at hval
    exact ⟨hlen, hval, hlo, hhi⟩

/-- An enumerated field is the place of its value. -/
theorem decodeOperands_readEnum_iff {α : Type} (values : List α) (ops : List Byte) (v : α) :
    decodeOperands (readEnum values) ops = some v ↔ ∃ b : Byte, ops = [b] ∧ values[b.toNat]? = some v := by
  rw [decodeOperands_some]
  cases ops with
  | nil => simp [readEnum]
  | cons b rest => simp [readEnum, and_comm]

theorem decodeOperands_readStation_iff (ops : List Byte) (i : StationIx) :
    decodeOperands readStation ops = some i ↔ ops = [BitVec.ofNat 8 i.val] := by
  rw [readStation, decodeOperands_map]
  constructor
  · rintro ⟨n, hread, rfl⟩
    obtain ⟨-, hhi, hops⟩ := (decodeOperands_readNat_byte_iff (by omega) _ _).mp hread
    rw [hops, Fin.val_ofNat, Nat.mod_eq_of_lt (by omega)]
  · intro hops
    exact ⟨i.val, (decodeOperands_readNat_byte_iff (by omega) _ _).mpr ⟨by omega, by omega, hops⟩, by simp⟩

theorem decodeOperands_readGroup_iff (ops : List Byte) (g : GroupIx) :
    decodeOperands readGroup ops = some g ↔ ops = [BitVec.ofNat 8 (g.val + 1)] := by
  rw [readGroup, decodeOperands_map]
  constructor
  · rintro ⟨n, hread, rfl⟩
    obtain ⟨hlo, hhi, hops⟩ := (decodeOperands_readNat_byte_iff (by omega) _ _).mp hread
    rw [hops, Fin.val_ofNat, Nat.mod_eq_of_lt (by omega), Nat.sub_add_cancel hlo]
  · intro hops
    exact ⟨g.val + 1, (decodeOperands_readNat_byte_iff (by omega) _ _).mpr ⟨by omega, by omega, hops⟩, by simp⟩

theorem decodeOperands_readProbe_iff (ops : List Byte) (p : ProbeId) :
    decodeOperands readProbe ops = some p ↔ ops = [BitVec.ofNat 8 p.code] := by
  rw [readProbe, decodeOperands_map]
  constructor
  · rintro ⟨n, hread, rfl⟩
    obtain ⟨hlo, hhi, hops⟩ := (decodeOperands_readNat_byte_iff (by omega) _ _).mp hread
    obtain rfl | rfl : n = 1 ∨ n = 2 := by omega
    · exact hops
    · exact hops
  · intro hops
    refine ⟨p.code, (decodeOperands_readNat_byte_iff (by omega) _ _).mpr ⟨?_, ?_, hops⟩, ?_⟩ <;> cases p <;> decide

theorem decodeOperands_readAnswer_iff (ops : List Byte) (v : BitVec 16) :
    decodeOperands readAnswer ops = some v ↔ ops = be16 v := by
  rw [readAnswer, decodeOperands_map]
  constructor
  · rintro ⟨n, hread, rfl⟩
    exact ((decodeOperands_readNat_word_iff (by omega) (by omega) _ _).mp hread).2.2
  · intro hops
    refine ⟨v.toNat, (decodeOperands_readNat_word_iff (by omega) (by omega) _ _).mpr ⟨by omega, by omega, ?_⟩, ?_⟩
    · rw [hops, BitVec.ofNat_toNat, BitVec.setWidth_eq]
    · rw [BitVec.ofNat_toNat, BitVec.setWidth_eq]

theorem decodeOperands_readMask_iff (ops : List Byte) (m : BitVec 32) :
    decodeOperands readMask ops = some m ↔ ops = be32 m := by
  constructor
  · intro h
    rw [readMask, decodeOperands_map] at h
    obtain ⟨n, hread, rfl⟩ := h
    obtain ⟨hlen, hval, -, hhi⟩ := (decodeOperands_readNat_iff (width := 4) rfl _ _).mp hread
    refine natOfBytes_be32_iff.mp ⟨hlen, ?_⟩
    rw [hval, BitVec.toNat_ofNat, Nat.mod_eq_of_lt (by omega)]
  · rintro rfl
    exact decodeOperands_readMask m

theorem decodeOperands_readScope_iff (ops : List Byte) (c : Scope) :
    decodeOperands readScope ops = some c ↔ ops = [BitVec.ofNat 8 c.code] := by
  rw [readScope, decodeOperands_readEnum_iff]
  constructor
  · rintro ⟨b, rfl, hplace⟩
    obtain ⟨hlt, hvalue⟩ := List.getElem?_eq_some_iff.mp hplace
    have hcode : c.code = b.toNat := by
      rw [← hvalue]
      have hb : b.toNat = 0 ∨ b.toNat = 1 := by
        simp only [scopes, List.length_cons, List.length_nil] at hlt
        omega
      obtain hb | hb := hb <;> simp only [hb] <;> rfl
    rw [hcode, BitVec.ofNat_toNat, BitVec.setWidth_eq]
  · intro hops
    refine ⟨_, hops, ?_⟩
    cases c <;> rfl

end Sys2Proof.Machine

namespace Sys2Proof.Proofs

open Sys2Proof.Machine

/-- Settles O54: each operand list is read back from its bytes, and each single operand from its own bytes alone. -/
theorem operandsDecodeAsEncoded : Obligations.OperandsDecodeAsEncoded := by
  refine ⟨fun o h => decodeOperands_of_put (readStw_put h), fun o h => decodeOperands_of_put (readGrw_put h),
    fun o h => decodeOperands_of_put (readSgw_put h), fun o => decodeOperands_of_put (readSgr_put o),
    fun o hlo hhi => decodeOperands_of_put (readPbs_put ⟨hlo, hhi⟩), fun ops =>
      ⟨decodeOperands_readStation_iff ops, decodeOperands_readGroup_iff ops, fun p => ?_,
        decodeOperands_readNat_word_iff (by omega) (by omega) ops, decodeOperands_readAnswer_iff ops,
        decodeOperands_readMask_iff ops, decodeOperands_readNat_byte_iff (by omega) ops,
        decodeOperands_readNat_byte_iff (by omega) ops, fun c => ?_⟩⟩
  · cases p <;> exact decodeOperands_readProbe_iff ops _
  · cases c <;> exact decodeOperands_readScope_iff ops _

end Sys2Proof.Proofs
end

section
/-! PROOFS. Arrivals and their bytes (R1 to R3, R169, R170): a frame is judged from its own bytes, and a command that a
frame brings is the command that its frame's bytes spell. -/

namespace Sys2Proof

/-! ## Numbers as bytes -/

theorem be16_toNat (v : BitVec 16) :
    256 * (v.extractLsb' 8 8).toNat + (v.extractLsb' 0 8).toNat = v.toNat := by
  have hv := v.isLt
  simp only [BitVec.extractLsb'_toNat, Nat.shiftRight_eq_div_pow]
  omega

theorem extract_be16 (v : BitVec 16) : v.extractLsb' 8 8 ++ v.extractLsb' 0 8 = v := by
  ext i hi
  simp only [BitVec.getElem_append, BitVec.getElem_extractLsb']
  grind

theorem extract_be24 (v : BitVec 24) : v.extractLsb' 16 8 ++ v.extractLsb' 8 8 ++ v.extractLsb' 0 8 = v := by
  ext i hi
  simp only [BitVec.getElem_append, BitVec.getElem_extractLsb']
  grind

/-! ## Judging a frame (R1, R185) -/

theorem Frame.ofBytes_bytes {f : Frame} (hfits : f.body.length ≤ 65535) (hpasses : f.bodyPasses = true) :
    Frame.ofBytes f.bytes = some f := by
  obtain ⟨dst, src, kind, body⟩ := f
  simp only at hfits
  have hlength := be16_toNat (BitVec.ofNat 16 body.length)
  rw [BitVec.toNat_ofNat, Nat.mod_eq_of_lt (by omega)] at hlength
  simp only [Frame.bytes, Frame.header, be16, List.cons_append, List.nil_append, Frame.ofBytes, hlength]
  rw [List.take_left, List.drop_left, if_pos ⟨by simp, rfl, hpasses⟩]

/-- A frame that passes its check is the command of its port (R2, R3). -/
theorem arrivalCommand_bytes {f : Frame} (hfits : f.body.length ≤ 65535) (hpasses : f.bodyPasses = true)
    (address : Byte) (waiting : Nat) (port : Port) :
    arrivalCommand address false waiting port f.bytes =
      match port with
      | .line => lineCommand address waiting f
      | .drive => driveCommand f := by
  cases port <;> simp [arrivalCommand, Frame.ofBytes_bytes hfits hpasses]

/-! ## Cycle Frames (12.2) -/

theorem Slot.length_bytes (x : Slot) : x.bytes.length = 8 := rfl

theorem length_flatMap_slotBytes (slots : List Slot) : (slots.flatMap Slot.bytes).length = 8 * slots.length := by
  simp [List.length_flatMap, Slot.length_bytes, Nat.mul_comm]

theorem slotsOfBytes_bytes_append (x : Slot) (rest : List Byte) :
    slotsOfBytes (x.bytes ++ rest) = x :: slotsOfBytes rest := by
  simp only [Slot.bytes, be24, be16, List.cons_append, List.nil_append, slotsOfBytes, extract_be24, extract_be16]

theorem slotsOfBytes_flatMap (slots : List Slot) : slotsOfBytes (slots.flatMap Slot.bytes) = slots := by
  induction slots with
  | nil => rfl
  | cons x slots ih => rw [List.flatMap_cons, slotsOfBytes_bytes_append, ih]

section
variable (dst src : Byte) (number : CycleNo) {slots : List Slot}

theorem length_body_cycleFrame : (cycleFrame dst src number slots).body.length = 3 + 8 * slots.length := by
  simp only [cycleFrame, be16, List.length_append, List.length_cons, List.length_nil, length_flatMap_slotBytes]

theorem bodyPasses_cycleFrame (h : 1 ≤ slots.length ∧ slots.length ≤ 48) :
    (cycleFrame dst src number slots).bodyPasses = true := by
  have hcount : (BitVec.ofNat 8 slots.length).toNat = slots.length := by
    rw [BitVec.toNat_ofNat, Nat.mod_eq_of_lt (by omega)]
  simp only [Frame.bodyPasses, cycleFrame, be16, List.cons_append, List.nil_append, if_true, hcount,
    length_flatMap_slotBytes, h, and_self, decide_true]

theorem lineCommand_cycleFrame (address : Byte) (waiting : Nat) :
    lineCommand address waiting (cycleFrame dst src number slots) = .cycleFrameArrival dst src number slots := by
  simp only [lineCommand, cycleFrame, be16, List.cons_append, List.nil_append, if_true, slotsOfBytes_flatMap,
    extract_be16]

end

/-! ## Feedback Frames (12.3) -/

theorem driveCommand_feedbackFrame (dst src : Byte) (number : CycleNo) (speed : BitVec 24) (torque : BitVec 16)
    (status tag : Byte) :
    driveCommand (feedbackFrame dst src number speed torque status tag) =
      .feedbackFrameArrival dst src number speed torque status tag := by
  simp only [driveCommand, feedbackFrame, be16, be24, List.cons_append, List.nil_append, if_true, extract_be16,
    extract_be24]

/-! ## Requests (12.4, R169, R170) -/

/-- The body of a service's Request names that service, and an unknown service's names none. -/
theorem knownRequest_request {i : Instr} {src : Byte} {body : List Byte} (hwell : i.wellFormed = true)
    (h : i.request = some (src, body)) : (knownRequest src body).getD (.unknownService src body) = i := by
  cases i with
  | unknownService src' body' =>
    cases h
    simp only [Instr.wellFormed, Bool.and_eq_true, decide_eq_true_eq, Option.isNone_iff_eq_none] at hwell
    obtain ⟨-, hunknown⟩ := hwell
    rw [hunknown, Option.getD_none]
  | cycleFrameArrival | feedbackFrameArrival | frameForwarded | frameError | frameDiscardedResetPending
  | requestDiscarded | drivePortTransmissionEnd | linePortTransmissionEnd | cycleLossExpiry | checkDeadlineExpiry
  | releaseFall | releaseRise | pinResetAssert | pinResetRelease => cases h
  | _ => cases h; rfl

theorem length_request {i : Instr} {src : Byte} {body : List Byte} (hwell : i.wellFormed = true)
    (h : i.request = some (src, body)) : body.length ≤ 65535 := by
  cases i with
  | unknownService src' body' =>
    cases h
    simp only [Instr.wellFormed, Bool.and_eq_true, decide_eq_true_eq] at hwell
    obtain ⟨hfits, -⟩ := hwell
    exact hfits
  | cycleFrameArrival | feedbackFrameArrival | frameForwarded | frameError | frameDiscardedResetPending
  | requestDiscarded | drivePortTransmissionEnd | linePortTransmissionEnd | cycleLossExpiry | checkDeadlineExpiry
  | releaseFall | releaseRise | pinResetAssert | pinResetRelease => cases h
  | _ => cases h; exact of_decide_eq_true hwell

theorem requestFrame_kind_ne (address src : Byte) (body : List Byte) :
    (requestFrame address src body).kind ≠ kindCycle ∧ (requestFrame address src body).kind ≠ kindFeedback :=
  (by decide : kindRequest ≠ kindCycle ∧ kindRequest ≠ kindFeedback)

theorem lineCommand_requestFrame (address src : Byte) (body : List Byte) (waiting : Nat) (h : waiting < 4) :
    lineCommand address waiting (requestFrame address src body) =
      (knownRequest src body).getD (.unknownService src body) := by
  have hroom : ¬Config.replyCapacity ≤ waiting := Nat.not_le.mpr h
  rw [lineCommand, if_neg (requestFrame_kind_ne address src body).1, if_pos ⟨rfl, rfl⟩, requestCommand, if_neg hroom]
  rfl

/-- A command that carries a Request is what the Request's bytes spell at its bridge. -/
theorem arrivalCommand_requestFrame {i : Instr} {address : Byte} {waiting : Nat} {port : Port} {f : Frame}
    (hwell : i.wellFormed = true) (hroom : waiting < 4)
    (h : i.request.map (fun r => (Port.line, requestFrame address r.1 r.2)) = some (port, f)) :
    arrivalCommand address false waiting port f.bytes = i := by
  obtain ⟨⟨src, body⟩, hrequest, hframe⟩ := Option.map_eq_some_iff.mp h
  obtain ⟨rfl, rfl⟩ := Prod.mk.inj hframe
  have hpasses : (requestFrame address src body).bodyPasses = true := by
    obtain ⟨hcycle, hfeedback⟩ := requestFrame_kind_ne address src body
    rw [Frame.bodyPasses, if_neg hcycle, if_neg hfeedback]
  rw [arrivalCommand_bytes (length_request hwell hrequest) hpasses, lineCommand_requestFrame _ _ _ _ hroom,
    knownRequest_request hwell hrequest]

/-! ## Forwarded frames (R2, R3) -/

theorem lineCommand_forwarded {address : Byte} {f : Frame} (hkind : f.kind ≠ kindCycle)
    (hother : ¬(f.kind = kindRequest ∧ f.dst = address)) (waiting : Nat) :
    lineCommand address waiting f = .frameForwarded .line f := by
  rw [lineCommand, if_neg hkind, if_neg hother]

theorem driveCommand_forwarded {f : Frame} (hkind : f.kind ≠ kindFeedback) :
    driveCommand f = .frameForwarded .drive f := by
  rw [driveCommand, if_neg hkind]

theorem arrivalCommand_forwarded {address : Byte} {port : Port} {f : Frame}
    (hwell : (Instr.frameForwarded port f).wellFormed = true)
    (hother : port = .line → ¬(f.kind = kindRequest ∧ f.dst = address)) (waiting : Nat) :
    arrivalCommand address false waiting port f.bytes = .frameForwarded port f := by
  cases port with
  | line =>
    simp only [Instr.wellFormed, Bool.and_eq_true, decide_eq_true_eq] at hwell
    obtain ⟨⟨hfits, hkind⟩, hpasses⟩ := hwell
    rw [arrivalCommand_bytes hfits hpasses]
    exact lineCommand_forwarded hkind (hother rfl) waiting
  | drive =>
    simp only [Instr.wellFormed, Bool.and_eq_true, decide_eq_true_eq] at hwell
    obtain ⟨⟨hfits, hkind⟩, hpasses⟩ := hwell
    rw [arrivalCommand_bytes hfits hpasses]
    exact driveCommand_forwarded hkind

end Sys2Proof

namespace Sys2Proof.Proofs

/-- Settles O55: a frame is read back from its bytes, and the command that brings it is read from them. -/
theorem arrivalsDecodeAsEncoded : Obligations.ArrivalsDecodeAsEncoded := by
  refine ⟨fun f => Frame.ofBytes_bytes, fun i address waiting port f hwell hroom harrival hother => ?_⟩
  cases i with
  | cycleFrameArrival dst src number slots =>
    cases harrival
    have hslots : 1 ≤ slots.length ∧ slots.length ≤ 48 := of_decide_eq_true hwell
    rw [arrivalCommand_bytes (by rw [length_body_cycleFrame]; omega) (bodyPasses_cycleFrame dst src number hslots)]
    exact lineCommand_cycleFrame dst src number address waiting
  | feedbackFrameArrival dst src number speed torque status tag =>
    cases harrival
    rw [arrivalCommand_bytes (by simp [feedbackFrame, be16, be24]) rfl]
    exact driveCommand_feedbackFrame dst src number speed torque status tag
  | frameForwarded port' f' =>
    cases harrival
    refine arrivalCommand_forwarded hwell (fun hline => ?_) waiting
    subst hline
    exact hother f rfl
  | _ => exact arrivalCommand_requestFrame hwell hroom harrival

end Sys2Proof.Proofs
end
